-- ==== Sys2Proof/Word.lean ====
section
/-! DEFINITION. The word types of the FUR block (00_scope.md R10, R11). -/

namespace Sys2Proof

/-- A byte of a buffer space (20_memory.md R60). -/
abbrev Byte := BitVec 8

/-- `bytes`: a finite sequence of bytes, byte 0 first (00_scope.md R10, R11). -/
abbrev Bytes := List Byte

/-- `u32` (00_scope.md R10). -/
abbrev U32 := BitVec 32

/-- `u64` (00_scope.md R10). -/
abbrev U64 := BitVec 64

/-- `f64`, carried as its 64-bit IEEE 754 binary64 pattern, sign bit first (30_encoding.md R102). -/
abbrev F64 := BitVec 64

end Sys2Proof
end

