-- ==== Sys2Proof/Config.lean ====
section
/-! DEFINITION. The deployment record `Cfg` (00_scope.md R8, R9, 93_implementation_defined.md section 1.4), the functions that
a deployment other than the spec's own may bring, and the free values: nothing in Lean can evaluate either. -/

namespace Sys2Proof

/-- `USIZE_BITS`: 32 or 64, chosen by the deployment (00_scope.md R8, 92_eei_decisions.md D3). -/
inductive UsizeWidth
  | w32
  | w64
  deriving DecidableEq, Repr

/-- The number of bits of a `usize`. -/
def UsizeWidth.bits : UsizeWidth → Nat
  | .w32 => 32
  | .w64 => 64

/-- The largest `usize`, `2^USIZE_BITS - 1` (44_decoder.md R202). -/
def UsizeWidth.maxValue (w : UsizeWidth) : Nat := 2 ^ w.bits - 1

/-- Which function a parameter of 00_scope.md R8 that is a function stands for (R9): the one this spec gives it, or
another, known by a number alone (log 17). -/
inductive Collaborator
  | standard
  | other (k : Nat)
  deriving DecidableEq, Repr

/-- Which entries a word table of 00_scope.md R8 has, entry `b` for byte value `b`: the ones this spec gives it, or the ones of
a list (log 17). -/
inductive WordTable
  | standard
  | given (entries : List Bytes)
  deriving DecidableEq, Repr

/-- The parameters of the deployment (00_scope.md R8). A capacity is a number, or `none` for "no limit". They are fixed for
the machine: no operation writes them. -/
structure Cfg where
  usize : UsizeWidth
  msgCap : Option Nat
  maxFragments : Option Nat
  fragCap : Option Nat
  queueCap : Option Nat
  mixedCap : Option Nat
  smpCap : Option Nat
  reducePendingByNew : Bool
  crc32 : Collaborator
  sha256 : Collaborator
  bw4 : WordTable
  bw2 : WordTable
  binary64 : Collaborator
  deriving DecidableEq, Repr

/-- The growable deployment: every capacity "no limit", `DEC_REDUCE_PENDING_BY_NEW = true`, and the values this spec gives
the collaborators, the tables and the arithmetic (00_scope.md R8). -/
def Cfg.growable (w : UsizeWidth) : Cfg where
  usize := w
  msgCap := none
  maxFragments := none
  fragCap := none
  queueCap := none
  mixedCap := none
  smpCap := none
  reducePendingByNew := true
  crc32 := .standard
  sha256 := .standard
  bw4 := .standard
  bw2 := .standard
  binary64 := .standard

/-- A capacity is "a natural number at least 1, or unbounded" (93_implementation_defined.md section 1.4). -/
abbrev capacityOk (cap : Option Nat) : Prop := cap ≠ some 0

/-- The parameters of the host's framing layer, which is outside the block (47_host_framing.md): the host's fixed buffer for a
type string (R278, `URTypeTooBig`), its own scratch buffer, which "may" bound a fragment (R278), and the codec of a part's
binary form (R270, R273, 00_scope.md R9). The spec gives no value for the two capacities (log 26); `none` is "no limit". -/
structure HostCfg where
  typeCap : Option Nat
  scratchCap : Option Nat
  codec : Collaborator
  deriving DecidableEq, Repr

/-- A growable host with CBOR as its codec (47_host_framing.md R271, R278). -/
def HostCfg.growable : HostCfg where
  typeCap := none
  scratchCap := none
  codec := .standard

/-- `crc32` of the deployment with another function, `bytes -> u32` (00_scope.md R8, R9; log 17). -/
opaque Config.otherCrc32 : Nat → Bytes → U32

/-- `sha256` of the deployment with another function, its 32 bytes as one word (00_scope.md R8, R9; log 17). -/
opaque Config.otherSha256 : Nat → Bytes → BitVec 256

/-- `u64_to_f` of a deployment with another arithmetic (00_scope.md R8; log 17). -/
opaque Config.otherU64ToF : Nat → Nat → F64

/-- `add_f` of a deployment with another arithmetic (00_scope.md R8; log 17). -/
opaque Config.otherAddF : Nat → F64 → F64 → F64

/-- `sub_f` of a deployment with another arithmetic (00_scope.md R8; log 17). -/
opaque Config.otherSubF : Nat → F64 → F64 → F64

/-- `mul_f` of a deployment with another arithmetic (00_scope.md R8; log 17). -/
opaque Config.otherMulF : Nat → F64 → F64 → F64

/-- `div_f` of a deployment with another arithmetic (00_scope.md R8; log 17). -/
opaque Config.otherDivF : Nat → F64 → F64 → F64

/-- `lt_f` of a deployment with another arithmetic (00_scope.md R8; log 17). -/
opaque Config.otherLtF : Nat → F64 → F64 → Bool

/-- `f_to_u64` of a deployment with another arithmetic (00_scope.md R8; log 17). -/
opaque Config.otherFToNat : Nat → F64 → Nat

/-- Free value: the field `dec_resolved` of `SYS.STATUS` in state `Failed`, "unspecified" (46_system.md R262),
one for each entry into `Failed` (log 7). -/
opaque Config.failedResolved : Nat → Nat

/-- Free value: the field `dec_pending` of `SYS.STATUS` in state `Failed`, "unspecified" (46_system.md R262; log 7). -/
opaque Config.failedPending : Nat → Nat

/-- Free value: the 32 bytes of the digest, as one word, of an input whose length in bits is no 64-bit number,
for which `be64(bits)` has no value (48_collaborators.md R300; log 11). -/
opaque Config.overlongDigest : Bytes → BitVec 256

end Sys2Proof
end

