-- ==== Sys2Proof/Syntax.lean ====
section
/-! DEFINITION. The operations of the block (30_encoding.md R91), one constructor for each row of
spec/opcode_table.json, and the records a request brings (30_encoding.md R92). The command word holds no operand
(R93), so a constructor has no argument: the operands stand in the operand record, space `OPR`. -/

namespace Sys2Proof

/-- The operations of 30_encoding.md R91, in the table's order. -/
inductive Instr
  | sysReset
  | sysStatus
  | prngSeedBytes
  | prngSeedStr
  | prngSeedDigest
  | prngNext
  | prngNextDouble
  | prngNextInt
  | smpSetup
  | smpNext
  | chsChoose
  | encStart
  | encNextPart
  | encSeqCount
  | encIsComplete
  | decReceive
  | decMessage
  | decIsComplete
  | decPercent
  | decClear
  | bwdEncodeStandard
  | bwdEncodeUri
  | bwdEncodeMinimal
  | bwdDecodeStandard
  | bwdDecodeUri
  | bwdDecodeMinimal
  deriving DecidableEq, Repr

/-- The three text styles of the bytewords unit (30_encoding.md R104). -/
inductive Style
  | standard
  | uri
  | minimal
  deriving DecidableEq, Repr

/-- The operand `part` as the host presents it: five fields, the four integers as the numbers they are
(30_encoding.md R97). Whether they fit `u32` and `usize` is checked, not assumed (R94, 47_host_framing.md R273). -/
structure RawPart where
  sequence : Nat
  sequenceCount : Nat
  messageLength : Nat
  checksum : Nat
  data : Bytes
  deriving DecidableEq, Repr

/-- An operand record as the host presents it: one constructor for each list of operand fields of
30_encoding.md R91, with integers as the numbers they are; `malformed` is every record whose fields are those of no
operation (R94; log 3). -/
inductive OperandRecord
  | empty
  | seed (seed : Bytes)
  | digest (digest : Bytes)
  | range (low high : Nat)
  | weights (weights : List F64)
  | choice (sequence sequenceCount checksum : Nat)
  | start (message : Bytes) (maxFragmentLength : Nat)
  | part (part : RawPart)
  | payload (payload : Bytes)
  | text (text : Bytes)
  | malformed
  deriving DecidableEq, Repr

/-- One request of the host: the 8-bit command word and the operand record (00_scope.md R15, 30_encoding.md R90, R92). -/
structure Request where
  cmd : Byte
  operands : OperandRecord
  deriving DecidableEq, Repr

end Sys2Proof
end

