-- ==== Sys2Proof/WellFormed.lean ====
section
/-! DEFINITION. When an operand record has the operand types of an operation (30_encoding.md R91, R94). Every
constructor of `Instr` is a row of the table, so well-formedness is a matter of the record alone. -/

namespace Sys2Proof

/-- A `u32` field holds a number below 2^32 (30_encoding.md R92). -/
abbrev fitsU32 (n : Nat) : Bool := decide (n < 2 ^ 32)

/-- A `u64` field holds a number below 2^64 (30_encoding.md R92). -/
abbrev fitsU64 (n : Nat) : Bool := decide (n < 2 ^ 64)

/-- A `usize` field holds a number of `USIZE_BITS` bits (00_scope.md R10). -/
abbrev fitsUsize (w : UsizeWidth) (n : Nat) : Bool := decide (n < 2 ^ w.bits)

/-- The five fields of a part have the types of 30_encoding.md R97. -/
def RawPart.wellFormed (w : UsizeWidth) (p : RawPart) : Bool :=
  fitsU32 p.sequence && fitsU32 p.sequenceCount && fitsUsize w p.messageLength && fitsU32 p.checksum

/-- The record has exactly the operand fields of the operation, each of its type (30_encoding.md R91, R94;
93_implementation_defined.md section 1.1: "an operand record has exactly the fields its operation lists"). -/
def OperandRecord.wellFormedFor (w : UsizeWidth) (r : OperandRecord) (i : Instr) : Bool :=
  match i, r with
  | .sysReset, .empty => true
  | .sysStatus, .empty => true
  | .prngSeedBytes, .seed _ => true
  | .prngSeedStr, .seed _ => true
  | .prngSeedDigest, .digest d => d.length == 32
  | .prngNext, .empty => true
  | .prngNextDouble, .empty => true
  | .prngNextInt, .range low high => fitsU64 low && fitsU64 high
  | .smpSetup, .weights _ => true
  | .smpNext, .empty => true
  | .chsChoose, .choice sequence count checksum => fitsU32 sequence && fitsUsize w count && fitsU32 checksum
  | .encStart, .start _ limit => fitsUsize w limit
  | .encNextPart, .empty => true
  | .encSeqCount, .empty => true
  | .encIsComplete, .empty => true
  | .decReceive, .part p => p.wellFormed w
  | .decMessage, .empty => true
  | .decIsComplete, .empty => true
  | .decPercent, .empty => true
  | .decClear, .empty => true
  | .bwdEncodeStandard, .payload _ => true
  | .bwdEncodeUri, .payload _ => true
  | .bwdEncodeMinimal, .payload _ => true
  | .bwdDecodeStandard, .text _ => true
  | .bwdDecodeUri, .text _ => true
  | .bwdDecodeMinimal, .text _ => true
  | _, _ => false

end Sys2Proof
end

