-- ==== Sys2Proof/Decode.lean ====
section
/-! DEFINITION. The command word (30_encoding.md R90, R91, R94): the decoder, total on every byte and rejecting by
name, and after it the encoder. -/

namespace Sys2Proof

/-- Why a command word is no operation (30_encoding.md R94). -/
inductive DecodeReject
  /-- `cmd[7:4]` is 7 to 15. -/
  | reservedUnit
  /-- `cmd[3:0]` is no function of a unit 0 to 5, or `cmd[3]` is 1 in unit 6. -/
  | unassignedFunction
  /-- `cmd[1:0]` is 3 in unit 6 (`0x63`, `0x67`). -/
  | reservedStyle
  deriving DecidableEq, Repr

/-- `cmd[7:4]` (30_encoding.md R90). -/
def unitField (cmd : Byte) : BitVec 4 := cmd.extractLsb' 4 4

/-- `cmd[3:0]` (30_encoding.md R90). -/
def functionField (cmd : Byte) : BitVec 4 := cmd.extractLsb' 0 4

/-- `cmd[2]`, the direction of the bytewords unit: 0 encode, 1 decode (30_encoding.md R90). -/
def directionField (cmd : Byte) : Bool := cmd.getLsbD 2

/-- `cmd[1:0]`, the style field of the bytewords unit (30_encoding.md R90). -/
def styleField (cmd : Byte) : BitVec 2 := cmd.extractLsb' 0 2

/-- Units 0 to 5 by their function field (30_encoding.md R91). -/
def decodePlain (unit : Nat) (fn : Nat) : Except DecodeReject Instr :=
  match unit, fn with
  | 0, 0 => .ok .sysReset
  | 0, 1 => .ok .sysStatus
  | 1, 0 => .ok .prngSeedBytes
  | 1, 1 => .ok .prngSeedStr
  | 1, 2 => .ok .prngSeedDigest
  | 1, 3 => .ok .prngNext
  | 1, 4 => .ok .prngNextDouble
  | 1, 5 => .ok .prngNextInt
  | 2, 0 => .ok .smpSetup
  | 2, 1 => .ok .smpNext
  | 3, 0 => .ok .chsChoose
  | 4, 0 => .ok .encStart
  | 4, 1 => .ok .encNextPart
  | 4, 2 => .ok .encSeqCount
  | 4, 3 => .ok .encIsComplete
  | 5, 0 => .ok .decReceive
  | 5, 1 => .ok .decMessage
  | 5, 2 => .ok .decIsComplete
  | 5, 3 => .ok .decPercent
  | 5, 4 => .ok .decClear
  | _, _ => .error .unassignedFunction

/-- Unit 6, whose function field is 0, direction, style (30_encoding.md R90). -/
def decodeBytewords (cmd : Byte) : Except DecodeReject Instr :=
  if cmd.getLsbD 3 then .error .unassignedFunction
  else
    match directionField cmd, (styleField cmd).toNat with
    | false, 0 => .ok .bwdEncodeStandard
    | false, 1 => .ok .bwdEncodeUri
    | false, 2 => .ok .bwdEncodeMinimal
    | true, 0 => .ok .bwdDecodeStandard
    | true, 1 => .ok .bwdDecodeUri
    | true, 2 => .ok .bwdDecodeMinimal
    | _, _ => .error .reservedStyle

/-- The decoder of the command word (30_encoding.md R90, R91, R94). -/
def decode (cmd : Byte) : Except DecodeReject Instr :=
  let unit := (unitField cmd).toNat
  if unit < 6 then decodePlain unit (functionField cmd).toNat
  else if unit = 6 then decodeBytewords cmd
  else .error .reservedUnit

/-- The instruction the decoder reads from a table word: one byte, bit 0 its least significant bit (30_encoding.md
R90, R95: "There is one length and one format"). -/
def decodeTableWord (nbits w : Nat) : Option Instr :=
  if nbits ≤ 8 ∧ w < 2 ^ 8 then
    match decode (BitVec.ofNat 8 w) with
    | .ok i => some i
    | .error _ => none
  else none

/-- The command word with unit `u` and function `f` (30_encoding.md R90). -/
def commandWord (u f : BitVec 4) : Byte := u ++ f

/-- The function field of the bytewords unit: 0, direction, style (30_encoding.md R90). -/
def bytewordsFunction (decoding : Bool) (style : Style) : BitVec 4 :=
  let code : BitVec 2 :=
    match style with
    | .standard => 0
    | .uri => 1
    | .minimal => 2
  (0 : BitVec 1) ++ BitVec.ofBool decoding ++ code

/-- The encoder: the command word of an operation, from the columns of 30_encoding.md R90 and R91. -/
def encode : Instr → Byte
  | .sysReset => commandWord 0 0
  | .sysStatus => commandWord 0 1
  | .prngSeedBytes => commandWord 1 0
  | .prngSeedStr => commandWord 1 1
  | .prngSeedDigest => commandWord 1 2
  | .prngNext => commandWord 1 3
  | .prngNextDouble => commandWord 1 4
  | .prngNextInt => commandWord 1 5
  | .smpSetup => commandWord 2 0
  | .smpNext => commandWord 2 1
  | .chsChoose => commandWord 3 0
  | .encStart => commandWord 4 0
  | .encNextPart => commandWord 4 1
  | .encSeqCount => commandWord 4 2
  | .encIsComplete => commandWord 4 3
  | .decReceive => commandWord 5 0
  | .decMessage => commandWord 5 1
  | .decIsComplete => commandWord 5 2
  | .decPercent => commandWord 5 3
  | .decClear => commandWord 5 4
  | .bwdEncodeStandard => commandWord 6 (bytewordsFunction false .standard)
  | .bwdEncodeUri => commandWord 6 (bytewordsFunction false .uri)
  | .bwdEncodeMinimal => commandWord 6 (bytewordsFunction false .minimal)
  | .bwdDecodeStandard => commandWord 6 (bytewordsFunction true .standard)
  | .bwdDecodeUri => commandWord 6 (bytewordsFunction true .uri)
  | .bwdDecodeMinimal => commandWord 6 (bytewordsFunction true .minimal)

/-- The operand record of an operation with every field zero: integers 0, byte strings and lists empty, a digest of
32 zero bytes (log 4). It is what "operand words of zeros" means on this block. -/
def zeroOperands : Instr → OperandRecord
  | .sysReset | .sysStatus | .prngNext | .prngNextDouble | .smpNext => .empty
  | .encNextPart | .encSeqCount | .encIsComplete => .empty
  | .decMessage | .decIsComplete | .decPercent | .decClear => .empty
  | .prngSeedBytes | .prngSeedStr => .seed []
  | .prngSeedDigest => .digest (List.replicate 32 0)
  | .prngNextInt => .range 0 0
  | .smpSetup => .weights []
  | .chsChoose => .choice 0 0 0
  | .encStart => .start [] 0
  | .decReceive => .part ⟨0, 0, 0, 0, []⟩
  | .bwdEncodeStandard | .bwdEncodeUri | .bwdEncodeMinimal => .payload []
  | .bwdDecodeStandard | .bwdDecodeUri | .bwdDecodeMinimal => .text []

end Sys2Proof
end

