-- ==== Sys2Proof/Machine/State.lean ====
section
/-! DEFINITION. The state of the block as plain data (10_state.md R20 to R55), its result records
(30_encoding.md R92, 60_exceptions.md R331 to R333) and the reasons the model itself can stop. -/

namespace Sys2Proof.Machine

/-- The four state words of the generator, `prng.s[0..3]` (10_state.md R21). -/
structure PrngWords where
  s0 : U64
  s1 : U64
  s2 : U64
  s3 : U64
  deriving DecidableEq, Repr

/-- One entry of the sampler's tables: `smp.prob[i]` and `smp.alias[i]` (10_state.md R39). -/
structure AliasEntry where
  prob : F64
  alternative : Nat
  deriving DecidableEq, Repr

/-- The sampler's tables (10_state.md R39): entry `i` holds `smp.prob[i]` and `smp.alias[i]`. -/
structure AliasTables where
  entries : List AliasEntry
  deriving DecidableEq, Repr

/-- `smp.n`, the number of table entries (10_state.md R20; log 18). -/
def AliasTables.n (t : AliasTables) : Nat := t.entries.length

/-- The table `smp.prob[0..n-1]` (10_state.md R39). -/
def AliasTables.prob (t : AliasTables) : List F64 := t.entries.map AliasEntry.prob

/-- The table `smp.alias[0..n-1]` (10_state.md R39). -/
def AliasTables.aliases (t : AliasTables) : List Nat := t.entries.map AliasEntry.alternative

/-- The encoder's state once a message is bound (10_state.md R26 to R30). `scratch` is the space `SCR`: absent
until the first `ENC.NEXT_PART` after a start has written it (R30, 70_reset_and_hazards.md R372; log 6). -/
structure Encoder where
  message : Bytes
  fragmentLength : Nat
  checksum : U32
  currentSequence : U32
  allEmitted : Bool
  scratch : Option Bytes
  deriving DecidableEq, Repr

/-- `enc.message_length`, the length of the space `MSG` (10_state.md R20; log 18). -/
def Encoder.messageLength (e : Encoder) : Nat := e.message.length

/-- `MessageDescription` (10_state.md R34). -/
structure MessageDescription where
  sequenceCount : Nat
  messageLength : Nat
  checksum : U32
  fragmentLength : Nat
  deriving DecidableEq, Repr

/-- `IndexedPart` (10_state.md R35). `indexes` is a set, held as the rising list of its elements (log 14). -/
structure IndexedPart where
  indexes : List Nat
  data : Bytes
  deriving DecidableEq, Repr

/-- What the decoder holds once a first part has been accepted (10_state.md R32 to R37): the description, the
message buffer `DBUF`, the set of resolved indices as a rising list, the FIFO head first, and the list of pending
mixed parts in order of insertion. -/
structure Assembly where
  desc : MessageDescription
  buf : Bytes
  resolved : List Nat
  fifo : List IndexedPart
  mixed : List IndexedPart
  deriving DecidableEq, Repr

/-- Which bounded list overflowed (60_exceptions.md R332, `QueueFull`). -/
inductive QueueName
  | fifo
  | mixed
  deriving DecidableEq, Repr

/-- The class (c) errors of the decoder, with their payloads (60_exceptions.md R331, R332). -/
inductive CapacityError
  | notEnoughSpace (needed capacity : Nat)
  | tooManyFragments
  | fragmentTooBig
  | queueFull (which : QueueName) (capacity : Nat)
  deriving DecidableEq, Repr

/-- The decoder (10_state.md R31): its four states, each with what the decoder holds in it. In `Empty` the
description and the buffer do not exist (R32, R34); in `Failed` only `dec.fail` can be read (44_decoder.md R221;
log 7). -/
inductive Decoder
  | empty
  | accumulating (a : Assembly)
  | complete (a : Assembly)
  | failed (e : CapacityError)
  deriving DecidableEq, Repr

/-- The values of `dec.state` (10_state.md R31). -/
inductive DecoderState
  | empty
  | accumulating
  | complete
  | failed
  deriving DecidableEq, Repr

/-- The fault codes, class (a) (60_exceptions.md R333). These are values of the register `sys.fault`, not stops of
the model. -/
inductive FaultCode
  | illegalCommand
  | prngNotSeeded
  | badIntRange
  | arithmeticOverflow
  | emptyWeights
  | negativeWeight
  | zeroWeights
  | samplerNotSetUp
  | samplerIndexOutOfRange
  | chooserPrecondition
  | emptyMessage
  | zeroMaxFragmentLength
  | encoderNotStarted
  | messageLengthExceedsBuffer
  | capacityOverflow
  deriving DecidableEq, Repr

/-- The `Err` outcomes, classes (b) and (c), with their payloads (60_exceptions.md R331, R332). -/
inductive ErrorInfo
  | invalidPart
  | inconsistentPart (received expected : MessageDescription)
  | invalidPadding
  | nonAscii
  | invalidLength
  | invalidWord (position : Nat)
  | checksumNotPresent
  | invalidChecksum (expected calculated : U32)
  | capacity (e : CapacityError)
  deriving DecidableEq, Repr

/-- A part as a typed record (30_encoding.md R97): `sequence` and `checksum` are `u32` words, the two counts are
naturals (00_scope.md R10). -/
structure Part where
  sequence : U32
  sequenceCount : Nat
  messageLength : Nat
  checksum : U32
  data : Bytes
  deriving DecidableEq, Repr

/-- The record of `SYS.STATUS` (46_system.md R262). -/
structure StatusRecord where
  fault : Option FaultCode
  prngSeeded : Bool
  smpValid : Bool
  smpN : Nat
  encStarted : Bool
  encSequence : U32
  encAllEmitted : Bool
  decState : DecoderState
  decResolved : Nat
  decPending : Nat
  decFail : Option CapacityError
  deriving DecidableEq, Repr

/-- The result fields of an operation that ends in `OK` (30_encoding.md R91, column "result"). -/
inductive OkFields
  | none
  | status (record : StatusRecord)
  | u64 (value : U64)
  | f64 (value : F64)
  | index (index : Nat)
  | indexes (indexes : List Nat)
  | part (part : Part)
  | count (count : Nat)
  | flag (flag : Bool)
  | more (more : Bool)
  | message (message : Option Bytes)
  | text (text : Bytes)
  | payload (payload : Bytes)
  deriving DecidableEq, Repr

/-- A result record: exactly one of the three outcomes of an operation (00_scope.md R14, 30_encoding.md R92). -/
inductive Reply
  | ok (fields : OkFields)
  | err (error : ErrorInfo)
  | fault (code : FaultCode)
  deriving DecidableEq, Repr

/-- The block's byte-addressed spaces that an operation indexes (20_memory.md R60). -/
inductive Space
  | msg
  | scr
  | dbuf
  deriving DecidableEq, Repr

/-- The state of the model. The units' fields are 10_state.md R20's; a unit that "holds no value" (R22, R39, R55) is
absent. `cfg` is the deployment (00_scope.md R8), `opr` and `res` the spaces `OPR` and `RES` (20_memory.md R60),
`issue` the operations the host has still to issue (46_system.md R265; log 2), and `freeIndex` the model's own index of
free values (log 7). -/
structure State where
  cfg : Cfg
  sysFault : Option FaultCode
  prng : Option PrngWords
  smp : Option AliasTables
  enc : Option Encoder
  dec : Decoder
  opr : OperandRecord
  res : Option Reply
  issue : List Request
  freeIndex : Nat
  deriving DecidableEq, Repr

/-- The reasons the model stops. A fault of the block itself is no stop: it is a next state (60_exceptions.md R346). -/
inductive Fault
  /-- Raised by `DEC.RECEIVE` when it would access `DBUF` outside its bytes. The spec says no operation does
  (20_memory.md R73, R63); it can happen only in a state no run reaches. Safe: the model stops. -/
  | outsideSpace (space : Space)
  deriving DecidableEq, Repr

/-- The reasons the model gives an instruction no meaning. -/
inductive Refusal
  /-- Raised by an arm of `exec` whose instruction has no meaning yet. Safe: the model stops. No arm does. -/
  | notModelled (mnemonic : String)
  deriving DecidableEq, Repr

/-- The state after power-on (10_state.md R55, 70_reset_and_hazards.md R370): no fault held, no generator seeded, no
tables built, encoder not started, decoder `Empty`. The deployment is the growable one with 64-bit `usize` (DESIGN
CHOICE, log 1); the host has issued nothing (log 2); no result has been delivered and the operand record is empty
(log 19). -/
def State.reset : State where
  cfg := Cfg.growable .w64
  sysFault := none
  prng := none
  smp := none
  enc := none
  dec := .empty
  opr := .empty
  res := none
  issue := []
  freeIndex := 0

end Sys2Proof.Machine
end

