-- ==== Sys2Proof/Machine/Ops.lean ====
section
/-! DEFINITION. The operations every unit shares: delivering a result, raising a fault and the reset that recovers
from one, the gate of a held fault and of the operand record, and the access primitives of the byte spaces. -/

namespace Sys2Proof.Machine

/-- What an operation answers. -/
abbrev StepOutcome := Host.Outcome State Fault Refusal

/-- Deliver a result record in the space `RES` (30_encoding.md R92). -/
def State.reply (s : State) (r : Reply) : State := { s with res := some r }

/-- Write the generator, `prng.seeded` and `prng.s` (10_state.md R22). -/
def State.withPrng (s : State) (p : Option PrngWords) : State := { s with prng := p }

/-- Write the sampler's tables, `smp.valid` with them (10_state.md R39). -/
def State.withSmp (s : State) (t : Option AliasTables) : State := { s with smp := t }

/-- Write the encoder, `enc.started` with it (10_state.md R26). -/
def State.withEnc (s : State) (e : Option Encoder) : State := { s with enc := e }

/-- Write the decoder (10_state.md R31). -/
def State.withDec (s : State) (d : Decoder) : State := { s with dec := d }

/-- Hand an operand record over in the space `OPR` and leave the operations after it (30_encoding.md R92). -/
def State.present (s : State) (r : OperandRecord) (rest : List Request) : State :=
  { s with opr := r, issue := rest }

/-- `return Ok(v)` (00_scope.md R14). -/
def State.answer (s : State) (v : OkFields) : StepOutcome := .next (s.reply (.ok v))

/-- `return Err(E, info)` (00_scope.md R14, 60_exceptions.md R345): no state element changes. -/
def State.answerErr (s : State) (e : ErrorInfo) : StepOutcome := .next (s.reply (.err e))

/-- The register `sys.fault` after `raise Fault(f)`: `f` if it held none (10_state.md R50). -/
def heldFault (held : Option FaultCode) (f : FaultCode) : Option FaultCode :=
  match held with
  | none => some f
  | some g => some g

/-- Taking a fault, `raise Fault(f)`: the sticky register, then the result `FAULT f`; nothing else is saved and every
other element keeps the value it had (10_state.md R50, 46_system.md R261, 60_exceptions.md R346). -/
def State.raise (s : State) (f : FaultCode) : State :=
  { s with sysFault := heldFault s.sysFault f }.reply (.fault f)

/-- The way back from a fault, which is also the reset of the block: every state element at its value of
10_state.md R55 (46_system.md R260, 60_exceptions.md R348). The deployment, the host's issue list, the operand record and
the model's free-value index are no state elements of R20 and stay (log 20). -/
def State.resetBlock (s : State) : State :=
  { s with sysFault := none, prng := none, smp := none, enc := none, dec := .empty }

/-- `fail_with(e)`: the decoder goes to `Failed` and the error is its result (44_decoder.md R202). What the decoder
held is no longer observable (R221); the counts `SYS.STATUS` shows from now on are fresh free values (log 7). -/
def State.failWith (s : State) (e : CapacityError) : StepOutcome :=
  .next ({ s with dec := .failed e, freeIndex := s.freeIndex + 1 }.reply (.err (.capacity e)))

/-- The gate of 46_system.md R261, lines 2 to 4, for one operation of the table: a held fault answers; then an operand
record without the operation's types raises `IllegalCommand`; then the operation's rule runs on its operands. -/
def execute {α : Type} (s : State) (operands : Option α) (rule : α → StepOutcome) : StepOutcome :=
  match s.sysFault with
  | some f => .next (s.reply (.fault f))
  | none =>
    match operands with
    | none => .next (s.raise .illegalCommand)
    | some a => rule a

/-- Whether `n` is above a capacity; "no limit" is never exceeded (00_scope.md R8). -/
def exceeds (cap : Option Nat) (n : Nat) : Bool :=
  match cap with
  | none => false
  | some c => decide (c < n)

/-- `ceil_div(a, b)` for `b >= 1` (00_scope.md R12). -/
def ceilDiv (a b : Nat) : Nat := (a + b - 1) / b

/-- `MemRead(space, addr, n)` on a byte space, `none` outside it (00_scope.md R13, 20_memory.md R73). -/
def memRead (space : Bytes) (addr n : Nat) : Option Bytes :=
  if addr + n ≤ space.length then some ((space.drop addr).take n) else none

/-- `MemWrite(space, addr, len(v), v)` on a byte space, `none` outside it (00_scope.md R13, 20_memory.md R63, R73). -/
def memWrite (space : Bytes) (addr : Nat) (v : Bytes) : Option Bytes :=
  if addr + v.length ≤ space.length then some (space.take addr ++ v ++ space.drop (addr + v.length)) else none

/-- `^` on byte strings: byte by byte (00_scope.md R12). -/
def xorBytes (a b : Bytes) : Bytes := List.zipWith (· ^^^ ·) a b

/-- `n` bytes of `0x00`. -/
def zeroBytes (n : Nat) : Bytes := List.replicate n 0

/-- `be32(v)`: most significant byte first (00_scope.md R11). -/
def be32 (v : U32) : Bytes := [v.extractLsb' 24 8, v.extractLsb' 16 8, v.extractLsb' 8 8, v.extractLsb' 0 8]

/-- `be64(v)`: most significant byte first (00_scope.md R11). -/
def be64 (v : U64) : Bytes := be32 (v.extractLsb' 32 32) ++ be32 (v.extractLsb' 0 32)

/-- The number a byte string reads as, most significant byte first (00_scope.md R11). -/
def beNat (b : Bytes) : Nat := b.foldl (fun acc x => 256 * acc + x.toNat) 0

/-- `be32_read(b)` of a 4-byte string (45_bytewords.md R242). -/
def be32Read (b : Bytes) : U32 := BitVec.ofNat 32 (beNat b)

/-- `be64_read(b)` of an 8-byte string (00_scope.md R11). -/
def be64Read (b : Bytes) : U64 := BitVec.ofNat 64 (beNat b)

/-- Put `i` into a set held as a rising list (log 14). -/
def insertIndex (i : Nat) : List Nat → List Nat
  | [] => [i]
  | j :: rest => if i < j then i :: j :: rest else if i = j then j :: rest else j :: insertIndex i rest

/-- The set of the numbers of a list, as a rising list (log 14). -/
def toIndexSet (l : List Nat) : List Nat := l.foldr insertIndex []

/-- The 8-bit number of a fault code (60_exceptions.md R333). -/
def FaultCode.code : FaultCode → Byte
  | .illegalCommand => 0x80
  | .prngNotSeeded => 0x81
  | .badIntRange => 0x82
  | .arithmeticOverflow => 0x83
  | .emptyWeights => 0x84
  | .negativeWeight => 0x85
  | .zeroWeights => 0x86
  | .samplerNotSetUp => 0x87
  | .samplerIndexOutOfRange => 0x88
  | .chooserPrecondition => 0x89
  | .emptyMessage => 0x8A
  | .zeroMaxFragmentLength => 0x8B
  | .encoderNotStarted => 0x8C
  | .messageLengthExceedsBuffer => 0x8D
  | .capacityOverflow => 0x8E

/-- The 8-bit status of a capacity error (60_exceptions.md R331). -/
def CapacityError.status : CapacityError → Byte
  | .notEnoughSpace _ _ => 0x40
  | .tooManyFragments => 0x41
  | .fragmentTooBig => 0x42
  | .queueFull _ _ => 0x45

/-- The 8-bit status of an error (60_exceptions.md R331). -/
def ErrorInfo.status : ErrorInfo → Byte
  | .invalidPart => 0x10
  | .inconsistentPart _ _ => 0x11
  | .invalidPadding => 0x12
  | .nonAscii => 0x20
  | .invalidLength => 0x21
  | .invalidWord _ => 0x22
  | .checksumNotPresent => 0x23
  | .invalidChecksum _ _ => 0x24
  | .capacity e => e.status

/-- The field `status` of a result record (30_encoding.md R92, 60_exceptions.md R331). -/
def Reply.status : Reply → Byte
  | .ok _ => 0x00
  | .err e => e.status
  | .fault _ => 0xFF

end Sys2Proof.Machine
end

