-- ==== Sys2Proof/Machine/Crc32.lean ====
section
/-! DEFINITION. The collaborator `crc32` (48_collaborators.md R310 to R312). -/

namespace Sys2Proof.Machine

/-- One bit of the division: shift right, and add the reflected polynomial if a one fell out (48_collaborators.md R310). -/
def crcBit (c : U32) : U32 := if c.getLsbD 0 then (c >>> 1) ^^^ 0xEDB88320 else c >>> 1

/-- `k` bits of the division. -/
def crcBits : Nat → U32 → U32
  | 0, c => c
  | k + 1, c => crcBits k (crcBit c)

/-- One byte: into the low 8 bits, then 8 bits of the division (48_collaborators.md R310). -/
def crcByte (c : U32) (x : Byte) : U32 := crcBits 8 (c ^^^ x.setWidth 32)

/-- `crc32(m)` (48_collaborators.md R310). -/
def crc32 (m : Bytes) : U32 := m.foldl crcByte 0xFFFFFFFF ^^^ 0xFFFFFFFF

end Sys2Proof.Machine

namespace Sys2Proof

/-- `crc32(m)` of the deployment (00_scope.md R8, R9). -/
def Cfg.crc32Of (cfg : Cfg) (m : Bytes) : U32 :=
  match cfg.crc32 with
  | .standard => Machine.crc32 m
  | .other k => Config.otherCrc32 k m

end Sys2Proof
end

