-- ==== Sys2Proof/Machine/Operands.lean ====
section
/-! DEFINITION. Reading an operand record as the operands of an operation (30_encoding.md R91 to R94): one reader for each
list of operand fields, `none` where the record does not have those fields with those types. -/

namespace Sys2Proof.Machine

/-- The operands of `CHS.CHOOSE` (30_encoding.md R91). -/
structure ChoiceOperands where
  sequence : U32
  sequenceCount : Nat
  checksum : U32
  deriving DecidableEq, Repr

/-- The operands of `PRNG.NEXT_INT`, two numbers below 2^64 (30_encoding.md R91). -/
structure RangeOperands where
  low : Nat
  high : Nat
  deriving DecidableEq, Repr

/-- The operands of `ENC.START` (30_encoding.md R91). -/
structure StartOperands where
  message : Bytes
  maxFragmentLength : Nat
  deriving DecidableEq, Repr

/-- No operand. -/
def noOperands : OperandRecord → Option Unit
  | .empty => some ()
  | _ => none

/-- `seed: bytes`. -/
def seedOperand : OperandRecord → Option Bytes
  | .seed b => some b
  | _ => none

/-- `digest: bytes` of length 32 (30_encoding.md R94, 40_prng.md R133). -/
def digestOperand : OperandRecord → Option Bytes
  | .digest d => if d.length = 32 then some d else none
  | _ => none

/-- `low: u64`, `high: u64`. -/
def rangeOperands : OperandRecord → Option RangeOperands
  | .range low high => if low < 2 ^ 64 ∧ high < 2 ^ 64 then some ⟨low, high⟩ else none
  | _ => none

/-- `weights: list of f64`. -/
def weightsOperand : OperandRecord → Option (List F64)
  | .weights ws => some ws
  | _ => none

/-- `sequence: u32`, `sequence_count: usize`, `checksum: u32`. -/
def choiceOperands (w : UsizeWidth) : OperandRecord → Option ChoiceOperands
  | .choice sequence count checksum =>
    if sequence < 2 ^ 32 ∧ count < 2 ^ w.bits ∧ checksum < 2 ^ 32 then
      some ⟨BitVec.ofNat 32 sequence, count, BitVec.ofNat 32 checksum⟩
    else none
  | _ => none

/-- `message: bytes`, `max_fragment_length: usize`. -/
def startOperands (w : UsizeWidth) : OperandRecord → Option StartOperands
  | .start message limit => if limit < 2 ^ w.bits then some ⟨message, limit⟩ else none
  | _ => none

/-- `part: Part` (30_encoding.md R97): three `u32` fields, one `usize`, the data. -/
def partOperand (w : UsizeWidth) : OperandRecord → Option Part
  | .part p =>
    if p.sequence < 2 ^ 32 ∧ p.sequenceCount < 2 ^ 32 ∧ p.messageLength < 2 ^ w.bits ∧ p.checksum < 2 ^ 32 then
      some ⟨BitVec.ofNat 32 p.sequence, p.sequenceCount, p.messageLength, BitVec.ofNat 32 p.checksum, p.data⟩
    else none
  | _ => none

/-- `payload: bytes`. -/
def payloadOperand : OperandRecord → Option Bytes
  | .payload b => some b
  | _ => none

/-- `text: bytes`. -/
def textOperand : OperandRecord → Option Bytes
  | .text b => some b
  | _ => none

/-- The five fields of a part as the numbers they are (30_encoding.md R97, 47_host_framing.md R270). -/
def Part.toRaw (p : Part) : RawPart where
  sequence := p.sequence.toNat
  sequenceCount := p.sequenceCount
  messageLength := p.messageLength
  checksum := p.checksum.toNat
  data := p.data

/-- The operand record that carries a part a block has emitted, as the host hands it to a decoder. -/
def Part.toRecord (p : Part) : OperandRecord := .part p.toRaw

end Sys2Proof.Machine
end

