-- ==== Sys2Proof/Machine/Rom.lean ====
section
/-! DEFINITION. The content of the space `ROM`: the values the spec gives the parameters `BW4` and `BW2` (30_encoding.md
R110, R111, 10_state.md R40), the tables of a deployment and the properties asked of them (R112), and the ASCII characters of a
text (20_memory.md R67). -/

namespace Sys2Proof.Machine

/-- The bytes of an ASCII text, one a character (20_memory.md R67). -/
def ascii (s : String) : Bytes := s.toList.map fun c => BitVec.ofNat 8 c.toNat

/-- Cut a byte string at every occurrence of a separator byte: `k` separators give `k + 1` pieces (45_bytewords.md
R243). -/
def splitAtByte (sep : Byte) : Bytes → List Bytes
  | [] => [[]]
  | x :: rest =>
    if x = sep then [] :: splitAtByte sep rest
    else
      match splitAtByte sep rest with
      | [] => [[x]]
      | piece :: pieces => (x :: piece) :: pieces

/-- A letter of a table entry, as its ASCII byte. -/
def letter (c : Char) : Byte := BitVec.ofNat 8 c.toNat

/-- A four-letter word. -/
def w4 (a b c d : Char) : Bytes := [letter a, letter b, letter c, letter d]

/-- A two-letter word. -/
def w2 (a b : Char) : Bytes := [letter a, letter b]

/-- Table `BW4`: 256 four-letter words, entry `b` for the byte value `b`; a list for each high hexadecimal digit
(30_encoding.md R110). -/
def bw4 : List Bytes :=
  [w4 'a' 'b' 'l' 'e', w4 'a' 'c' 'i' 'd', w4 'a' 'l' 's' 'o', w4 'a' 'p' 'e' 'x',
    w4 'a' 'q' 'u' 'a', w4 'a' 'r' 'c' 'h', w4 'a' 't' 'o' 'm', w4 'a' 'u' 'n' 't',
    w4 'a' 'w' 'a' 'y', w4 'a' 'x' 'i' 's', w4 'b' 'a' 'c' 'k', w4 'b' 'a' 'l' 'd',
    w4 'b' 'a' 'r' 'n', w4 'b' 'e' 'l' 't', w4 'b' 'e' 't' 'a', w4 'b' 'i' 'a' 's'] ++
  [w4 'b' 'l' 'u' 'e', w4 'b' 'o' 'd' 'y', w4 'b' 'r' 'a' 'g', w4 'b' 'r' 'e' 'w',
    w4 'b' 'u' 'l' 'b', w4 'b' 'u' 'z' 'z', w4 'c' 'a' 'l' 'm', w4 'c' 'a' 's' 'h',
    w4 'c' 'a' 't' 's', w4 'c' 'h' 'e' 'f', w4 'c' 'i' 't' 'y', w4 'c' 'l' 'a' 'w',
    w4 'c' 'o' 'd' 'e', w4 'c' 'o' 'l' 'a', w4 'c' 'o' 'o' 'k', w4 'c' 'o' 's' 't'] ++
  [w4 'c' 'r' 'u' 'x', w4 'c' 'u' 'r' 'l', w4 'c' 'u' 's' 'p', w4 'c' 'y' 'a' 'n',
    w4 'd' 'a' 'r' 'k', w4 'd' 'a' 't' 'a', w4 'd' 'a' 'y' 's', w4 'd' 'e' 'l' 'i',
    w4 'd' 'i' 'c' 'e', w4 'd' 'i' 'e' 't', w4 'd' 'o' 'o' 'r', w4 'd' 'o' 'w' 'n',
    w4 'd' 'r' 'a' 'w', w4 'd' 'r' 'o' 'p', w4 'd' 'r' 'u' 'm', w4 'd' 'u' 'l' 'l'] ++
  [w4 'd' 'u' 't' 'y', w4 'e' 'a' 'c' 'h', w4 'e' 'a' 's' 'y', w4 'e' 'c' 'h' 'o',
    w4 'e' 'd' 'g' 'e', w4 'e' 'p' 'i' 'c', w4 'e' 'v' 'e' 'n', w4 'e' 'x' 'a' 'm',
    w4 'e' 'x' 'i' 't', w4 'e' 'y' 'e' 's', w4 'f' 'a' 'c' 't', w4 'f' 'a' 'i' 'r',
    w4 'f' 'e' 'r' 'n', w4 'f' 'i' 'g' 's', w4 'f' 'i' 'l' 'm', w4 'f' 'i' 's' 'h'] ++
  [w4 'f' 'i' 'z' 'z', w4 'f' 'l' 'a' 'p', w4 'f' 'l' 'e' 'w', w4 'f' 'l' 'u' 'x',
    w4 'f' 'o' 'x' 'y', w4 'f' 'r' 'e' 'e', w4 'f' 'r' 'o' 'g', w4 'f' 'u' 'e' 'l',
    w4 'f' 'u' 'n' 'd', w4 'g' 'a' 'l' 'a', w4 'g' 'a' 'm' 'e', w4 'g' 'e' 'a' 'r',
    w4 'g' 'e' 'm' 's', w4 'g' 'i' 'f' 't', w4 'g' 'i' 'r' 'l', w4 'g' 'l' 'o' 'w'] ++
  [w4 'g' 'o' 'o' 'd', w4 'g' 'r' 'a' 'y', w4 'g' 'r' 'i' 'm', w4 'g' 'u' 'r' 'u',
    w4 'g' 'u' 's' 'h', w4 'g' 'y' 'r' 'o', w4 'h' 'a' 'l' 'f', w4 'h' 'a' 'n' 'g',
    w4 'h' 'a' 'r' 'd', w4 'h' 'a' 'w' 'k', w4 'h' 'e' 'a' 't', w4 'h' 'e' 'l' 'p',
    w4 'h' 'i' 'g' 'h', w4 'h' 'i' 'l' 'l', w4 'h' 'o' 'l' 'y', w4 'h' 'o' 'p' 'e'] ++
  [w4 'h' 'o' 'r' 'n', w4 'h' 'u' 't' 's', w4 'i' 'c' 'e' 'd', w4 'i' 'd' 'e' 'a',
    w4 'i' 'd' 'l' 'e', w4 'i' 'n' 'c' 'h', w4 'i' 'n' 'k' 'y', w4 'i' 'n' 't' 'o',
    w4 'i' 'r' 'i' 's', w4 'i' 'r' 'o' 'n', w4 'i' 't' 'e' 'm', w4 'j' 'a' 'd' 'e',
    w4 'j' 'a' 'z' 'z', w4 'j' 'o' 'i' 'n', w4 'j' 'o' 'l' 't', w4 'j' 'o' 'w' 'l'] ++
  [w4 'j' 'u' 'd' 'o', w4 'j' 'u' 'g' 's', w4 'j' 'u' 'm' 'p', w4 'j' 'u' 'n' 'k',
    w4 'j' 'u' 'r' 'y', w4 'k' 'e' 'e' 'p', w4 'k' 'e' 'n' 'o', w4 'k' 'e' 'p' 't',
    w4 'k' 'e' 'y' 's', w4 'k' 'i' 'c' 'k', w4 'k' 'i' 'l' 'n', w4 'k' 'i' 'n' 'g',
    w4 'k' 'i' 't' 'e', w4 'k' 'i' 'w' 'i', w4 'k' 'n' 'o' 'b', w4 'l' 'a' 'm' 'b'] ++
  [w4 'l' 'a' 'v' 'a', w4 'l' 'a' 'z' 'y', w4 'l' 'e' 'a' 'f', w4 'l' 'e' 'g' 's',
    w4 'l' 'i' 'a' 'r', w4 'l' 'i' 'm' 'p', w4 'l' 'i' 'o' 'n', w4 'l' 'i' 's' 't',
    w4 'l' 'o' 'g' 'o', w4 'l' 'o' 'u' 'd', w4 'l' 'o' 'v' 'e', w4 'l' 'u' 'a' 'u',
    w4 'l' 'u' 'c' 'k', w4 'l' 'u' 'n' 'g', w4 'm' 'a' 'i' 'n', w4 'm' 'a' 'n' 'y'] ++
  [w4 'm' 'a' 't' 'h', w4 'm' 'a' 'z' 'e', w4 'm' 'e' 'm' 'o', w4 'm' 'e' 'n' 'u',
    w4 'm' 'e' 'o' 'w', w4 'm' 'i' 'l' 'd', w4 'm' 'i' 'n' 't', w4 'm' 'i' 's' 's',
    w4 'm' 'o' 'n' 'k', w4 'n' 'a' 'i' 'l', w4 'n' 'a' 'v' 'y', w4 'n' 'e' 'e' 'd',
    w4 'n' 'e' 'w' 's', w4 'n' 'e' 'x' 't', w4 'n' 'o' 'o' 'n', w4 'n' 'o' 't' 'e'] ++
  [w4 'n' 'u' 'm' 'b', w4 'o' 'b' 'e' 'y', w4 'o' 'b' 'o' 'e', w4 'o' 'm' 'i' 't',
    w4 'o' 'n' 'y' 'x', w4 'o' 'p' 'e' 'n', w4 'o' 'v' 'a' 'l', w4 'o' 'w' 'l' 's',
    w4 'p' 'a' 'i' 'd', w4 'p' 'a' 'r' 't', w4 'p' 'e' 'c' 'k', w4 'p' 'l' 'a' 'y',
    w4 'p' 'l' 'u' 's', w4 'p' 'o' 'e' 'm', w4 'p' 'o' 'o' 'l', w4 'p' 'o' 's' 'e'] ++
  [w4 'p' 'u' 'f' 'f', w4 'p' 'u' 'm' 'a', w4 'p' 'u' 'r' 'r', w4 'q' 'u' 'a' 'd',
    w4 'q' 'u' 'i' 'z', w4 'r' 'a' 'c' 'e', w4 'r' 'a' 'm' 'p', w4 'r' 'e' 'a' 'l',
    w4 'r' 'e' 'd' 'o', w4 'r' 'i' 'c' 'h', w4 'r' 'o' 'a' 'd', w4 'r' 'o' 'c' 'k',
    w4 'r' 'o' 'o' 'f', w4 'r' 'u' 'b' 'y', w4 'r' 'u' 'i' 'n', w4 'r' 'u' 'n' 's'] ++
  [w4 'r' 'u' 's' 't', w4 's' 'a' 'f' 'e', w4 's' 'a' 'g' 'a', w4 's' 'c' 'a' 'r',
    w4 's' 'e' 't' 's', w4 's' 'i' 'l' 'k', w4 's' 'k' 'e' 'w', w4 's' 'l' 'o' 't',
    w4 's' 'o' 'a' 'p', w4 's' 'o' 'l' 'o', w4 's' 'o' 'n' 'g', w4 's' 't' 'u' 'b',
    w4 's' 'u' 'r' 'f', w4 's' 'w' 'a' 'n', w4 't' 'a' 'c' 'o', w4 't' 'a' 's' 'k'] ++
  [w4 't' 'a' 'x' 'i', w4 't' 'e' 'n' 't', w4 't' 'i' 'e' 'd', w4 't' 'i' 'm' 'e',
    w4 't' 'i' 'n' 'y', w4 't' 'o' 'i' 'l', w4 't' 'o' 'm' 'b', w4 't' 'o' 'y' 's',
    w4 't' 'r' 'i' 'p', w4 't' 'u' 'n' 'a', w4 't' 'w' 'i' 'n', w4 'u' 'g' 'l' 'y',
    w4 'u' 'n' 'd' 'o', w4 'u' 'n' 'i' 't', w4 'u' 'r' 'g' 'e', w4 'u' 's' 'e' 'r'] ++
  [w4 'v' 'a' 's' 't', w4 'v' 'e' 'r' 'y', w4 'v' 'e' 't' 'o', w4 'v' 'i' 'a' 'l',
    w4 'v' 'i' 'b' 'e', w4 'v' 'i' 'e' 'w', w4 'v' 'i' 's' 'a', w4 'v' 'o' 'i' 'd',
    w4 'v' 'o' 'w' 's', w4 'w' 'a' 'l' 'l', w4 'w' 'a' 'n' 'd', w4 'w' 'a' 'r' 'm',
    w4 'w' 'a' 's' 'p', w4 'w' 'a' 'v' 'e', w4 'w' 'a' 'x' 'y', w4 'w' 'e' 'b' 's'] ++
  [w4 'w' 'h' 'a' 't', w4 'w' 'h' 'e' 'n', w4 'w' 'h' 'i' 'z', w4 'w' 'o' 'l' 'f',
    w4 'w' 'o' 'r' 'k', w4 'y' 'a' 'n' 'k', w4 'y' 'a' 'w' 'n', w4 'y' 'e' 'l' 'l',
    w4 'y' 'o' 'g' 'a', w4 'y' 'u' 'r' 't', w4 'z' 'a' 'p' 's', w4 'z' 'e' 'r' 'o',
    w4 'z' 'e' 's' 't', w4 'z' 'i' 'n' 'c', w4 'z' 'o' 'n' 'e', w4 'z' 'o' 'o' 'm']

/-- Table `BW2`: 256 two-letter words, entry `b` for the byte value `b`; a list for each high hexadecimal digit
(30_encoding.md R111). -/
def bw2 : List Bytes :=
  [w2 'a' 'e', w2 'a' 'd', w2 'a' 'o', w2 'a' 'x', w2 'a' 'a', w2 'a' 'h', w2 'a' 'm', w2 'a' 't',
    w2 'a' 'y', w2 'a' 's', w2 'b' 'k', w2 'b' 'd', w2 'b' 'n', w2 'b' 't', w2 'b' 'a', w2 'b' 's'] ++
  [w2 'b' 'e', w2 'b' 'y', w2 'b' 'g', w2 'b' 'w', w2 'b' 'b', w2 'b' 'z', w2 'c' 'm', w2 'c' 'h',
    w2 'c' 's', w2 'c' 'f', w2 'c' 'y', w2 'c' 'w', w2 'c' 'e', w2 'c' 'a', w2 'c' 'k', w2 'c' 't'] ++
  [w2 'c' 'x', w2 'c' 'l', w2 'c' 'p', w2 'c' 'n', w2 'd' 'k', w2 'd' 'a', w2 'd' 's', w2 'd' 'i',
    w2 'd' 'e', w2 'd' 't', w2 'd' 'r', w2 'd' 'n', w2 'd' 'w', w2 'd' 'p', w2 'd' 'm', w2 'd' 'l'] ++
  [w2 'd' 'y', w2 'e' 'h', w2 'e' 'y', w2 'e' 'o', w2 'e' 'e', w2 'e' 'c', w2 'e' 'n', w2 'e' 'm',
    w2 'e' 't', w2 'e' 's', w2 'f' 't', w2 'f' 'r', w2 'f' 'n', w2 'f' 's', w2 'f' 'm', w2 'f' 'h'] ++
  [w2 'f' 'z', w2 'f' 'p', w2 'f' 'w', w2 'f' 'x', w2 'f' 'y', w2 'f' 'e', w2 'f' 'g', w2 'f' 'l',
    w2 'f' 'd', w2 'g' 'a', w2 'g' 'e', w2 'g' 'r', w2 'g' 's', w2 'g' 't', w2 'g' 'l', w2 'g' 'w'] ++
  [w2 'g' 'd', w2 'g' 'y', w2 'g' 'm', w2 'g' 'u', w2 'g' 'h', w2 'g' 'o', w2 'h' 'f', w2 'h' 'g',
    w2 'h' 'd', w2 'h' 'k', w2 'h' 't', w2 'h' 'p', w2 'h' 'h', w2 'h' 'l', w2 'h' 'y', w2 'h' 'e'] ++
  [w2 'h' 'n', w2 'h' 's', w2 'i' 'd', w2 'i' 'a', w2 'i' 'e', w2 'i' 'h', w2 'i' 'y', w2 'i' 'o',
    w2 'i' 's', w2 'i' 'n', w2 'i' 'm', w2 'j' 'e', w2 'j' 'z', w2 'j' 'n', w2 'j' 't', w2 'j' 'l'] ++
  [w2 'j' 'o', w2 'j' 's', w2 'j' 'p', w2 'j' 'k', w2 'j' 'y', w2 'k' 'p', w2 'k' 'o', w2 'k' 't',
    w2 'k' 's', w2 'k' 'k', w2 'k' 'n', w2 'k' 'g', w2 'k' 'e', w2 'k' 'i', w2 'k' 'b', w2 'l' 'b'] ++
  [w2 'l' 'a', w2 'l' 'y', w2 'l' 'f', w2 'l' 's', w2 'l' 'r', w2 'l' 'p', w2 'l' 'n', w2 'l' 't',
    w2 'l' 'o', w2 'l' 'd', w2 'l' 'e', w2 'l' 'u', w2 'l' 'k', w2 'l' 'g', w2 'm' 'n', w2 'm' 'y'] ++
  [w2 'm' 'h', w2 'm' 'e', w2 'm' 'o', w2 'm' 'u', w2 'm' 'w', w2 'm' 'd', w2 'm' 't', w2 'm' 's',
    w2 'm' 'k', w2 'n' 'l', w2 'n' 'y', w2 'n' 'd', w2 'n' 's', w2 'n' 't', w2 'n' 'n', w2 'n' 'e'] ++
  [w2 'n' 'b', w2 'o' 'y', w2 'o' 'e', w2 'o' 't', w2 'o' 'x', w2 'o' 'n', w2 'o' 'l', w2 'o' 's',
    w2 'p' 'd', w2 'p' 't', w2 'p' 'k', w2 'p' 'y', w2 'p' 's', w2 'p' 'm', w2 'p' 'l', w2 'p' 'e'] ++
  [w2 'p' 'f', w2 'p' 'a', w2 'p' 'r', w2 'q' 'd', w2 'q' 'z', w2 'r' 'e', w2 'r' 'p', w2 'r' 'l',
    w2 'r' 'o', w2 'r' 'h', w2 'r' 'd', w2 'r' 'k', w2 'r' 'f', w2 'r' 'y', w2 'r' 'n', w2 'r' 's'] ++
  [w2 'r' 't', w2 's' 'e', w2 's' 'a', w2 's' 'r', w2 's' 's', w2 's' 'k', w2 's' 'w', w2 's' 't',
    w2 's' 'p', w2 's' 'o', w2 's' 'g', w2 's' 'b', w2 's' 'f', w2 's' 'n', w2 't' 'o', w2 't' 'k'] ++
  [w2 't' 'i', w2 't' 't', w2 't' 'd', w2 't' 'e', w2 't' 'y', w2 't' 'l', w2 't' 'b', w2 't' 's',
    w2 't' 'p', w2 't' 'a', w2 't' 'n', w2 'u' 'y', w2 'u' 'o', w2 'u' 't', w2 'u' 'e', w2 'u' 'r'] ++
  [w2 'v' 't', w2 'v' 'y', w2 'v' 'o', w2 'v' 'l', w2 'v' 'e', w2 'v' 'w', w2 'v' 'a', w2 'v' 'd',
    w2 'v' 's', w2 'w' 'l', w2 'w' 'd', w2 'w' 'm', w2 'w' 'p', w2 'w' 'e', w2 'w' 'y', w2 'w' 's'] ++
  [w2 'w' 't', w2 'w' 'n', w2 'w' 'z', w2 'w' 'f', w2 'w' 'k', w2 'y' 'k', w2 'y' 'n', w2 'y' 'l',
    w2 'y' 'a', w2 'y' 't', w2 'z' 's', w2 'z' 'o', w2 'z' 't', w2 'z' 'c', w2 'z' 'e', w2 'z' 'm']

end Sys2Proof.Machine

namespace Sys2Proof

/-- The entries of `BW4` in the deployment (00_scope.md R8). -/
def Cfg.words4 (cfg : Cfg) : List Bytes :=
  match cfg.bw4 with
  | .standard => Machine.bw4
  | .given entries => entries

/-- The entries of `BW2` in the deployment (00_scope.md R8). -/
def Cfg.words2 (cfg : Cfg) : List Bytes :=
  match cfg.bw2 with
  | .standard => Machine.bw2
  | .given entries => entries

/-- What the codec's rules rely on in one word table: 256 distinct entries of `letters` bytes, each byte a lower-case letter,
so that no entry holds a separator (30_encoding.md R112, 93_implementation_defined.md section 1.4). -/
def WordTableOk (letters : Nat) (table : List Bytes) : Prop :=
  table.length = 256 ∧ table.Nodup ∧ ∀ w ∈ table, w.length = letters ∧ ∀ b ∈ w, 0x61 ≤ b.toNat ∧ b.toNat ≤ 0x7A

/-- The entries are in ascending alphabetical order (30_encoding.md R112). -/
def Alphabetical (table : List Bytes) : Prop := (table.map (List.map BitVec.toNat)).Pairwise (· < ·)

/-- The four properties of the two tables: the named facts that a model with the tables as parameters assumes of them
(30_encoding.md R112). -/
def Cfg.TablesOk (c : Cfg) : Prop := WordTableOk 4 c.words4 ∧ WordTableOk 2 c.words2 ∧ Alphabetical c.words4

/-- What the spec asks of the parameters (93_implementation_defined.md section 1.4). -/
def Cfg.Ok (c : Cfg) : Prop :=
  capacityOk c.msgCap ∧ capacityOk c.maxFragments ∧ capacityOk c.fragCap ∧ capacityOk c.queueCap ∧
    capacityOk c.mixedCap ∧ capacityOk c.smpCap ∧ c.TablesOk

end Sys2Proof
end

