-- ==== Sys2Proof/Machine/Bytewords.lean ====
section
/-! DEFINITION. The bytewords codec (45_bytewords.md), in its three styles (30_encoding.md R104 to R106). -/

namespace Sys2Proof.Machine

/-- The word table of a style: one of the deployment's two tables (30_encoding.md R104, 00_scope.md R8). -/
def styleTable (cfg : Cfg) : Style → List Bytes
  | .standard => cfg.words4
  | .uri => cfg.words4
  | .minimal => cfg.words2

/-- The separator byte of a style, if it has one (30_encoding.md R104). -/
def styleSeparator : Style → Option Byte
  | .standard => some 0x20
  | .uri => some 0x2D
  | .minimal => none

/-- The word of a byte: the table entry of its value (30_encoding.md R106). -/
def wordOfByte (cfg : Cfg) (style : Style) (b : Byte) : Bytes := (styleTable cfg style).getD b.toNat []

/-- The byte of a word: the place of the table entry that equals the whole token, if there is one (30_encoding.md
R106). -/
def byteOfWord (cfg : Cfg) (style : Style) (token : Bytes) : Option Byte :=
  ((styleTable cfg style).idxOf? token).map (BitVec.ofNat 8)

/-- `payload ++ be32(crc32(payload))` (30_encoding.md R105). -/
def textBody (cfg : Cfg) (payload : Bytes) : Bytes := payload ++ be32 (cfg.crc32Of payload)

/-- Words with the style's separator between them (30_encoding.md R105). -/
def joinWords (style : Style) (words : List Bytes) : Bytes :=
  match styleSeparator style with
  | none => words.flatten
  | some sep => List.intercalate [sep] words

/-- The text of a payload (45_bytewords.md R241). -/
def encodeText (cfg : Cfg) (style : Style) (payload : Bytes) : Bytes :=
  joinWords style ((textBody cfg payload).map (wordOfByte cfg style))

/-- Consecutive pairs of bytes, from the left (45_bytewords.md R244). -/
def bytePairs : Bytes → List Bytes
  | x :: y :: rest => [x, y] :: bytePairs rest
  | _ => []

/-- The tokens of a text, or `InvalidLength` (45_bytewords.md R242 to R244). -/
def tokensOf (style : Style) (text : Bytes) : Except ErrorInfo (List Bytes) :=
  match styleSeparator style with
  | none => if text.length % 2 = 1 then .error .invalidLength else .ok (bytePairs text)
  | some sep => .ok (splitAtByte sep text)

/-- The bytes of a list of tokens, or `InvalidWord` with the position of the first unknown one; `position` is the
position of the list's head (45_bytewords.md R242). -/
def bytesOfTokens (cfg : Cfg) (style : Style) : Nat → List Bytes → Except ErrorInfo Bytes
  | _, [] => .ok []
  | position, token :: rest =>
    match byteOfWord cfg style token with
    | none => .error (.invalidWord position)
    | some b =>
      match bytesOfTokens cfg style (position + 1) rest with
      | .error e => .error e
      | .ok body => .ok (b :: body)

/-- The payload of a body, or the checksum errors (45_bytewords.md R242, R245). -/
def payloadOfBody (cfg : Cfg) (body : Bytes) : Except ErrorInfo Bytes :=
  if body.length < 4 then .error .checksumNotPresent
  else
    let payload := body.take (body.length - 4)
    let expected := be32Read (body.drop (body.length - 4))
    let calculated := cfg.crc32Of payload
    if expected = calculated then .ok payload else .error (.invalidChecksum expected calculated)

/-- The payload of a text, or the first error in the order of 45_bytewords.md R242. -/
def decodeText (cfg : Cfg) (style : Style) (text : Bytes) : Except ErrorInfo Bytes :=
  if text.any (fun b => decide (0x80 ≤ b.toNat)) then .error .nonAscii
  else
    match tokensOf style text with
    | .error e => .error e
    | .ok tokens =>
      match bytesOfTokens cfg style 0 tokens with
      | .error e => .error e
      | .ok body => payloadOfBody cfg body

/-- `BWD.ENCODE` in a style (45_bytewords.md R241). -/
def bwdEncode (style : Style) (s : State) : StepOutcome :=
  execute s (payloadOperand s.opr) fun payload => s.answer (.text (encodeText s.cfg style payload))

/-- `BWD.DECODE` in a style (45_bytewords.md R242). -/
def bwdDecode (style : Style) (s : State) : StepOutcome :=
  execute s (textOperand s.opr) fun text =>
    match decodeText s.cfg style text with
    | .error e => s.answerErr e
    | .ok payload => s.answer (.payload payload)

/-- `BWD.ENCODE[Standard]` (45_bytewords.md R241). -/
def execBwdEncodeStandard (s : State) : StepOutcome := bwdEncode .standard s

/-- `BWD.ENCODE[Uri]` (45_bytewords.md R241). -/
def execBwdEncodeUri (s : State) : StepOutcome := bwdEncode .uri s

/-- `BWD.ENCODE[Minimal]` (45_bytewords.md R241). -/
def execBwdEncodeMinimal (s : State) : StepOutcome := bwdEncode .minimal s

/-- `BWD.DECODE[Standard]` (45_bytewords.md R242). -/
def execBwdDecodeStandard (s : State) : StepOutcome := bwdDecode .standard s

/-- `BWD.DECODE[Uri]` (45_bytewords.md R242). -/
def execBwdDecodeUri (s : State) : StepOutcome := bwdDecode .uri s

/-- `BWD.DECODE[Minimal]` (45_bytewords.md R242). -/
def execBwdDecodeMinimal (s : State) : StepOutcome := bwdDecode .minimal s

end Sys2Proof.Machine
end

