-- ==== Sys2Proof/Machine/Binary64.lean ====
section
/-! DEFINITION. Binary64 arithmetic on bit patterns (48_collaborators.md R315 to R323): every operation takes the exact
result and rounds it once, to nearest, ties to even. The rules speak of finite values; beyond them, and for the sign of a
zero, the definitions follow IEEE 754, the value 00_scope.md R8 gives this parameter (log 8). At the end the operations as
a deployment computes them (R8; log 17). -/

namespace Sys2Proof.Machine

/-- The sign bit (48_collaborators.md R315). -/
def f64Sign (x : F64) : Bool := x.getLsbD 63

/-- The 11 exponent bits (48_collaborators.md R315). -/
def f64Exponent (x : F64) : Nat := x.toNat / 2 ^ 52 % 2 ^ 11

/-- The 52 fraction bits (48_collaborators.md R315). -/
def f64Fraction (x : F64) : Nat := x.toNat % 2 ^ 52

/-- A NaN pattern (48_collaborators.md R315, IEEE 754). -/
def f64IsNaN (x : F64) : Bool := f64Exponent x == 2047 && f64Fraction x != 0

/-- An infinity pattern (48_collaborators.md R315, IEEE 754). -/
def f64IsInf (x : F64) : Bool := f64Exponent x == 2047 && f64Fraction x == 0

/-- A zero of either sign. -/
def f64IsZero (x : F64) : Bool := x.toNat % 2 ^ 63 == 0

/-- The integer significand of a finite value, which is `significand * 2 ^ scale` (48_collaborators.md R315). -/
def f64Significand (x : F64) : Nat :=
  if f64Exponent x = 0 then f64Fraction x else 2 ^ 52 + f64Fraction x

/-- The scale of a finite value (48_collaborators.md R315). -/
def f64Scale (x : F64) : Int := if f64Exponent x = 0 then -1074 else (f64Exponent x : Int) - 1075

/-- The sign bit as a number, in its place. -/
def f64SignBit (negative : Bool) : Nat := if negative then 2 ^ 63 else 0

/-- Zero with a sign. -/
def f64Zero (negative : Bool) : F64 := BitVec.ofNat 64 (f64SignBit negative)

/-- Infinity with a sign: what IEEE 754 rounds a result above the finite range to (log 8). -/
def f64Inf (negative : Bool) : F64 := BitVec.ofNat 64 (f64SignBit negative + 2047 * 2 ^ 52)

/-- The NaN of an operation that has no real result; which NaN it is is the model's choice and never observable (log 8). -/
def f64NaN : F64 := 0x7ff8000000000000

/-- `m / 2 ^ k` to the nearest integer, ties to even (48_collaborators.md R315). -/
def shiftRoundEven (m k : Nat) : Nat :=
  if k = 0 then m
  else
    let q := m / 2 ^ k
    let r := m % 2 ^ k
    let half := 2 ^ (k - 1)
    if half < r ∨ (r = half ∧ q % 2 = 1) then q + 1 else q

/-- The binary64 value nearest to `±m * 2 ^ e`, ties to even (48_collaborators.md R315). The last place of the result is
`2 ^ q`, where `q` puts the leading bit of `m` 52 places above it and is never below -1074; a significand that rounds up
to `2 ^ 53` carries into the exponent field by itself. A result beyond the largest finite value is an infinity (IEEE 754; log 8). -/
def f64Round (negative : Bool) (m : Nat) (e : Int) : F64 :=
  if m = 0 then f64Zero negative
  else
    let q : Int := max (e + (Nat.log2 m : Int) - 52) (-1074)
    let significand := if q ≤ e then m * 2 ^ (e - q).toNat else shiftRoundEven m (q - e).toNat
    let magnitude := (q + 1074).toNat * 2 ^ 52 + significand
    if 2047 * 2 ^ 52 ≤ magnitude then f64Inf negative
    else BitVec.ofNat 64 (f64SignBit negative + magnitude)

/-- `u64_to_f(x)`: the nearest value to an integer (48_collaborators.md R316). -/
def u64ToF (x : Nat) : F64 := f64Round false x 0

/-- The signed integer `x / 2 ^ e` of a finite value, for `e` at most its scale. -/
def f64Scaled (x : F64) (e : Int) : Int :=
  let m : Int := (f64Significand x * 2 ^ (f64Scale x - e).toNat : Nat)
  if f64Sign x then -m else m

/-- `add_f` (48_collaborators.md R317). The spec states no sign for a zero sum and nothing for infinities and NaN: an exact
zero sum is `+0.0` unless both operands are negative zeros, as in IEEE 754 (PRESUMED, log 8). -/
def addF (a b : F64) : F64 :=
  if f64IsNaN a || f64IsNaN b then f64NaN
  else if f64IsInf a then (if f64IsInf b && (f64Sign a != f64Sign b) then f64NaN else a)
  else if f64IsInf b then b
  else
    let e := min (f64Scale a) (f64Scale b)
    let sum := f64Scaled a e + f64Scaled b e
    if sum = 0 then f64Zero (f64Sign a && f64Sign b) else f64Round (decide (sum < 0)) sum.natAbs e

/-- The value with the other sign. -/
def negF (a : F64) : F64 := a ^^^ 0x8000000000000000

/-- `sub_f` (48_collaborators.md R318). -/
def subF (a b : F64) : F64 := addF a (negF b)

/-- `mul_f` (48_collaborators.md R319). The spec states no sign for a zero product (R315: "no rule needs [...] signed zeros"): the
model gives it the exclusive or of the operands' signs, as IEEE 754 does (PRESUMED, log 8), so a weight of `-0.0`, which
41_sampler.md R151 takes, gives a table entry of `-0.0`. -/
def mulF (a b : F64) : F64 :=
  let negative := f64Sign a != f64Sign b
  if f64IsNaN a || f64IsNaN b then f64NaN
  else if f64IsInf a || f64IsInf b then (if f64IsZero a || f64IsZero b then f64NaN else f64Inf negative)
  else f64Round negative (f64Significand a * f64Significand b) (f64Scale a + f64Scale b)

/-- The bits of the quotient that `divF` computes below the dividend's last place: enough that the last one, which only
says whether anything is left over, cannot decide a rounding wrongly. -/
def divGuardBits : Nat := 110

/-- `div_f` (48_collaborators.md R320); the block never divides by zero, and what a division of zero,
by zero, or of an infinity gives follows IEEE 754 (PRESUMED, log 8). -/
def divF (a b : F64) : F64 :=
  let negative := f64Sign a != f64Sign b
  if f64IsNaN a || f64IsNaN b then f64NaN
  else if f64IsInf a then (if f64IsInf b then f64NaN else f64Inf negative)
  else if f64IsInf b then f64Zero negative
  else if f64IsZero b then (if f64IsZero a then f64NaN else f64Inf negative)
  else
    let dividend := f64Significand a * 2 ^ divGuardBits
    let quotient := dividend / f64Significand b
    let sticky := if dividend % f64Significand b = 0 then 0 else 1
    f64Round negative (2 * quotient + sticky) (f64Scale a - f64Scale b - (divGuardBits + 1 : Nat))

/-- The number that orders the patterns as their values are ordered; both zeros are 0. -/
def f64Key (x : F64) : Int := if f64Sign x then -((x.toNat % 2 ^ 63 : Nat) : Int) else (x.toNat : Int)

/-- `lt_f`: less as real numbers, false on a NaN (48_collaborators.md R321). -/
def ltF (a b : F64) : Bool := !f64IsNaN a && !f64IsNaN b && decide (f64Key a < f64Key b)

/-- `f_to_u64`: the floor of a finite value that is not negative (48_collaborators.md R322); no caller passes another
(log 9). -/
def fToNat (y : F64) : Nat :=
  if 0 ≤ f64Scale y then f64Significand y * 2 ^ (f64Scale y).toNat
  else f64Significand y / 2 ^ (-(f64Scale y)).toNat

/-- `0.0` (48_collaborators.md R323). -/
def fZero : F64 := 0x0000000000000000

/-- `1.0` (30_encoding.md R102). -/
def fOne : F64 := 0x3ff0000000000000

/-- `1.75` (48_collaborators.md R323). -/
def fOneAndThreeQuarters : F64 := 0x3ffc000000000000

/-- `0.99`, the binary64 nearest to 99/100 (48_collaborators.md R323). -/
def fCap : F64 := 0x3fefae147ae147ae

/-- `2^64` (48_collaborators.md R323). -/
def fTwo64 : F64 := 0x43f0000000000000

end Sys2Proof.Machine

namespace Sys2Proof

open Sys2Proof.Machine

/-- `u64_to_f` of the deployment (00_scope.md R8). -/
def Cfg.u64ToF (cfg : Cfg) (x : Nat) : F64 :=
  match cfg.binary64 with
  | .standard => Machine.u64ToF x
  | .other k => Config.otherU64ToF k x

/-- `add_f` of the deployment (00_scope.md R8). -/
def Cfg.addF (cfg : Cfg) (a b : F64) : F64 :=
  match cfg.binary64 with
  | .standard => Machine.addF a b
  | .other k => Config.otherAddF k a b

/-- `sub_f` of the deployment (00_scope.md R8). -/
def Cfg.subF (cfg : Cfg) (a b : F64) : F64 :=
  match cfg.binary64 with
  | .standard => Machine.subF a b
  | .other k => Config.otherSubF k a b

/-- `mul_f` of the deployment (00_scope.md R8). -/
def Cfg.mulF (cfg : Cfg) (a b : F64) : F64 :=
  match cfg.binary64 with
  | .standard => Machine.mulF a b
  | .other k => Config.otherMulF k a b

/-- `div_f` of the deployment (00_scope.md R8). -/
def Cfg.divF (cfg : Cfg) (a b : F64) : F64 :=
  match cfg.binary64 with
  | .standard => Machine.divF a b
  | .other k => Config.otherDivF k a b

/-- `lt_f` of the deployment (00_scope.md R8). -/
def Cfg.ltF (cfg : Cfg) (a b : F64) : Bool :=
  match cfg.binary64 with
  | .standard => Machine.ltF a b
  | .other k => Config.otherLtF k a b

/-- `f_to_u64` of the deployment (00_scope.md R8). -/
def Cfg.fToNat (cfg : Cfg) (y : F64) : Nat :=
  match cfg.binary64 with
  | .standard => Machine.fToNat y
  | .other k => Config.otherFToNat k y

end Sys2Proof
end

