-- ==== Sys2Proof/Machine/Sha256.lean ====
section
/-! DEFINITION. The collaborator `sha256` (48_collaborators.md R300 to R303). -/

namespace Sys2Proof.Machine

/-- The round constants `K[0..63]` (48_collaborators.md R301). -/
def shaK : List U32 :=
  [0x428a2f98, 0x71374491, 0xb5c0fbcf, 0xe9b5dba5, 0x3956c25b, 0x59f111f1, 0x923f82a4, 0xab1c5ed5] ++
  [0xd807aa98, 0x12835b01, 0x243185be, 0x550c7dc3, 0x72be5d74, 0x80deb1fe, 0x9bdc06a7, 0xc19bf174] ++
  [0xe49b69c1, 0xefbe4786, 0x0fc19dc6, 0x240ca1cc, 0x2de92c6f, 0x4a7484aa, 0x5cb0a9dc, 0x76f988da] ++
  [0x983e5152, 0xa831c66d, 0xb00327c8, 0xbf597fc7, 0xc6e00bf3, 0xd5a79147, 0x06ca6351, 0x14292967] ++
  [0x27b70a85, 0x2e1b2138, 0x4d2c6dfc, 0x53380d13, 0x650a7354, 0x766a0abb, 0x81c2c92e, 0x92722c85] ++
  [0xa2bfe8a1, 0xa81a664b, 0xc24b8b70, 0xc76c51a3, 0xd192e819, 0xd6990624, 0xf40e3585, 0x106aa070] ++
  [0x19a4c116, 0x1e376c08, 0x2748774c, 0x34b0bcb5, 0x391c0cb3, 0x4ed8aa4a, 0x5b9cca4f, 0x682e6ff3] ++
  [0x748f82ee, 0x78a5636f, 0x84c87814, 0x8cc70208, 0x90befffa, 0xa4506ceb, 0xbef9a3f7, 0xc67178f2]

/-- The eight words `(a, b, c, d, e, f, g, h)` of a hash value (48_collaborators.md R300). -/
structure ShaWords where
  a : U32
  b : U32
  c : U32
  d : U32
  e : U32
  f : U32
  g : U32
  h : U32
  deriving DecidableEq, Repr

/-- The initial hash value (48_collaborators.md R302). -/
def shaInit : ShaWords :=
  ⟨0x6a09e667, 0xbb67ae85, 0x3c6ef372, 0xa54ff53a, 0x510e527f, 0x9b05688c, 0x1f83d9ab, 0x5be0cd19⟩

/-- The next word of the message schedule, from the words so far with the newest first (48_collaborators.md R300):
`W[t-2]`, `W[t-7]`, `W[t-15]`, `W[t-16]` stand at places 1, 6, 14, 15. -/
def shaNextWord (w : List U32) : U32 :=
  let w2 := w.getD 1 0
  let w15 := w.getD 14 0
  let sigma0 := w15.rotateRight 7 ^^^ w15.rotateRight 18 ^^^ (w15 >>> 3)
  let sigma1 := w2.rotateRight 17 ^^^ w2.rotateRight 19 ^^^ (w2 >>> 10)
  w.getD 15 0 + sigma0 + w.getD 6 0 + sigma1

/-- `k` more words of the schedule, newest first. -/
def shaExtend : Nat → List U32 → List U32
  | 0, w => w
  | k + 1, w => shaExtend k (shaNextWord w :: w)

/-- The first `k` big-endian words of a block (48_collaborators.md R300). -/
def shaBlockWords : Nat → Bytes → List U32
  | 0, _ => []
  | k + 1, b => be32Read (b.take 4) :: shaBlockWords k (b.drop 4)

/-- The schedule `W[0..63]` of a 64-byte block (48_collaborators.md R300). -/
def shaSchedule (block : Bytes) : List U32 := (shaExtend 48 (shaBlockWords 16 block).reverse).reverse

/-- One round, with `kw = K[t] + W[t]` (48_collaborators.md R300). -/
def shaRound (s : ShaWords) (kw : U32) : ShaWords :=
  let sum1 := s.e.rotateRight 6 ^^^ s.e.rotateRight 11 ^^^ s.e.rotateRight 25
  let ch := (s.e &&& s.f) ^^^ (~~~s.e &&& s.g)
  let t1 := s.h + sum1 + ch + kw
  let sum0 := s.a.rotateRight 2 ^^^ s.a.rotateRight 13 ^^^ s.a.rotateRight 22
  let maj := (s.a &&& s.b) ^^^ (s.a &&& s.c) ^^^ (s.b &&& s.c)
  ⟨t1 + (sum0 + maj), s.a, s.b, s.c, s.d + t1, s.e, s.f, s.g⟩

/-- The hash value after one more block (48_collaborators.md R300). -/
def shaCompress (h : ShaWords) (block : Bytes) : ShaWords :=
  let r := (List.zipWith (· + ·) shaK (shaSchedule block)).foldl shaRound h
  ⟨h.a + r.a, h.b + r.b, h.c + r.c, h.d + r.d, h.e + r.e, h.f + r.f, h.g + r.g, h.h + r.h⟩

/-- The hash value after the next `k` blocks. -/
def shaBlocks : Nat → ShaWords → Bytes → ShaWords
  | 0, h, _ => h
  | k + 1, h, b => shaBlocks k (shaCompress h (b.take 64)) (b.drop 64)

/-- The padded message: `0x80`, the least number of zero bytes, the length in bits (48_collaborators.md R300). -/
def shaPad (m : Bytes) : Bytes :=
  m ++ 0x80 :: zeroBytes ((119 - m.length % 64) % 64) ++ be64 (BitVec.ofNat 64 (8 * m.length))

/-- The eight words as 32 bytes (48_collaborators.md R300). -/
def ShaWords.digest (h : ShaWords) : Bytes :=
  be32 h.a ++ be32 h.b ++ be32 h.c ++ be32 h.d ++ be32 h.e ++ be32 h.f ++ be32 h.g ++ be32 h.h

/-- The 32 bytes of a 256-bit word, most significant first. -/
def bytesOf256 (v : BitVec 256) : Bytes :=
  be64 (v.extractLsb' 192 64) ++ be64 (v.extractLsb' 128 64) ++ be64 (v.extractLsb' 64 64) ++ be64 (v.extractLsb' 0 64)

/-- `sha256(m)`, 32 bytes (48_collaborators.md R300). For an input whose length in bits is no 64-bit number the spec's
`be64(bits)` has no value and the digest is a free value (log 11). -/
def sha256 (m : Bytes) : Bytes :=
  if 8 * m.length < 2 ^ 64 then (shaBlocks ((shaPad m).length / 64) shaInit (shaPad m)).digest
  else bytesOf256 (Config.overlongDigest m)

end Sys2Proof.Machine

namespace Sys2Proof

/-- `sha256(m)` of the deployment, 32 bytes (00_scope.md R8, R9). -/
def Cfg.sha256Of (cfg : Cfg) (m : Bytes) : Bytes :=
  match cfg.sha256 with
  | .standard => Machine.sha256 m
  | .other k => Machine.bytesOf256 (Config.otherSha256 k m)

end Sys2Proof
end

