-- ==== Sys2Proof/Machine/Prng.lean ====
section
/-! DEFINITION. The PRNG unit (40_prng.md). -/

namespace Sys2Proof.Machine

/-- One step of xoshiro256**: the result and the next state (40_prng.md R130). -/
def prngStep (s : PrngWords) : U64 × PrngWords :=
  let result := (s.s1 * 5).rotateLeft 7 * 9
  let t := s.s1 <<< 17
  let s2 := s.s2 ^^^ s.s0
  let s3 := s.s3 ^^^ s.s1
  let s1 := s.s1 ^^^ s2
  let s0 := s.s0 ^^^ s3
  let s2 := s2 ^^^ t
  let s3 := s3.rotateLeft 45
  (result, ⟨s0, s1, s2, s3⟩)

/-- The result of a draw. -/
def prngDraw (s : PrngWords) : U64 := (prngStep s).1

/-- The generator's state after a draw. -/
def prngAfter (s : PrngWords) : PrngWords := (prngStep s).2

/-- The four state words of a 32-byte string: `s[i] = be64_read(d[8i .. 8i+8])` (30_encoding.md R99). -/
def wordsOfDigest (d : Bytes) : PrngWords where
  s0 := be64Read (d.take 8)
  s1 := be64Read ((d.drop 8).take 8)
  s2 := be64Read ((d.drop 16).take 8)
  s3 := be64Read ((d.drop 24).take 8)

/-- Seeding from a byte string: hashed first (40_prng.md R131). -/
def seededWords (cfg : Cfg) (seed : Bytes) : PrngWords := wordsOfDigest (cfg.sha256Of seed)

/-- The double of a 64-bit draw, `u64 / 2^64` (40_prng.md R135). -/
def doubleOfDraw (cfg : Cfg) (x : U64) : F64 := cfg.divF (cfg.u64ToF x.toNat) fTwo64

/-- `floor(double * (high - low + 1)) + low` of a 64-bit draw, as an exact integer (40_prng.md R136). -/
def intOfDraw (cfg : Cfg) (x : U64) (low high : Nat) : Nat :=
  cfg.fToNat (cfg.mulF (doubleOfDraw cfg x) (cfg.u64ToF (high - low + 1))) + low

/-- The range has no number of values that is a `u64` (40_prng.md R136). -/
def badIntRange (low high : Nat) : Bool := decide (high < low) || decide (2 ^ 64 - 1 < high - low + 1)

/-- `PRNG.SEED_BYTES` (40_prng.md R131). -/
def execPrngSeedBytes (s : State) : StepOutcome :=
  execute s (seedOperand s.opr) fun seed => (s.withPrng (some (seededWords s.cfg seed))).answer .none

/-- `PRNG.SEED_STR`: the string's bytes are hashed as they are (40_prng.md R132). -/
def execPrngSeedStr (s : State) : StepOutcome :=
  execute s (seedOperand s.opr) fun seed => (s.withPrng (some (seededWords s.cfg seed))).answer .none

/-- `PRNG.SEED_DIGEST`: no hashing (40_prng.md R133). -/
def execPrngSeedDigest (s : State) : StepOutcome :=
  execute s (digestOperand s.opr) fun digest => (s.withPrng (some (wordsOfDigest digest))).answer .none

/-- `PRNG.NEXT` (40_prng.md R134, R137). -/
def execPrngNext (s : State) : StepOutcome :=
  execute s (noOperands s.opr) fun _ =>
    match s.prng with
    | none => .next (s.raise .prngNotSeeded)
    | some p => (s.withPrng (some (prngAfter p))).answer (.u64 (prngDraw p))

/-- `PRNG.NEXT_DOUBLE` (40_prng.md R135, R137). -/
def execPrngNextDouble (s : State) : StepOutcome :=
  execute s (noOperands s.opr) fun _ =>
    match s.prng with
    | none => .next (s.raise .prngNotSeeded)
    | some p => (s.withPrng (some (prngAfter p))).answer (.f64 (doubleOfDraw s.cfg (prngDraw p)))

/-- `PRNG.NEXT_INT` (40_prng.md R136, R137): the range check comes before the draw, the overflow check after it. -/
def execPrngNextInt (s : State) : StepOutcome :=
  execute s (rangeOperands s.opr) fun r =>
    match s.prng with
    | none => .next (s.raise .prngNotSeeded)
    | some p =>
      if badIntRange r.low r.high then .next (s.raise .badIntRange)
      else
        let v := intOfDraw s.cfg (prngDraw p) r.low r.high
        if v < 2 ^ 64 then (s.withPrng (some (prngAfter p))).answer (.u64 (BitVec.ofNat 64 v))
        else .next ((s.withPrng (some (prngAfter p))).raise .arithmeticOverflow)

end Sys2Proof.Machine
end

