-- ==== Sys2Proof/Machine/Sampler.lean ====
section
/-! DEFINITION. The weighted sampler unit, the alias method (41_sampler.md). -/

namespace Sys2Proof.Machine

/-- The sum of the weights, left to right from `+0.0` (41_sampler.md R151). -/
def weightTotal (cfg : Cfg) (ws : List F64) : F64 := ws.foldl cfg.addF fZero

/-- A weight that is NaN, infinite or below zero (41_sampler.md R151). -/
def badWeight (cfg : Cfg) (w : F64) : Bool := f64IsNaN w || f64IsInf w || cfg.ltF w fZero

/-- The work of the alias method (41_sampler.md R151): the scaled weights `p`, the tables so far, and the two work lists
with the element to be taken next at the head (the spec's "last element"). -/
structure PairingWork where
  p : List F64
  entries : List AliasEntry
  small : List Nat
  large : List Nat
  deriving DecidableEq, Repr

/-- `p[i]`. -/
def PairingWork.weight (k : PairingWork) (i : Nat) : F64 := k.p.getD i fZero

/-- The work before the first pairing: the fill runs from the highest index down, so the lowest index stands at the
head of each list; the tables are `prob = 0.0`, `alias = 0` (41_sampler.md R151). -/
def pairingStart (cfg : Cfg) (p : List F64) : PairingWork where
  p := p
  entries := List.replicate p.length ⟨fZero, 0⟩
  small := (List.range p.length).filter fun j => cfg.ltF (p.getD j fZero) fOne
  large := (List.range p.length).filter fun j => !cfg.ltF (p.getD j fZero) fOne

/-- One pairing of a small entry `a` with a large entry `g` (41_sampler.md R151). -/
def pairOnce (cfg : Cfg) (k : PairingWork) (a g : Nat) (small large : List Nat) : PairingWork :=
  let pa := k.weight a
  let pg := cfg.addF (k.weight g) (cfg.subF pa fOne)
  { p := k.p.set g pg
    entries := k.entries.set a ⟨pa, g⟩
    small := if cfg.ltF pg fOne then g :: small else small
    large := if cfg.ltF pg fOne then large else g :: large }

/-- The pairing loop, while neither list is empty; each round leaves one index less in the lists, so as many rounds as
there are indices are enough (log 13). -/
def pairingLoop (cfg : Cfg) : Nat → PairingWork → PairingWork
  | 0, k => k
  | n + 1, k =>
    match k.small, k.large with
    | a :: small, g :: large => pairingLoop cfg n (pairOnce cfg k a g small large)
    | _, _ => k

/-- `prob[i] = 1.0` for every index of a list; the alias stays (41_sampler.md R151). -/
def fillOnes (entries : List AliasEntry) (l : List Nat) : List AliasEntry :=
  l.foldl (fun es i => es.modify i fun e => { e with prob := fOne }) entries

/-- The tables of a list of scaled weights (41_sampler.md R151). -/
def aliasTables (cfg : Cfg) (p : List F64) : AliasTables :=
  let k := pairingLoop cfg p.length (pairingStart cfg p)
  ⟨fillOnes (fillOnes k.entries k.large) k.small⟩

/-- The weights scaled to sum to about `n` (41_sampler.md R151). -/
def scaledWeights (cfg : Cfg) (ws : List F64) : List F64 :=
  let ratio := cfg.divF (cfg.u64ToF ws.length) (weightTotal cfg ws)
  ws.map fun w => cfg.mulF w ratio

/-- Building the tables under a capacity, or the fault that the weights raise, tested in the order of 41_sampler.md R151 (60_exceptions.md
R341). A list so long that `n` is no `u64` raises `ArithmeticOverflow` where `u64_to_f(n)` is taken (60_exceptions.md
R352; log 9). -/
def buildTables (cfg : Cfg) (cap : Option Nat) (ws : List F64) : Except FaultCode AliasTables :=
  if ws.length = 0 then .error .emptyWeights
  else if exceeds cap ws.length then .error .capacityOverflow
  else if ws.any (badWeight cfg) then .error .negativeWeight
  else if !cfg.ltF fZero (weightTotal cfg ws) then .error .zeroWeights
  else if 2 ^ 64 ≤ ws.length then .error .arithmeticOverflow
  else .ok (aliasTables cfg (scaledWeights cfg ws))

/-- The index two 64-bit draws select: `i = floor(n * r1)`, then `i` or its alias by `r2` (41_sampler.md R152, R153). -/
def sampleOfDraws (cfg : Cfg) (t : AliasTables) (x1 x2 : U64) : Except FaultCode Nat :=
  let i := cfg.fToNat (cfg.mulF (cfg.u64ToF t.n) (doubleOfDraw cfg x1))
  match t.entries[i]? with
  | none => .error .samplerIndexOutOfRange
  | some e => .ok (if cfg.ltF (doubleOfDraw cfg x2) e.prob then i else e.alternative)

/-- One sample from a generator: two draws, `r1` first (41_sampler.md R152). -/
def sampleFrom (cfg : Cfg) (t : AliasTables) (p : PrngWords) : Except FaultCode Nat :=
  sampleOfDraws cfg t (prngDraw p) (prngDraw (prngAfter p))

/-- `SMP.SETUP` (41_sampler.md R151). -/
def execSmpSetup (s : State) : StepOutcome :=
  execute s (weightsOperand s.opr) fun ws =>
    match buildTables s.cfg s.cfg.smpCap ws with
    | .error f => .next (s.raise f)
    | .ok t => (s.withSmp (some t)).answer .none

/-- `SMP.NEXT` (41_sampler.md R152, R153): the generator advances two steps, also on the fault of R153. -/
def execSmpNext (s : State) : StepOutcome :=
  execute s (noOperands s.opr) fun _ =>
    match s.smp with
    | none => .next (s.raise .samplerNotSetUp)
    | some t =>
      match s.prng with
      | none => .next (s.raise .prngNotSeeded)
      | some p =>
        match sampleFrom s.cfg t p with
        | .error f => .next ((s.withPrng (some (prngAfter (prngAfter p)))).raise f)
        | .ok i => (s.withPrng (some (prngAfter (prngAfter p)))).answer (.index i)

end Sys2Proof.Machine
end

