-- ==== Sys2Proof/Machine/Chooser.lean ====
section
/-! DEFINITION. The fragment chooser (42_chooser.md): a pure function with a private generator and private tables
(10_state.md R23). -/

namespace Sys2Proof.Machine

/-- The weights `1/(i+1)` for `i` in `0 .. n-1` (30_encoding.md R103, 42_chooser.md R172). -/
def chooserWeights (cfg : Cfg) (n : Nat) : List F64 :=
  (List.range n).map fun i => cfg.divF fOne (cfg.u64ToF (i + 1))

/-- The chooser's seed (30_encoding.md R100). -/
def chooserSeed (sequence checksum : U32) : Bytes := be32 sequence ++ be32 checksum

/-- The picking loop (42_chooser.md R173): `k` more picks, each `NextInt(g, 0, len - 1)`, the picked index removed and the
order of the rest kept. A pick past the end, which only a draw of exactly 1.0 gives, raises `ArithmeticOverflow`
(60_exceptions.md R352). -/
def pickIndexes (cfg : Cfg) : Nat → PrngWords → List Nat → Except FaultCode (List Nat)
  | 0, _, _ => .ok []
  | k + 1, g, remaining =>
    let at_ := intOfDraw cfg (prngDraw g) 0 (remaining.length - 1)
    match remaining[at_]? with
    | none => .error .arithmeticOverflow
    | some i =>
      match pickIndexes cfg k (prngAfter g) (remaining.eraseIdx at_) with
      | .error f => .error f
      | .ok picked => .ok (i :: picked)

/-- A later round (42_chooser.md R172, R173): seed, degree from the private sampler, picks from the generator two draws
on. -/
def chooseLater (cfg : Cfg) (sequence : U32) (n : Nat) (checksum : U32) : Except FaultCode (List Nat) :=
  let g := seededWords cfg (chooserSeed sequence checksum)
  match buildTables cfg none (chooserWeights cfg n) with
  | .error f => .error f
  | .ok t =>
    match sampleFrom cfg t g with
    | .error f => .error f
    | .ok k =>
      match pickIndexes cfg (k + 1) (prngAfter (prngAfter g)) (List.range n) with
      | .error f => .error f
      | .ok picked => .ok (toIndexSet picked)

/-- `Choose(sequence, sequence_count, checksum)` for `sequence >= 1`: pass-through in the first round (42_chooser.md R171),
else a later round. The result is a set, as a rising list (log 14). -/
def choose (cfg : Cfg) (sequence : U32) (n : Nat) (checksum : U32) : Except FaultCode (List Nat) :=
  if sequence.toNat ≤ n then .ok [sequence.toNat - 1] else chooseLater cfg sequence n checksum

/-- `CHS.CHOOSE` (42_chooser.md R170, R174). -/
def execChsChoose (s : State) : StepOutcome :=
  execute s (choiceOperands s.cfg.usize s.opr) fun o =>
    if o.sequence = 0 ∨ o.sequenceCount = 0 then .next (s.raise .chooserPrecondition)
    else if exceeds s.cfg.maxFragments o.sequenceCount then .next (s.raise .capacityOverflow)
    else
      match choose s.cfg o.sequence o.sequenceCount o.checksum with
      | .error f => .next (s.raise f)
      | .ok indexes => s.answer (.indexes indexes)

end Sys2Proof.Machine
end

