-- ==== Sys2Proof/Machine/Flags.lean ====
section
/-! DEFINITION. The status flags and counters of the block as functions of its state (10_state.md R25 and the table of
R20) and the record `SYS.STATUS` shows (46_system.md R262). The block has no condition codes. -/

namespace Sys2Proof.Machine

/-- `prng.seeded`: whether `prng.s` holds a value (10_state.md R22). -/
def State.prngSeeded (s : State) : Bool := s.prng.isSome

/-- `smp.valid` (10_state.md R39). -/
def State.smpValid (s : State) : Bool := s.smp.isSome

/-- `enc.started` (10_state.md R26). -/
def State.encStarted (s : State) : Bool := s.enc.isSome

/-- `dec.state` (10_state.md R31). -/
def Decoder.state : Decoder → DecoderState
  | .empty => .empty
  | .accumulating _ => .accumulating
  | .complete _ => .complete
  | .failed _ => .failed

/-- What the decoder holds of its message, in the states in which it can be read (10_state.md R31 to R37). -/
def Decoder.assembly : Decoder → Option Assembly
  | .empty => none
  | .accumulating a => some a
  | .complete a => some a
  | .failed _ => none

/-- `dec.desc` (10_state.md R34). -/
def Decoder.desc (d : Decoder) : Option MessageDescription := d.assembly.map Assembly.desc

/-- `dec.buf`, the space `DBUF` (10_state.md R32). -/
def Decoder.buf (d : Decoder) : Option Bytes := d.assembly.map Assembly.buf

/-- `dec.resolved` (10_state.md R33). -/
def Decoder.resolved (d : Decoder) : List Nat := (d.assembly.map Assembly.resolved).getD []

/-- `dec.fifo` (10_state.md R36). -/
def Decoder.fifo (d : Decoder) : List IndexedPart := (d.assembly.map Assembly.fifo).getD []

/-- `dec.mixed` (10_state.md R37). -/
def Decoder.mixed (d : Decoder) : List IndexedPart := (d.assembly.map Assembly.mixed).getD []

/-- `dec.fail` (10_state.md R38). -/
def Decoder.fail : Decoder → Option CapacityError
  | .failed e => some e
  | _ => none

/-- The field `dec_resolved`: the number of elements of `dec.resolved`; a free value in state `Failed`, where the spec
leaves it unspecified (46_system.md R262; log 7). -/
def State.resolvedCount (s : State) : Nat :=
  match s.dec with
  | .failed _ => Config.failedResolved s.freeIndex
  | d => d.resolved.length

/-- The field `dec_pending`: the number of items of `dec.mixed`; a free value in state `Failed`, where the spec leaves it
unspecified (46_system.md R262; log 7). -/
def State.pendingCount (s : State) : Nat :=
  match s.dec with
  | .failed _ => Config.failedPending s.freeIndex
  | d => d.mixed.length

/-- The status record (46_system.md R262). -/
def State.statusRecord (s : State) : StatusRecord where
  fault := s.sysFault
  prngSeeded := s.prngSeeded
  smpValid := s.smpValid
  smpN := (s.smp.map AliasTables.n).getD 0
  encStarted := s.encStarted
  encSequence := (s.enc.map Encoder.currentSequence).getD 0
  encAllEmitted := (s.enc.map Encoder.allEmitted).getD false
  decState := s.dec.state
  decResolved := s.resolvedCount
  decPending := s.pendingCount
  decFail := s.dec.fail

end Sys2Proof.Machine
end

