-- ==== Sys2Proof/Machine/Decoder.lean ====
section
/-! DEFINITION. The fountain decoder (44_decoder.md): the restricted solver of R206 to R211, not elimination (R225). -/

namespace Sys2Proof.Machine

/-- Why the drain loop ends an operation early: a capacity error (44_decoder.md R223), or an access outside a space, which
no run makes (20_memory.md R73). -/
inductive DrainStop
  | capacity (e : CapacityError)
  | outside (space : Space)
  deriving DecidableEq, Repr

/-- The description a part carries (44_decoder.md R202, R203). -/
def Part.description (p : Part) : MessageDescription where
  sequenceCount := p.sequenceCount
  messageLength := p.messageLength
  checksum := p.checksum
  fragmentLength := p.data.length

/-- The five conditions of `InvalidPart` (44_decoder.md R201). -/
def Part.invalid (p : Part) : Bool :=
  p.sequence == 0 || p.sequenceCount == 0 || p.messageLength == 0 || p.data.length == 0
    || decide (p.messageLength < p.data.length)

/-- The space a first part needs against `MSG_CAP`, and against `2^USIZE_BITS - 1` which bounds every `usize`
(44_decoder.md R202; log 21): the capacity it exceeds, if it does. -/
def exceededSpace (cfg : Cfg) (need : Nat) : Option Nat :=
  if exceeds cfg.msgCap need then cfg.msgCap
  else if cfg.usize.maxValue < need then some cfg.usize.maxValue
  else none

/-- The assembly of a first part, or the capacity error, tested in the order of 44_decoder.md R202. -/
def firstAssembly (cfg : Cfg) (p : Part) : Except CapacityError Assembly :=
  let need := p.data.length * p.sequenceCount
  if exceeds cfg.fragCap p.data.length then .error .fragmentTooBig
  else if exceeds cfg.maxFragments p.sequenceCount then .error .tooManyFragments
  else
    match exceededSpace cfg need with
    | some capacity => .error (.notEnoughSpace need capacity)
    | none => .ok ⟨p.description, zeroBytes need, [], [], []⟩

/-- Whether one index set lies inside another. -/
def indexSubset (a b : List Nat) : Bool := a.all fun i => b.contains i

/-- `Reduce(a, b)` (44_decoder.md R206): only by a strict subset. -/
def reducePart (a b : IndexedPart) : IndexedPart :=
  if indexSubset b.indexes a.indexes && !indexSubset a.indexes b.indexes then
    ⟨a.indexes.filter fun i => !b.indexes.contains i, xorBytes a.data b.data⟩
  else a

/-- Whether a part is simple (10_state.md R35). -/
def IndexedPart.simple (p : IndexedPart) : Bool := p.indexes.length == 1

/-- Append to the FIFO, or `QueueFull` (44_decoder.md R204, R223). -/
def appendFifo (cfg : Cfg) (a : Assembly) (p : IndexedPart) : Except DrainStop Assembly :=
  match cfg.queueCap with
  | none => .ok { a with fifo := a.fifo ++ [p] }
  | some c =>
    if c < a.fifo.length + 1 then .error (.capacity (.queueFull .fifo c)) else .ok { a with fifo := a.fifo ++ [p] }

/-- Append several parts to the FIFO, in order. -/
def appendAllFifo (cfg : Cfg) : Assembly → List IndexedPart → Except DrainStop Assembly
  | a, [] => .ok a
  | a, p :: rest =>
    match appendFifo cfg a p with
    | .error e => .error e
    | .ok a' => appendAllFifo cfg a' rest

/-- Append to the pending list, or `QueueFull` (44_decoder.md R210, R223). -/
def appendMixed (cfg : Cfg) (a : Assembly) (p : IndexedPart) : Except DrainStop Assembly :=
  match cfg.mixedCap with
  | none => .ok { a with mixed := a.mixed ++ [p] }
  | some c =>
    if c < a.mixed.length + 1 then .error (.capacity (.queueFull .mixed c)) else .ok { a with mixed := a.mixed ++ [p] }

/-- `ReducePending(b)` (44_decoder.md R207): every pending part is reduced by `b`; those that became simple go to the FIFO
in order, the others stay in order. -/
def reducePending (cfg : Cfg) (a : Assembly) (b : IndexedPart) : Except DrainStop Assembly :=
  let reduced := a.mixed.map fun m => reducePart m b
  appendAllFifo cfg { a with mixed := reduced.filter fun m => !m.simple } (reduced.filter IndexedPart.simple)

/-- Fragment `i` written into `DBUF` (20_memory.md R63). -/
def writeFragment (a : Assembly) (i : Nat) (d : Bytes) : Except DrainStop Assembly :=
  match memWrite a.buf (i * a.desc.fragmentLength) d with
  | none => .error (.outside .dbuf)
  | some buf => .ok { a with buf := buf }

/-- `ProcessSimple(({i}, d))` (44_decoder.md R208); the flag says whether the decoder is now complete (R212). -/
def processSimple (cfg : Cfg) (a : Assembly) (i : Nat) (d : Bytes) : Except DrainStop (Assembly × Bool) :=
  if a.resolved.contains i then .ok (a, false)
  else
    match reducePending cfg a ⟨[i], d⟩ with
    | .error e => .error e
    | .ok a1 =>
      match writeFragment a1 i d with
      | .error e => .error e
      | .ok a2 =>
        let resolved := insertIndex i a2.resolved
        .ok ({ a2 with resolved := resolved }, resolved.length == a2.desc.sequenceCount)

/-- XOR the fragments of a list of indices, read from `DBUF`, out of some data (44_decoder.md R209). -/
def subtractFragments (buf : Bytes) (fl : Nat) : List Nat → Bytes → Except DrainStop Bytes
  | [], d => .ok d
  | i :: rest, d =>
    match memRead buf (i * fl) fl with
    | none => .error (.outside .dbuf)
    | some f => subtractFragments buf fl rest (xorBytes d f)

/-- A mixed part without its resolved indices (44_decoder.md R209, the loop). -/
def withoutResolved (a : Assembly) (p : IndexedPart) : Except DrainStop IndexedPart :=
  match subtractFragments a.buf a.desc.fragmentLength (p.indexes.filter a.resolved.contains) p.data with
  | .error e => .error e
  | .ok d => .ok ⟨p.indexes.filter fun i => !a.resolved.contains i, d⟩

/-- A mixed part reduced by every pending part, head to tail (44_decoder.md R210, the loop). -/
def reduceByPending (a : Assembly) (p : IndexedPart) : IndexedPart := a.mixed.foldl reducePart p

/-- A mixed part that is still mixed: it reduces the pending parts, if the deployment says so, and is stored
(44_decoder.md R210, R211). -/
def storeMixed (cfg : Cfg) (a : Assembly) (p : IndexedPart) : Except DrainStop Assembly :=
  if cfg.reducePendingByNew then
    match reducePending cfg a p with
    | .error e => .error e
    | .ok a1 => appendMixed cfg a1 p
  else appendMixed cfg a p

/-- `ProcessMixed(p)` (44_decoder.md R209 to R211). -/
def processMixed (cfg : Cfg) (a : Assembly) (p : IndexedPart) : Except DrainStop Assembly :=
  if a.mixed.any fun m => m.indexes == p.indexes then .ok a
  else
    match withoutResolved a p with
    | .error e => .error e
    | .ok p1 =>
      if p1.indexes.length = 0 then .ok a
      else if p1.simple then appendFifo cfg a p1
      else
        let p2 := reduceByPending a p1
        if p2.simple then appendFifo cfg a p2 else storeMixed cfg a p2

/-- The drain loop (44_decoder.md R205); the flag says whether it ended because the decoder is complete. -/
def drain (cfg : Cfg) : Nat → Assembly → Except DrainStop (Assembly × Bool)
  | 0, a => .ok (a, false)
  | k + 1, a =>
    match a.fifo with
    | [] => .ok (a, false)
    | p :: rest =>
      match p.indexes with
      | [i] =>
        match processSimple cfg { a with fifo := rest } i p.data with
        | .error e => .error e
        | .ok (a', true) => .ok (a', true)
        | .ok (a', false) => drain cfg k a'
      | _ =>
        match processMixed cfg { a with fifo := rest } p with
        | .error e => .error e
        | .ok a' => drain cfg k a'

/-- As many rounds as the drain loop can take: every FIFO item is taken at most twice and every pending part once
(44_decoder.md R213, whose bound `2 + |dec.mixed|` is this number for a FIFO of one item; log 13). -/
def drainBound (a : Assembly) : Nat := 2 * a.fifo.length + a.mixed.length

/-- How `DEC.RECEIVE` ends after the drain loop: a capacity error goes through `fail_with`, and otherwise `more` says whether
the decoder is not complete (44_decoder.md R212, R223). -/
def State.finishReceive (s : State) : Except DrainStop (Assembly × Bool) → StepOutcome
  | .error (.capacity e) => s.failWith e
  | .error (.outside sp) => .fault (.outsideSpace sp)
  | .ok (a, true) => (s.withDec (.complete a)).answer (.more false)
  | .ok (a, false) => (s.withDec (.accumulating a)).answer (.more true)

/-- Steps 5 to 7 of `DEC.RECEIVE`: indexing, the FIFO, the drain loop, the result (44_decoder.md R204, R205, R212). `s` holds
the assembly `a`. -/
def receiveInto (s : State) (a : Assembly) (p : Part) : StepOutcome :=
  match choose s.cfg p.sequence a.desc.sequenceCount a.desc.checksum with
  | .error f => .next (s.raise f)
  | .ok indexes =>
    match appendFifo s.cfg a ⟨indexes, p.data⟩ with
    | .error e => s.finishReceive (.error e)
    | .ok a1 => s.finishReceive (drain s.cfg (drainBound a1) a1)

/-- `DEC.RECEIVE` (44_decoder.md R200 to R212). -/
def execDecReceive (s : State) : StepOutcome :=
  execute s (partOperand s.cfg.usize s.opr) fun p =>
    match s.dec with
    | .failed e => s.answerErr (.capacity e)
    | .complete _ => s.answer (.more false)
    | .empty =>
      if p.invalid then s.answerErr .invalidPart
      else
        match firstAssembly s.cfg p with
        | .error e => s.failWith e
        | .ok a => receiveInto (s.withDec (.accumulating a)) a p
    | .accumulating a =>
      if p.invalid then s.answerErr .invalidPart
      else if p.description = a.desc then receiveInto s a p
      else s.answerErr (.inconsistentPart p.description a.desc)

/-- `DEC.MESSAGE` (44_decoder.md R216, R217). -/
def execDecMessage (s : State) : StepOutcome :=
  execute s (noOperands s.opr) fun _ =>
    match s.dec with
    | .failed e => s.answerErr (.capacity e)
    | .empty => s.answer (.message none)
    | .accumulating _ => s.answer (.message none)
    | .complete a =>
      if a.buf.length < a.desc.messageLength then .next (s.raise .messageLengthExceedsBuffer)
      else if (a.buf.drop a.desc.messageLength).any (fun b => b != 0) then s.answerErr .invalidPadding
      else s.answer (.message (some (a.buf.take a.desc.messageLength)))

/-- `DEC.IS_COMPLETE` (44_decoder.md R218). -/
def execDecIsComplete (s : State) : StepOutcome :=
  execute s (noOperands s.opr) fun _ => s.answer (.flag (decide (s.dec.state = .complete)))

/-- The estimate of an accumulating decoder (44_decoder.md R219). -/
def percentEstimate (cfg : Cfg) (a : Assembly) : F64 :=
  let q := cfg.divF (cfg.u64ToF a.resolved.length) (cfg.mulF (cfg.u64ToF a.desc.sequenceCount) fOneAndThreeQuarters)
  if cfg.ltF fCap q then fCap else q

/-- `DEC.PERCENT` (44_decoder.md R219). -/
def execDecPercent (s : State) : StepOutcome :=
  execute s (noOperands s.opr) fun _ =>
    match s.dec with
    | .failed e => s.answerErr (.capacity e)
    | .complete _ => s.answer (.f64 fOne)
    | .empty => s.answer (.f64 fZero)
    | .accumulating a => s.answer (.f64 (percentEstimate s.cfg a))

/-- `DEC.CLEAR` (44_decoder.md R220). -/
def execDecClear (s : State) : StepOutcome :=
  execute s (noOperands s.opr) fun _ => (s.withDec .empty).answer .none

end Sys2Proof.Machine
end

