-- ==== Sys2Proof/Machine/Encoder.lean ====
section
/-! DEFINITION. The fountain encoder (43_encoder.md). -/

namespace Sys2Proof.Machine

/-- `fragment_length` of a message of `l` bytes and a maximum `m` (43_encoder.md R180). -/
def fragmentLengthFor (l m : Nat) : Nat := ceilDiv l (ceilDiv l m)

/-- `sequence_count()` (43_encoder.md R182). -/
def Encoder.sequenceCount (e : Encoder) : Nat := ceilDiv e.messageLength e.fragmentLength

/-- `Frag(i)` of a message cut in fragments of `fl` bytes: zero past the message's end (20_memory.md R61, R62). -/
def fragmentOf (message : Bytes) (fl i : Nat) : Bytes :=
  let present := (message.drop (i * fl)).take fl
  present ++ zeroBytes (fl - present.length)

/-- The XOR of the fragments of a set of indices, in the scratch buffer (43_encoder.md R183). -/
def combineFragments (message : Bytes) (fl : Nat) (indexes : List Nat) : Bytes :=
  indexes.foldl (fun acc i => xorBytes acc (fragmentOf message fl i)) (zeroBytes fl)

/-- The encoder that `ENC.START` binds (43_encoder.md R181); the scratch buffer has no content yet (10_state.md R30). -/
def startedEncoder (cfg : Cfg) (message : Bytes) (m : Nat) : Encoder where
  message := message
  fragmentLength := fragmentLengthFor message.length m
  checksum := cfg.crc32Of message
  currentSequence := 0
  allEmitted := false
  scratch := none

/-- The encoder with its counter advanced, wrapping (43_encoder.md R183, 10_state.md R27). -/
def Encoder.advance (e : Encoder) : Encoder := { e with currentSequence := e.currentSequence + 1 }

/-- The encoder after it has emitted the part of a set of indices: the scratch buffer holds the data, and the flag is set
by part `sequence_count` (43_encoder.md R183, R184). -/
def Encoder.emit (e : Encoder) (indexes : List Nat) : Encoder :=
  { e with
    scratch := some (combineFragments e.message e.fragmentLength indexes)
    allEmitted := e.allEmitted || decide (e.currentSequence.toNat = e.sequenceCount) }

/-- The part of a set of indices under the encoder's current sequence number (43_encoder.md R183, 30_encoding.md R97). -/
def Encoder.partFor (e : Encoder) (indexes : List Nat) : Part where
  sequence := e.currentSequence
  sequenceCount := e.sequenceCount
  messageLength := e.messageLength
  checksum := e.checksum
  data := combineFragments e.message e.fragmentLength indexes

/-- `ENC.START` (43_encoder.md R181). A message whose length is no `usize` raises `ArithmeticOverflow` where its length
is taken (00_scope.md R10, 60_exceptions.md R352; log 10). -/
def execEncStart (s : State) : StepOutcome :=
  execute s (startOperands s.cfg.usize s.opr) fun o =>
    if o.message.length = 0 then .next (s.raise .emptyMessage)
    else if o.maxFragmentLength = 0 then .next (s.raise .zeroMaxFragmentLength)
    else if 2 ^ s.cfg.usize.bits ≤ o.message.length then .next (s.raise .arithmeticOverflow)
    else
      let e := startedEncoder s.cfg o.message o.maxFragmentLength
      if exceeds s.cfg.fragCap e.fragmentLength || exceeds s.cfg.maxFragments e.sequenceCount
          || decide (2 ^ 32 - 1 < e.sequenceCount) then
        .next (s.raise .capacityOverflow)
      else (s.withEnc (some e)).answer .none

/-- `ENC.NEXT_PART` (43_encoder.md R183, R184, R186): the counter advances before anything can fail. -/
def execEncNextPart (s : State) : StepOutcome :=
  execute s (noOperands s.opr) fun _ =>
    match s.enc with
    | none => .next (s.raise .encoderNotStarted)
    | some e0 =>
      let e := e0.advance
      if e.currentSequence = 0 then .next ((s.withEnc (some e)).raise .chooserPrecondition)
      else
        match choose s.cfg e.currentSequence e.sequenceCount e.checksum with
        | .error f => .next ((s.withEnc (some e)).raise f)
        | .ok indexes => (s.withEnc (some (e.emit indexes))).answer (.part (e.partFor indexes))

/-- `ENC.SEQ_COUNT` (43_encoder.md R182). -/
def execEncSeqCount (s : State) : StepOutcome :=
  execute s (noOperands s.opr) fun _ =>
    match s.enc with
    | none => .next (s.raise .encoderNotStarted)
    | some e => s.answer (.count e.sequenceCount)

/-- `ENC.IS_COMPLETE` (43_encoder.md R185). -/
def execEncIsComplete (s : State) : StepOutcome :=
  execute s (noOperands s.opr) fun _ =>
    match s.enc with
    | none => .next (s.raise .encoderNotStarted)
    | some e => s.answer (.flag e.allEmitted)

end Sys2Proof.Machine
end

