-- ==== Sys2Proof/Machine/System.lean ====
section
/-! DEFINITION. The system unit (46_system.md). Both operations are accepted while a fault is held and whatever the
operand record is (R261, line 1; log 22). -/

namespace Sys2Proof.Machine

/-- `SYS.RESET` (46_system.md R260). -/
def execSysReset (s : State) : StepOutcome := s.resetBlock.answer .none

/-- `SYS.STATUS` (46_system.md R262). -/
def execSysStatus (s : State) : StepOutcome := s.answer (.status s.statusRecord)

end Sys2Proof.Machine
end

