-- ==== Sys2Proof/Machine/Dispatch.lean ====
section
/-! DEFINITION. One arm for each operation of 30_encoding.md R91, each a call of its meaning. -/

namespace Sys2Proof.Machine

def exec (i : Instr) (s : State) : Host.Outcome State Fault Refusal :=
  match i with
  | .sysReset => Sys2Proof.Machine.execSysReset s
  | .sysStatus => Sys2Proof.Machine.execSysStatus s
  | .prngSeedBytes => Sys2Proof.Machine.execPrngSeedBytes s
  | .prngSeedStr => Sys2Proof.Machine.execPrngSeedStr s
  | .prngSeedDigest => Sys2Proof.Machine.execPrngSeedDigest s
  | .prngNext => Sys2Proof.Machine.execPrngNext s
  | .prngNextDouble => Sys2Proof.Machine.execPrngNextDouble s
  | .prngNextInt => Sys2Proof.Machine.execPrngNextInt s
  | .smpSetup => Sys2Proof.Machine.execSmpSetup s
  | .smpNext => Sys2Proof.Machine.execSmpNext s
  | .chsChoose => Sys2Proof.Machine.execChsChoose s
  | .encStart => Sys2Proof.Machine.execEncStart s
  | .encNextPart => Sys2Proof.Machine.execEncNextPart s
  | .encSeqCount => Sys2Proof.Machine.execEncSeqCount s
  | .encIsComplete => Sys2Proof.Machine.execEncIsComplete s
  | .decReceive => Sys2Proof.Machine.execDecReceive s
  | .decMessage => Sys2Proof.Machine.execDecMessage s
  | .decIsComplete => Sys2Proof.Machine.execDecIsComplete s
  | .decPercent => Sys2Proof.Machine.execDecPercent s
  | .decClear => Sys2Proof.Machine.execDecClear s
  | .bwdEncodeStandard => Sys2Proof.Machine.execBwdEncodeStandard s
  | .bwdEncodeUri => Sys2Proof.Machine.execBwdEncodeUri s
  | .bwdEncodeMinimal => Sys2Proof.Machine.execBwdEncodeMinimal s
  | .bwdDecodeStandard => Sys2Proof.Machine.execBwdDecodeStandard s
  | .bwdDecodeUri => Sys2Proof.Machine.execBwdDecodeUri s
  | .bwdDecodeMinimal => Sys2Proof.Machine.execBwdDecodeMinimal s

end Sys2Proof.Machine
end

