-- ==== Sys2Proof/Machine/Accept.lean ====
section
/-! DEFINITION. Accepting a request (46_system.md R261, 30_encoding.md R94), and the request that carries a table word. -/

namespace Sys2Proof.Machine

/-- A command word that is no operation: a held fault answers; otherwise `IllegalCommand` is raised and nothing else
changes (46_system.md R261, lines 2 and 3; 30_encoding.md R94). -/
def rejectCommand (s : State) : StepOutcome :=
  match s.sysFault with
  | some f => .next (s.reply (.fault f))
  | none => .next (s.raise .illegalCommand)

/-- The block takes a request: the operand record stands in `OPR`, the command word selects the operation (46_system.md
R261, 30_encoding.md R90, R92). -/
def accept (r : Request) (rest : List Request) (s : State) : StepOutcome :=
  match decode r.cmd with
  | .ok i => exec i (s.present r.operands rest)
  | .error _ => rejectCommand (s.present r.operands rest)

/-- The request with a command word and the operand record whose every field is zero (log 4). -/
def requestOfWord (w : Nat) : Request :=
  let cmd := BitVec.ofNat 8 w
  match decode cmd with
  | .ok i => ⟨cmd, zeroOperands i⟩
  | .error _ => ⟨cmd, .empty⟩

end Sys2Proof.Machine
end

