-- ==== Sys2Proof/Machine/Step.lean ====
section
/-! DEFINITION. One step: the block takes the next operation the host issues (46_system.md R263, R265). -/

namespace Sys2Proof.Machine

/-- One step. The block fetches nothing (10_state.md R24): the host issues its operations one after another, and a step is
one operation from acceptance to result (46_system.md R263). With nothing issued the block holds its state
(60_exceptions.md R357; log 2). -/
def step (s : State) : Host.Outcome State Fault Refusal :=
  match s.issue with
  | [] => .next s
  | r :: rest => accept r rest s

/-- The state in which the host issues the command word `w` next, with an operand record of zeros (log 4). The table's
words have 8 bits, so `nbits` places nothing more. -/
def State.withFetchWord (s : State) (nbits w : Nat) : State :=
  { s with issue := requestOfWord (w % 2 ^ min nbits 8) :: s.issue }

end Sys2Proof.Machine
end

