-- ==== Sys2Proof/Machine/Framing.lean ====
section
/-! DEFINITION. The host's framing functions (47_host_framing.md): the binary form of a part and the URI. They are the
host's, not operations of the block: nothing of `exec` or `step` uses them (00_scope.md R4; log 23). What the host does with
them is in Machine/HostLayer.lean. -/

namespace Sys2Proof.Machine

/-- A number as `k` bytes, most significant first (47_host_framing.md R271). -/
def beBytes : Nat → Nat → Bytes
  | 0, _ => []
  | k + 1, v => BitVec.ofNat 8 (v / 256 ^ k) :: beBytes k v

/-- The CBOR head `U(m, v)` in its shortest form (47_host_framing.md R271). -/
def cborHead (major v : Nat) : Bytes :=
  if v < 24 then [BitVec.ofNat 8 (32 * major + v)]
  else if v < 2 ^ 8 then BitVec.ofNat 8 (32 * major + 24) :: beBytes 1 v
  else if v < 2 ^ 16 then BitVec.ofNat 8 (32 * major + 25) :: beBytes 2 v
  else if v < 2 ^ 32 then BitVec.ofNat 8 (32 * major + 26) :: beBytes 4 v
  else BitVec.ofNat 8 (32 * major + 27) :: beBytes 8 v

/-- `PartBytes` of the five fields, as CBOR writes them (47_host_framing.md R270, R271). -/
def cborPart (p : RawPart) : Bytes :=
  0x85 :: cborHead 0 p.sequence ++ cborHead 0 p.sequenceCount ++ cborHead 0 p.messageLength
    ++ cborHead 0 p.checksum ++ cborHead 2 p.data.length ++ p.data

/-- A CBOR head of a major type, and the bytes after it (47_host_framing.md R271). -/
def readHead (major : Nat) : Bytes → Option (Nat × Bytes)
  | [] => none
  | b :: rest =>
    let argument := b.toNat % 32
    let following := 2 ^ (argument - 24)
    if b.toNat / 32 ≠ major ∨ 27 < argument then none
    else if argument < 24 then some (argument, rest)
    else if rest.length < following then none
    else some (beNat (rest.take following), rest.drop following)

/-- The heads of several numbers, one after the other, and the bytes after them. -/
def readNumbers : Nat → Bytes → Option (List Nat × Bytes)
  | 0, b => some ([], b)
  | k + 1, b =>
    match readHead 0 b with
    | none => none
    | some (v, rest) =>
      match readNumbers k rest with
      | none => none
      | some (vs, after) => some (v :: vs, after)

/-- The five fields of which the bytes are `PartBytes`, if there are such (47_host_framing.md R271). What is read is written
again and compared, so another form of a number, a wrong length and trailing bytes are not `PartBytes` of anything. -/
def readCborPart (b : Bytes) : Option RawPart :=
  match readNumbers 4 (b.drop 1) with
  | some ([sequence, sequenceCount, messageLength, checksum], after) =>
    match readHead 2 after with
    | none => none
    | some (_, data) =>
      let p : RawPart := ⟨sequence, sequenceCount, messageLength, checksum, data⟩
      if cborPart p = b then some p else none
  | _ => none

/-- Free value: what the host's codec makes of bytes that are not `PartBytes` of anything; the spec names no outcome for
them, and nothing says that a codec refuses them (47_host_framing.md R273; log 23). -/
opaque Config.foreignPart : Bytes → Option RawPart

/-- The bytes that another codec than CBOR writes (47_host_framing.md R270, 00_scope.md R9; log 17). -/
opaque Config.otherPartBytes : Nat → RawPart → Bytes

/-- What another codec than CBOR reads (47_host_framing.md R273, 00_scope.md R9; log 17). -/
opaque Config.otherPartOfBytes : Nat → Bytes → Option RawPart

/-- `PartBytes(p)` under the host's codec (47_host_framing.md R270, R271). -/
def partBytes (codec : Collaborator) (p : Part) : Bytes :=
  match codec with
  | .standard => cborPart p.toRaw
  | .other k => Config.otherPartBytes k p.toRaw

/-- Reading the binary form of a part back (47_host_framing.md R273): `none` where the codec fails. What CBOR has written is
read as what it was (R270, "consumed/produced"; DEDUCED, log 23). -/
def partOfBytes (codec : Collaborator) (b : Bytes) : Option RawPart :=
  match codec with
  | .standard =>
    match readCborPart b with
    | some p => some p
    | none => Config.foreignPart b
  | .other k => Config.otherPartOfBytes k b

/-- The decimal digits of a number in at most `k` places, as ASCII, without leading zeros (47_host_framing.md R275). -/
def decimalDigits : Nat → Nat → Bytes
  | 0, _ => []
  | k + 1, n =>
    if n < 10 then [BitVec.ofNat 8 (48 + n)] else decimalDigits k (n / 10) ++ [BitVec.ofNat 8 (48 + n % 10)]

/-- `dec` of a `u32`, which has at most ten digits (47_host_framing.md R275). -/
def decimal (n : Nat) : Bytes := decimalDigits 10 n

/-- The prefix `ur:` (47_host_framing.md R274). -/
def urScheme : Bytes := ascii "ur:"

/-- `UrSingle(type, payload)` (47_host_framing.md R274), its `BWD.ENCODE[Minimal]` as a function of bytes (log 28). -/
def urSingle (cfg : Cfg) (urType payload : Bytes) : Bytes := urScheme ++ urType ++ 0x2F :: encodeText cfg .minimal payload

/-- `UrMulti(type, p)` (47_host_framing.md R275), its `BWD.ENCODE[Minimal]` as a function of bytes (log 28). -/
def urMulti (cfg : Cfg) (codec : Collaborator) (urType : Bytes) (p : Part) : Bytes :=
  urScheme ++ urType ++ 0x2F :: decimal p.sequence.toNat ++ 0x2D :: decimal p.sequenceCount
    ++ 0x2F :: encodeText cfg .minimal (partBytes codec p)

/-- The errors of `ParseUr` (47_host_framing.md R276, R280). -/
inductive UrError
  | invalidScheme
  | typeUnspecified
  | invalidCharacters
  | invalidIndices
  deriving DecidableEq, Repr

/-- A parsed URI (47_host_framing.md R276). -/
inductive ParsedUr
  | single (urType payloadText : Bytes)
  | multi (urType : Bytes) (sequence sequenceCount : Nat) (payloadText : Bytes)
  deriving DecidableEq, Repr

/-- Cut at the first occurrence of a byte, which belongs to neither piece (47_host_framing.md R276). -/
def cutAtByte (sep : Byte) : Bytes → Option (Bytes × Bytes)
  | [] => none
  | x :: rest =>
    if x = sep then some ([], rest)
    else
      match cutAtByte sep rest with
      | none => none
      | some (before, after) => some (x :: before, after)

/-- A character of a type: `A-Z`, `a-z`, `0-9`, `-` (47_host_framing.md R276). -/
def isTypeByte (b : Byte) : Bool :=
  decide (0x41 ≤ b.toNat ∧ b.toNat ≤ 0x5A) || decide (0x61 ≤ b.toNat ∧ b.toNat ≤ 0x7A)
    || decide (0x30 ≤ b.toNat ∧ b.toNat ≤ 0x39) || b == 0x2D

/-- The value of one or more decimal digits that fit a `u32` (47_host_framing.md R276, 92_eei_decisions.md D30). -/
def digitsValue (b : Bytes) : Option Nat :=
  if b.length = 0 ∨ b.any (fun x => decide (x.toNat < 0x30) || decide (0x39 < x.toNat)) then none
  else
    let v := b.foldl (fun acc x => 10 * acc + (x.toNat - 0x30)) 0
    if v < 2 ^ 32 then some v else none

/-- `<digits> "-" <digits>` (47_host_framing.md R276). -/
def parseIndices (idx : Bytes) : Option (Nat × Nat) :=
  match cutAtByte 0x2D idx with
  | none => none
  | some (first, second) =>
    match digitsValue first, digitsValue second with
    | some sequence, some count => some (sequence, count)
    | _, _ => none

/-- `ParseUr(text)`, its tests in the order of 47_host_framing.md R276. -/
def parseUr (text : Bytes) : Except UrError ParsedUr :=
  if text.take 3 ≠ urScheme then .error .invalidScheme
  else
    match cutAtByte 0x2F (text.drop 3) with
    | none => .error .typeUnspecified
    | some (urType, remainder) =>
      if urType.length = 0 ∨ !urType.all isTypeByte then .error .invalidCharacters
      else
        match cutAtByte 0x2F remainder with
        | none => .ok (.single urType remainder)
        | some (idx, payloadText) =>
          match parseIndices idx with
          | none => .error .invalidIndices
          | some (sequence, count) => .ok (.multi urType sequence count payloadText)

end Sys2Proof.Machine
end

