-- ==== Sys2Proof/Machine/HostLayer.lean ====
section
/-! DEFINITION. The host-level encoder and receive (47_host_framing.md R277, R278): what the host does around the block. A
host function issues operations to the block one after another and looks at their results; nothing of `exec` or `step` uses
this file (00_scope.md R4; log 23). -/

namespace Sys2Proof.Machine

/-- The errors of the host's layer (47_host_framing.md R278, R280), none of them an outcome or a status of the block. -/
inductive HostError
  /-- An error of `ParseUr`: data validity (R276, R280). -/
  | uri (e : UrError)
  /-- A type string longer than the host's fixed buffer for it: capacity (R278, R280). -/
  | urTypeTooBig
  /-- A fragment limit above the host's own scratch buffer: capacity (R278). -/
  | fragmentTooBig
  /-- The codec fails, or its fields do not fit a part; the spec names no error (R273; log 23). -/
  | malformedPart
  deriving DecidableEq, Repr

/-- The classes of 60_exceptions.md R330 that an error of the host's layer can have. -/
inductive HostErrorClass
  | dataValidity
  | capacity
  deriving DecidableEq, Repr

/-- The class of an error of the host's layer (47_host_framing.md R280, 60_exceptions.md R330). That a malformed binary part
is a data-validity error is the model's (R273 names none; log 23). -/
def HostError.errorClass : HostError → HostErrorClass
  | .uri _ => .dataValidity
  | .urTypeTooBig => .capacity
  | .fragmentTooBig => .capacity
  | .malformedPart => .dataValidity

/-- What a host function answers: the block's own result record, as it stands in `RES`; a URI; the message of a single-part
URI; or an error of the host's layer. -/
inductive HostReply
  | block (record : Option Reply)
  | uri (text : Bytes)
  | message (message : Bytes)
  | error (e : HostError)
  deriving DecidableEq, Repr

/-- The host and its block: the host's parameters, and the type string its encoder keeps (47_host_framing.md R278), `none` before
the first start. It is the host's and no element of the block. That the host keeps no type of a received URI for the source's
`ur_type()` is the model's (R277, 91_not_in_source.md N13; DESIGN CHOICE, log 27). -/
structure HostSide where
  block : State
  cfg : HostCfg
  urType : Option Bytes
  deriving DecidableEq, Repr

/-- A host function's answer with the host after it. -/
structure HostResult where
  side : HostSide
  reply : HostReply
  deriving DecidableEq, Repr

/-- How a host function ends; it stops only where the block's model stops. -/
abbrev HostOutcome := Host.Outcome HostResult Fault Refusal

/-- The host's answer, with no operation issued since `h`. -/
def HostSide.answer (h : HostSide) (r : HostReply) : HostOutcome := .next ⟨h, r⟩

/-- The host with the block after an operation. -/
def HostSide.withBlock (h : HostSide) (s : State) : HostSide := { h with block := s }

/-- The host keeps a type string (47_host_framing.md R278). -/
def HostSide.withType (h : HostSide) (urType : Bytes) : HostSide := { h with urType := some urType }

/-- The host issues one operation and goes on with the host after it, whose block holds the result record in `RES`. -/
def HostSide.issue (h : HostSide) (i : Instr) (operands : OperandRecord) (next : HostSide → HostOutcome) : HostOutcome :=
  match step { h.block with issue := ⟨encode i, operands⟩ :: h.block.issue } with
  | .next s => next (h.withBlock s)
  | .fault f => .fault f
  | .refused r => .refused r

/-- `start(ur_type, message, max_fragment_length)` (47_host_framing.md R278): `ENC.START`, and the type string is kept if it
succeeds. The two capacity errors end it before anything is issued; their order is the model's (log 26). -/
def hostStart (h : HostSide) (urType message : Bytes) (maxFragmentLength : Nat) : HostOutcome :=
  if exceeds h.cfg.typeCap urType.length then h.answer (.error .urTypeTooBig)
  else if exceeds h.cfg.scratchCap maxFragmentLength then h.answer (.error .fragmentTooBig)
  else
    h.issue .encStart (.start message maxFragmentLength) fun h =>
      match h.block.res with
      | some (.ok fields) => (h.withType urType).answer (.block (some (.ok fields)))
      | record => h.answer (.block record)

/-- The host-level `next_part` (47_host_framing.md R278): `ENC.NEXT_PART`, and `UrMulti` of the part. Without a type string,
which no host that starts its encoder by `hostStart` meets, the part is answered as it is (log 26). That the `BWD.ENCODE[Minimal]`
inside `UrMulti` is a function here and no operation issued to the block, so that `RES` keeps the part's record, is the model's
(DESIGN CHOICE, log 28). -/
def hostNextPart (h : HostSide) : HostOutcome :=
  h.issue .encNextPart .empty fun h =>
    match h.block.res, h.urType with
    | some (.ok (.part p)), some urType => h.answer (.uri (urMulti h.block.cfg h.cfg.codec urType p))
    | record, _ => h.answer (.block record)

/-- The part that the codec reads and that a host may present: fields that do not fit a part are not presented
(47_host_framing.md R273). -/
def hostPart (h : HostSide) (b : Bytes) : Option Part :=
  match partOfBytes h.cfg.codec b with
  | none => none
  | some p => partOperand h.block.cfg.usize (.part p)

/-- The payload text of a part: `BWD.DECODE[Minimal]`, the codec, `DEC.RECEIVE`; the first failure ends the attempt
(47_host_framing.md R277). -/
def hostReceiveMulti (h : HostSide) (payloadText : Bytes) : HostOutcome :=
  h.issue .bwdDecodeMinimal (.text payloadText) fun h =>
    match h.block.res with
    | some (.ok (.payload b)) =>
      match hostPart h b with
      | none => h.answer (.error .malformedPart)
      | some p => h.issue .decReceive p.toRecord fun h => h.answer (.block h.block.res)
    | record => h.answer (.block record)

/-- The payload text of a single-part URI: its payload is the message (47_host_framing.md R277). -/
def hostReceiveSingle (h : HostSide) (payloadText : Bytes) : HostOutcome :=
  h.issue .bwdDecodeMinimal (.text payloadText) fun h =>
    match h.block.res with
    | some (.ok (.payload b)) => h.answer (.message b)
    | record => h.answer (.block record)

/-- The host-level receive of a URI (47_host_framing.md R277). The numbers in clear are not compared with those of the part,
nor its type with that of an earlier one: a host must not assume either check (R277). That a type too long for the host's
buffer ends it before the payload is decoded is the model's (R280; log 26), and so is that the text is taken as it is, its
letters not lowered (R279), and that its type is not kept for `ur_type()` (R277): nothing states either (91_not_in_source.md N13;
DESIGN CHOICE, log 27). -/
def hostReceive (h : HostSide) (text : Bytes) : HostOutcome :=
  match parseUr text with
  | .error e => h.answer (.error (.uri e))
  | .ok (.single urType payloadText) =>
    if exceeds h.cfg.typeCap urType.length then h.answer (.error .urTypeTooBig) else hostReceiveSingle h payloadText
  | .ok (.multi urType _ _ payloadText) =>
    if exceeds h.cfg.typeCap urType.length then h.answer (.error .urTypeTooBig) else hostReceiveMulti h payloadText

end Sys2Proof.Machine
end

