-- ==== Sys2Proof/Safety.lean ====
section
/-! DEFINITION. What holds of the block in every state a run reaches, in the terms the statements use: the invariant of
10_state.md, and what it means that a decoder holds pieces of one message. -/

namespace Sys2Proof.Machine

/-- The sampler's tables as 10_state.md R20 and R39 describe them: at least one entry and no more than `SMP_CAP`, every
alias an index below `smp.n`, every probability below 1.0 or 1.0 itself. -/
def AliasTables.Ok (cfg : Cfg) (t : AliasTables) : Prop :=
  1 ≤ t.n ∧ t.n < 2 ^ 64 ∧ exceeds cfg.smpCap t.n = false ∧
    ∀ e ∈ t.entries, e.alternative < t.n ∧ (cfg.ltF e.prob fOne = true ∨ e.prob = fOne)

/-- The encoder as 10_state.md R20 and R26 to R30 describe it: a non-empty message whose length is a `usize`, fragments of
at least one byte and no longer than the message, a fragment count that is a `u32`, the capacities kept, the checksum of the message, a scratch buffer of
one fragment once it is written, and the completion flag clear only while some fragment is still to come. -/
def Encoder.Ok (cfg : Cfg) (e : Encoder) : Prop :=
  1 ≤ e.messageLength ∧ e.messageLength < 2 ^ cfg.usize.bits ∧ 1 ≤ e.fragmentLength ∧
    e.fragmentLength ≤ e.messageLength ∧ e.sequenceCount ≤ 2 ^ 32 - 1 ∧ exceeds cfg.fragCap e.fragmentLength = false ∧
    exceeds cfg.maxFragments e.sequenceCount = false ∧ e.checksum = cfg.crc32Of e.message ∧
    (∀ b, e.scratch = some b → b.length = e.fragmentLength) ∧
    (e.allEmitted = false → e.currentSequence.toNat < e.sequenceCount)

/-- An index set as the model holds it: rising, every element below `n` (10_state.md R33, R35). -/
def IndexSet (n : Nat) (l : List Nat) : Prop := l.Pairwise (· < ·) ∧ ∀ i ∈ l, i < n

/-- An `IndexedPart` of the decoder: a non-empty index set, data of one fragment (10_state.md R35). -/
def IndexedPart.Ok (d : MessageDescription) (p : IndexedPart) : Prop :=
  IndexSet d.sequenceCount p.indexes ∧ p.indexes ≠ [] ∧ p.data.length = d.fragmentLength

/-- What the decoder holds of a message, as 10_state.md R32 to R37 describe it: a description that a valid part has
established, a buffer of all fragments within the capacities, a set of resolved indices, well-formed records in the two
lists, and pending parts that are mixed and name no resolved index. -/
def Assembly.Ok (cfg : Cfg) (a : Assembly) : Prop :=
  1 ≤ a.desc.sequenceCount ∧ a.desc.sequenceCount < 2 ^ 32 ∧ 1 ≤ a.desc.fragmentLength ∧
    a.desc.fragmentLength ≤ a.desc.messageLength ∧ a.desc.messageLength < 2 ^ cfg.usize.bits ∧
    a.buf.length = a.desc.fragmentLength * a.desc.sequenceCount ∧
    a.buf.length ≤ cfg.usize.maxValue ∧ exceeds cfg.msgCap a.buf.length = false ∧
    exceeds cfg.fragCap a.desc.fragmentLength = false ∧ exceeds cfg.maxFragments a.desc.sequenceCount = false ∧
    IndexSet a.desc.sequenceCount a.resolved ∧
    (∀ p ∈ a.fifo, p.Ok a.desc) ∧ exceeds cfg.queueCap a.fifo.length = false ∧
    (∀ p ∈ a.mixed, p.Ok a.desc ∧ 2 ≤ p.indexes.length ∧ ∀ i ∈ p.indexes, i ∉ a.resolved) ∧
    exceeds cfg.mixedCap a.mixed.length = false

/-- The decoder in each of its states (10_state.md R31): between two operations the FIFO of an accumulating decoder is
empty (R36) and some index is unresolved; a complete decoder has resolved every index (44_decoder.md R212). -/
def Decoder.Ok (cfg : Cfg) : Decoder → Prop
  | .empty => True
  | .accumulating a => a.Ok cfg ∧ a.fifo = [] ∧ a.resolved.length < a.desc.sequenceCount
  | .complete a => a.Ok cfg ∧ a.resolved.length = a.desc.sequenceCount
  | .failed _ => True

/-- The invariant of the block: what 10_state.md says of every element, whatever the host has issued. -/
def State.Inv (s : State) : Prop :=
  (∀ t, s.smp = some t → t.Ok s.cfg) ∧ (∀ e, s.enc = some e → e.Ok s.cfg) ∧ s.dec.Ok s.cfg

/-- A safe state: the next step answers a next state, neither a fault nor a refusal of the model. -/
def State.Safe (s : State) : Prop := ∃ t, step s = .next t

/-- The description of a message cut in fragments of `fl` bytes (10_state.md R34). -/
def describes (cfg : Cfg) (d : MessageDescription) (message : Bytes) (fl : Nat) : Prop :=
  d = ⟨ceilDiv message.length fl, message.length, cfg.crc32Of message, fl⟩

/-- The decoder's invariant of 10_state.md R35: the data is the XOR of the zero-padded fragments the index set names. -/
def IndexedPart.Consistent (message : Bytes) (fl : Nat) (p : IndexedPart) : Prop :=
  p.data = combineFragments message fl p.indexes

/-- Everything the decoder holds is a piece of one message: the buffer has the message's fragment at every resolved
index, and both lists hold XORs of its fragments (10_state.md R35, 44_decoder.md R215). -/
def Assembly.Consistent (cfg : Cfg) (message : Bytes) (fl : Nat) (a : Assembly) : Prop :=
  describes cfg a.desc message fl ∧
    (∀ i ∈ a.resolved, memRead a.buf (i * fl) fl = some (fragmentOf message fl i)) ∧
    (∀ p ∈ a.fifo, p.Consistent message fl) ∧ (∀ p ∈ a.mixed, p.Consistent message fl)

/-- The decoder holds nothing, or only pieces of one message. -/
def Decoder.Consistent (cfg : Cfg) (message : Bytes) (fl : Nat) : Decoder → Prop
  | .empty => True
  | .accumulating a => a.Consistent cfg message fl
  | .complete a => a.Consistent cfg message fl
  | .failed _ => True

/-- The part number `sequence` of the stream of a message in fragments of `fl` bytes whose index set is `indexes`
(43_encoder.md R183, R189). -/
def streamPart (cfg : Cfg) (message : Bytes) (fl : Nat) (sequence : U32) (indexes : List Nat) : Part :=
  ⟨sequence, ceilDiv message.length fl, message.length, cfg.crc32Of message, combineFragments message fl indexes⟩

/-- Byte `k` of the XOR of the fragments of a list of indices, the message read as zero past its end (20_memory.md R61,
R62). -/
def xorOfMessageBytes (message : Bytes) (fl k : Nat) (indexes : List Nat) : Byte :=
  indexes.foldl (fun acc i => acc ^^^ message.getD (i * fl + k) 0) 0

/-- The request that hands a part to the decoder (30_encoding.md R91). -/
def receiveRequest (p : Part) : Request := ⟨0x50, p.toRecord⟩

/-- The requests that hand parts `1` to `n` of a message's stream, its fragments in order, to the decoder (44_decoder.md
R226). -/
def firstRoundRequests (cfg : Cfg) (message : Bytes) (fl : Nat) : List Request :=
  (List.range (ceilDiv message.length fl)).map fun k =>
    receiveRequest (streamPart cfg message fl (BitVec.ofNat 32 (k + 1)) [k])

/-- A run of `n` steps, while each answers a next state (46_system.md R265). -/
def stepMany : Nat → State → StepOutcome
  | 0, s => .next s
  | n + 1, s =>
    match step s with
    | .next t => stepMany n t
    | .fault f => .fault f
    | .refused r => .refused r

/-- The pending parts with one fragment taken out: XORed out of every part that names its index, the others as they are, all
in order (44_decoder.md R207, R208). -/
def fragmentTakenOut (i : Nat) (d : Bytes) (mixed : List IndexedPart) : List IndexedPart :=
  mixed.map fun m => if i ∈ m.indexes then ⟨m.indexes.filter fun j => j ≠ i, xorBytes m.data d⟩ else m

/-- The alias method before one of its rounds (41_sampler.md R151): the weights, and the open indices below 1.0 and not
below 1.0, each side with the index taken next at the head. -/
structure PairingRound where
  p : List F64
  small : List Nat
  large : List Nat

/-- Before the first round each side holds its indices in rising order (41_sampler.md R151). -/
def StartsPairing (cfg : Cfg) (p : List F64) (r : PairingRound) : Prop :=
  r.p = p ∧ r.small = ((List.range p.length).filter fun j => cfg.ltF (p.getD j fZero) fOne) ∧
    r.large = ((List.range p.length).filter fun j => !cfg.ltF (p.getD j fZero) fOne)

/-- One round (41_sampler.md R151): the first of the small side, `a`, is closed, and the first of the large side, `g`, gives up
what `a` lacks of 1.0 and is the first of the side it then belongs to. -/
def PairingStep (cfg : Cfg) (r r' : PairingRound) : Prop :=
  ∃ (a g : Nat) (small large : List Nat) (v : F64), r.small = a :: small ∧ r.large = g :: large ∧
    v = cfg.addF (r.p.getD g fZero) (cfg.subF (r.p.getD a fZero) fOne) ∧ r'.p = r.p.set g v ∧
    if cfg.ltF v fOne then r'.small = g :: small ∧ r'.large = large else r'.small = small ∧ r'.large = g :: large

/-- The tokens of a text in a style, as 45_bytewords.md R243 and R244 describe them: what the style's separators cut the
text into, or its consecutive pairs of bytes. -/
def TokensOf (style : Style) (text : Bytes) (tokens : List Bytes) : Prop :=
  match styleSeparator style with
  | some sep => tokens ≠ [] ∧ (∀ t ∈ tokens, sep ∉ t) ∧ text = List.intercalate [sep] tokens
  | none => (∀ t ∈ tokens, t.length = 2) ∧ text = tokens.flatten

end Sys2Proof.Machine
end

