-- ==== Sys2Proof/Certificates/Slice0/Obligations.lean ====
section
/-! DEFINITION. The statements about the FUR block that are put to the provers. "Ready" in a docstring means that no
fault is held. A next state is written as the state before with the fields that change: every other field is unchanged. -/

open Sys2Proof Sys2Proof.Machine

/-! ### Command words, dispatch, faults -/

/-- 30_encoding.md R90, R91: the command word of every operation decodes to it, and no other word does; one command word of
every unit, as the table writes it. -/
def Obligations.CommandWordsRoundTrip : Prop :=
  (∀ i : Instr, decode (encode i) = .ok i) ∧ (∀ (w : Byte) (i : Instr), decode w = .ok i → encode i = w) ∧
    decode 0x01 = .ok .sysStatus ∧ decode 0x15 = .ok .prngNextInt ∧ decode 0x21 = .ok .smpNext ∧
    decode 0x30 = .ok .chsChoose ∧ decode 0x41 = .ok .encNextPart ∧ decode 0x50 = .ok .decReceive ∧
    decode 0x62 = .ok .bwdEncodeMinimal ∧ decode 0x65 = .ok .bwdDecodeUri

/-- 30_encoding.md R94: which command words are illegal, what an illegal command word does to a ready block, and that
a record without the operand types of an operation does the same. The two `SYS` operations have no operand and are
executed before the record is looked at (46_system.md R261, line 1). `opr` and `issue` are the hand-over itself. -/
def Obligations.IllegalCommandsRaise : Prop :=
  (∀ w : Byte, (∃ e, decode w = .error e) ↔
    (0x02 ≤ w.toNat ∧ w.toNat ≤ 0x0F) ∨ (0x16 ≤ w.toNat ∧ w.toNat ≤ 0x1F) ∨ (0x22 ≤ w.toNat ∧ w.toNat ≤ 0x2F) ∨
      (0x31 ≤ w.toNat ∧ w.toNat ≤ 0x3F) ∨ (0x44 ≤ w.toNat ∧ w.toNat ≤ 0x4F) ∨ (0x55 ≤ w.toNat ∧ w.toNat ≤ 0x5F) ∨
      w.toNat = 0x63 ∨ w.toNat = 0x67 ∨ (0x68 ≤ w.toNat ∧ w.toNat ≤ 0x6F) ∨ 0x70 ≤ w.toNat) ∧
  (∀ (s : State) (r : Request) (rest : List Request) (e : DecodeReject), s.sysFault = none → s.issue = r :: rest →
    decode r.cmd = .error e →
    step s = .next { s with
      opr := r.operands, issue := rest, sysFault := some .illegalCommand, res := some (.fault .illegalCommand) }) ∧
  ∀ (s : State) (i : Instr), s.sysFault = none → i ≠ .sysReset → i ≠ .sysStatus →
    s.opr.wellFormedFor s.cfg.usize i = false →
    exec i s = .next { s with sysFault := some .illegalCommand, res := some (.fault .illegalCommand) }

/-- 46_system.md R261, R263, 30_encoding.md R90, R92: a step takes the next request, puts its record into `OPR` and runs
the operation its command word decodes to. With nothing issued the block holds its state (60_exceptions.md R357); that a
step then answers the same state is the model's reading (log 2). -/
def Obligations.StepRunsDecodedOperation : Prop :=
  (∀ (s : State) (r : Request) (rest : List Request) (i : Instr), s.issue = r :: rest → decode r.cmd = .ok i →
    step s = exec i { s with opr := r.operands, issue := rest }) ∧
  ∀ s : State, s.issue = [] → step s = .next s

/-- 10_state.md R50: the sticky fault register. -/
def Obligations.HeldFaultGatesOperations : Prop :=
  State.reset.sysFault = none ∧
  (∀ (s : State) (f : FaultCode), (s.raise f).sysFault = some (s.sysFault.getD f)) ∧
  (∀ (s : State) (i : Instr) (f : FaultCode), s.sysFault = some f → i ≠ .sysReset → i ≠ .sysStatus →
    exec i s = .next { s with res := some (.fault f) }) ∧
  (∀ (s : State) (r : Request) (rest : List Request) (e : DecodeReject) (f : FaultCode), s.sysFault = some f →
    s.issue = r :: rest → decode r.cmd = .error e →
    step s = .next { s with opr := r.operands, issue := rest, res := some (.fault f) }) ∧
  ∀ (s t : State) (i : Instr) (f : FaultCode), s.sysFault = some f → exec i s = .next t → i ≠ .sysReset →
    t.sysFault = some f

/-- 60_exceptions.md R346: an operation that raises a fault `f` on a ready block leaves the state before it, plus the
register and the result record, but for the listed partial writes, which are then made: `PRNG.NEXT_INT` on overflow has
drawn once, `SMP.NEXT` on the index fault has drawn twice, `ENC.NEXT_PART` has advanced its counter and not written the
scratch buffer unless the fault is `EncoderNotStarted` (or the record was refused at dispatch), `DEC.RECEIVE` on a first part
has made the transition to `Accumulating`: the part's description, a buffer of zeros, nothing resolved (44_decoder.md R202).
`PRNG.NEXT_INT` on an illegal range has not drawn (40_prng.md R136). -/
def Obligations.FaultsArePrecise : Prop :=
  ∀ (s t : State) (i : Instr) (f : FaultCode), s.sysFault = none → exec i s = .next t → t.sysFault = some f →
    t.res = some (.fault f) ∧ t.cfg = s.cfg ∧ t.smp = s.smp ∧ t.opr = s.opr ∧ t.issue = s.issue ∧
      t.freeIndex = s.freeIndex ∧
      (if i = .prngNextInt ∧ f = .arithmeticOverflow then
        ∃ p, s.prng = some p ∧ t.prng = some (prngStep p).2
      else if i = .smpNext ∧ f = .samplerIndexOutOfRange then
        ∃ p, s.prng = some p ∧ t.prng = some (prngStep (prngStep p).2).2
      else t.prng = s.prng) ∧
      (if i = .encNextPart ∧ f ≠ .encoderNotStarted ∧ f ≠ .illegalCommand then
        ∃ e, s.enc = some e ∧ t.enc = some { e with currentSequence := e.currentSequence + 1 }
      else t.enc = s.enc) ∧
      (if i = .decReceive ∧ s.dec = .empty ∧ f ≠ .illegalCommand then
        ∃ p, partOperand s.cfg.usize s.opr = some p ∧
          t.dec = .accumulating ⟨⟨p.sequenceCount, p.messageLength, p.checksum, p.data.length⟩,
            zeroBytes (p.data.length * p.sequenceCount), [], [], []⟩
      else t.dec = s.dec)

/-! ### The system unit -/

/-- 10_state.md R55: the elements at power-on and after `SYS.RESET`, which completes in every state, also while a fault is
held, with a result of no fields (46_system.md R260). The word tables are parameters, which no
operation writes (`t.cfg = s.cfg`). -/
def Obligations.ResetValues : Prop :=
  decode 0x00 = .ok .sysReset ∧
  (∀ s : State, ∃ t, exec .sysReset s = .next t ∧ t.res = some (.ok .none) ∧ t.cfg = s.cfg) ∧
  ∀ s t : State, t = State.reset ∨ exec .sysReset s = .next t →
    t.sysFault = none ∧ t.prngSeeded = false ∧ t.prng = none ∧ t.smpValid = false ∧ t.smp = none ∧
      t.encStarted = false ∧ t.enc = none ∧ t.dec.state = .empty ∧ t.dec.desc = none ∧ t.dec.buf = none ∧
      t.dec.resolved = [] ∧ t.dec.fifo = [] ∧ t.dec.mixed = [] ∧ t.dec.fail = none

/-- 46_system.md R262: the status record, field by field, in every state and also while a fault is held; the operation
changes nothing else. In state `Failed` nothing is said of the two counts. -/
def Obligations.SysStatusRecord : Prop :=
  decode 0x01 = .ok .sysStatus ∧
  ∀ s : State, ∃ r : StatusRecord, exec .sysStatus s = .next { s with res := some (.ok (.status r)) } ∧
    r.fault = s.sysFault ∧ r.prngSeeded = s.prng.isSome ∧ r.smpValid = s.smp.isSome ∧
    (s.smp = none → r.smpN = 0) ∧ (∀ t, s.smp = some t → r.smpN = t.entries.length) ∧
    r.encStarted = s.enc.isSome ∧ (s.enc = none → r.encSequence = 0 ∧ r.encAllEmitted = false) ∧
    (∀ e, s.enc = some e → r.encSequence = e.currentSequence ∧ r.encAllEmitted = e.allEmitted) ∧
    r.decState = s.dec.state ∧
    (s.dec = .empty → r.decResolved = 0 ∧ r.decPending = 0 ∧ r.decFail = none) ∧
    (∀ a, s.dec = .accumulating a →
      r.decResolved = a.resolved.length ∧ r.decPending = a.mixed.length ∧ r.decFail = none) ∧
    (∀ a, s.dec = .complete a →
      r.decResolved = a.resolved.length ∧ r.decPending = a.mixed.length ∧ r.decFail = none ∧
        (s.dec.Ok s.cfg → r.decResolved = a.desc.sequenceCount)) ∧
    ∀ e, s.dec = .failed e → r.decFail = some e

/-! ### The PRNG unit -/

/-- 40_prng.md R131, R132, 30_encoding.md R99: both seedings from a byte string, of any length, hash it and read the
digest as four big-endian words; the rule's example, the seed "Wolf", under the SHA-256 of 48_collaborators.md R300. -/
def Obligations.SeedFromBytes : Prop :=
  decode 0x10 = .ok .prngSeedBytes ∧ decode 0x11 = .ok .prngSeedStr ∧
  (∀ (s : State) (seed : Bytes) (i : Instr), s.sysFault = none → s.opr = .seed seed →
    i = .prngSeedBytes ∨ i = .prngSeedStr →
    exec i s = .next { s with
      prng := some ⟨be64Read ((s.cfg.sha256Of seed).take 8), be64Read (((s.cfg.sha256Of seed).drop 8).take 8),
        be64Read (((s.cfg.sha256Of seed).drop 16).take 8), be64Read (((s.cfg.sha256Of seed).drop 24).take 8)⟩
      res := some (.ok .none) }) ∧
  ∀ cfg : Cfg, cfg.sha256 = .standard → seededWords cfg [0x57, 0x6F, 0x6C, 0x66] =
    ⟨0xEA858AFBF837AAE7, 0x14617E89A36524AC, 0xED28F7DE921F7798, 0xE72810FD8839A462⟩

/-- 40_prng.md R133: seeding from a digest, without hashing; the length check; the all-zero digest and what is drawn
after it; the rule's example. -/
def Obligations.SeedFromDigest : Prop :=
  decode 0x12 = .ok .prngSeedDigest ∧
  (∀ (s : State) (d : Bytes), s.sysFault = none → s.opr = .digest d → d.length = 32 →
    exec .prngSeedDigest s = .next { s with
      prng := some ⟨be64Read (d.take 8), be64Read ((d.drop 8).take 8), be64Read ((d.drop 16).take 8),
        be64Read ((d.drop 24).take 8)⟩
      res := some (.ok .none) }) ∧
  (∀ (s : State) (d : Bytes), s.sysFault = none → s.opr = .digest d → d.length ≠ 32 →
    exec .prngSeedDigest s =
      .next { s with sysFault := some .illegalCommand, res := some (.fault .illegalCommand) }) ∧
  (∀ s : State, s.sysFault = none → s.opr = .digest (List.replicate 32 0) →
    exec .prngSeedDigest s = .next { s with prng := some ⟨0, 0, 0, 0⟩, res := some (.ok .none) }) ∧
  (∀ s : State, s.sysFault = none → s.opr = .empty → s.prng = some ⟨0, 0, 0, 0⟩ →
    exec .prngNext s = .next { s with res := some (.ok (.u64 0)) } ∧
      (s.cfg.binary64 = .standard → exec .prngNextDouble s = .next { s with res := some (.ok (.f64 0)) })) ∧
  wordsOfDigest ((List.range 32).map fun k => BitVec.ofNat 8 k) =
    ⟨0x0001020304050607, 0x08090A0B0C0D0E0F, 0x1011121314151617, 0x18191A1B1C1D1E1F⟩ ∧
  prngDraw ⟨0x0001020304050607, 0x08090A0B0C0D0E0F, 0x1011121314151617, 0x18191A1B1C1D1E1F⟩ = 0xCB61F88F25BC5234

/-- 40_prng.md R130, R134: one draw is one step of xoshiro256**, written out, with R130's example; an unseeded generator
faults. -/
def Obligations.PrngNextDraws : Prop :=
  decode 0x13 = .ok .prngNext ∧
  (∀ (s : State) (p : PrngWords), s.sysFault = none → s.opr = .empty → s.prng = some p →
    exec .prngNext s = .next { s with
      prng := some ⟨p.s0 ^^^ (p.s3 ^^^ p.s1), p.s1 ^^^ (p.s2 ^^^ p.s0), (p.s2 ^^^ p.s0) ^^^ (p.s1 <<< 17),
        (p.s3 ^^^ p.s1).rotateLeft 45⟩
      res := some (.ok (.u64 ((p.s1 * 5).rotateLeft 7 * 9))) }) ∧
  (∀ s : State, s.sysFault = none → s.opr = .empty → s.prng = none →
    exec .prngNext s = .next { s with sysFault := some .prngNotSeeded, res := some (.fault .prngNotSeeded) }) ∧
  prngStep ⟨1, 2, 3, 4⟩ = (0x2D00, ⟨0x7, 0x0, 0x40002, 0xC00000000000⟩) ∧
  prngStep ⟨0x7, 0x0, 0x40002, 0xC00000000000⟩ =
    (0x0, ⟨0xC00000000007, 0x40005, 0x40005, 0x18000000⟩)

/-- 40_prng.md R135: the double of a draw is the nearest binary64 of the 64-bit number divided by `2^64`; the division
keeps the significand and lowers the exponent by 64; a draw of 0 gives `0.0`; exactly the draws from `2^64 - 1024` on
give `1.0`. The last three are facts of the arithmetic of 48_collaborators.md R315. -/
def Obligations.PrngNextDouble : Prop :=
  decode 0x14 = .ok .prngNextDouble ∧
  (∀ (s : State) (p : PrngWords), s.sysFault = none → s.opr = .empty → s.prng = some p →
    exec .prngNextDouble s = .next { s with
      prng := some (prngStep p).2
      res := some (.ok (.f64 (s.cfg.divF (s.cfg.u64ToF (prngStep p).1.toNat) fTwo64))) }) ∧
  (∀ s : State, s.sysFault = none → s.opr = .empty → s.prng = none →
    exec .prngNextDouble s =
      .next { s with sysFault := some .prngNotSeeded, res := some (.fault .prngNotSeeded) }) ∧
  ∀ cfg : Cfg, cfg.binary64 = .standard →
    (∀ x : U64, x ≠ 0 → f64Significand (doubleOfDraw cfg x) = f64Significand (u64ToF x.toNat) ∧
      f64Scale (doubleOfDraw cfg x) = f64Scale (u64ToF x.toNat) - 64 ∧ f64Sign (doubleOfDraw cfg x) = false) ∧
    doubleOfDraw cfg 0 = fZero ∧ ∀ x : U64, doubleOfDraw cfg x = fOne ↔ 2 ^ 64 - 1024 ≤ x.toNat

/-- 40_prng.md R136, R137: the value of `PRNG.NEXT_INT` on a seeded generator; the fault on an unseeded one; the range fault
before the draw; the overflow fault after it; `low = high` gives `low` for every draw below `2^64 - 1024`; above, a span of
at most `2^53` values gives `high + 1`. The last two are facts of the arithmetic of 48_collaborators.md R315. -/
def Obligations.PrngNextIntDraws : Prop :=
  (∀ (s : State) (p : PrngWords) (low high v : Nat), s.sysFault = none → s.opr = .range low high → high < 2 ^ 64 →
    s.prng = some p → low ≤ high → high - low + 1 < 2 ^ 64 →
    v = s.cfg.fToNat (s.cfg.mulF (s.cfg.divF (s.cfg.u64ToF (prngStep p).1.toNat) fTwo64)
      (s.cfg.u64ToF (high - low + 1))) + low →
    exec .prngNextInt s = .next (if v < 2 ^ 64 then
        { s with prng := some (prngStep p).2, res := some (.ok (.u64 (BitVec.ofNat 64 v))) }
      else { s with
        prng := some (prngStep p).2, sysFault := some .arithmeticOverflow,
        res := some (.fault .arithmeticOverflow) })) ∧
  (∀ (s : State) (low high : Nat), s.sysFault = none → s.prng = none → s.opr = .range low high → low < 2 ^ 64 →
    high < 2 ^ 64 →
    exec .prngNextInt s = .next { s with sysFault := some .prngNotSeeded, res := some (.fault .prngNotSeeded) }) ∧
  (∀ (s : State) (p : PrngWords) (low high : Nat), s.sysFault = none → s.opr = .range low high → low < 2 ^ 64 →
    high < 2 ^ 64 → s.prng = some p → (high < low ∨ 2 ^ 64 - 1 < high - low + 1) →
    exec .prngNextInt s = .next { s with sysFault := some .badIntRange, res := some (.fault .badIntRange) }) ∧
  ∀ cfg : Cfg, cfg.binary64 = .standard →
    (∀ (x : U64) (low : Nat), x.toNat < 2 ^ 64 - 1024 → intOfDraw cfg x low low = low) ∧
    ∀ (x : U64) (low high : Nat), 2 ^ 64 - 1024 ≤ x.toNat → low ≤ high → high - low + 1 ≤ 2 ^ 53 →
      intOfDraw cfg x low high = high + 1

/-! ### The sampler unit -/

/-- 41_sampler.md R151: the faults of `SMP.SETUP` in their order, and its completion with the tables of the weights scaled
by `n / total`; the other fields are unchanged. -/
def Obligations.SmpSetupOutcomes : Prop :=
  ∀ (s : State) (ws : List F64), s.sysFault = none → s.opr = .weights ws → ws.length < 2 ^ 64 →
    exec .smpSetup s = .next (
      if ws = [] then { s with sysFault := some .emptyWeights, res := some (.fault .emptyWeights) }
      else if ∃ c, s.cfg.smpCap = some c ∧ c < ws.length then
        { s with sysFault := some .capacityOverflow, res := some (.fault .capacityOverflow) }
      else if ∃ w ∈ ws, f64IsNaN w = true ∨ f64IsInf w = true ∨ s.cfg.ltF w fZero = true then
        { s with sysFault := some .negativeWeight, res := some (.fault .negativeWeight) }
      else if s.cfg.ltF fZero (ws.foldl s.cfg.addF fZero) = false then
        { s with sysFault := some .zeroWeights, res := some (.fault .zeroWeights) }
      else { s with
        smp := some (aliasTables s.cfg (ws.map fun w =>
          s.cfg.mulF w (s.cfg.divF (s.cfg.u64ToF ws.length) (ws.foldl s.cfg.addF fZero))))
        res := some (.ok .none) })

/-- 41_sampler.md R151, R154, 10_state.md R39: the tables of a successful setup have one entry for each weight; every alias
is an index; every probability is below 1.0 or 1.0 itself; and equal weights give 1.0 and alias 0 throughout (R151, corner
cases (a) and (b)). -/
def Obligations.AliasTablesWellFormed : Prop :=
  (∀ (cfg : Cfg) (cap : Option Nat) (ws : List F64) (t : AliasTables), buildTables cfg cap ws = .ok t →
    t.n = ws.length ∧ 1 ≤ t.n ∧ exceeds cap t.n = false ∧
      ∀ e ∈ t.entries, e.alternative < t.n ∧ (cfg.ltF e.prob fOne = true ∨ e.prob = fOne)) ∧
  ∀ (cfg : Cfg) (cap : Option Nat) (n : Nat) (w : F64) (t : AliasTables),
    buildTables cfg cap (List.replicate n w) = .ok t → t.entries = List.replicate n ⟨fOne, 0⟩

/-- 41_sampler.md R151: the pairings. Whatever the scaled weights `p`, there are the rounds of the rule: open indices on the
side below 1.0 and on the other, each side first in rising order; each round takes the first of either side, `a` and `g`,
stores `prob[a] = p[a]` and `alias[a] = g`, closes `a`, puts `p[g] + (p[a] - 1.0)` in the place of `p[g]`, and `g` is the first
of the side it now belongs to (`PairingStep`). The rounds end with one side empty, and every index still open has the
probability 1.0 and the alias 0. Corner case (c) and the rule's example, under the arithmetic of 48_collaborators.md R315. -/
def Obligations.AliasPairings : Prop :=
  (∀ (cfg : Cfg) (p : List F64), ∃ rounds : List PairingRound, ∃ last : PairingRound,
    StartsPairing cfg p ((rounds ++ [last]).headD last) ∧ (rounds ++ [last]).IsChain (PairingStep cfg) ∧
      (last.small = [] ∨ last.large = []) ∧
      (aliasTables cfg p).entries.length = p.length ∧
      (∀ r ∈ rounds, ∀ a g small large, r.small = a :: small → r.large = g :: large →
        (aliasTables cfg p).entries[a]? = some ⟨r.p.getD a fZero, g⟩) ∧
      ∀ i ∈ last.small ++ last.large, (aliasTables cfg p).entries[i]? = some ⟨fOne, 0⟩) ∧
  ∀ (cfg : Cfg), cfg.binary64 = .standard →
    buildTables cfg none [0, 0x3ff0000000000000] = .ok ⟨[⟨0, 1⟩, ⟨0x3ff0000000000000, 0⟩]⟩ ∧
    buildTables cfg none [0x3ff0000000000000, 0x4000000000000000, 0x4010000000000000, 0x4020000000000000] =
      .ok ⟨[⟨0x3fd1111111111111, 2⟩, ⟨0x3fe1111111111111, 3⟩, ⟨0x3fd5555555555554, 3⟩, ⟨0x3ff0000000000000, 0⟩]⟩

/-- 41_sampler.md R152: `SMP.NEXT` on set-up tables and a seeded generator draws twice, `r1` first, and answers the index
`i = floor(n * r1)` or its alias; an index past the tables is the fault of R153. Without tables, and then
without a seeded generator, it faults and draws nothing (60_exceptions.md R341). -/
def Obligations.SmpNextOutcomes : Prop :=
  (∀ (s : State) (t : AliasTables) (p : PrngWords) (i : Nat), s.sysFault = none → s.opr = .empty → s.smp = some t →
    s.prng = some p → i = s.cfg.fToNat (s.cfg.mulF (s.cfg.u64ToF t.n) (doubleOfDraw s.cfg (prngStep p).1)) →
    (t.n ≤ i → exec .smpNext s = .next { s with
      prng := some (prngStep (prngStep p).2).2, sysFault := some .samplerIndexOutOfRange,
      res := some (.fault .samplerIndexOutOfRange) }) ∧
    ∀ e, t.entries[i]? = some e → exec .smpNext s = .next { s with
      prng := some (prngStep (prngStep p).2).2
      res := some (.ok (.index
        (if s.cfg.ltF (doubleOfDraw s.cfg (prngStep (prngStep p).2).1) e.prob then i else e.alternative))) }) ∧
  (∀ s : State, s.sysFault = none → s.opr = .empty → s.smp = none →
    exec .smpNext s =
      .next { s with sysFault := some .samplerNotSetUp, res := some (.fault .samplerNotSetUp) }) ∧
  ∀ (s : State) (t : AliasTables), s.sysFault = none → s.opr = .empty → s.smp = some t → s.prng = none →
    exec .smpNext s = .next { s with sysFault := some .prngNotSeeded, res := some (.fault .prngNotSeeded) }

/-- 41_sampler.md R153: under the arithmetic of 48_collaborators.md R315 a first draw of 1.0 selects the index `n`, which is
no entry, and a second draw of 1.0 always selects the alias. The first half is stated for tables of at most `2^53` entries,
whose size a binary64 holds exactly. -/
def Obligations.SamplerDrawOfOne : Prop :=
  ∀ (cfg : Cfg) (t : AliasTables) (x1 x2 : U64), cfg.binary64 = .standard →
    (t.n ≤ 2 ^ 53 → 2 ^ 64 - 1024 ≤ x1.toNat →
      fToNat (mulF (u64ToF t.n) (doubleOfDraw cfg x1)) = t.n ∧
        sampleOfDraws cfg t x1 x2 = .error .samplerIndexOutOfRange) ∧
    ∀ i : Nat, t.Ok cfg → 2 ^ 64 - 1024 ≤ x2.toNat → sampleOfDraws cfg t x1 x2 = .ok i →
      ∃ e, t.entries[fToNat (mulF (u64ToF t.n) (doubleOfDraw cfg x1))]? = some e ∧ i = e.alternative ∧ i < t.n

/-! ### The fragment chooser -/

/-- 42_chooser.md R170, R171, R174, 10_state.md R23: in the first round the index set is `{sequence - 1}`, whatever the
checksum, for every user of the chooser. `CHS.CHOOSE` on a ready block: the precondition, then the capacity,
then the chooser's set (its first round written out) or its fault; no unit's state changes. -/
def Obligations.ChsChooseOutcomes : Prop :=
  (∀ (cfg : Cfg) (sequence : U32) (n : Nat) (checksum : U32), 1 ≤ sequence.toNat → sequence.toNat ≤ n →
    choose cfg sequence n checksum = .ok [sequence.toNat - 1]) ∧
  ∀ (s : State) (sequence n checksum : Nat), s.sysFault = none → s.opr = .choice sequence n checksum →
    sequence < 2 ^ 32 → n < 2 ^ s.cfg.usize.bits → checksum < 2 ^ 32 →
    (sequence = 0 ∨ n = 0 → exec .chsChoose s =
      .next { s with sysFault := some .chooserPrecondition, res := some (.fault .chooserPrecondition) }) ∧
    (1 ≤ sequence → 1 ≤ n → ∀ c, s.cfg.maxFragments = some c → c < n → exec .chsChoose s =
      .next { s with sysFault := some .capacityOverflow, res := some (.fault .capacityOverflow) }) ∧
    (1 ≤ sequence → sequence ≤ n → (∀ c, s.cfg.maxFragments = some c → n ≤ c) → exec .chsChoose s =
      .next { s with res := some (.ok (.indexes [sequence - 1])) }) ∧
    (1 ≤ n → n < sequence → (∀ c, s.cfg.maxFragments = some c → n ≤ c) → exec .chsChoose s = .next (
      match choose s.cfg (BitVec.ofNat 32 sequence) n (BitVec.ofNat 32 checksum) with
      | .ok indexes => { s with res := some (.ok (.indexes indexes)) }
      | .error f => { s with sysFault := some f, res := some (.fault f) }))

/-- 42_chooser.md R172, R173, R175: the chooser's result is a non-empty set of indices below `n`, with one element in the
first round and exactly `degree = k + 1` elements in a later one, where `k` is the sample of R172. The set of a later round is
what its picks give: pick `j` is `NextInt(0, len - 1)` of the generator's draw `j + 2` (the sample takes draws 0 and 1), a
place in the indices below `n` that are not yet picked, in rising order. The model holds a set as the rising list of its
elements (log 14). -/
def Obligations.ChooserResultSet : Prop :=
  ∀ (cfg : Cfg) (sequence : U32) (n : Nat) (checksum : U32) (indexes : List Nat), 1 ≤ sequence.toNat →
    choose cfg sequence n checksum = .ok indexes →
    indexes.Pairwise (· < ·) ∧ (∀ i ∈ indexes, i < n) ∧ 1 ≤ indexes.length ∧ indexes.length ≤ n ∧
      (sequence.toNat ≤ n → indexes.length = 1) ∧
      (n < sequence.toNat → ∃ (t : AliasTables) (g : PrngWords) (k : Nat) (picked : List Nat),
        buildTables cfg none ((List.range n).map fun i => cfg.divF fOne (cfg.u64ToF (i + 1))) = .ok t ∧
        g = seededWords cfg (be32 sequence ++ be32 checksum) ∧ sampleFrom cfg t g = .ok k ∧
        picked.length = k + 1 ∧ indexes.length = k + 1 ∧ (∀ i, i ∈ indexes ↔ i ∈ picked) ∧
        ∀ j, j < k + 1 → ∃ i, picked[j]? = some i ∧
          ((List.range n).filter fun m => m ∉ picked.take j)[
            intOfDraw cfg (prngDraw (prngAfter^[j + 2] g)) 0 (n - j - 1)]? = some i)

/-- 42_chooser.md R170, R172, R173: under the arithmetic of 48_collaborators.md R315 the private setup never faults, so for
`n >= 1` the chooser answers a set, or one of two faults, and these need a draw of exactly 1.0 (40_prng.md R135): the index
fault the sample's first draw, the overflow fault the draw of one of the picks. The last is stated for at most `2^53`
fragments, whose number a binary64 holds exactly. -/
def Obligations.ChooserFaults : Prop :=
  ∀ (cfg : Cfg) (sequence : U32) (n : Nat) (checksum : U32) (g : PrngWords), cfg.binary64 = .standard → 1 ≤ n →
    n < 2 ^ 64 → g = seededWords cfg (be32 sequence ++ be32 checksum) →
    (∃ t, buildTables cfg none (chooserWeights cfg n) = .ok t) ∧
      ((∃ indexes, choose cfg sequence n checksum = .ok indexes) ∨
        choose cfg sequence n checksum = .error .samplerIndexOutOfRange ∨
        choose cfg sequence n checksum = .error .arithmeticOverflow) ∧
      (n ≤ 2 ^ 53 →
        (choose cfg sequence n checksum = .error .samplerIndexOutOfRange → 2 ^ 64 - 1024 ≤ (prngDraw g).toNat) ∧
        (choose cfg sequence n checksum = .error .arithmeticOverflow →
          ∃ j, j < n ∧ 2 ^ 64 - 1024 ≤ (prngDraw (prngAfter^[j + 2] g)).toNat))

/-! ### The encoder -/

/-- 43_encoder.md R180: the fragment length and the fragment count of a message of `l` bytes under a maximum `m`. -/
def Obligations.FragmentArithmetic : Prop :=
  ∀ l m : Nat, 1 ≤ l → 1 ≤ m →
    1 ≤ fragmentLengthFor l m ∧ fragmentLengthFor l m ≤ m ∧
      ceilDiv l (fragmentLengthFor l m) = ceilDiv l m ∧
      (ceilDiv l (fragmentLengthFor l m) - 1) * fragmentLengthFor l m < l ∧
      l ≤ ceilDiv l (fragmentLengthFor l m) * fragmentLengthFor l m ∧
      ceilDiv l (fragmentLengthFor l m) * fragmentLengthFor l m - l < fragmentLengthFor l m

/-- 43_encoder.md R181: `ENC.START` on a ready block: its faults in their order, each leaving the encoder, and the encoder it
binds otherwise, whatever was bound before (R188). Two points are the model's reading: a message whose length is no `usize`
raises `ArithmeticOverflow` (log 10), and the scratch buffer, which R181 does not write and 10_state.md R30 leaves
unspecified until the next part, has no content (log 6). -/
def Obligations.EncStartOutcomes : Prop :=
  decode 0x40 = .ok .encStart ∧
  ∀ (s : State) (message : Bytes) (m fl n : Nat), s.sysFault = none → s.opr = .start message m →
    m < 2 ^ s.cfg.usize.bits → fl = ceilDiv message.length (ceilDiv message.length m) →
    n = ceilDiv message.length fl →
    exec .encStart s = .next (
      if message = [] then { s with sysFault := some .emptyMessage, res := some (.fault .emptyMessage) }
      else if m = 0 then
        { s with sysFault := some .zeroMaxFragmentLength, res := some (.fault .zeroMaxFragmentLength) }
      else if 2 ^ s.cfg.usize.bits ≤ message.length then
        { s with sysFault := some .arithmeticOverflow, res := some (.fault .arithmeticOverflow) }
      else if (∃ c, s.cfg.fragCap = some c ∧ c < fl) ∨ (∃ c, s.cfg.maxFragments = some c ∧ c < n) ∨ 2 ^ 32 - 1 < n then
        { s with sysFault := some .capacityOverflow, res := some (.fault .capacityOverflow) }
      else { s with
        enc := some ⟨message, fl, s.cfg.crc32Of message, 0, false, none⟩
        res := some (.ok .none) })

/-- 43_encoder.md R183, R184: `ENC.NEXT_PART` on a started encoder whose counter does not wrap: the chooser's set under the
advanced counter; the part; its data byte by byte, the XOR of the message bytes at the fragments' places, zero past the
message's end; the scratch buffer; the completion flag. A chooser fault leaves only the advanced counter. -/
def Obligations.EncNextPartEmits : Prop :=
  ∀ (s : State) (e : Encoder) (n : Nat), s.sysFault = none → s.opr = .empty → s.enc = some e →
    e.currentSequence ≠ 0xFFFFFFFF → n = ceilDiv e.message.length e.fragmentLength →
    match choose s.cfg (e.currentSequence + 1) n e.checksum with
    | .error f => exec .encNextPart s = .next { s with
        enc := some { e with currentSequence := e.currentSequence + 1 }, sysFault := some f,
        res := some (.fault f) }
    | .ok indexes => ∃ d : Bytes, d.length = e.fragmentLength ∧
        (∀ k, k < e.fragmentLength → d[k]? = some (xorOfMessageBytes e.message e.fragmentLength k indexes)) ∧
        exec .encNextPart s = .next { s with
          enc := some { e with
            currentSequence := e.currentSequence + 1
            scratch := some d
            allEmitted := e.allEmitted || decide ((e.currentSequence + 1).toNat = n) }
          res := some (.ok (.part ⟨e.currentSequence + 1, n, e.message.length, e.checksum, d⟩)) }

/-- 43_encoder.md R183 (corner case (a)), R189, 20_memory.md R62: in the first round `ENC.NEXT_PART` completes and the
part's data is fragment `sequence - 1` of the message, zero past its end. -/
def Obligations.EncFirstRoundFragments : Prop :=
  ∀ (s : State) (e : Encoder), s.sysFault = none → s.opr = .empty → s.enc = some e → e.Ok s.cfg →
    e.currentSequence.toNat < e.sequenceCount →
    ∃ (t : State) (p : Part), exec .encNextPart s = .next t ∧ t.res = some (.ok (.part p)) ∧
      p.sequence.toNat = e.currentSequence.toNat + 1 ∧ p.data.length = e.fragmentLength ∧
      ∀ k, k < e.fragmentLength →
        p.data[k]? = some (e.message.getD (e.currentSequence.toNat * e.fragmentLength + k) 0)

/-- 43_encoder.md R186: the increment that wraps to 0 is done, the precondition fault is raised, no part is returned and
the scratch buffer is not written. -/
def Obligations.EncSequenceWraps : Prop :=
  ∀ (s : State) (e : Encoder), s.sysFault = none → s.opr = .empty → s.enc = some e →
    e.currentSequence = 0xFFFFFFFF →
    exec .encNextPart s = .next { s with
      enc := some { e with currentSequence := 0 }, sysFault := some .chooserPrecondition,
      res := some (.fault .chooserPrecondition) }

/-- 43_encoder.md R182, R185: the two reads of a started encoder, which change nothing; R187: the three operations that need
a started encoder. -/
def Obligations.EncoderReads : Prop :=
  decode 0x42 = .ok .encSeqCount ∧ decode 0x43 = .ok .encIsComplete ∧
  (∀ (s : State) (e : Encoder), s.sysFault = none → s.opr = .empty → s.enc = some e →
    exec .encSeqCount s =
      .next { s with res := some (.ok (.count (ceilDiv e.message.length e.fragmentLength))) } ∧
    exec .encIsComplete s = .next { s with res := some (.ok (.flag e.allEmitted)) }) ∧
  ∀ (s : State) (i : Instr), s.sysFault = none → s.opr = .empty → s.enc = none →
    i = .encNextPart ∨ i = .encSeqCount ∨ i = .encIsComplete →
    exec i s = .next { s with sysFault := some .encoderNotStarted, res := some (.fault .encoderNotStarted) }

/-- 42_chooser.md R176, 43_encoder.md R189, 30_encoding.md R97: a part that `ENC.NEXT_PART` returns is the part of the
message's stream whose indices the chooser gives for the part's own fields, and a decoder reads back exactly this part
from the record that carries it. -/
def Obligations.EmittedPartMatchesChooser : Prop :=
  ∀ (s t : State) (e : Encoder) (p : Part), s.sysFault = none → s.enc = some e → e.Ok s.cfg →
    exec .encNextPart s = .next t → t.res = some (.ok (.part p)) →
    partOperand s.cfg.usize p.toRecord = some p ∧ p.invalid = false ∧
      ∃ indexes, choose s.cfg p.sequence p.sequenceCount p.checksum = .ok indexes ∧
        p = streamPart s.cfg e.message e.fragmentLength p.sequence indexes

/-! ### The decoder -/

/-- 44_decoder.md R221: a capacity error is answered by a decoder that is in state `Failed` from then on, and there every
`DEC` operation but `DEC.CLEAR` refuses without an effect. -/
def Obligations.FailedDecoderRefuses : Prop :=
  (∀ (s t : State) (e : CapacityError), s.sysFault = none → exec .decReceive s = .next t →
    t.res = some (.err (.capacity e)) → t.dec = .failed e) ∧
  (∀ (s : State) (e : CapacityError) (p : Part), s.sysFault = none → s.dec = .failed e →
    partOperand s.cfg.usize s.opr = some p →
    exec .decReceive s = .next { s with res := some (.err (.capacity e)) }) ∧
  ∀ (s : State) (e : CapacityError), s.sysFault = none → s.dec = .failed e → s.opr = .empty →
    exec .decMessage s = .next { s with res := some (.err (.capacity e)) } ∧
      exec .decPercent s = .next { s with res := some (.err (.capacity e)) } ∧
      exec .decIsComplete s = .next { s with res := some (.ok (.flag false)) }

/-- 44_decoder.md R200, R201, R203: the outcomes of `DEC.RECEIVE` that have no effect: a complete decoder answers every
part with "no more"; a part that breaks one of the five conditions is invalid; a part of another description is
inconsistent. R222: whenever `DEC.RECEIVE` answers one of the two data errors, nothing has changed but the
result. -/
def Obligations.ReceiveWithoutEffect : Prop :=
  (∀ (s : State) (p : Part), s.sysFault = none → partOperand s.cfg.usize s.opr = some p →
    (∀ a, s.dec = .complete a → exec .decReceive s = .next { s with res := some (.ok (.more false)) }) ∧
    (s.dec.state = .empty ∨ s.dec.state = .accumulating →
      p.sequence = 0 ∨ p.sequenceCount = 0 ∨ p.messageLength = 0 ∨ p.data = [] ∨ p.messageLength < p.data.length →
      exec .decReceive s = .next { s with res := some (.err .invalidPart) }) ∧
    (∀ a, s.dec = .accumulating a → p.sequence ≠ 0 → p.sequenceCount ≠ 0 → p.messageLength ≠ 0 → p.data ≠ [] →
      p.data.length ≤ p.messageLength →
      (⟨p.sequenceCount, p.messageLength, p.checksum, p.data.length⟩ : MessageDescription) ≠ a.desc →
      exec .decReceive s = .next { s with
        res := some (.err (.inconsistentPart
          ⟨p.sequenceCount, p.messageLength, p.checksum, p.data.length⟩ a.desc)) })) ∧
  ∀ (s t : State), s.sysFault = none → exec .decReceive s = .next t →
    (t.res = some (.err .invalidPart) ∨ ∃ r x, t.res = some (.err (.inconsistentPart r x))) →
    t = { s with res := t.res }

/-- 44_decoder.md R202: a valid first part that exceeds a capacity, the three tests in their order; in every deployment
`2^USIZE_BITS - 1` bounds the buffer (that a larger `MSG_CAP` is reported first is the model's reading, log 21). The free-value
index of the two unspecified counts moves on (log 7). -/
def Obligations.FirstPartCapacity : Prop :=
  ∀ (s : State) (p : Part) (e : CapacityError), s.sysFault = none → s.dec = .empty →
    partOperand s.cfg.usize s.opr = some p → p.sequence ≠ 0 → p.sequenceCount ≠ 0 → p.data ≠ [] →
    p.data.length ≤ p.messageLength →
    (if exceeds s.cfg.fragCap p.data.length then e = .fragmentTooBig
      else if exceeds s.cfg.maxFragments p.sequenceCount then e = .tooManyFragments
      else (∃ c, s.cfg.msgCap = some c ∧ c < p.data.length * p.sequenceCount ∧
          e = .notEnoughSpace (p.data.length * p.sequenceCount) c) ∨
        (exceeds s.cfg.msgCap (p.data.length * p.sequenceCount) = false ∧
          2 ^ s.cfg.usize.bits - 1 < p.data.length * p.sequenceCount ∧
          e = .notEnoughSpace (p.data.length * p.sequenceCount) (2 ^ s.cfg.usize.bits - 1))) →
    exec .decReceive s = .next { s with
      dec := .failed e, freeIndex := s.freeIndex + 1, res := some (.err (.capacity e)) }

/-- 44_decoder.md R200 to R212: a valid first part of any round, within the capacities, on an empty decoder: the description
becomes the part's, the buffer is zero, nothing is resolved, the lists are empty (R202), and the operation goes on as on a
decoder that accumulates in this state (R204 to R212; what it then does `Obligations.NewFragmentStored` and
`Obligations.CombinedPartOutcomes` say). In the first round: the buffer with this fragment at its place and zero elsewhere, the
one resolved index, empty lists. -/
def Obligations.FirstPartStored : Prop :=
  (∀ (s : State) (p : Part), s.sysFault = none → s.dec = .empty → partOperand s.cfg.usize s.opr = some p →
    p.sequence ≠ 0 → p.sequenceCount ≠ 0 → p.data ≠ [] → p.data.length ≤ p.messageLength →
    exceeds s.cfg.fragCap p.data.length = false → exceeds s.cfg.maxFragments p.sequenceCount = false →
    exceeds s.cfg.msgCap (p.data.length * p.sequenceCount) = false →
    p.data.length * p.sequenceCount ≤ s.cfg.usize.maxValue →
    exec .decReceive s = exec .decReceive { s with
      dec := .accumulating ⟨⟨p.sequenceCount, p.messageLength, p.checksum, p.data.length⟩,
        zeroBytes (p.data.length * p.sequenceCount), [], [], []⟩ }) ∧
  ∀ (s : State) (p : Part) (i : Nat), s.sysFault = none → s.dec = .empty → partOperand s.cfg.usize s.opr = some p →
    p.sequence.toNat = i + 1 → i < p.sequenceCount → p.data ≠ [] → p.data.length ≤ p.messageLength →
    exceeds s.cfg.fragCap p.data.length = false → exceeds s.cfg.maxFragments p.sequenceCount = false →
    exceeds s.cfg.msgCap (p.data.length * p.sequenceCount) = false →
    p.data.length * p.sequenceCount ≤ s.cfg.usize.maxValue → s.cfg.queueCap ≠ some 0 →
    exec .decReceive s = .next { s with
      dec := (if p.sequenceCount = 1 then Decoder.complete else Decoder.accumulating)
        ⟨⟨p.sequenceCount, p.messageLength, p.checksum, p.data.length⟩,
          zeroBytes (i * p.data.length) ++ p.data ++ zeroBytes ((p.sequenceCount - 1 - i) * p.data.length),
          [i], [], []⟩
      res := some (.ok (.more (decide (p.sequenceCount ≠ 1)))) }

/-- 44_decoder.md R203 to R208, R212, 20_memory.md R63: a matching part of any round whose chosen set is one unresolved index,
on an accumulating decoder. The fragment is XORed out of every pending part that names its index; those that become simple go to
the FIFO, in order, and the others stay, in order; the fragment's bytes are in the buffer and the index is resolved. The
decoder is then complete if every index is, and otherwise goes on with the FIFO, as the drain loop does
(`Obligations.DrainSimpleRound` says what each of its rounds does). The FIFO must have room (R223). -/
def Obligations.NewFragmentStored : Prop :=
  ∀ (s : State) (a : Assembly) (p : Part) (i : Nat) (reduced : List IndexedPart) (b : Assembly), s.sysFault = none →
    s.dec = .accumulating a → s.dec.Ok s.cfg → partOperand s.cfg.usize s.opr = some p → p.sequence ≠ 0 →
    choose s.cfg p.sequence p.sequenceCount p.checksum = .ok [i] → p.description = a.desc → i ∉ a.resolved →
    reduced = fragmentTakenOut i p.data a.mixed →
    b = { a with
      buf := a.buf.take (i * p.data.length) ++ p.data ++ a.buf.drop ((i + 1) * p.data.length)
      resolved := insertIndex i a.resolved
      fifo := reduced.filter fun m => m.indexes.length = 1
      mixed := reduced.filter fun m => m.indexes.length ≠ 1 } →
    s.cfg.queueCap ≠ some 0 → exceeds s.cfg.queueCap b.fifo.length = false →
    (a.resolved.length + 1 = p.sequenceCount →
      exec .decReceive s = .next { s with dec := .complete b, res := some (.ok (.more false)) }) ∧
    (a.resolved.length + 1 ≠ p.sequenceCount → b.fifo = [] →
      exec .decReceive s = .next { s with dec := .accumulating b, res := some (.ok (.more true)) }) ∧
    (a.resolved.length + 1 ≠ p.sequenceCount →
      exec .decReceive s = s.finishReceive (drain s.cfg (1 + a.mixed.length) b))

/-- 44_decoder.md R205, R207, R208, R212, R223: a round of the drain loop on a simple item. A resolved index: the item is
dropped. An unresolved one: the fragment is XORed out of every pending part that names the index, those that become simple go
to the FIFO's tail in order, the fragment is written, the index becomes resolved, and the loop ends if every index is. A
FIFO that would overflow ends the operation with `QueueFull`. How the operation ends for each end of the loop (R212, R202); at a
capacity error the free-value index of the two unspecified counts moves on (log 7). -/
def Obligations.DrainSimpleRound : Prop :=
  (∀ (cfg : Cfg) (k : Nat) (a b : Assembly) (i : Nat) (d : Bytes) (rest reduced : List IndexedPart), a.Ok cfg →
    a.fifo = ⟨[i], d⟩ :: rest → reduced = fragmentTakenOut i d a.mixed →
    b = { a with
      buf := a.buf.take (i * d.length) ++ d ++ a.buf.drop ((i + 1) * d.length)
      resolved := insertIndex i a.resolved
      fifo := rest ++ reduced.filter fun m => m.indexes.length = 1
      mixed := reduced.filter fun m => m.indexes.length ≠ 1 } →
    (i ∈ a.resolved → drain cfg (k + 1) a = drain cfg k { a with fifo := rest }) ∧
    (i ∉ a.resolved → exceeds cfg.queueCap b.fifo.length = false →
      drain cfg (k + 1) a =
        if a.resolved.length + 1 = a.desc.sequenceCount then .ok (b, true) else drain cfg k b) ∧
    ∀ c, i ∉ a.resolved → cfg.queueCap = some c → c < b.fifo.length →
      drain cfg (k + 1) a = .error (.capacity (.queueFull .fifo c))) ∧
  (∀ (s : State) (b : Assembly), s.finishReceive (.ok (b, true)) =
      .next { s with dec := .complete b, res := some (.ok (.more false)) } ∧
    s.finishReceive (.ok (b, false)) =
      .next { s with dec := .accumulating b, res := some (.ok (.more true)) }) ∧
  ∀ (s : State) (e : CapacityError), s.finishReceive (.error (.capacity e)) =
    .next { s with dec := .failed e, freeIndex := s.freeIndex + 1, res := some (.err (.capacity e)) }

/-- 44_decoder.md R209, R210, R211: a matching combined part on an accumulating decoder, its index set not pending. The
resolved fragments are XORed out of it. With nothing left it is dropped. With one index left it is enqueued and resolved.
With more, it is reduced by the pending parts, head to tail; if that leaves one index it is enqueued and resolved, and
otherwise it is stored at the tail of the pending list, after it has reduced the parts there if the deployment says so: those
that became simple go to the FIFO. Where an item is enqueued the operation goes on with the drain loop
(`Obligations.DrainSimpleRound`). Room in the lists is R223. -/
def Obligations.CombinedPartOutcomes : Prop :=
  ∀ (s : State) (a : Assembly) (p : Part) (indexes : List Nat) (q r : IndexedPart) (pending : List IndexedPart),
    s.sysFault = none → s.dec = .accumulating a → s.dec.Ok s.cfg → partOperand s.cfg.usize s.opr = some p →
    p.sequence ≠ 0 → p.description = a.desc → choose s.cfg p.sequence p.sequenceCount p.checksum = .ok indexes →
    2 ≤ indexes.length → (∀ m ∈ a.mixed, m.indexes ≠ indexes) → s.cfg.queueCap ≠ some 0 →
    q = ⟨indexes.filter fun i => i ∉ a.resolved,
      (indexes.filter fun i => i ∈ a.resolved).foldl
        (fun d i => xorBytes d ((a.buf.drop (i * p.data.length)).take p.data.length)) p.data⟩ →
    r = a.mixed.foldl reducePart q →
    pending = (if s.cfg.reducePendingByNew then a.mixed.map fun m => reducePart m r else a.mixed) →
    (q.indexes = [] → exec .decReceive s = .next { s with res := some (.ok (.more true)) }) ∧
    (q.indexes.length = 1 →
      exec .decReceive s = s.finishReceive (drain s.cfg (1 + a.mixed.length) { a with fifo := [q] })) ∧
    (2 ≤ q.indexes.length → r.indexes.length = 1 →
      exec .decReceive s = s.finishReceive (drain s.cfg (1 + a.mixed.length) { a with fifo := [r] })) ∧
    (2 ≤ q.indexes.length → 2 ≤ r.indexes.length → (∀ m ∈ pending, m.indexes.length ≠ 1) →
      exceeds s.cfg.mixedCap (pending.length + 1) = false →
      exec .decReceive s = .next { s with
        dec := .accumulating { a with mixed := pending ++ [r] }, res := some (.ok (.more true)) }) ∧
    (2 ≤ q.indexes.length → 2 ≤ r.indexes.length →
      exceeds s.cfg.queueCap (pending.countP fun m => m.indexes.length = 1) = false →
      exceeds s.cfg.mixedCap ((pending.countP fun m => m.indexes.length ≠ 1) + 1) = false →
      exec .decReceive s = s.finishReceive (drain s.cfg (1 + a.mixed.length) { a with
        fifo := pending.filter fun m => m.indexes.length = 1
        mixed := (pending.filter fun m => m.indexes.length ≠ 1) ++ [r] }))

/-- 44_decoder.md R223: an append beyond `QUEUE_CAP` or `MIXED_CAP` ends `DEC.RECEIVE` with `QueueFull` and the decoder in state
`Failed`: a new fragment, or a stored combined part, that makes more pending parts simple than the FIFO holds, a combined part
to be stored in a full pending list, and any part that is indexed when the FIFO holds nothing at all. The free-value index of
the two unspecified counts moves on (log 7). -/
def Obligations.QueueFullFails : Prop :=
  ∀ (s : State) (a : Assembly) (p : Part) (indexes : List Nat) (c : Nat), s.sysFault = none →
    s.dec = .accumulating a → s.dec.Ok s.cfg → partOperand s.cfg.usize s.opr = some p → p.sequence ≠ 0 →
    p.description = a.desc → choose s.cfg p.sequence p.sequenceCount p.checksum = .ok indexes →
    (s.cfg.queueCap = some 0 → exec .decReceive s = .next { s with
      dec := .failed (.queueFull .fifo 0), freeIndex := s.freeIndex + 1,
      res := some (.err (.capacity (.queueFull .fifo 0))) }) ∧
    (∀ i, indexes = [i] → i ∉ a.resolved → s.cfg.queueCap = some c → 1 ≤ c →
      c < ((fragmentTakenOut i p.data a.mixed).countP fun m => m.indexes.length = 1) →
      exec .decReceive s = .next { s with
        dec := .failed (.queueFull .fifo c), freeIndex := s.freeIndex + 1,
        res := some (.err (.capacity (.queueFull .fifo c))) }) ∧
    ∀ (q r : IndexedPart) (pending : List IndexedPart), (∀ m ∈ a.mixed, m.indexes ≠ indexes) → 2 ≤ indexes.length →
      s.cfg.queueCap ≠ some 0 →
      q = ⟨indexes.filter fun i => i ∉ a.resolved,
        (indexes.filter fun i => i ∈ a.resolved).foldl
          (fun d i => xorBytes d ((a.buf.drop (i * p.data.length)).take p.data.length)) p.data⟩ →
      r = a.mixed.foldl reducePart q → 2 ≤ q.indexes.length → 2 ≤ r.indexes.length →
      pending = (if s.cfg.reducePendingByNew then a.mixed.map fun m => reducePart m r else a.mixed) →
      (s.cfg.queueCap = some c → c < (pending.countP fun m => m.indexes.length = 1) →
        exec .decReceive s = .next { s with
          dec := .failed (.queueFull .fifo c), freeIndex := s.freeIndex + 1,
          res := some (.err (.capacity (.queueFull .fifo c))) }) ∧
      (exceeds s.cfg.queueCap (pending.countP fun m => m.indexes.length = 1) = false → s.cfg.mixedCap = some c →
        c < (pending.countP fun m => m.indexes.length ≠ 1) + 1 →
        exec .decReceive s = .next { s with
          dec := .failed (.queueFull .mixed c), freeIndex := s.freeIndex + 1,
          res := some (.err (.capacity (.queueFull .mixed c))) })

/-- 44_decoder.md R214 (b) and (c), R208, R209: a matching part whose one index is resolved, or whose index set is that of
a pending part, changes nothing. -/
def Obligations.DuplicatePartsChangeNothing : Prop :=
  ∀ (s : State) (a : Assembly) (p : Part) (indexes : List Nat), s.sysFault = none → s.dec = .accumulating a →
    s.dec.Ok s.cfg → partOperand s.cfg.usize s.opr = some p → p.sequence ≠ 0 →
    (⟨p.sequenceCount, p.messageLength, p.checksum, p.data.length⟩ : MessageDescription) = a.desc →
    choose s.cfg p.sequence p.sequenceCount p.checksum = .ok indexes →
    ((∃ i ∈ a.resolved, indexes = [i]) ∨ ∃ m ∈ a.mixed, m.indexes = indexes) → s.cfg.queueCap ≠ some 0 →
    exec .decReceive s = .next { s with res := some (.ok (.more true)) }

/-- 44_decoder.md R206: `Reduce(a, b)` takes `b` out of `a` exactly when `b`'s set is a strict subset of `a`'s; the set
never becomes empty; the data is the byte-wise XOR. -/
def Obligations.ReduceStrictSubset : Prop :=
  ∀ a b : IndexedPart,
    ((∀ i ∈ b.indexes, i ∈ a.indexes) ∧ (∃ i ∈ a.indexes, i ∉ b.indexes) →
      (∀ i, i ∈ (reducePart a b).indexes ↔ i ∈ a.indexes ∧ i ∉ b.indexes) ∧ (reducePart a b).indexes ≠ [] ∧
        (reducePart a b).data = List.zipWith (· ^^^ ·) a.data b.data) ∧
    (¬((∀ i ∈ b.indexes, i ∈ a.indexes) ∧ ∃ i ∈ a.indexes, i ∉ b.indexes) → reducePart a b = a)

/-- 10_state.md R32, R33, R34, 44_decoder.md R214 (d): receiving a part while accumulating keeps the description, keeps every
resolved index and every byte of its fragment, and changes no byte of a fragment that is still unresolved afterwards. -/
def Obligations.ReceiveKeepsResolvedFragments : Prop :=
  ∀ (s t : State) (a b : Assembly), s.Inv → s.dec = .accumulating a → exec .decReceive s = .next t →
    t.dec = .accumulating b ∨ t.dec = .complete b →
    b.desc = a.desc ∧ b.buf.length = a.buf.length ∧ (∀ i ∈ a.resolved, i ∈ b.resolved) ∧
      ∀ i, i < a.desc.sequenceCount → i ∈ a.resolved ∨ i ∉ b.resolved →
        memRead b.buf (i * a.desc.fragmentLength) a.desc.fragmentLength =
          memRead a.buf (i * a.desc.fragmentLength) a.desc.fragmentLength

/-- 44_decoder.md R213, R205, 10_state.md R36: after a part is put into an empty FIFO, `2 + |dec.mixed|` rounds of the
drain loop are enough: more rounds make no difference, and a decoder that is not complete then has an empty FIFO. -/
def Obligations.DrainLoopEnds : Prop :=
  ∀ (cfg : Cfg) (a : Assembly) (p : IndexedPart) (k : Nat), a.Ok cfg → a.fifo = [p] →
    a.resolved.length < a.desc.sequenceCount → 2 + a.mixed.length ≤ k →
    drain cfg k a = drain cfg (2 + a.mixed.length) a ∧
      ∀ b, drain cfg k a = .ok (b, false) → b.fifo = [] ∧ b.resolved.length < b.desc.sequenceCount

/-- 44_decoder.md R216: `DEC.MESSAGE` in each state of the decoder. -/
def Obligations.DecMessageOutcomes : Prop :=
  decode 0x51 = .ok .decMessage ∧
  ∀ s : State, s.sysFault = none → s.opr = .empty →
    (∀ e, s.dec = .failed e → exec .decMessage s = .next { s with res := some (.err (.capacity e)) }) ∧
    (s.dec.state = .empty ∨ s.dec.state = .accumulating →
      exec .decMessage s = .next { s with res := some (.ok (.message none)) }) ∧
    ∀ a, s.dec = .complete a → exec .decMessage s = .next (
      if a.buf.length < a.desc.messageLength then { s with
        sysFault := some .messageLengthExceedsBuffer, res := some (.fault .messageLengthExceedsBuffer) }
      else if ∃ b ∈ a.buf.drop a.desc.messageLength, b ≠ 0 then { s with res := some (.err .invalidPadding) }
      else { s with res := some (.ok (.message (some (a.buf.take a.desc.messageLength)))) })

/-- 44_decoder.md R218: `DEC.IS_COMPLETE`, and that its result is the negation of the `more` value a successful
`DEC.RECEIVE` has returned. -/
def Obligations.DecIsCompleteOutcomes : Prop :=
  decode 0x52 = .ok .decIsComplete ∧
  (∀ s : State, s.sysFault = none → s.opr = .empty →
    exec .decIsComplete s = .next { s with res := some (.ok (.flag (decide (s.dec.state = .complete)))) }) ∧
  ∀ (s t : State) (m : Bool), s.sysFault = none → exec .decReceive s = .next t → t.res = some (.ok (.more m)) →
    (t.dec.state = .complete ↔ m = false)

/-- 44_decoder.md R219: `DEC.PERCENT` in each state of the decoder, with the constants' patterns. Corner case (a), which the spec
infers from R212: under the arithmetic of 48_collaborators.md R315, while an index is unresolved the cap of 0.99 never binds, and the estimate is below
0.5715, the rule's bound (the pattern is the binary64 nearest to it). -/
def Obligations.DecPercentOutcomes : Prop :=
  decode 0x53 = .ok .decPercent ∧
  (∀ (cfg : Cfg) (a : Assembly), cfg.binary64 = .standard → a.desc.sequenceCount < 2 ^ 32 →
    a.resolved.length < a.desc.sequenceCount →
    percentEstimate cfg a =
        divF (u64ToF a.resolved.length) (mulF (u64ToF a.desc.sequenceCount) fOneAndThreeQuarters) ∧
      ltF (percentEstimate cfg a) 0x3fe249ba5e353f7d = true) ∧
  ∀ s : State, s.sysFault = none → s.opr = .empty →
    (∀ e, s.dec = .failed e → exec .decPercent s = .next { s with res := some (.err (.capacity e)) }) ∧
    (∀ a, s.dec = .complete a → exec .decPercent s = .next { s with res := some (.ok (.f64 0x3ff0000000000000)) }) ∧
    (s.dec = .empty → exec .decPercent s = .next { s with res := some (.ok (.f64 0)) }) ∧
    ∀ (a : Assembly) (q : F64), s.dec = .accumulating a →
      q = s.cfg.divF (s.cfg.u64ToF a.resolved.length)
        (s.cfg.mulF (s.cfg.u64ToF a.desc.sequenceCount) 0x3ffc000000000000) →
      exec .decPercent s = .next { s with
        res := some (.ok (.f64 (if s.cfg.ltF 0x3fefae147ae147ae q then 0x3fefae147ae147ae else q))) }

/-- 44_decoder.md R220: `DEC.CLEAR` in every state, and that it leaves the decoder `SYS.RESET` leaves. -/
def Obligations.DecClearOutcome : Prop :=
  decode 0x54 = .ok .decClear ∧
  (∀ s : State, s.sysFault = none → s.opr = .empty →
    exec .decClear s = .next { s with dec := .empty, res := some (.ok .none) }) ∧
  ∀ s t u : State, s.sysFault = none → s.opr = .empty → exec .decClear s = .next t → exec .sysReset s = .next u →
    t.dec = u.dec

/-! ### The bytewords unit -/

/-- 45_bytewords.md R241, 30_encoding.md R104 to R106: the text of a payload in each style. -/
def Obligations.BwdEncodeTexts : Prop :=
  decode 0x60 = .ok .bwdEncodeStandard ∧ decode 0x61 = .ok .bwdEncodeUri ∧ decode 0x62 = .ok .bwdEncodeMinimal ∧
  ∀ (s : State) (payload body : Bytes), s.sysFault = none → s.opr = .payload payload →
    body = payload ++ be32 (s.cfg.crc32Of payload) →
    exec .bwdEncodeStandard s = .next { s with
      res := some (.ok (.text (List.intercalate [0x20] (body.map fun b => s.cfg.words4.getD b.toNat [])))) } ∧
    exec .bwdEncodeUri s = .next { s with
      res := some (.ok (.text (List.intercalate [0x2D] (body.map fun b => s.cfg.words4.getD b.toNat [])))) } ∧
    exec .bwdEncodeMinimal s = .next { s with
      res := some (.ok (.text (body.map fun b => s.cfg.words2.getD b.toNat []).flatten)) }

/-- 30_encoding.md R105, R112, 45_bytewords.md R240: for tables with the properties of R112, the length of a text, and that its
bytes are lower-case letters and the style's separator. -/
def Obligations.EncodedTextShape : Prop :=
  ∀ (cfg : Cfg) (payload : Bytes), cfg.TablesOk →
    (encodeText cfg .standard payload).length = 5 * (payload.length + 4) - 1 ∧
      (encodeText cfg .uri payload).length = 5 * (payload.length + 4) - 1 ∧
      (encodeText cfg .minimal payload).length = 2 * (payload.length + 4) ∧
      ∀ (style : Style) (b : Byte), b ∈ encodeText cfg style payload →
        (0x61 ≤ b.toNat ∧ b.toNat ≤ 0x7A) ∨ styleSeparator style = some b

/-- 45_bytewords.md R242 to R245: `BWD.DECODE` in each style: the five errors in their order and the payload. The tokens
are any list that the style's cutting of the text describes; the tables have the properties of 30_encoding.md R112. -/
def Obligations.BwdDecodeOutcomes : Prop :=
  decode 0x64 = .ok .bwdDecodeStandard ∧ decode 0x65 = .ok .bwdDecodeUri ∧ decode 0x66 = .ok .bwdDecodeMinimal ∧
  ∀ (s : State) (i : Instr) (style : Style) (text : Bytes), s.sysFault = none → s.opr = .text text → s.cfg.TablesOk →
    (i, style) ∈ [(Instr.bwdDecodeStandard, Style.standard), (.bwdDecodeUri, .uri), (.bwdDecodeMinimal, .minimal)] →
    ((∃ b ∈ text, 0x80 ≤ b.toNat) → exec i s = .next { s with res := some (.err .nonAscii) }) ∧
    ((∀ b ∈ text, b.toNat < 0x80) →
      (style = .minimal → text.length % 2 = 1 → exec i s = .next { s with res := some (.err .invalidLength) }) ∧
      ∀ tokens : List Bytes, TokensOf style text tokens →
        (∀ (known token : Bytes) (rest : List Bytes), tokens = known.map (wordOfByte s.cfg style) ++ token :: rest →
          (∀ b, wordOfByte s.cfg style b ≠ token) →
          exec i s = .next { s with res := some (.err (.invalidWord known.length)) }) ∧
        ∀ body : Bytes, tokens = body.map (wordOfByte s.cfg style) →
          (body.length < 4 → exec i s = .next { s with res := some (.err .checksumNotPresent) }) ∧
          ∀ (payload : Bytes) (expected : U32), body = payload ++ be32 expected →
            exec i s = .next { s with
              res := some (if expected = s.cfg.crc32Of payload then .ok (.payload payload)
                else .err (.invalidChecksum expected (s.cfg.crc32Of payload))) })

/-- 45_bytewords.md R247: for tables with the properties of 30_encoding.md R112 and whatever function `crc32` is, in every style
every payload's text decodes to it, through the two operations, and a text that decodes is the text of what it decodes
to. -/
def Obligations.BytewordsRoundTrip : Prop :=
  (∀ (cfg : Cfg) (style : Style) (payload : Bytes), cfg.TablesOk →
    decodeText cfg style (encodeText cfg style payload) = .ok payload) ∧
  (∀ (cfg : Cfg) (style : Style) (text payload : Bytes), cfg.TablesOk →
    decodeText cfg style text = .ok payload → encodeText cfg style payload = text) ∧
  ∀ (s t : State) (e d : Instr) (payload text : Bytes), s.sysFault = none → s.opr = .payload payload →
    s.cfg.TablesOk →
    (e, d) ∈ [(Instr.bwdEncodeStandard, Instr.bwdDecodeStandard), (.bwdEncodeUri, .bwdDecodeUri),
      (.bwdEncodeMinimal, .bwdDecodeMinimal)] →
    exec e s = .next t → t.res = some (.ok (.text text)) →
    exec d { t with opr := .text text } = .next { t with opr := .text text, res := some (.ok (.payload payload)) }

/-- 45_bytewords.md R248, 48_collaborators.md R312 (b): the CRC-32 of R310 detects a change of one byte, and, under it and for
tables with the properties of 30_encoding.md R112, replacing one byte of a valid text by another ASCII byte makes it fail with
`InvalidWord` or `InvalidChecksum`. -/
def Obligations.SingleCharacterErrors : Prop :=
  (∀ (a b : Bytes) (x y : Byte), x ≠ y → crc32 (a ++ x :: b) ≠ crc32 (a ++ y :: b)) ∧
  ∀ (cfg : Cfg) (style : Style) (payload before after : Bytes) (x y : Byte), cfg.TablesOk → cfg.crc32 = .standard →
    encodeText cfg style payload = before ++ x :: after → x ≠ y → y.toNat < 0x80 →
    (∃ position, decodeText cfg style (before ++ y :: after) = .error (.invalidWord position)) ∨
      ∃ expected calculated,
        decodeText cfg style (before ++ y :: after) = .error (.invalidChecksum expected calculated)

/-! ### The whole block -/

/-- 10_state.md R20 (the column "written by"), 46_system.md R264: which operations can change which unit; none changes the
deployment, the operand record or the host's issue list. -/
def Obligations.OnlyNamedOperationsWrite : Prop :=
  ∀ (s t : State) (i : Instr), exec i s = .next t →
    t.cfg = s.cfg ∧ t.opr = s.opr ∧ t.issue = s.issue ∧ t.res ≠ none ∧
      (t.prng = s.prng ∨ i ∈ [Instr.sysReset, .prngSeedBytes, .prngSeedStr, .prngSeedDigest, .prngNext, .prngNextDouble,
        .prngNextInt, .smpNext]) ∧
      (t.smp = s.smp ∨ i ∈ [Instr.sysReset, .smpSetup]) ∧
      (t.enc = s.enc ∨ i ∈ [Instr.sysReset, .encStart, .encNextPart]) ∧
      (t.dec = s.dec ∨ i ∈ [Instr.sysReset, .decReceive, .decClear]) ∧
      (t.sysFault = s.sysFault ∨ i = .sysReset ∨
        (s.sysFault = none ∧ ∃ f, t.sysFault = some f ∧ t.res = some (.fault f))) ∧
      (t.freeIndex = s.freeIndex ∨ i = .decReceive)

/-- 46_system.md R264, 10_state.md R23: what an encoder operation answers and leaves in the encoder does not depend on the
other units, and the same for the decoder; what the chooser answers does not depend on any unit. -/
def Obligations.UnitsAreIndependent : Prop :=
  (∀ (s s' t : State) (i : Instr), i ∈ [Instr.encStart, .encNextPart, .encSeqCount, .encIsComplete] →
    s'.cfg = s.cfg → s'.sysFault = s.sysFault → s'.opr = s.opr → s'.enc = s.enc → exec i s = .next t →
    ∃ t', exec i s' = .next t' ∧ t'.res = t.res ∧ t'.enc = t.enc ∧ t'.sysFault = t.sysFault) ∧
  (∀ s s' t : State, s'.cfg = s.cfg → s'.sysFault = s.sysFault → s'.opr = s.opr → exec .chsChoose s = .next t →
    ∃ t', exec .chsChoose s' = .next t' ∧ t'.res = t.res ∧ t'.sysFault = t.sysFault) ∧
  ∀ (s s' t : State) (i : Instr),
    i ∈ [Instr.decReceive, .decMessage, .decIsComplete, .decPercent, .decClear] →
    s'.cfg = s.cfg → s'.sysFault = s.sysFault → s'.opr = s.opr → s'.dec = s.dec → exec i s = .next t →
    ∃ t', exec i s' = .next t' ∧ t'.res = t.res ∧ t'.dec = t.dec ∧ t'.sysFault = t.sysFault

/-- 20_memory.md R71: the operations that only read answer the same and leave the same state when they are issued again. -/
def Obligations.ReadsAreIdempotent : Prop :=
  ∀ (s t : State) (i : Instr),
    i ∈ [Instr.decMessage, .decIsComplete, .decPercent, .encSeqCount, .encIsComplete, .sysStatus, .chsChoose,
      .bwdEncodeStandard, .bwdEncodeUri, .bwdEncodeMinimal, .bwdDecodeStandard, .bwdDecodeUri, .bwdDecodeMinimal] →
    exec i s = .next t → exec i t = .next t

/-- The invariant of the block (10_state.md R20 and R26 to R39) holds after reset, and the deployment that the reset state
carries (the model's choice, log 1) is one the spec admits: its capacities are (93_implementation_defined.md section 1.4),
and its word tables, the spec's, have the four properties of 30_encoding.md R112. -/
def Obligations.ResetMeetsInvariant : Prop := State.reset.Inv ∧ State.reset.cfg.Ok

/-- The invariant of the block (10_state.md R20 and R26 to R39) is kept by every step, whatever the host issues. -/
def Obligations.StepKeepsInvariant : Prop :=
  ∀ s t : State, s.Inv → step s = .next t → t.Inv

/-- 46_system.md R265, 20_memory.md R73: from every state with the invariant, every request is answered: a step never stops
on an access outside a space, or on anything else. -/
def Obligations.StepAlwaysAnswers : Prop := ∀ s : State, s.Inv → s.Safe

/-- 10_state.md R35, 44_decoder.md R215: a decoder that holds only pieces of one message holds only pieces of it after it
has received any part of that message's stream, in whatever order and multiplicity. -/
def Obligations.DecoderKeepsOneMessage : Prop :=
  ∀ (s t : State) (message : Bytes) (fl : Nat) (sequence : U32) (indexes : List Nat), s.Inv →
    s.dec.Consistent s.cfg message fl →
    choose s.cfg sequence (ceilDiv message.length fl) (s.cfg.crc32Of message) = .ok indexes →
    s.opr = (streamPart s.cfg message fl sequence indexes).toRecord → exec .decReceive s = .next t →
    t.dec.Consistent s.cfg message fl

/-- 44_decoder.md R215, R216: a complete decoder that holds only pieces of one message answers `DEC.MESSAGE` with it. -/
def Obligations.CompleteDecoderReturnsMessage : Prop :=
  ∀ (s : State) (a : Assembly) (message : Bytes) (fl : Nat), s.Inv → s.sysFault = none → s.opr = .empty →
    s.dec = .complete a → a.Consistent s.cfg message fl →
    exec .decMessage s = .next { s with res := some (.ok (.message (some message))) }

/-- 44_decoder.md R226: on an empty decoder the parts `1` to `n` of a message's stream, in order, complete it at part `n`
and not before, and `DEC.MESSAGE` then answers the message, if the capacities are not exceeded. -/
def Obligations.InOrderRoundTrip : Prop :=
  ∀ (s : State) (message : Bytes) (fl n : Nat) (rest : List Request), s.sysFault = none → s.dec = .empty →
    1 ≤ fl → fl ≤ message.length → n = ceilDiv message.length fl → n < 2 ^ 32 →
    message.length < 2 ^ s.cfg.usize.bits → fl * n ≤ s.cfg.usize.maxValue →
    exceeds s.cfg.fragCap fl = false → exceeds s.cfg.maxFragments n = false → exceeds s.cfg.msgCap (fl * n) = false →
    s.cfg.queueCap ≠ some 0 →
    s.issue = firstRoundRequests s.cfg message fl ++ ⟨0x51, .empty⟩ :: rest →
    (∀ k, k < n → ∃ u, stepMany k s = .next u ∧ u.dec.state ≠ .complete ∧ u.dec.resolved = List.range k) ∧
      ∃ t, stepMany (n + 1) s = .next t ∧ t.dec.state = .complete ∧ t.issue = rest ∧ t.sysFault = none ∧
        t.res = some (.ok (.message (some message)))

/-! ### The host's framing layer -/

/-- 47_host_framing.md R270, R271, R273, R275, R276: the host's URI of a part, for a type of legal characters, parses back to
the type, the two numbers and the Minimal text of the part's binary form; and the codec reads the CBOR of a part whose fields
fit back as the part (that it reads what it writes is the model's reading, log 23). -/
def Obligations.FramingParsesBack : Prop :=
  (∀ (cfg : Cfg) (codec : Collaborator) (urType : Bytes) (p : Part), urType ≠ [] →
    (∀ b ∈ urType, isTypeByte b = true) → p.sequenceCount < 2 ^ 32 →
    parseUr (urMulti cfg codec urType p) =
      .ok (.multi urType p.sequence.toNat p.sequenceCount (encodeText cfg .minimal (partBytes codec p)))) ∧
  ∀ p : Part, p.sequenceCount < 2 ^ 64 → p.messageLength < 2 ^ 64 → p.data.length < 2 ^ 64 →
    partOfBytes .standard (partBytes .standard p) = some p.toRaw

/-- 47_host_framing.md R278, R280: the host-level `start`: `URTypeTooBig`, then `FragmentTooBig`; then `ENC.START`, and the type
string is kept if it succeeds. Four points are the model's choice (log 26): that the two errors come before anything is
issued, their order, that the type string is kept only after a successful `ENC.START`, and that it stays as it was after a
failed start. The host-level `next_part`: `ENC.NEXT_PART` and `UrMulti` of the part, and the block's own result where there is
no part; that nothing is issued for the `BWD.ENCODE[Minimal]` inside `UrMulti`, so that the block is the one `ENC.NEXT_PART`
leaves, is the model's choice too (log 28). -/
def Obligations.HostEncoderOutcomes : Prop :=
  (∀ (h : HostSide) (urType message : Bytes) (m : Nat),
    (exceeds h.cfg.typeCap urType.length = true →
      hostStart h urType message m = .next ⟨h, .error .urTypeTooBig⟩) ∧
    (exceeds h.cfg.typeCap urType.length = false → exceeds h.cfg.scratchCap m = true →
      hostStart h urType message m = .next ⟨h, .error .fragmentTooBig⟩) ∧
    ∀ s, exceeds h.cfg.typeCap urType.length = false → exceeds h.cfg.scratchCap m = false →
      exec .encStart { h.block with opr := .start message m } = .next s →
      hostStart h urType message m = .next
        ⟨{ h with block := s, urType := if s.res = some (.ok .none) then some urType else h.urType }, .block s.res⟩) ∧
  ∀ (h : HostSide) (s : State), exec .encNextPart { h.block with opr := .empty } = .next s →
    (∀ (p : Part) (urType : Bytes), s.res = some (.ok (.part p)) → h.urType = some urType →
      hostNextPart h = .next ⟨{ h with block := s }, .uri (urMulti s.cfg h.cfg.codec urType p)⟩) ∧
    ((∀ p, s.res ≠ some (.ok (.part p))) → hostNextPart h = .next ⟨{ h with block := s }, .block s.res⟩)

/-- 47_host_framing.md R277, R273, R280: the host-level receive. A URI that does not parse, and a type too long for the host's
buffer (its place is the model's, log 26), end it before anything is issued. A payload text that does not decode ends it with
the error of `BWD.DECODE`, and one whose bytes are no part with the host's own error (log 23), the block's decoder untouched. The
payload of a single-part URI is the message. The part of a multi-part URI is received by `DEC.RECEIVE`; and where the URI is the
one that `UrMulti` makes of a part, in CBOR and with word tables as 30_encoding.md R112 has them, the part received is that part.
Two more points are the model's choice (log 27): the text is never lowered, so an upper-case one is refused as `ParseUr` and
`BWD.DECODE` refuse it (R279), and no next state keeps the type that was received (R277, `ur_type()`). -/
def Obligations.HostReceiveOutcomes : Prop :=
  (∀ (h : HostSide) (text : Bytes),
    (∀ e, parseUr text = .error e → hostReceive h text = .next ⟨h, .error (.uri e)⟩) ∧
    (∀ (u payloadText : Bytes) (q n : Nat),
      parseUr text = .ok (.single u payloadText) ∨ parseUr text = .ok (.multi u q n payloadText) →
      exceeds h.cfg.typeCap u.length = true → hostReceive h text = .next ⟨h, .error .urTypeTooBig⟩) ∧
    ∀ (u payloadText : Bytes) (q n : Nat), exceeds h.cfg.typeCap u.length = false → h.block.sysFault = none →
      (∀ e, parseUr text = .ok (.single u payloadText) ∨ parseUr text = .ok (.multi u q n payloadText) →
        decodeText h.block.cfg .minimal payloadText = .error e →
        hostReceive h text = .next
          ⟨{ h with block := { h.block with opr := .text payloadText, res := some (.err e) } }, .block (some (.err e))⟩) ∧
      ∀ (b : Bytes) (s : State), decodeText h.block.cfg .minimal payloadText = .ok b →
        s = { h.block with opr := .text payloadText, res := some (.ok (.payload b)) } →
        (parseUr text = .ok (.single u payloadText) → hostReceive h text = .next ⟨{ h with block := s }, .message b⟩) ∧
        (parseUr text = .ok (.multi u q n payloadText) → hostPart h b = none →
          hostReceive h text = .next ⟨{ h with block := s }, .error .malformedPart⟩) ∧
        ∀ (p : Part) (t : State), parseUr text = .ok (.multi u q n payloadText) → hostPart h b = some p →
          exec .decReceive { s with opr := p.toRecord } = .next t →
          hostReceive h text = .next ⟨{ h with block := t }, .block t.res⟩) ∧
  ∀ (h : HostSide) (u : Bytes) (p : Part) (t : State), h.block.sysFault = none → h.block.cfg.TablesOk →
    h.cfg.codec = .standard → u ≠ [] → (∀ b ∈ u, isTypeByte b = true) → exceeds h.cfg.typeCap u.length = false →
    partOperand h.block.cfg.usize p.toRecord = some p → p.data.length < 2 ^ 64 →
    exec .decReceive { h.block with
      opr := p.toRecord, res := some (.ok (.payload (partBytes .standard p))) } = .next t →
    hostReceive h (urMulti h.block.cfg .standard u p) = .next ⟨{ h with block := t }, .block t.res⟩
end

