-- ==== Sys2Proof/Laws/Collaborators.lean ====
section
/-! SUPPORT. The functions of a deployment that has the spec's own (00_scope.md R8, R9), so that no proof unfolds the choice. -/

namespace Sys2Proof

variable {cfg : Cfg}

@[simp] theorem Cfg.crc32Of_of_standard (h : cfg.crc32 = .standard) : cfg.crc32Of = Machine.crc32 := by
  funext m; simp [Cfg.crc32Of, h]

@[simp] theorem Cfg.sha256Of_of_standard (h : cfg.sha256 = .standard) : cfg.sha256Of = Machine.sha256 := by
  funext m; simp [Cfg.sha256Of, h]

@[simp] theorem Cfg.u64ToF_of_standard (h : cfg.binary64 = .standard) : cfg.u64ToF = Machine.u64ToF := by
  funext x; simp [Cfg.u64ToF, h]

@[simp] theorem Cfg.addF_of_standard (h : cfg.binary64 = .standard) : cfg.addF = Machine.addF := by
  funext a b; simp [Cfg.addF, h]

@[simp] theorem Cfg.subF_of_standard (h : cfg.binary64 = .standard) : cfg.subF = Machine.subF := by
  funext a b; simp [Cfg.subF, h]

@[simp] theorem Cfg.mulF_of_standard (h : cfg.binary64 = .standard) : cfg.mulF = Machine.mulF := by
  funext a b; simp [Cfg.mulF, h]

@[simp] theorem Cfg.divF_of_standard (h : cfg.binary64 = .standard) : cfg.divF = Machine.divF := by
  funext a b; simp [Cfg.divF, h]

@[simp] theorem Cfg.ltF_of_standard (h : cfg.binary64 = .standard) : cfg.ltF = Machine.ltF := by
  funext a b; simp [Cfg.ltF, h]

@[simp] theorem Cfg.fToNat_of_standard (h : cfg.binary64 = .standard) : cfg.fToNat = Machine.fToNat := by
  funext x; simp [Cfg.fToNat, h]

end Sys2Proof
end

