-- ==== Sys2Proof/Laws/State.lean ====
section
/-! SUPPORT. One lemma for each field of the state under each named update, so that no proof unfolds an update, and what
each update does to the outcomes built from it. -/

namespace Sys2Proof.Machine

variable (s : State)

@[simp] theorem State.reply_cfg (r : Reply) : (s.reply r).cfg = s.cfg := rfl
@[simp] theorem State.reply_sysFault (r : Reply) : (s.reply r).sysFault = s.sysFault := rfl
@[simp] theorem State.reply_prng (r : Reply) : (s.reply r).prng = s.prng := rfl
@[simp] theorem State.reply_smp (r : Reply) : (s.reply r).smp = s.smp := rfl
@[simp] theorem State.reply_enc (r : Reply) : (s.reply r).enc = s.enc := rfl
@[simp] theorem State.reply_dec (r : Reply) : (s.reply r).dec = s.dec := rfl
@[simp] theorem State.reply_opr (r : Reply) : (s.reply r).opr = s.opr := rfl
@[simp] theorem State.reply_res (r : Reply) : (s.reply r).res = some r := rfl
@[simp] theorem State.reply_issue (r : Reply) : (s.reply r).issue = s.issue := rfl
@[simp] theorem State.reply_freeIndex (r : Reply) : (s.reply r).freeIndex = s.freeIndex := rfl

@[simp] theorem State.withPrng_cfg (p : Option PrngWords) : (s.withPrng p).cfg = s.cfg := rfl
@[simp] theorem State.withPrng_sysFault (p : Option PrngWords) : (s.withPrng p).sysFault = s.sysFault := rfl
@[simp] theorem State.withPrng_prng (p : Option PrngWords) : (s.withPrng p).prng = p := rfl
@[simp] theorem State.withPrng_smp (p : Option PrngWords) : (s.withPrng p).smp = s.smp := rfl
@[simp] theorem State.withPrng_enc (p : Option PrngWords) : (s.withPrng p).enc = s.enc := rfl
@[simp] theorem State.withPrng_dec (p : Option PrngWords) : (s.withPrng p).dec = s.dec := rfl
@[simp] theorem State.withPrng_opr (p : Option PrngWords) : (s.withPrng p).opr = s.opr := rfl
@[simp] theorem State.withPrng_res (p : Option PrngWords) : (s.withPrng p).res = s.res := rfl
@[simp] theorem State.withPrng_issue (p : Option PrngWords) : (s.withPrng p).issue = s.issue := rfl
@[simp] theorem State.withPrng_freeIndex (p : Option PrngWords) : (s.withPrng p).freeIndex = s.freeIndex := rfl

@[simp] theorem State.withSmp_cfg (t : Option AliasTables) : (s.withSmp t).cfg = s.cfg := rfl
@[simp] theorem State.withSmp_sysFault (t : Option AliasTables) : (s.withSmp t).sysFault = s.sysFault := rfl
@[simp] theorem State.withSmp_prng (t : Option AliasTables) : (s.withSmp t).prng = s.prng := rfl
@[simp] theorem State.withSmp_smp (t : Option AliasTables) : (s.withSmp t).smp = t := rfl
@[simp] theorem State.withSmp_enc (t : Option AliasTables) : (s.withSmp t).enc = s.enc := rfl
@[simp] theorem State.withSmp_dec (t : Option AliasTables) : (s.withSmp t).dec = s.dec := rfl
@[simp] theorem State.withSmp_opr (t : Option AliasTables) : (s.withSmp t).opr = s.opr := rfl
@[simp] theorem State.withSmp_res (t : Option AliasTables) : (s.withSmp t).res = s.res := rfl
@[simp] theorem State.withSmp_issue (t : Option AliasTables) : (s.withSmp t).issue = s.issue := rfl
@[simp] theorem State.withSmp_freeIndex (t : Option AliasTables) : (s.withSmp t).freeIndex = s.freeIndex := rfl

@[simp] theorem State.withEnc_cfg (e : Option Encoder) : (s.withEnc e).cfg = s.cfg := rfl
@[simp] theorem State.withEnc_sysFault (e : Option Encoder) : (s.withEnc e).sysFault = s.sysFault := rfl
@[simp] theorem State.withEnc_prng (e : Option Encoder) : (s.withEnc e).prng = s.prng := rfl
@[simp] theorem State.withEnc_smp (e : Option Encoder) : (s.withEnc e).smp = s.smp := rfl
@[simp] theorem State.withEnc_enc (e : Option Encoder) : (s.withEnc e).enc = e := rfl
@[simp] theorem State.withEnc_dec (e : Option Encoder) : (s.withEnc e).dec = s.dec := rfl
@[simp] theorem State.withEnc_opr (e : Option Encoder) : (s.withEnc e).opr = s.opr := rfl
@[simp] theorem State.withEnc_res (e : Option Encoder) : (s.withEnc e).res = s.res := rfl
@[simp] theorem State.withEnc_issue (e : Option Encoder) : (s.withEnc e).issue = s.issue := rfl
@[simp] theorem State.withEnc_freeIndex (e : Option Encoder) : (s.withEnc e).freeIndex = s.freeIndex := rfl

@[simp] theorem State.withDec_cfg (d : Decoder) : (s.withDec d).cfg = s.cfg := rfl
@[simp] theorem State.withDec_sysFault (d : Decoder) : (s.withDec d).sysFault = s.sysFault := rfl
@[simp] theorem State.withDec_prng (d : Decoder) : (s.withDec d).prng = s.prng := rfl
@[simp] theorem State.withDec_smp (d : Decoder) : (s.withDec d).smp = s.smp := rfl
@[simp] theorem State.withDec_enc (d : Decoder) : (s.withDec d).enc = s.enc := rfl
@[simp] theorem State.withDec_dec (d : Decoder) : (s.withDec d).dec = d := rfl
@[simp] theorem State.withDec_opr (d : Decoder) : (s.withDec d).opr = s.opr := rfl
@[simp] theorem State.withDec_res (d : Decoder) : (s.withDec d).res = s.res := rfl
@[simp] theorem State.withDec_issue (d : Decoder) : (s.withDec d).issue = s.issue := rfl
@[simp] theorem State.withDec_freeIndex (d : Decoder) : (s.withDec d).freeIndex = s.freeIndex := rfl

@[simp] theorem State.present_cfg (r : OperandRecord) (rest : List Request) : (s.present r rest).cfg = s.cfg := rfl
@[simp] theorem State.present_sysFault (r : OperandRecord) (rest : List Request) :
    (s.present r rest).sysFault = s.sysFault := rfl
@[simp] theorem State.present_prng (r : OperandRecord) (rest : List Request) :
    (s.present r rest).prng = s.prng := rfl
@[simp] theorem State.present_smp (r : OperandRecord) (rest : List Request) : (s.present r rest).smp = s.smp := rfl
@[simp] theorem State.present_enc (r : OperandRecord) (rest : List Request) : (s.present r rest).enc = s.enc := rfl
@[simp] theorem State.present_dec (r : OperandRecord) (rest : List Request) : (s.present r rest).dec = s.dec := rfl
@[simp] theorem State.present_opr (r : OperandRecord) (rest : List Request) : (s.present r rest).opr = r := rfl
@[simp] theorem State.present_res (r : OperandRecord) (rest : List Request) : (s.present r rest).res = s.res := rfl
@[simp] theorem State.present_issue (r : OperandRecord) (rest : List Request) :
    (s.present r rest).issue = rest := rfl
@[simp] theorem State.present_freeIndex (r : OperandRecord) (rest : List Request) :
    (s.present r rest).freeIndex = s.freeIndex := rfl

@[simp] theorem State.raise_cfg (f : FaultCode) : (s.raise f).cfg = s.cfg := rfl
@[simp] theorem State.raise_sysFault (f : FaultCode) : (s.raise f).sysFault = heldFault s.sysFault f := rfl
@[simp] theorem State.raise_prng (f : FaultCode) : (s.raise f).prng = s.prng := rfl
@[simp] theorem State.raise_smp (f : FaultCode) : (s.raise f).smp = s.smp := rfl
@[simp] theorem State.raise_enc (f : FaultCode) : (s.raise f).enc = s.enc := rfl
@[simp] theorem State.raise_dec (f : FaultCode) : (s.raise f).dec = s.dec := rfl
@[simp] theorem State.raise_opr (f : FaultCode) : (s.raise f).opr = s.opr := rfl
@[simp] theorem State.raise_res (f : FaultCode) : (s.raise f).res = some (.fault f) := rfl
@[simp] theorem State.raise_issue (f : FaultCode) : (s.raise f).issue = s.issue := rfl
@[simp] theorem State.raise_freeIndex (f : FaultCode) : (s.raise f).freeIndex = s.freeIndex := rfl

@[simp] theorem State.resetBlock_cfg : s.resetBlock.cfg = s.cfg := rfl
@[simp] theorem State.resetBlock_sysFault : s.resetBlock.sysFault = none := rfl
@[simp] theorem State.resetBlock_prng : s.resetBlock.prng = none := rfl
@[simp] theorem State.resetBlock_smp : s.resetBlock.smp = none := rfl
@[simp] theorem State.resetBlock_enc : s.resetBlock.enc = none := rfl
@[simp] theorem State.resetBlock_dec : s.resetBlock.dec = .empty := rfl
@[simp] theorem State.resetBlock_opr : s.resetBlock.opr = s.opr := rfl
@[simp] theorem State.resetBlock_res : s.resetBlock.res = s.res := rfl
@[simp] theorem State.resetBlock_issue : s.resetBlock.issue = s.issue := rfl
@[simp] theorem State.resetBlock_freeIndex : s.resetBlock.freeIndex = s.freeIndex := rfl

/-- A result that is delivered twice is the second one. -/
@[simp] theorem State.reply_reply (r r' : Reply) : (s.reply r).reply r' = s.reply r' := rfl

/-- `raise` writes a register that held none. -/
theorem State.raise_of_none (f : FaultCode) (h : s.sysFault = none) :
    s.raise f = { s with sysFault := some f, res := some (.fault f) } := by
  simp [State.raise, State.reply, heldFault, h]

@[simp] theorem heldFault_none (f : FaultCode) : heldFault none f = some f := rfl

@[simp] theorem heldFault_some (f g : FaultCode) : heldFault (some g) f = some g := rfl

/-- `return Ok(v)` answers a next state. -/
@[simp] theorem State.answer_eq (v : OkFields) : s.answer v = .next (s.reply (.ok v)) := rfl

/-- `return Err(e)` answers a next state. -/
@[simp] theorem State.answerErr_eq (e : ErrorInfo) : s.answerErr e = .next (s.reply (.err e)) := rfl

/-- `fail_with(e)` answers a next state. -/
theorem State.failWith_eq (e : CapacityError) :
    s.failWith e =
      .next { s with dec := .failed e, freeIndex := s.freeIndex + 1, res := some (.err (.capacity e)) } := rfl

/-- The reset leaves what is no state element of 10_state.md R20, and the reset values elsewhere. -/
theorem State.resetBlock_eq :
    s.resetBlock =
      { State.reset with
        cfg := s.cfg, opr := s.opr, res := s.res, issue := s.issue, freeIndex := s.freeIndex } := rfl

end Sys2Proof.Machine
end

