-- ==== Sys2Proof/Laws/Ops.lean ====
section
/-! SUPPORT. One lemma for each shared operation that says once what it can do: the gate, the capacity test, the byte
spaces, byte strings, index sets, and the operand readers. -/

namespace Sys2Proof.Machine

/-! ### The gate -/

/-- While a fault is held, an operation answers with it (46_system.md R261, line 2). -/
theorem execute_of_held {α : Type} {s : State} {f : FaultCode} (o : Option α) (rule : α → StepOutcome)
    (h : s.sysFault = some f) : execute s o rule = .next (s.reply (.fault f)) := by
  simp [execute, h]

/-- An ill-typed operand record raises `IllegalCommand` (46_system.md R261, line 3). -/
theorem execute_of_none {α : Type} {s : State} (rule : α → StepOutcome) (h : s.sysFault = none) :
    execute s none rule = .next (s.raise .illegalCommand) := by
  simp [execute, h]

/-- Otherwise the operation's rule runs (46_system.md R261, line 4). -/
theorem execute_of_some {α : Type} {s : State} (a : α) (rule : α → StepOutcome) (h : s.sysFault = none) :
    execute s (some a) rule = rule a := by
  simp [execute, h]

/-- Everything the gate can do when it answers a next state. -/
theorem execute_next_cases {α : Type} {s t : State} {o : Option α} {rule : α → StepOutcome}
    (h : execute s o rule = .next t) :
    (∃ f, s.sysFault = some f ∧ t = s.reply (.fault f)) ∨
      (s.sysFault = none ∧ o = none ∧ t = s.raise .illegalCommand) ∨
      ∃ a, s.sysFault = none ∧ o = some a ∧ rule a = .next t := by
  unfold execute at h
  split at h
  · next f hf => exact .inl ⟨f, hf, by simpa using h.symm⟩
  · next hf =>
    split at h
    · exact .inr (.inl ⟨hf, rfl, by simpa using h.symm⟩)
    · next a => exact .inr (.inr ⟨a, hf, rfl, h⟩)

/-! ### Capacities and rounded-up division -/

@[simp] theorem exceeds_none (n : Nat) : exceeds none n = false := rfl

@[simp] theorem exceeds_some (c n : Nat) : exceeds (some c) n = decide (c < n) := rfl

/-- A capacity that is not exceeded is not exceeded by less. -/
theorem exceeds_of_le {cap : Option Nat} {m n : Nat} (h : m ≤ n) (hn : exceeds cap n = false) :
    exceeds cap m = false := by
  cases cap with
  | none => rfl
  | some c => simp only [exceeds_some, decide_eq_false_iff_not] at *; omega

/-- `ceil_div(a, b)` is the least integer not below `a / b` (00_scope.md R12). -/
theorem ceilDiv_le_iff {a b n : Nat} (hb : 1 ≤ b) : ceilDiv a b ≤ n ↔ a ≤ n * b := by
  unfold ceilDiv
  rw [Nat.div_le_iff_le_mul_add_pred (by omega), Nat.mul_comm]
  omega

/-- So many pieces are enough. -/
theorem le_ceilDiv_mul {a b : Nat} (hb : 1 ≤ b) : a ≤ ceilDiv a b * b := (ceilDiv_le_iff hb).1 le_rfl

/-- One piece less is not enough. -/
theorem ceilDiv_pred_mul_lt {a b : Nat} (hb : 1 ≤ b) (ha : 1 ≤ a) : (ceilDiv a b - 1) * b < a := by
  by_contra hcon
  have h := (ceilDiv_le_iff (a := a) (n := ceilDiv a b - 1) hb).2 (by omega)
  have h0 : ceilDiv a b = 0 := by omega
  have := le_ceilDiv_mul (a := a) hb
  simp [h0] at this
  omega

/-- Something needs at least one piece. -/
theorem one_le_ceilDiv {a b : Nat} (hb : 1 ≤ b) (ha : 1 ≤ a) : 1 ≤ ceilDiv a b := by
  by_contra hcon
  have h0 : ceilDiv a b = 0 := by omega
  have := le_ceilDiv_mul (a := a) hb
  simp [h0] at this
  omega

/-! ### Byte spaces -/

/-- A read inside a space gives the run of bytes there; outside it, nothing. -/
theorem memRead_eq_some {b v : Bytes} {addr n : Nat} :
    memRead b addr n = some v ↔ addr + n ≤ b.length ∧ v = (b.drop addr).take n := by
  unfold memRead
  split <;> simp_all [eq_comm]

/-- A write inside a space replaces the run of bytes there; outside it, nothing. -/
theorem memWrite_eq_some {b b' v : Bytes} {addr : Nat} :
    memWrite b addr v = some b' ↔
      addr + v.length ≤ b.length ∧ b' = b.take addr ++ v ++ b.drop (addr + v.length) := by
  unfold memWrite
  split <;> simp_all [eq_comm]

/-- A read has the length it asks for. -/
theorem memRead_length {b v : Bytes} {addr n : Nat} (h : memRead b addr n = some v) : v.length = n := by
  obtain ⟨hle, rfl⟩ := memRead_eq_some.1 h
  simp; omega

/-- A write keeps the size of the space. -/
theorem memWrite_length {b b' v : Bytes} {addr : Nat} (h : memWrite b addr v = some b') :
    b'.length = b.length := by
  obtain ⟨hle, rfl⟩ := memWrite_eq_some.1 h
  simp; omega

/-- Every byte after a write: the written bytes, and the old bytes elsewhere. -/
theorem memWrite_getElem? {b b' v : Bytes} {addr : Nat} (h : memWrite b addr v = some b') (k : Nat) :
    b'[k]? = if addr ≤ k ∧ k < addr + v.length then v[k - addr]? else b[k]? := by
  obtain ⟨hle, rfl⟩ := memWrite_eq_some.1 h
  have hlen : (b.take addr).length = addr := by simp; omega
  by_cases h1 : k < addr
  · rw [List.append_assoc, List.getElem?_append_left (by omega)]
    rw [if_neg (by omega)]
    simp [h1]
  · by_cases h2 : k < addr + v.length
    · rw [List.append_assoc, List.getElem?_append_right (by omega), hlen,
        List.getElem?_append_left (by omega), if_pos ⟨by omega, h2⟩]
    · rw [List.getElem?_append_right (by simp; omega), if_neg (by omega)]
      simp only [List.length_append, hlen, List.getElem?_drop]
      congr 1
      omega

/-- A read after a write to the same place gives what was written. -/
theorem memRead_memWrite_same {b b' v : Bytes} {addr : Nat} (h : memWrite b addr v = some b') :
    memRead b' addr v.length = some v := by
  have hl := memWrite_length h
  obtain ⟨hle, hb⟩ := memWrite_eq_some.1 h
  refine memRead_eq_some.2 ⟨by omega, ?_⟩
  subst hb
  have hlen : (b.take addr).length = addr := by simp; omega
  rw [List.append_assoc, List.drop_left' hlen, List.take_left' rfl]

/-- A write leaves a read elsewhere alone. -/
theorem memRead_memWrite_disjoint {b b' v : Bytes} {addr at' n : Nat} (h : memWrite b addr v = some b')
    (hd : at' + n ≤ addr ∨ addr + v.length ≤ at') : memRead b' at' n = memRead b at' n := by
  have hl := memWrite_length h
  unfold memRead
  rw [hl]
  split
  · congr 1
    apply List.ext_getElem?
    intro k
    simp only [List.getElem?_take, List.getElem?_drop, memWrite_getElem? h]
    split
    · rw [if_neg (by omega)]
    · rfl
  · rfl

/-! ### Byte strings -/

@[simp] theorem zeroBytes_length (n : Nat) : (zeroBytes n).length = n := by simp [zeroBytes]

@[simp] theorem xorBytes_length (a b : Bytes) : (xorBytes a b).length = min a.length b.length := by
  simp [xorBytes]

theorem xorBytes_comm (a b : Bytes) : xorBytes a b = xorBytes b a := by
  unfold xorBytes
  rw [List.zipWith_comm]
  congr 1
  funext x y
  exact BitVec.xor_comm y x

theorem xorBytes_assoc (a b c : Bytes) : xorBytes (xorBytes a b) c = xorBytes a (xorBytes b c) := by
  induction a generalizing b c with
  | nil => rfl
  | cons x a ih =>
    cases b with
    | nil => rfl
    | cons y b =>
      cases c with
      | nil => rfl
      | cons z c => simp only [xorBytes, List.zipWith_cons_cons] at ih ⊢; rw [ih, BitVec.xor_assoc]

theorem xorBytes_self (a : Bytes) : xorBytes a a = zeroBytes a.length := by
  induction a with
  | nil => rfl
  | cons x a ih =>
    simp only [xorBytes, zeroBytes, List.zipWith_cons_cons, BitVec.xor_self, List.length_cons,
      List.replicate_succ] at ih ⊢
    rw [ih]
    rfl

theorem xorBytes_zero (a : Bytes) : xorBytes a (zeroBytes a.length) = a := by
  induction a with
  | nil => rfl
  | cons x a ih =>
    simp only [xorBytes, zeroBytes, List.length_cons, List.replicate_succ, List.zipWith_cons_cons] at ih ⊢
    rw [ih]
    simp

@[simp] theorem be32_length (v : U32) : (be32 v).length = 4 := rfl

@[simp] theorem be64_length (v : U64) : (be64 v).length = 8 := rfl

/-- `be32_read` reads back what `be32` wrote. -/
@[simp] theorem be32Read_be32 (v : U32) : be32Read (be32 v) = v := by
  apply BitVec.eq_of_toNat_eq
  have h := v.isLt
  simp only [be32Read, beNat, be32, List.foldl_cons, List.foldl_nil, BitVec.extractLsb'_toNat,
    BitVec.toNat_ofNat, Nat.shiftRight_eq_div_pow]
  omega

/-! ### Index sets -/

@[simp] theorem mem_insertIndex {i j : Nat} {l : List Nat} : j ∈ insertIndex i l ↔ j = i ∨ j ∈ l := by
  induction l with
  | nil => simp [insertIndex]
  | cons k l ih =>
    unfold insertIndex
    split
    · simp
    · split
      · next h => subst h; simp
      · simp [ih, or_left_comm]

/-- Inserting keeps a list rising. -/
theorem insertIndex_pairwise {i : Nat} {l : List Nat} (h : l.Pairwise (· < ·)) :
    (insertIndex i l).Pairwise (· < ·) := by
  induction l with
  | nil => simp [insertIndex]
  | cons k l ih =>
    obtain ⟨hk, hl⟩ := List.pairwise_cons.1 h
    unfold insertIndex
    split
    · next hik =>
      refine List.pairwise_cons.2 ⟨fun a ha => ?_, h⟩
      rcases List.mem_cons.1 ha with rfl | ha
      · exact hik
      · exact hik.trans (hk a ha)
    · split
      · exact h
      · refine List.pairwise_cons.2 ⟨fun a ha => ?_, ih hl⟩
        rcases mem_insertIndex.1 ha with rfl | ha
        · omega
        · exact hk a ha

/-- Inserting a new element makes the set one larger. -/
theorem insertIndex_length_of_not_mem {i : Nat} {l : List Nat} (h : i ∉ l) :
    (insertIndex i l).length = l.length + 1 := by
  induction l with
  | nil => rfl
  | cons k l ih =>
    simp only [List.mem_cons, not_or] at h
    unfold insertIndex
    split
    · rfl
    · rw [if_neg h.1, List.length_cons, ih h.2, List.length_cons]

@[simp] theorem mem_toIndexSet {i : Nat} {l : List Nat} : i ∈ toIndexSet l ↔ i ∈ l := by
  induction l with
  | nil => simp [toIndexSet]
  | cons k l ih => simp only [toIndexSet, List.foldr_cons, mem_insertIndex, List.mem_cons] at ih ⊢; rw [ih]

/-- The set of a list is rising. -/
theorem toIndexSet_pairwise (l : List Nat) : (toIndexSet l).Pairwise (· < ·) := by
  induction l with
  | nil => simp [toIndexSet]
  | cons k l ih => exact insertIndex_pairwise ih

/-! ### Operand readers: what each accepts -/

theorem noOperands_eq_some {r : OperandRecord} {u : Unit} : noOperands r = some u ↔ r = .empty := by
  cases r <;> simp [noOperands]

theorem seedOperand_eq_some {r : OperandRecord} {b : Bytes} : seedOperand r = some b ↔ r = .seed b := by
  cases r <;> simp [seedOperand]

theorem digestOperand_eq_some {r : OperandRecord} {b : Bytes} :
    digestOperand r = some b ↔ r = .digest b ∧ b.length = 32 := by
  cases r with
  | digest d =>
    simp only [digestOperand]
    split
    · next h =>
      constructor
      · rintro ⟨⟩; exact ⟨rfl, h⟩
      · rintro ⟨h1, -⟩; cases h1; rfl
    · next h =>
      constructor
      · rintro ⟨⟩
      · rintro ⟨h1, h2⟩; cases h1; exact absurd h2 h
  | _ => simp [digestOperand]

theorem rangeOperands_eq_some {r : OperandRecord} {o : RangeOperands} :
    rangeOperands r = some o ↔ r = .range o.low o.high ∧ o.low < 2 ^ 64 ∧ o.high < 2 ^ 64 := by
  cases r with
  | range low high =>
    simp only [rangeOperands]
    split
    · next h =>
      constructor
      · rintro ⟨⟩; exact ⟨rfl, h⟩
      · rintro ⟨h1, -⟩; cases o; cases h1; rfl
    · next h =>
      constructor
      · rintro ⟨⟩
      · rintro ⟨h1, h2⟩; cases h1; exact absurd h2 h
  | _ => simp [rangeOperands]

theorem weightsOperand_eq_some {r : OperandRecord} {ws : List F64} : weightsOperand r = some ws ↔ r = .weights ws := by
  cases r <;> simp [weightsOperand]

theorem payloadOperand_eq_some {r : OperandRecord} {b : Bytes} : payloadOperand r = some b ↔ r = .payload b := by
  cases r <;> simp [payloadOperand]

theorem textOperand_eq_some {r : OperandRecord} {b : Bytes} : textOperand r = some b ↔ r = .text b := by
  cases r <;> simp [textOperand]

theorem startOperands_eq_some {w : UsizeWidth} {r : OperandRecord} {o : StartOperands} :
    startOperands w r = some o ↔ r = .start o.message o.maxFragmentLength ∧ o.maxFragmentLength < 2 ^ w.bits := by
  cases r with
  | start message limit =>
    simp only [startOperands]
    split
    · next h =>
      constructor
      · rintro ⟨⟩; exact ⟨rfl, h⟩
      · rintro ⟨h1, -⟩; cases o; cases h1; rfl
    · next h =>
      constructor
      · rintro ⟨⟩
      · rintro ⟨h1, h2⟩; cases h1; exact absurd h2 h
  | _ => simp [startOperands]

/-- The record of a typed choice reads back as it. -/
theorem choiceOperands_of_fits {w : UsizeWidth} {sequence count checksum : Nat}
    (h : sequence < 2 ^ 32 ∧ count < 2 ^ w.bits ∧ checksum < 2 ^ 32) :
    choiceOperands w (.choice sequence count checksum) =
      some ⟨BitVec.ofNat 32 sequence, count, BitVec.ofNat 32 checksum⟩ := if_pos h

/-- The record of a part whose counts fit reads back as the part. -/
theorem partOperand_toRecord {w : UsizeWidth} {p : Part} (hc : p.sequenceCount < 2 ^ 32)
    (hm : p.messageLength < 2 ^ w.bits) : partOperand w p.toRecord = some p := by
  have h1 := p.sequence.isLt
  have h2 := p.checksum.isLt
  simp only [Part.toRecord, Part.toRaw, partOperand]
  rw [if_pos ⟨h1, hc, hm, h2⟩]
  simp

/-- A part the block reads has typed counts. -/
theorem partOperand_bounds {w : UsizeWidth} {r : OperandRecord} {p : Part} (h : partOperand w r = some p) :
    p.sequenceCount < 2 ^ 32 ∧ p.messageLength < 2 ^ w.bits := by
  cases r with
  | part q =>
    simp only [partOperand] at h
    split at h
    · next hq => cases h; exact ⟨hq.2.1, hq.2.2.1⟩
    · cases h
  | _ => simp [partOperand] at h

end Sys2Proof.Machine
end

