-- ==== Sys2Proof/Laws/Decoder.lean ====
section
/-! SUPPORT. One lemma for each operation of the decoder that says once what it can do, for the proofs about
`DEC.RECEIVE`. -/

namespace Sys2Proof.Machine

/-! ### The two lists -/

/-- Appending to the FIFO: the item at the tail, within the capacity. -/
theorem appendFifo_eq_ok {cfg : Cfg} {a a' : Assembly} {p : IndexedPart} :
    appendFifo cfg a p = .ok a' ↔
      exceeds cfg.queueCap (a.fifo.length + 1) = false ∧ a' = { a with fifo := a.fifo ++ [p] } := by
  unfold appendFifo
  split
  · next h => rw [h]; exact ⟨fun hk => ⟨rfl, (Except.ok.inj hk).symm⟩, fun hk => congrArg _ hk.2.symm⟩
  · next c h =>
    rw [h, exceeds_some]
    split
    · next hc => exact ⟨fun hk => (nomatch hk), fun hk => absurd hc (of_decide_eq_false hk.1)⟩
    · next hc => exact ⟨fun hk => ⟨decide_eq_false hc, (Except.ok.inj hk).symm⟩, fun hk => congrArg _ hk.2.symm⟩

/-- Appending to the FIFO fails only by `QueueFull`. -/
theorem appendFifo_eq_error {cfg : Cfg} {a : Assembly} {p : IndexedPart} {e : DrainStop} :
    appendFifo cfg a p = .error e ↔
      ∃ c, cfg.queueCap = some c ∧ c < a.fifo.length + 1 ∧ e = .capacity (.queueFull .fifo c) := by
  unfold appendFifo
  split
  · next h => simp [h]
  · next c h =>
    split
    · next hc =>
      refine ⟨fun hk => ⟨c, h, hc, (Except.error.inj hk).symm⟩, ?_⟩
      rintro ⟨c', hc', -, rfl⟩
      rw [h] at hc'
      cases hc'
      rfl
    · next hc =>
      refine ⟨fun hk => (nomatch hk), ?_⟩
      rintro ⟨c', hc', hlt, -⟩
      rw [h] at hc'
      cases hc'
      exact absurd hlt hc

/-- Appending to the pending list: the item at the tail, within the capacity. -/
theorem appendMixed_eq_ok {cfg : Cfg} {a a' : Assembly} {p : IndexedPart} :
    appendMixed cfg a p = .ok a' ↔
      exceeds cfg.mixedCap (a.mixed.length + 1) = false ∧ a' = { a with mixed := a.mixed ++ [p] } := by
  unfold appendMixed
  split
  · next h => rw [h]; exact ⟨fun hk => ⟨rfl, (Except.ok.inj hk).symm⟩, fun hk => congrArg _ hk.2.symm⟩
  · next c h =>
    rw [h, exceeds_some]
    split
    · next hc => exact ⟨fun hk => (nomatch hk), fun hk => absurd hc (of_decide_eq_false hk.1)⟩
    · next hc => exact ⟨fun hk => ⟨decide_eq_false hc, (Except.ok.inj hk).symm⟩, fun hk => congrArg _ hk.2.symm⟩

/-- Appending several items to the FIFO: all of them at the tail, in order. -/
theorem appendAllFifo_eq_ok {cfg : Cfg} {a a' : Assembly} {l : List IndexedPart}
    (h : appendAllFifo cfg a l = .ok a') :
    a' = { a with fifo := a.fifo ++ l } ∧
      (exceeds cfg.queueCap a.fifo.length = false → exceeds cfg.queueCap a'.fifo.length = false) := by
  induction l generalizing a with
  | nil =>
    simp only [appendAllFifo, Except.ok.injEq] at h
    subst h
    exact ⟨by simp, id⟩
  | cons p l ih =>
    unfold appendAllFifo at h
    split at h
    · cases h
    · next a1 h1 =>
      obtain ⟨hcap, rfl⟩ := appendFifo_eq_ok.1 h1
      obtain ⟨rfl, hcap'⟩ := ih h
      refine ⟨by simp, fun _ => hcap' ?_⟩
      simpa using hcap

/-! ### Reduction -/

@[simp] theorem indexSubset_iff {a b : List Nat} : indexSubset a b = true ↔ ∀ i ∈ a, i ∈ b := by
  simp [indexSubset]

/-- Reducing a part twice over: its index set never grows. -/
theorem reducePart_indexes_subset {a b : IndexedPart} {i : Nat} (h : i ∈ (reducePart a b).indexes) :
    i ∈ a.indexes := by
  unfold reducePart at h
  split at h
  · exact (List.mem_filter.1 h).1
  · exact h

/-- `ReducePending`: the reduced parts that stayed mixed stay, the ones that became simple are in the FIFO. -/
theorem reducePending_eq_ok {cfg : Cfg} {a a' : Assembly} {b : IndexedPart} (h : reducePending cfg a b = .ok a') :
    a' = { a with
      mixed := (a.mixed.map fun m => reducePart m b).filter fun m => !m.simple
      fifo := a.fifo ++ (a.mixed.map fun m => reducePart m b).filter IndexedPart.simple } := by
  obtain ⟨rfl, -⟩ := appendAllFifo_eq_ok h
  rfl

/-- With nothing pending, `ReducePending` does nothing. -/
@[simp] theorem reducePending_nil {cfg : Cfg} {a : Assembly} {b : IndexedPart} (h : a.mixed = []) :
    reducePending cfg a b = .ok a := by
  cases a
  simp only at h
  subst h
  rfl

/-! ### The buffer -/

/-- Writing a fragment: its bytes in the buffer, everything else as it was. -/
theorem writeFragment_eq_ok {a a' : Assembly} {i : Nat} {d : Bytes} :
    writeFragment a i d = .ok a' ↔
      ∃ b, memWrite a.buf (i * a.desc.fragmentLength) d = some b ∧ a' = { a with buf := b } := by
  unfold writeFragment
  split
  · next h => simp [h]
  · next b h => simp [h, eq_comm]

/-! ### One item -/

/-- Everything `ProcessSimple` can do. -/
theorem processSimple_eq_ok {cfg : Cfg} {a a' : Assembly} {i : Nat} {d : Bytes} {done : Bool}
    (h : processSimple cfg a i d = .ok (a', done)) :
    (i ∈ a.resolved ∧ a' = a ∧ done = false) ∨
      (i ∉ a.resolved ∧ ∃ a1 b, reducePending cfg a ⟨[i], d⟩ = .ok a1 ∧
        memWrite a1.buf (i * a1.desc.fragmentLength) d = some b ∧
        a' = { a1 with buf := b, resolved := insertIndex i a1.resolved } ∧
        done = ((insertIndex i a1.resolved).length == a1.desc.sequenceCount)) := by
  unfold processSimple at h
  split at h
  · next hi =>
    cases h
    exact .inl ⟨by simpa using hi, rfl, rfl⟩
  · next hi =>
    split at h
    · cases h
    · next a1 h1 =>
      split at h
      · cases h
      · next a2 h2 =>
        obtain ⟨b, hb, rfl⟩ := writeFragment_eq_ok.1 h2
        cases h
        exact .inr ⟨by simpa using hi, a1, b, h1, hb, rfl, rfl⟩

/-- Everything `ProcessMixed` can do. -/
theorem processMixed_eq_ok {cfg : Cfg} {a a' : Assembly} {p : IndexedPart} (h : processMixed cfg a p = .ok a') :
    ((∃ m ∈ a.mixed, m.indexes = p.indexes) ∧ a' = a) ∨
      ∃ p1, withoutResolved a p = .ok p1 ∧
        ((p1.indexes = [] ∧ a' = a) ∨
          (p1.simple = true ∧ appendFifo cfg a p1 = .ok a') ∨
          (p1.simple = false ∧ (reduceByPending a p1).simple = true ∧
            appendFifo cfg a (reduceByPending a p1) = .ok a') ∨
          (p1.simple = false ∧ (reduceByPending a p1).simple = false ∧
            storeMixed cfg a (reduceByPending a p1) = .ok a')) := by
  unfold processMixed at h
  split at h
  · next hm =>
    cases h
    exact .inl ⟨by simpa [List.any_eq_true] using hm, rfl⟩
  · split at h
    · cases h
    · next p1 hp1 =>
      refine .inr ⟨p1, hp1, ?_⟩
      split at h
      · next h0 =>
        cases h
        exact .inl ⟨List.eq_nil_of_length_eq_zero h0, rfl⟩
      · split at h
        · next hs => exact .inr (.inl ⟨hs, h⟩)
        · next hs =>
          simp only at h
          split at h
          · next hs2 => exact .inr (.inr (.inl ⟨by simpa using hs, hs2, h⟩))
          · next hs2 => exact .inr (.inr (.inr ⟨by simpa using hs, by simpa using hs2, h⟩))

/-! ### The operation -/

/-- Every next state in which `DEC.RECEIVE` can end after its drain loop. -/
theorem finishReceive_next_cases {s t : State} {r : Except DrainStop (Assembly × Bool)} (h : s.finishReceive r = .next t) :
    (∃ e, r = .error (.capacity e) ∧ s.failWith e = .next t) ∨
      ∃ a done, r = .ok (a, done) ∧
        t = (s.withDec (if done then .complete a else .accumulating a)).reply (.ok (.more (!done))) := by
  unfold State.finishReceive at h
  split at h
  · next e => exact .inl ⟨e, rfl, h⟩
  · cases h
  · next a => exact .inr ⟨a, true, rfl, by simpa using h.symm⟩
  · next a => exact .inr ⟨a, false, rfl, by simpa using h.symm⟩

/-- Everything steps 5 to 7 of `DEC.RECEIVE` can do when they answer a next state. -/
theorem receiveInto_next_cases {s t : State} {a : Assembly} {p : Part} (h : receiveInto s a p = .next t) :
    (∃ f, choose s.cfg p.sequence a.desc.sequenceCount a.desc.checksum = .error f ∧ t = s.raise f) ∨
      (∃ e, s.failWith e = .next t) ∨
      ∃ indexes a1 a2 done,
        choose s.cfg p.sequence a.desc.sequenceCount a.desc.checksum = .ok indexes ∧
          appendFifo s.cfg a ⟨indexes, p.data⟩ = .ok a1 ∧
          drain s.cfg (drainBound a1) a1 = .ok (a2, done) ∧
          t = (s.withDec (if done then .complete a2 else .accumulating a2)).reply (.ok (.more (!done))) := by
  unfold receiveInto at h
  split at h
  · next f hf => exact .inl ⟨f, hf, by simpa using h.symm⟩
  · next indexes hi =>
    split at h
    · next e _ =>
      obtain ⟨e', -, he⟩ | ⟨a2, done, hk, -⟩ := finishReceive_next_cases h
      · exact .inr (.inl ⟨e', he⟩)
      · cases hk
    · next a1 h1 =>
      obtain ⟨e', -, he⟩ | ⟨a2, done, hk, ht⟩ := finishReceive_next_cases h
      · exact .inr (.inl ⟨e', he⟩)
      · exact .inr (.inr ⟨indexes, a1, a2, done, hi, h1, hk, ht⟩)

end Sys2Proof.Machine
end

