-- ==== Sys2Proof/Laws/Step.lean ====
section
/-! SUPPORT. What a step is for each kind of request, so that no proof unfolds `step` or `accept`. -/

namespace Sys2Proof.Machine

/-- A step with nothing issued. -/
theorem step_of_idle {s : State} (h : s.issue = []) : step s = .next s := by
  simp [step, h]

/-- A step that takes a command word which is an operation. -/
theorem step_of_decode {s : State} {r : Request} {rest : List Request} {i : Instr} (h : s.issue = r :: rest)
    (hd : decode r.cmd = .ok i) : step s = exec i (s.present r.operands rest) := by
  simp [step, accept, h, hd]

/-- A step that takes a command word which is none. -/
theorem step_of_reject {s : State} {r : Request} {rest : List Request} {e : DecodeReject} (h : s.issue = r :: rest)
    (hd : decode r.cmd = .error e) : step s = rejectCommand (s.present r.operands rest) := by
  simp [step, accept, h, hd]

/-- A rejected command always answers a next state. -/
theorem rejectCommand_next (s : State) : ∃ t, rejectCommand s = .next t := by
  unfold rejectCommand
  split
  · exact ⟨_, rfl⟩
  · exact ⟨_, rfl⟩

@[simp] theorem withFetchWord_issue (s : State) (nbits w : Nat) :
    (s.withFetchWord nbits w).issue = requestOfWord (w % 2 ^ min nbits 8) :: s.issue := rfl

end Sys2Proof.Machine
end

