-- ==== Sys2Proof/Laws/HostLayer.lean ====
section
/-! SUPPORT. What a host function's use of the block is, so that no proof unfolds `HostSide.issue`. -/

namespace Sys2Proof.Machine

@[simp] theorem withBlock_block (h : HostSide) (s : State) : (h.withBlock s).block = s := rfl

@[simp] theorem withBlock_cfg (h : HostSide) (s : State) : (h.withBlock s).cfg = h.cfg := rfl

@[simp] theorem withBlock_urType (h : HostSide) (s : State) : (h.withBlock s).urType = h.urType := rfl

@[simp] theorem withType_block (h : HostSide) (t : Bytes) : (h.withType t).block = h.block := rfl

@[simp] theorem withType_cfg (h : HostSide) (t : Bytes) : (h.withType t).cfg = h.cfg := rfl

@[simp] theorem withType_urType (h : HostSide) (t : Bytes) : (h.withType t).urType = some t := rfl

/-- The step that an operation issued first makes. -/
theorem step_of_issued (s : State) (i : Instr) (operands : OperandRecord) :
    step { s with issue := ⟨encode i, operands⟩ :: s.issue } = exec i { s with opr := operands } :=
  step_of_decode (r := ⟨encode i, operands⟩) rfl (show decode (encode i) = .ok i by cases i <;> decide)

/-- Issuing an operation is the operation on the block with the operands handed over. -/
theorem issue_of_exec {h : HostSide} {i : Instr} {operands : OperandRecord} {next : HostSide → HostOutcome} {s : State}
    (hs : exec i { h.block with opr := operands } = .next s) : h.issue i operands next = next (h.withBlock s) := by
  unfold HostSide.issue
  rw [step_of_issued, hs]

/-- A host function goes on only from a next state of the block. -/
theorem issue_next_cases {h : HostSide} {i : Instr} {operands : OperandRecord} {next : HostSide → HostOutcome}
    {r : HostResult} (hr : h.issue i operands next = .next r) :
    ∃ s, exec i { h.block with opr := operands } = .next s ∧ next (h.withBlock s) = .next r := by
  unfold HostSide.issue at hr
  rw [step_of_issued] at hr
  split at hr
  · exact ⟨_, ‹_›, hr⟩
  · cases hr
  · cases hr

end Sys2Proof.Machine
end

