-- ==== Sys2Proof/Laws/PerInstr.lean ====
section
/-! SUPPORT. Statements about an instruction as syntax, one lemma for each constructor. -/

namespace Sys2Proof.Laws.ZeroRecordFits

/-- The command word of the operation decodes to it, and the operand record of zeros has the operation's operand types
(30_encoding.md R90, R91), whatever the width of a `usize`. -/
def Statement (i : Instr) : Prop :=
  decode (encode i) = .ok i ∧ (zeroOperands i).wellFormedFor .w32 i = true ∧
    (zeroOperands i).wellFormedFor .w64 i = true

theorem sysReset : Statement .sysReset := by unfold Statement; decide

theorem sysStatus : Statement .sysStatus := by unfold Statement; decide

theorem prngSeedBytes : Statement .prngSeedBytes := by unfold Statement; decide

theorem prngSeedStr : Statement .prngSeedStr := by unfold Statement; decide

theorem prngSeedDigest : Statement .prngSeedDigest := by unfold Statement; decide

theorem prngNext : Statement .prngNext := by unfold Statement; decide

theorem prngNextDouble : Statement .prngNextDouble := by unfold Statement; decide

theorem prngNextInt : Statement .prngNextInt := by unfold Statement; decide

theorem smpSetup : Statement .smpSetup := by unfold Statement; decide

theorem smpNext : Statement .smpNext := by unfold Statement; decide

theorem chsChoose : Statement .chsChoose := by unfold Statement; decide

theorem encStart : Statement .encStart := by unfold Statement; decide

theorem encNextPart : Statement .encNextPart := by unfold Statement; decide

theorem encSeqCount : Statement .encSeqCount := by unfold Statement; decide

theorem encIsComplete : Statement .encIsComplete := by unfold Statement; decide

theorem decReceive : Statement .decReceive := by unfold Statement; decide

theorem decMessage : Statement .decMessage := by unfold Statement; decide

theorem decIsComplete : Statement .decIsComplete := by unfold Statement; decide

theorem decPercent : Statement .decPercent := by unfold Statement; decide

theorem decClear : Statement .decClear := by unfold Statement; decide

theorem bwdEncodeStandard : Statement .bwdEncodeStandard := by unfold Statement; decide

theorem bwdEncodeUri : Statement .bwdEncodeUri := by unfold Statement; decide

theorem bwdEncodeMinimal : Statement .bwdEncodeMinimal := by unfold Statement; decide

theorem bwdDecodeStandard : Statement .bwdDecodeStandard := by unfold Statement; decide

theorem bwdDecodeUri : Statement .bwdDecodeUri := by unfold Statement; decide

theorem bwdDecodeMinimal : Statement .bwdDecodeMinimal := by unfold Statement; decide

end Sys2Proof.Laws.ZeroRecordFits
end

