-- ==== Sys2Proof/Laws/Rom.lean ====
section
/-! SUPPORT. The properties of the two word tables that the codec's rules rely on (30_encoding.md R112): for the spec's tables
each by evaluation, and what they say of the words of a style in any deployment whose tables have them. -/

namespace Sys2Proof.Machine

theorem bw4_length : bw4.length = 256 := by decide +kernel

theorem bw2_length : bw2.length = 256 := by decide +kernel

theorem bw4_word_length : ∀ w ∈ bw4, w.length = 4 := by decide +kernel

theorem bw2_word_length : ∀ w ∈ bw2, w.length = 2 := by decide +kernel

/-- Every entry is lower-case letters only. -/
theorem bw4_letters : ∀ w ∈ bw4, ∀ b ∈ w, 0x61 ≤ b.toNat ∧ b.toNat ≤ 0x7A := by
  have h : (bw4.all fun w => w.all fun b => Nat.ble 0x61 b.toNat && Nat.ble b.toNat 0x7A) = true := by decide +kernel
  intro w hw b hb
  simpa using List.all_eq_true.1 (List.all_eq_true.1 h w hw) b hb

/-- Every entry is lower-case letters only. -/
theorem bw2_letters : ∀ w ∈ bw2, ∀ b ∈ w, 0x61 ≤ b.toNat ∧ b.toNat ≤ 0x7A := by
  have h : (bw2.all fun w => w.all fun b => Nat.ble 0x61 b.toNat && Nat.ble b.toNat 0x7A) = true := by decide +kernel
  intro w hw b hb
  simpa using List.all_eq_true.1 (List.all_eq_true.1 h w hw) b hb

/-- `BW4` is in alphabetical order. -/
theorem bw4_alphabetical : Alphabetical bw4 := by
  unfold Alphabetical
  rw [← List.isChain_iff_pairwise]
  decide +kernel

/-- All entries are distinct. -/
theorem bw4_nodup : bw4.Nodup :=
  List.Nodup.of_map (List.map BitVec.toNat) (bw4_alphabetical.imp fun h => ne_of_lt h)

/-- All entries are distinct. -/
theorem bw2_nodup : bw2.Nodup := by
  have h : (bw2.map beNat).Nodup := by decide +kernel
  exact List.Nodup.of_map beNat h

theorem bw4_ok : WordTableOk 4 bw4 :=
  ⟨bw4_length, bw4_nodup, fun w hw => ⟨bw4_word_length w hw, bw4_letters w hw⟩⟩

theorem bw2_ok : WordTableOk 2 bw2 :=
  ⟨bw2_length, bw2_nodup, fun w hw => ⟨bw2_word_length w hw, bw2_letters w hw⟩⟩

@[simp] theorem words4_of_standard {cfg : Cfg} (h : cfg.bw4 = .standard) : cfg.words4 = bw4 := by
  simp [Cfg.words4, h]

@[simp] theorem words2_of_standard {cfg : Cfg} (h : cfg.bw2 = .standard) : cfg.words2 = bw2 := by
  simp [Cfg.words2, h]

/-- A deployment with the spec's tables has the four properties (30_encoding.md R112). -/
theorem tablesOk_of_standard {cfg : Cfg} (h4 : cfg.bw4 = .standard) (h2 : cfg.bw2 = .standard) : cfg.TablesOk := by
  unfold Cfg.TablesOk
  rw [words4_of_standard h4, words2_of_standard h2]
  exact ⟨bw4_ok, bw2_ok, bw4_alphabetical⟩

/-- The number of bytes of a word of a style (30_encoding.md R104). -/
def styleWordLength : Style → Nat
  | .standard => 4
  | .uri => 4
  | .minimal => 2

/-- The table of every style has the properties of 30_encoding.md R112. -/
theorem styleTable_ok {cfg : Cfg} (h : cfg.TablesOk) (style : Style) :
    WordTableOk (styleWordLength style) (styleTable cfg style) := by
  cases style with
  | standard => exact h.1
  | uri => exact h.1
  | minimal => exact h.2.1

/-- A byte has a word in every style, and it is a table entry. -/
theorem wordOfByte_mem {cfg : Cfg} (h : cfg.TablesOk) (style : Style) (b : Byte) :
    wordOfByte cfg style b ∈ styleTable cfg style := by
  have hb := b.isLt
  have hl : b.toNat < (styleTable cfg style).length := by rw [(styleTable_ok h style).1]; omega
  unfold wordOfByte
  rw [List.getD_eq_getElem _ _ hl]
  exact List.getElem_mem hl

/-- The byte of a word is the byte whose word it is (30_encoding.md R106). -/
theorem byteOfWord_eq_some {cfg : Cfg} (h : cfg.TablesOk) {style : Style} {token : Bytes} {b : Byte} :
    byteOfWord cfg style token = some b ↔ wordOfByte cfg style b = token := by
  obtain ⟨hlen, hnd, -⟩ := styleTable_ok h style
  have hb := b.isLt
  have hl : b.toNat < (styleTable cfg style).length := by omega
  unfold byteOfWord wordOfByte
  rw [List.getD_eq_getElem _ _ hl]
  constructor
  · intro h
    obtain ⟨i, hi, rfl⟩ := Option.map_eq_some_iff.1 h
    obtain ⟨hlt, he, -⟩ := List.idxOf?_eq_some_iff.1 hi
    have : (BitVec.ofNat 8 i).toNat = i := by simp; omega
    simpa [this] using he
  · rintro rfl
    refine Option.map_eq_some_iff.2 ⟨b.toNat, ?_, by simp⟩
    refine List.idxOf?_eq_some_iff.2 ⟨hl, rfl, fun j hj => ?_⟩
    intro heq
    have := (List.Nodup.getElem_inj_iff hnd).1 heq
    omega

end Sys2Proof.Machine
end

