-- ==== Sys2Proof/Tests/Slice0.lean ====
section
/-! SUPPORT. Tests of the model against the values that spec/ prints (the rule or vector stands in each docstring), the smoke
tests of WellFormed, the command words written out, and a witness for the hypotheses of every statement. -/

namespace Sys2Proof.Tests

open Sys2Proof Sys2Proof.Machine

-- One test after the other: checked side by side, their evaluations together exceed the memory limit of the check.
set_option Elab.async false

/-! ### Helpers -/

/-- The state an operation answers. -/
def nextState : StepOutcome → State
  | .next t => t
  | .fault _ => State.reset
  | .refused _ => State.reset

/-- Whether an operation answers a state. -/
def isNext : StepOutcome → Bool
  | .next _ => true
  | .fault _ => false
  | .refused _ => false

theorem eq_next {o : StepOutcome} (h : isNext o = true) : o = .next (nextState o) := by
  cases o with
  | next t => rfl
  | fault f => cases h
  | refused r => cases h

/-- The result an operation delivers. -/
def result (i : Instr) (s : State) : Option Reply :=
  match exec i s with
  | .next t => t.res
  | .fault _ => none
  | .refused _ => none

/-- The state after reset with an operand record handed over. -/
def withOperands (o : OperandRecord) : State := { State.reset with opr := o }

/-- The words of the generator seeded with the string "Wolf" (40_prng.md R131, example). -/
def wolf : PrngWords := ⟨0xEA858AFBF837AAE7, 0x14617E89A36524AC, 0xED28F7DE921F7798, 0xE72810FD8839A462⟩

/-- Words whose next draw is `2^64 - 1`, so that its double is 1.0. -/
def topDraw : PrngWords := ⟨0, 0x4fc71c71c71c71c7, 0, 0⟩

/-- The tables of 41_sampler.md R151's example. -/
def tables4 : AliasTables :=
  ⟨[⟨0x3fd1111111111111, 2⟩, ⟨0x3fe1111111111111, 3⟩, ⟨0x3fd5555555555554, 3⟩, ⟨0x3ff0000000000000, 0⟩]⟩

/-- The message of the source's literals, "Ten chars!". -/
def tenChars : Bytes := [0x54, 0x65, 0x6E, 0x20, 0x63, 0x68, 0x61, 0x72, 0x73, 0x21]

/-- The encoder of 43_encoder.md R181's example. -/
def encoder0 : Encoder := ⟨tenChars, 4, 0xF4EB56F1, 0, false, none⟩

/-- A started encoder of that message that has emitted `k` parts. -/
def encoderAt (k : U32) : State :=
  { withOperands .empty with enc := some { encoder0 with currentSequence := k } }

/-- The deployment of the tests. -/
def big : Cfg := Cfg.growable .w64

/-- The description of that message's parts. -/
def desc3 : MessageDescription := ⟨3, 10, 0xF4EB56F1, 4⟩

/-- A part of that message's stream. -/
def part3 (sequence : U32) (data : Bytes) : Part := ⟨sequence, 3, 10, 0xF4EB56F1, data⟩

/-- The decoder after the third part (44_decoder.md R200, example). -/
def assembly2 : Assembly := ⟨desc3, [0, 0, 0, 0, 0, 0, 0, 0, 0x73, 0x21, 0, 0], [2], [], []⟩

/-- A decoder that holds the whole message. -/
def assembly3 : Assembly := ⟨desc3, tenChars ++ [0, 0], [0, 1, 2], [], []⟩

/-- A decoder with the combined part 5 pending (44_decoder.md R211, example). -/
def assemblyMixed : Assembly := ⟨desc3, zeroBytes 12, [], [], [⟨[0, 1, 2], [0x44, 0x2C, 0x0F, 0x52]⟩]⟩

/-- A state with a decoder and operands. -/
def decoding (d : Decoder) (o : OperandRecord) : State := { withOperands o with dec := d }

/-- A fixed deployment with small capacities. -/
def smallCfg : Cfg :=
  { Cfg.growable .w32 with
    msgCap := some 8, maxFragments := some 4, fragCap := some 5, queueCap := some 2, mixedCap := some 2, smpCap := some 3 }

/-- An empty decoder in the small deployment. -/
def small (o : OperandRecord) : State := { withOperands o with cfg := smallCfg }

/-! ### WellFormed: each check refuses an ill-formed record -/

theorem test_wf_digest_31 : (OperandRecord.digest (zeroBytes 31)).wellFormedFor .w64 .prngSeedDigest = false := by decide
theorem test_wf_low_not_u64 : (OperandRecord.range (2 ^ 64) 0).wellFormedFor .w64 .prngNextInt = false := by decide
theorem test_wf_high_not_u64 : (OperandRecord.range 0 (2 ^ 64)).wellFormedFor .w64 .prngNextInt = false := by decide
theorem test_wf_choice_sequence : (OperandRecord.choice (2 ^ 32) 1 0).wellFormedFor .w64 .chsChoose = false := by decide
theorem test_wf_choice_count : (OperandRecord.choice 1 (2 ^ 32) 0).wellFormedFor .w32 .chsChoose = false ∧
    (OperandRecord.choice 1 (2 ^ 32) 0).wellFormedFor .w64 .chsChoose = true := by decide
theorem test_wf_choice_checksum : (OperandRecord.choice 1 1 (2 ^ 32)).wellFormedFor .w64 .chsChoose = false := by decide
theorem test_wf_start_limit : (OperandRecord.start [1] (2 ^ 32)).wellFormedFor .w32 .encStart = false := by decide
theorem test_wf_part_sequence :
    (OperandRecord.part ⟨2 ^ 32, 1, 1, 0, [0]⟩).wellFormedFor .w64 .decReceive = false := by decide
theorem test_wf_part_count : (OperandRecord.part ⟨1, 2 ^ 32, 1, 0, [0]⟩).wellFormedFor .w64 .decReceive = false := by decide
theorem test_wf_part_length : (OperandRecord.part ⟨1, 1, 2 ^ 32, 0, [0]⟩).wellFormedFor .w32 .decReceive = false := by decide
theorem test_wf_part_checksum :
    (OperandRecord.part ⟨1, 1, 1, 2 ^ 32, [0]⟩).wellFormedFor .w64 .decReceive = false := by decide
theorem test_wf_other_shape : (OperandRecord.payload []).wellFormedFor .w64 .bwdDecodeUri = false ∧
    (OperandRecord.seed []).wellFormedFor .w64 .prngNext = false := by decide
theorem test_wf_malformed : ∀ i : Instr, OperandRecord.malformed.wellFormedFor .w64 i = false := by
  intro i; cases i <;> rfl

/-! ### Decode: every command word of 30_encoding.md R91, written out -/

theorem test_decode_sys : decode 0b00000000 = .ok .sysReset ∧ decode 0b00000001 = .ok .sysStatus := by decide
theorem test_decode_prng : decode 0b00010000 = .ok .prngSeedBytes ∧ decode 0b00010001 = .ok .prngSeedStr ∧
    decode 0b00010010 = .ok .prngSeedDigest ∧ decode 0b00010011 = .ok .prngNext ∧
    decode 0b00010100 = .ok .prngNextDouble ∧ decode 0b00010101 = .ok .prngNextInt := by decide
theorem test_decode_smp : decode 0b00100000 = .ok .smpSetup ∧ decode 0b00100001 = .ok .smpNext := by decide
theorem test_decode_chs : decode 0b00110000 = .ok .chsChoose := by decide
theorem test_decode_enc : decode 0b01000000 = .ok .encStart ∧ decode 0b01000001 = .ok .encNextPart ∧
    decode 0b01000010 = .ok .encSeqCount ∧ decode 0b01000011 = .ok .encIsComplete := by decide
theorem test_decode_dec : decode 0b01010000 = .ok .decReceive ∧ decode 0b01010001 = .ok .decMessage ∧
    decode 0b01010010 = .ok .decIsComplete ∧ decode 0b01010011 = .ok .decPercent ∧
    decode 0b01010100 = .ok .decClear := by decide
theorem test_decode_bwd : decode 0b01100000 = .ok .bwdEncodeStandard ∧ decode 0b01100001 = .ok .bwdEncodeUri ∧
    decode 0b01100010 = .ok .bwdEncodeMinimal ∧ decode 0b01100100 = .ok .bwdDecodeStandard ∧
    decode 0b01100101 = .ok .bwdDecodeUri ∧ decode 0b01100110 = .ok .bwdDecodeMinimal := by decide
/-- 30_encoding.md R94. -/
theorem test_decode_reserved : decode 0x02 = .error .unassignedFunction ∧ decode 0x16 = .error .unassignedFunction ∧
    decode 0x63 = .error .reservedStyle ∧ decode 0x67 = .error .reservedStyle ∧
    decode 0x68 = .error .unassignedFunction ∧ decode 0x70 = .error .reservedUnit ∧
    decode 0xFF = .error .reservedUnit := by decide
theorem test_decode_table_word : decodeTableWord 8 0x41 = some .encNextPart ∧ decodeTableWord 8 0x44 = none := by decide
/-- 46_system.md R260, example: after reset `PRNG.NEXT` faults, here as the first request after reset. -/
theorem test_first_step : (nextState (step (State.reset.withFetchWord 8 0x13))).res = some (.fault .prngNotSeeded) := by
  decide

/-! ### The collaborators -/

/-- 48_collaborators.md R303. -/
theorem test_sha256_abc : sha256 [0x61, 0x62, 0x63] =
    [0xba, 0x78, 0x16, 0xbf, 0x8f, 0x01, 0xcf, 0xea, 0x41, 0x41, 0x40, 0xde, 0x5d, 0xae, 0x22, 0x23,
      0xb0, 0x03, 0x61, 0xa3, 0x96, 0x17, 0x7a, 0x9c, 0xb4, 0x10, 0xff, 0x61, 0xf2, 0x00, 0x15, 0xad] := by
  decide +kernel
/-- 48_collaborators.md R311. -/
theorem test_crc32 : crc32 [] = 0 ∧ crc32 [0] = 0xD202EF8D ∧ crc32 tenChars = 0xF4EB56F1 ∧
    crc32 [0x31, 0x32, 0x33, 0x34, 0x35, 0x36, 0x37, 0x38, 0x39] = 0xCBF43926 := by decide +kernel
/-- 48_collaborators.md R316: ties to even, and the top of the range. -/
theorem test_u64_to_f : u64ToF (2 ^ 53 + 1) = u64ToF (2 ^ 53) ∧ u64ToF (2 ^ 53 + 3) = u64ToF (2 ^ 53 + 4) ∧
    u64ToF (2 ^ 64 - 1025) = 0x43efffffffffffff ∧ u64ToF (2 ^ 64 - 1024) = 0x43f0000000000000 := by decide +kernel

/-! ### One step of each operation -/

theorem test_sys_reset_clears_fault : (nextState (exec .sysReset
    { decoding (.complete assembly3) .empty with sysFault := some .badIntRange, prng := some wolf })) =
    { State.reset with res := some (.ok .none) } := by decide
/-- 46_system.md R262, example. -/
theorem test_sys_status_after_reset : result .sysStatus State.reset = some (.ok (.status
    ⟨none, false, false, 0, false, 0, false, .empty, 0, 0, none⟩)) := by decide
/-- 40_prng.md R131, example. -/
theorem test_seed_bytes : (nextState (exec .prngSeedBytes (withOperands (.seed [0x57, 0x6F, 0x6C, 0x66])))).prng =
    some wolf := by decide +kernel
/-- 40_prng.md R132: the string's bytes are treated as a byte string. -/
theorem test_seed_str : exec .prngSeedStr (withOperands (.seed [0x57, 0x6F, 0x6C, 0x66])) =
    exec .prngSeedBytes (withOperands (.seed [0x57, 0x6F, 0x6C, 0x66])) := rfl
/-- 40_prng.md R133, example. -/
theorem test_seed_digest : (nextState (exec .prngSeedDigest
    (withOperands (.digest ((List.range 32).map fun k => BitVec.ofNat 8 k))))).prng =
    some ⟨0x0001020304050607, 0x08090A0B0C0D0E0F, 0x1011121314151617, 0x18191A1B1C1D1E1F⟩ := by decide +kernel
/-- 30_encoding.md R94. -/
theorem test_seed_digest_short : result .prngSeedDigest (withOperands (.digest (zeroBytes 31))) =
    some (.fault .illegalCommand) := by decide
/-- 40_prng.md R134, example. -/
theorem test_next : result .prngNext { withOperands .empty with prng := some wolf } =
    some (.ok (.u64 0x919F18DC63B91FC2)) := by decide +kernel
/-- 40_prng.md R130, example: the new state. -/
theorem test_next_state : (nextState (exec .prngNext { withOperands .empty with prng := some ⟨1, 2, 3, 4⟩ })).prng =
    some ⟨0x7, 0x0, 0x40002, 0xC00000000000⟩ := by decide +kernel
/-- 40_prng.md R135, example. -/
theorem test_next_double : result .prngNextDouble { withOperands .empty with prng := some wolf } =
    some (.ok (.f64 0x3fe233e31b8c7724)) := by decide +kernel
/-- 40_prng.md R136, example: 6 is the first of the ten results. -/
theorem test_next_int : result .prngNextInt { withOperands (.range 1 10) with prng := some wolf } =
    some (.ok (.u64 6)) := by decide +kernel
/-- 40_prng.md R136: a bad range does not draw. -/
theorem test_next_int_bad_range : nextState (exec .prngNextInt { withOperands (.range 2 1) with prng := some wolf }) =
    { withOperands (.range 2 1) with
      prng := some wolf, sysFault := some .badIntRange, res := some (.fault .badIntRange) } := by decide +kernel
/-- 41_sampler.md R151, example. -/
theorem test_setup : (nextState (exec .smpSetup (withOperands (.weights
    [0x3ff0000000000000, 0x4000000000000000, 0x4010000000000000, 0x4020000000000000])))).smp = some tables4 := by
  decide +kernel
/-- 41_sampler.md R151: `-0.0` is no negative weight, and weights of zero sum to zero. -/
theorem test_setup_zero : result .smpSetup (withOperands (.weights [0x8000000000000000, 0])) =
    some (.fault .zeroWeights) := by decide +kernel
/-- 41_sampler.md R152, example. -/
theorem test_smp_next : result .smpNext { withOperands .empty with prng := some wolf, smp := some tables4 } =
    some (.ok (.index 3)) := by decide +kernel
/-- 41_sampler.md R153: a first draw of 1.0. -/
theorem test_smp_next_top : result .smpNext { withOperands .empty with prng := some topDraw, smp := some tables4 } =
    some (.fault .samplerIndexOutOfRange) := by decide +kernel
/-- 42_chooser.md R170 and R177, example. -/
theorem test_choose : result .chsChoose (withOperands (.choice 5 3 0xF4EB56F1)) = some (.ok (.indexes [0, 1, 2])) := by
  decide +kernel
/-- 42_chooser.md R174. -/
theorem test_choose_zero : result .chsChoose (withOperands (.choice 0 3 0)) = some (.fault .chooserPrecondition) := by decide
/-- 43_encoder.md R181, example. -/
theorem test_start : (nextState (exec .encStart (withOperands (.start tenChars 4)))).enc = some encoder0 := by
  decide +kernel
theorem test_start_empty : result .encStart (withOperands (.start [] 0)) = some (.fault .emptyMessage) := by decide
/-- 43_encoder.md R183, example: the third part is padded and sets the flag. -/
theorem test_next_part : (nextState (exec .encNextPart (encoderAt 2))).res =
      some (.ok (.part (part3 3 [0x73, 0x21, 0x00, 0x00]))) ∧
    ((nextState (exec .encNextPart (encoderAt 2))).enc.map Encoder.allEmitted) = some true := by decide +kernel
/-- 43_encoder.md R183, example: the fifth part combines all three fragments. -/
theorem test_next_part_combined : result .encNextPart (encoderAt 4) =
    some (.ok (.part (part3 5 [0x44, 0x2C, 0x0F, 0x52]))) := by decide +kernel
/-- 43_encoder.md R182, example. -/
theorem test_seq_count : result .encSeqCount (encoderAt 0) = some (.ok (.count 3)) := by decide
/-- 43_encoder.md R185, example. -/
theorem test_enc_is_complete : result .encIsComplete (encoderAt 0) = some (.ok (.flag false)) := by decide
/-- 44_decoder.md R200, example. -/
theorem test_receive_first : (nextState (exec .decReceive
    (decoding .empty (part3 3 [0x73, 0x21, 0x00, 0x00]).toRecord))).dec = .accumulating assembly2 := by decide +kernel
/-- 44_decoder.md R211, example: part 7, `{0, 1}`, reduces the pending `{0, 1, 2}` to `{2}`, which resolves. -/
theorem test_receive_reduces_pending : (nextState (exec .decReceive
    (decoding (.accumulating assemblyMixed) (part3 7 [0x37, 0x0D, 0x0F, 0x52]).toRecord))).dec =
    .accumulating { assembly2 with mixed := [⟨[0, 1], [0x37, 0x0D, 0x0F, 0x52]⟩] } := by decide +kernel
/-- 44_decoder.md R216, example. -/
theorem test_message : result .decMessage (decoding (.complete assembly3) .empty) =
    some (.ok (.message (some tenChars))) := by decide
/-- 44_decoder.md R216, example: a byte of padding that is not zero. -/
theorem test_message_padding : result .decMessage
    (decoding (.complete ⟨⟨2, 3, 0, 2⟩, [0x61, 0x62, 0x63, 0x01], [0, 1], [], []⟩) .empty) =
    some (.err .invalidPadding) := by decide
theorem test_dec_is_complete : result .decIsComplete (decoding (.complete assembly3) .empty) =
    some (.ok (.flag true)) := by decide
/-- 44_decoder.md R219, example. -/
theorem test_percent : result .decPercent (decoding (.accumulating assembly2) .empty) =
    some (.ok (.f64 0x3fc8618618618618)) := by decide +kernel
theorem test_clear : (nextState (exec .decClear (decoding (.failed .tooManyFragments) .empty))).dec = .empty := by decide
/-- 45_bytewords.md R241, example: `able tied also webs lung`. -/
theorem test_bwd_encode_standard : result .bwdEncodeStandard (withOperands (.payload [0])) =
    some (.ok (.text (ascii "able tied also webs lung"))) := by decide +kernel
/-- 45_bytewords.md R241, example. -/
theorem test_bwd_encode_uri : result .bwdEncodeUri (withOperands (.payload [0])) =
    some (.ok (.text (ascii "able-tied-also-webs-lung"))) := by decide +kernel
/-- 45_bytewords.md R241, example. -/
theorem test_bwd_encode_minimal : result .bwdEncodeMinimal (withOperands (.payload [0])) =
    some (.ok (.text (ascii "aetdaowslg"))) := by decide +kernel
/-- 45_bytewords.md R242, examples. -/
theorem test_bwd_decode_standard : result .bwdDecodeStandard (withOperands (.text (ascii "able tied also webs luck"))) =
    some (.err (.invalidChecksum 0xD202EF8C 0xD202EF8D)) := by decide +kernel
/-- 45_bytewords.md R243, examples: two adjacent separators, and the empty text. -/
theorem test_bwd_decode_empty_token :
    result .bwdDecodeStandard (withOperands (.text (ascii "able  tied also webs lung"))) =
      some (.err (.invalidWord 1)) ∧
    result .bwdDecodeStandard (withOperands (.text [])) = some (.err (.invalidWord 0)) := by decide +kernel
/-- 45_bytewords.md R242, R245. -/
theorem test_bwd_decode_uri : result .bwdDecodeUri (withOperands (.text (ascii "able-tied-also-webs-lung"))) =
    some (.ok (.payload [0])) := by decide +kernel
/-- 45_bytewords.md R243: only the style's own separator separates. -/
theorem test_bwd_decode_uri_spaces :
    result .bwdDecodeUri (withOperands (.text (ascii "able tied also webs lung"))) =
      some (.err (.invalidWord 0)) := by decide +kernel
/-- 45_bytewords.md R242, R244, examples. -/
theorem test_bwd_decode_minimal : result .bwdDecodeMinimal (withOperands (.text (ascii "aetdaowsl"))) =
      some (.err .invalidLength) ∧
    result .bwdDecodeMinimal (withOperands (.text (ascii "aetdaowsxx"))) = some (.err (.invalidWord 4)) := by
  decide +kernel
/-- 45_bytewords.md R244, R245: the empty text, and exactly four bytes. -/
theorem test_bwd_decode_minimal_short : result .bwdDecodeMinimal (withOperands (.text [])) =
      some (.err .checksumNotPresent) ∧
    result .bwdDecodeMinimal (withOperands (.text (ascii "aeaeaeae"))) = some (.ok (.payload [])) := by decide +kernel

/-! ### The restricted solver and the framing -/

/-- The pending list of vector V44-6 after four parts, and part 9 in the FIFO (44_decoder.md R225). -/
def restricted : Assembly where
  desc := ⟨4, 16, 0x5EFF53A5, 4⟩
  buf := zeroBytes 16
  resolved := []
  fifo := [⟨[0, 1, 2, 3], [0x77, 0x1E, 0x52, 0x45]⟩]
  mixed := [⟨[0, 1, 3], [0x57, 0x7D, 0x3D, 0x21]⟩, ⟨[0, 1, 2], [0x12, 0x6D, 0x73, 0x64]⟩,
    ⟨[1, 2, 3], [0x31, 0x71, 0x27, 0x2B]⟩, ⟨[0, 2, 3], [0x03, 0x7F, 0x3B, 0x2B]⟩]

/-- 95_test_vectors.md V44-6: part 9 is reduced by the head of the list only, resolves index 2, and leaves four pending
parts. -/
theorem test_restricted_solver :
    (match drain (Cfg.growable .w64) (drainBound restricted) restricted with
      | .ok (a, done) => (a.resolved, a.fifo, a.mixed, done)
      | .error _ => ([], [], [], true)) =
    ([2], [], [⟨[0, 1, 3], [0x57, 0x7D, 0x3D, 0x21]⟩, ⟨[0, 1], [0x32, 0x0E, 0x1C, 0x00]⟩,
      ⟨[1, 3], [0x11, 0x12, 0x48, 0x4F]⟩, ⟨[0, 3], [0x23, 0x1C, 0x54, 0x4F]⟩], false) := by decide +kernel
/-- 95_test_vectors.md, the URI of part 1 of "Ten chars!". -/
theorem test_ur_multi : urMulti big .standard (ascii "bytes") (part3 1 [0x54, 0x65, 0x6E, 0x20]) =
    ascii "ur:bytes/1-3/lpadaxbkcywkwmhfwnfyghihjtcxfwfrbahy" := by decide +kernel
/-- 95_test_vectors.md: a sequence number that is no `u32`. -/
theorem test_parse_ur : parseUr (ascii "ur:bytes/4294967296-3/aeaeaeae") = .error .invalidIndices := by decide +kernel
/-- 47_host_framing.md R271, example: a head of one byte, of two and of five, read back. -/
theorem test_read_cbor : readCborPart
    [0x85, 0x0C, 0x08, 0x18, 0x64, 0x1A, 0x12, 0x34, 0x56, 0x78, 0x45, 0x01, 0x05, 0x03, 0x03, 0x05] =
    some ⟨12, 8, 100, 0x12345678, [0x01, 0x05, 0x03, 0x03, 0x05]⟩ := by decide +kernel

/-- A host with an empty block, and a type buffer of five bytes. -/
def hostSide (s : State) : HostSide := ⟨s, ⟨some 5, none, .standard⟩, some (ascii "bytes")⟩

/-- What a host function answers. -/
def hostReply : HostOutcome → Option HostReply
  | .next r => some r.reply
  | .fault _ => none
  | .refused _ => none

/-- 47_host_framing.md R274, example: the payload of a single-part URI is the message. -/
theorem test_receive_single : hostReply (hostReceive (hostSide State.reset)
    (ascii "ur:bytes/ghihjtcxiaishsjpjkclwkwmhfwn")) = some (.message tenChars) := by decide +kernel
/-- 47_host_framing.md R275, example, R277: part 1 of three, received by the block. -/
theorem test_receive_multi : hostReply (hostReceive (hostSide State.reset)
    (ascii "ur:bytes/1-3/lpadaxbkcywkwmhfwnfyghihjtcxfwfrbahy")) = some (.block (some (.ok (.more true)))) := by decide +kernel
/-- 47_host_framing.md R275, example, R278: the host's part 5. -/
theorem test_host_next_part : hostReply (hostNextPart (hostSide (encoderAt 4))) =
    some (.uri (ascii "ur:bytes/5-3/lpahaxbkcywkwmhfwnfyfydwbsgmjlfstkwy")) := by decide +kernel

/-! ### Witnesses: for every statement with hypotheses, a state and operands that meet them, clause by clause -/

theorem assembly2_ok : assembly2.Ok big := by
  unfold Assembly.Ok IndexedPart.Ok IndexSet; decide +kernel
theorem assembly3_ok : assembly3.Ok big := by
  unfold Assembly.Ok IndexedPart.Ok IndexSet; decide +kernel
theorem assemblyMixed_ok : assemblyMixed.Ok big := by
  unfold Assembly.Ok IndexedPart.Ok IndexSet; decide +kernel
theorem encoder2_ok : ({ encoder0 with currentSequence := 2 } : Encoder).Ok big := by
  refine ⟨by decide +kernel, by decide +kernel, by decide +kernel, by decide +kernel, by decide +kernel, by decide +kernel,
    by decide +kernel, by decide +kernel, ?_, ?_⟩
  · intro b hb; cases hb
  · decide
theorem decoding_inv {d : Decoder} {o : OperandRecord} (h : d.Ok big) : (decoding d o).Inv :=
  ⟨fun _ ht => (nomatch ht), fun _ he => (nomatch he), h⟩
theorem accumulating2_ok : (Decoder.accumulating assembly2).Ok big := ⟨assembly2_ok, rfl, by decide⟩
theorem accumulatingMixed_ok : (Decoder.accumulating assemblyMixed).Ok big := ⟨assemblyMixed_ok, rfl, by decide⟩
theorem complete3_ok : (Decoder.complete assembly3).Ok big := ⟨assembly3_ok, by decide⟩

theorem witness_CommandWordsRoundTrip : ∃ (w : Byte) (i : Instr), decode w = .ok i := ⟨0x66, .bwdDecodeMinimal, by decide⟩

theorem witness_IllegalCommandsRaise :
    (∃ (s : State) (r : Request) (rest : List Request) (e : DecodeReject), s.sysFault = none ∧ s.issue = r :: rest ∧
      decode r.cmd = .error e) ∧
    ∀ i : Instr, i ≠ .sysReset → i ≠ .sysStatus → ∃ s : State, s.sysFault = none ∧
      s.opr.wellFormedFor s.cfg.usize i = false := by
  refine ⟨⟨{ State.reset with issue := [⟨0x70, .empty⟩] }, _, _, .reservedUnit, rfl, rfl, by decide⟩, ?_⟩
  intro i _ _
  exact ⟨withOperands .malformed, rfl, by cases i <;> rfl⟩

theorem witness_StepRunsDecodedOperation :
    (∃ (s : State) (r : Request) (rest : List Request) (i : Instr), s.issue = r :: rest ∧ decode r.cmd = .ok i) ∧
      ∃ s : State, s.issue = [] :=
  ⟨⟨{ State.reset with issue := [⟨0x54, .empty⟩] }, _, _, .decClear, rfl, by decide⟩, State.reset, rfl⟩

theorem witness_HeldFaultGatesOperations :
    (∃ (s : State) (f : FaultCode), s.sysFault = some f) ∧
    (∃ (s : State) (r : Request) (rest : List Request) (e : DecodeReject) (f : FaultCode), s.sysFault = some f ∧
      s.issue = r :: rest ∧ decode r.cmd = .error e) ∧
    ∀ i : Instr, i ≠ .sysReset → ∃ (s t : State) (f : FaultCode), s.sysFault = some f ∧ exec i s = .next t := by
  refine ⟨⟨{ State.reset with sysFault := some .badIntRange }, _, rfl⟩,
    ⟨{ State.reset with sysFault := some .badIntRange, issue := [⟨0x02, .empty⟩] }, _, _, .unassignedFunction, _, rfl,
      rfl, by decide⟩, ?_⟩
  intro i _
  refine ⟨{ State.reset with sysFault := some .badIntRange }, nextState (exec i _), _, rfl, eq_next ?_⟩
  cases i <;> rfl

/-- A fault of each kind that R346 lists, but for the chooser's faults in `DEC.RECEIVE`: no input of the chooser is known
that makes a draw of exactly 1.0. -/
theorem witness_FaultsArePrecise :
    (∃ s t : State, s.sysFault = none ∧ exec .prngNextInt s = .next t ∧ t.sysFault = some .arithmeticOverflow) ∧
    (∃ s t : State, s.sysFault = none ∧ exec .smpNext s = .next t ∧ t.sysFault = some .samplerIndexOutOfRange) ∧
    (∃ s t : State, s.sysFault = none ∧ exec .encNextPart s = .next t ∧ t.sysFault = some .chooserPrecondition) ∧
    ∃ s t : State, s.sysFault = none ∧ exec .decReceive s = .next t ∧ t.sysFault = some .illegalCommand :=
  ⟨⟨{ withOperands (.range 1 (2 ^ 64 - 1)) with prng := some topDraw }, nextState (exec .prngNextInt _), rfl,
      eq_next (by decide +kernel), by decide +kernel⟩,
    ⟨{ withOperands .empty with prng := some topDraw, smp := some tables4 }, nextState (exec .smpNext _), rfl,
      eq_next (by decide +kernel), by decide +kernel⟩,
    ⟨encoderAt 0xFFFFFFFF, nextState (exec .encNextPart _), rfl, eq_next (by decide), by decide⟩,
    ⟨withOperands .empty, nextState (exec .decReceive _), rfl, eq_next (by decide), by decide⟩⟩

theorem witness_ResetValues : ∃ s t : State, exec .sysReset s = .next t :=
  ⟨{ State.reset with sysFault := some .badIntRange }, _, rfl⟩

theorem witness_SysStatusRecord :
    (∃ (s : State) (t : AliasTables), s.smp = some t) ∧ (∃ s : State, s.smp = none ∧ s.enc = none ∧ s.dec = .empty) ∧
    (∃ (s : State) (e : Encoder), s.enc = some e) ∧ (∃ (s : State) (a : Assembly), s.dec = .accumulating a) ∧
    (∃ (s : State) (a : Assembly), s.dec = .complete a ∧ s.dec.Ok s.cfg) ∧
    ∃ (s : State) (e : CapacityError), s.dec = .failed e :=
  ⟨⟨{ State.reset with smp := some tables4 }, _, rfl⟩, ⟨State.reset, rfl, rfl, rfl⟩, ⟨encoderAt 0, _, rfl⟩,
    ⟨decoding (.accumulating assembly2) .empty, _, rfl⟩,
    ⟨decoding (.complete assembly3) .empty, assembly3, rfl, complete3_ok⟩,
    ⟨decoding (.failed .fragmentTooBig) .empty, _, rfl⟩⟩

theorem witness_SeedFromBytes : ∃ (s : State) (seed : Bytes), s.sysFault = none ∧ s.opr = .seed seed :=
  ⟨withOperands (.seed []), [], rfl, rfl⟩

theorem witness_SeedFromDigest :
    (∃ (s : State) (d : Bytes), s.sysFault = none ∧ s.opr = .digest d ∧ d.length = 32) ∧
    (∃ (s : State) (d : Bytes), s.sysFault = none ∧ s.opr = .digest d ∧ d.length ≠ 32) ∧
    (∃ s : State, s.sysFault = none ∧ s.opr = .digest (List.replicate 32 0)) ∧
    ∃ s : State, s.sysFault = none ∧ s.opr = .empty ∧ s.prng = some ⟨0, 0, 0, 0⟩ :=
  ⟨⟨withOperands (.digest (zeroBytes 32)), _, rfl, rfl, by decide⟩,
    ⟨withOperands (.digest (zeroBytes 33)), _, rfl, rfl, by decide⟩, ⟨withOperands (.digest _), rfl, rfl⟩,
    ⟨{ withOperands .empty with prng := some ⟨0, 0, 0, 0⟩ }, rfl, rfl, rfl⟩⟩

theorem witness_PrngNextDraws :
    (∃ (s : State) (p : PrngWords), s.sysFault = none ∧ s.opr = .empty ∧ s.prng = some p) ∧
      ∃ s : State, s.sysFault = none ∧ s.opr = .empty ∧ s.prng = none :=
  ⟨⟨{ withOperands .empty with prng := some wolf }, _, rfl, rfl, rfl⟩, withOperands .empty, rfl, rfl, rfl⟩

/-- The draws at both sides of the bound. -/
theorem witness_PrngNextDouble :
    (∃ (s : State) (p : PrngWords), s.sysFault = none ∧ s.opr = .empty ∧ s.prng = some p) ∧
    (∃ s : State, s.sysFault = none ∧ s.opr = .empty ∧ s.prng = none) ∧ (∃ x : U64, x ≠ 0) ∧
    big.binary64 = .standard ∧ doubleOfDraw big 0xfffffffffffffc00 = fOne ∧ doubleOfDraw big 0xfffffffffffffbff ≠ fOne :=
  ⟨witness_PrngNextDraws.1, witness_PrngNextDraws.2, ⟨1, by decide⟩, rfl, by decide +kernel,
    by decide +kernel⟩

/-- The widest legal range and the narrowest illegal one are among the witnesses. -/
theorem witness_PrngNextIntDraws :
    (∃ (s : State) (p : PrngWords) (low high v : Nat), s.sysFault = none ∧ s.opr = .range low high ∧ high < 2 ^ 64 ∧
      s.prng = some p ∧ low ≤ high ∧ high - low + 1 < 2 ^ 64 ∧
      v = s.cfg.fToNat (s.cfg.mulF (s.cfg.divF (s.cfg.u64ToF (prngStep p).1.toNat) fTwo64)
        (s.cfg.u64ToF (high - low + 1))) + low) ∧
    (∃ (s : State) (low high : Nat), s.sysFault = none ∧ s.prng = none ∧ s.opr = .range low high ∧ low < 2 ^ 64 ∧
      high < 2 ^ 64) ∧
    (∃ (s : State) (p : PrngWords), s.sysFault = none ∧ s.opr = .range 0 (2 ^ 64 - 1) ∧ s.prng = some p ∧
      (2 ^ 64 - 1 < 0 ∨ 2 ^ 64 - 1 < 2 ^ 64 - 1 - 0 + 1)) ∧
    (∃ (s : State) (p : PrngWords), s.sysFault = none ∧ s.opr = .range 1 0 ∧ s.prng = some p ∧ (0 < 1)) ∧
    (∃ x : U64, x.toNat < 2 ^ 64 - 1024) ∧
    ∃ (x : U64) (low high : Nat), 2 ^ 64 - 1024 ≤ x.toNat ∧ low ≤ high ∧ high - low + 1 ≤ 2 ^ 53 :=
  ⟨⟨{ withOperands (.range 1 (2 ^ 64 - 1)) with prng := some wolf }, wolf, 1, 2 ^ 64 - 1, _, rfl, rfl, by decide, rfl,
      by decide, by decide, rfl⟩,
    ⟨withOperands (.range 0 1), 0, 1, rfl, rfl, rfl, by decide, by decide⟩,
    ⟨{ withOperands (.range 0 (2 ^ 64 - 1)) with prng := some wolf }, wolf, rfl, rfl, rfl, by decide⟩,
    ⟨{ withOperands (.range 1 0) with prng := some wolf }, wolf, rfl, rfl, rfl, by decide⟩,
    ⟨0xfffffffffffffbff, by decide⟩, ⟨0xfffffffffffffc00, 1, 2 ^ 53, by decide, by decide, by decide⟩⟩

/-- One list of weights for each branch: empty, too long, a NaN, all zero, good. -/
theorem witness_SmpSetupOutcomes :
    (∃ s : State, s.sysFault = none ∧ s.opr = .weights []) ∧
    (∃ (s : State) (ws : List F64), s.sysFault = none ∧ s.opr = .weights ws ∧ ws ≠ [] ∧
      ∃ c, s.cfg.smpCap = some c ∧ c < ws.length) ∧
    (∃ (s : State) (ws : List F64), s.sysFault = none ∧ s.opr = .weights ws ∧ s.cfg.smpCap = none ∧
      ∃ w ∈ ws, f64IsNaN w = true) ∧
    (∃ (s : State) (ws : List F64), s.sysFault = none ∧ s.opr = .weights ws ∧ ws ≠ [] ∧
      s.cfg.ltF fZero (ws.foldl s.cfg.addF fZero) = false) ∧
    ∃ (s : State) (ws : List F64), s.sysFault = none ∧ s.opr = .weights ws ∧
      s.cfg.ltF fZero (ws.foldl s.cfg.addF fZero) = true :=
  ⟨⟨withOperands (.weights []), rfl, rfl⟩,
    ⟨small (.weights [fOne, fOne, fOne, fOne]), _, rfl, rfl, by decide, 3, rfl, by decide⟩,
    ⟨withOperands (.weights [0x7ff8000000000000]), _, rfl, rfl, rfl, 0x7ff8000000000000, by simp, by decide⟩,
    ⟨withOperands (.weights [fZero]), _, rfl, rfl, by decide, by decide +kernel⟩,
    ⟨withOperands (.weights [fOne]), _, rfl, rfl, by decide +kernel⟩⟩

theorem witness_AliasTablesWellFormed :
    (∃ (cap : Option Nat) (ws : List F64) (t : AliasTables), buildTables big cap ws = .ok t) ∧
      ∃ (cap : Option Nat) (w : F64) (t : AliasTables), buildTables big cap (List.replicate 3 w) = .ok t :=
  ⟨⟨some 2, [fZero, fOne], ⟨[⟨fZero, 1⟩, ⟨fOne, 0⟩]⟩, by decide +kernel⟩,
    ⟨none, fOne, ⟨[⟨fOne, 0⟩, ⟨fOne, 0⟩, ⟨fOne, 0⟩]⟩, by decide +kernel⟩⟩

theorem witness_AliasPairings : big.binary64 = .standard := rfl

/-- An index past the tables, an index of the tables, no tables, no generator. -/
theorem witness_SmpNextOutcomes :
    (∃ (s : State) (p : PrngWords), s.sysFault = none ∧ s.opr = .empty ∧ s.smp = some tables4 ∧ s.prng = some p ∧
      tables4.n ≤ s.cfg.fToNat (s.cfg.mulF (s.cfg.u64ToF tables4.n) (doubleOfDraw s.cfg (prngStep p).1))) ∧
    (∃ (s : State) (p : PrngWords) (e : AliasEntry), s.sysFault = none ∧ s.opr = .empty ∧ s.smp = some tables4 ∧
      s.prng = some p ∧
      tables4.entries[s.cfg.fToNat (s.cfg.mulF (s.cfg.u64ToF tables4.n) (doubleOfDraw s.cfg (prngStep p).1))]? =
        some e) ∧
    (∃ s : State, s.sysFault = none ∧ s.opr = .empty ∧ s.smp = none) ∧
    ∃ (s : State) (t : AliasTables), s.sysFault = none ∧ s.opr = .empty ∧ s.smp = some t ∧ s.prng = none :=
  ⟨⟨{ withOperands .empty with prng := some topDraw, smp := some tables4 }, topDraw, rfl, rfl, rfl, rfl,
      by decide +kernel⟩,
    ⟨{ withOperands .empty with prng := some wolf, smp := some tables4 }, wolf, ⟨0x3fd5555555555554, 3⟩, rfl, rfl, rfl,
      rfl, by decide +kernel⟩,
    ⟨withOperands .empty, rfl, rfl, rfl⟩, ⟨{ withOperands .empty with smp := some tables4 }, _, rfl, rfl, rfl, rfl⟩⟩

theorem tables4_ok : tables4.Ok big := by unfold AliasTables.Ok; decide +kernel

theorem witness_SamplerDrawOfOne :
    (∃ (t : AliasTables) (x : U64), t.n ≤ 2 ^ 53 ∧ 2 ^ 64 - 1024 ≤ x.toNat) ∧
    ∃ (cfg : Cfg) (t : AliasTables) (x1 x2 : U64) (i : Nat), cfg.binary64 = .standard ∧ t.Ok cfg ∧
      2 ^ 64 - 1024 ≤ x2.toNat ∧ sampleOfDraws cfg t x1 x2 = .ok i :=
  ⟨⟨tables4, 0xfffffffffffffc00, by decide, by decide⟩,
    ⟨big, tables4, 0, 0xfffffffffffffc00, 2, rfl, tables4_ok, by decide, by decide +kernel⟩⟩

/-- Both ends of the first round; one record for each clause: a zero, too many fragments, the end of the first round, the
first later round. -/
theorem witness_ChsChooseOutcomes :
    ((1 ≤ (1 : U32).toNat ∧ (1 : U32).toNat ≤ 3) ∧ 1 ≤ (3 : U32).toNat ∧ (3 : U32).toNat ≤ 3) ∧
    (∃ s : State, s.sysFault = none ∧ s.opr = .choice 0 0 0) ∧
    (∃ s : State, s.sysFault = none ∧ s.opr = .choice 1 5 0 ∧ ∃ c, s.cfg.maxFragments = some c ∧ c < 5) ∧
    (∃ s : State, s.sysFault = none ∧ s.opr = .choice 4 4 0 ∧ ∀ c, s.cfg.maxFragments = some c → 4 ≤ c) ∧
    ∃ s : State, s.sysFault = none ∧ s.opr = .choice 5 4 0 ∧ ∀ c, s.cfg.maxFragments = some c → 4 ≤ c :=
  ⟨by decide, ⟨small (.choice 0 0 0), rfl, rfl⟩, ⟨small (.choice 1 5 0), rfl, rfl, 4, rfl, by decide⟩,
    ⟨small (.choice 4 4 0), rfl, rfl, fun c hc => by cases hc; decide⟩,
    ⟨small (.choice 5 4 0), rfl, rfl, fun c hc => by cases hc; decide⟩⟩

theorem choose_5_3 : choose big 5 3 0xF4EB56F1 = .ok [0, 1, 2] := by decide +kernel

theorem choose_7_3 : choose big 7 3 0xF4EB56F1 = .ok [0, 1] := by decide +kernel

theorem choose_6_3 : choose big 6 3 0xF4EB56F1 = .ok [0] := by decide +kernel

/-- The chooser reads nothing of the deployment but its arithmetic and its hash. -/
theorem choose_of_standard {cfg : Cfg} (h : cfg.binary64 = .standard ∧ cfg.sha256 = .standard) {sequence checksum : U32}
    {n : Nat} : choose cfg sequence n checksum = choose big sequence n checksum := by
  obtain ⟨w, c1, c2, c3, c4, c5, c6, r, c, sh, t4, t2, b⟩ := cfg
  obtain ⟨rfl, rfl⟩ := h
  have hp : ∀ k g l, pickIndexes ⟨w, c1, c2, c3, c4, c5, c6, r, c, .standard, t4, t2, .standard⟩ k g l =
      pickIndexes big k g l := by
    intro k
    induction k with
    | zero => intro g l; rfl
    | succ k ih => intro g l; simp only [pickIndexes, ih]; rfl
  have hl : ∀ k w', pairingLoop ⟨w, c1, c2, c3, c4, c5, c6, r, c, .standard, t4, t2, .standard⟩ k w' =
      pairingLoop big k w' := by
    intro k
    induction k with
    | zero => intro w'; rfl
    | succ k ih => intro w'; simp only [pairingLoop, ih]; rfl
  unfold choose chooseLater buildTables aliasTables
  simp only [hp, hl]
  rfl

theorem witness_ChooserResultSet :
    (∃ (sequence : U32) (n : Nat) (checksum : U32) (indexes : List Nat), 1 ≤ sequence.toNat ∧ sequence.toNat ≤ n ∧
      choose big sequence n checksum = .ok indexes) ∧
    ∃ (sequence : U32) (n : Nat) (checksum : U32) (indexes : List Nat), 1 ≤ sequence.toNat ∧ n < sequence.toNat ∧
      choose big sequence n checksum = .ok indexes :=
  ⟨⟨3, 3, 0, [2], by decide, by decide, by decide⟩, ⟨5, 3, 0xF4EB56F1, [0, 1, 2], by decide, by decide, choose_5_3⟩⟩

/-- The premises; that a draw of exactly 1.0 occurs would need a preimage of SHA-256. -/
theorem witness_ChooserFaults : big.binary64 = .standard ∧ ∃ n : Nat, 1 ≤ n ∧ n < 2 ^ 64 ∧ n ≤ 2 ^ 53 :=
  ⟨rfl, 2 ^ 53, by decide, by decide, by decide⟩

theorem witness_FragmentArithmetic : ∃ l m : Nat, 1 ≤ l ∧ 1 ≤ m := ⟨1, 1, le_rfl, le_rfl⟩

/-- One record for each branch: empty, zero limit, no `usize`, too long a fragment, good. -/
theorem witness_EncStartOutcomes :
    (∃ s : State, s.sysFault = none ∧ s.opr = .start [] 0) ∧ (∃ s : State, s.sysFault = none ∧ s.opr = .start [1] 0) ∧
    (∃ (s : State) (message : Bytes), s.sysFault = none ∧ s.opr = .start message 1 ∧
      2 ^ s.cfg.usize.bits ≤ message.length) ∧
    (∃ s : State, s.sysFault = none ∧ s.opr = .start (zeroBytes 6) 6 ∧ s.cfg.fragCap = some 5) ∧
    ∃ s : State, s.sysFault = none ∧ s.opr = .start tenChars 4 ∧ tenChars.length < 2 ^ s.cfg.usize.bits :=
  ⟨⟨withOperands _, rfl, rfl⟩, ⟨withOperands _, rfl, rfl⟩,
    ⟨withOperands (.start (zeroBytes (2 ^ 64)) 1), _, rfl, rfl, Nat.le_of_eq List.length_replicate.symm⟩,
    ⟨small _, rfl, rfl, rfl⟩,
    ⟨withOperands _, rfl, rfl, by decide⟩⟩

theorem witness_EncNextPartEmits : ∃ (s : State) (e : Encoder) (indexes : List Nat), s.sysFault = none ∧
    s.opr = .empty ∧ s.enc = some e ∧ e.currentSequence ≠ 0xFFFFFFFF ∧
    choose s.cfg (e.currentSequence + 1) (ceilDiv e.message.length e.fragmentLength) e.checksum = .ok indexes :=
  ⟨encoderAt 4, _, [0, 1, 2], rfl, rfl, rfl, by decide, choose_5_3⟩

theorem witness_EncFirstRoundFragments : ∃ (s : State) (e : Encoder), s.sysFault = none ∧ s.opr = .empty ∧
    s.enc = some e ∧ e.Ok s.cfg ∧ e.currentSequence.toNat < e.sequenceCount :=
  ⟨encoderAt 2, _, rfl, rfl, rfl, encoder2_ok, by decide⟩

theorem witness_EncSequenceWraps : ∃ (s : State) (e : Encoder), s.sysFault = none ∧ s.opr = .empty ∧ s.enc = some e ∧
    e.currentSequence = 0xFFFFFFFF := ⟨encoderAt 0xFFFFFFFF, _, rfl, rfl, rfl, rfl⟩

theorem witness_EncoderReads :
    (∃ (s : State) (e : Encoder), s.sysFault = none ∧ s.opr = .empty ∧ s.enc = some e) ∧
      ∃ s : State, s.sysFault = none ∧ s.opr = .empty ∧ s.enc = none :=
  ⟨⟨encoderAt 0, _, rfl, rfl, rfl⟩, withOperands .empty, rfl, rfl, rfl⟩

theorem witness_EmittedPartMatchesChooser : ∃ (s t : State) (e : Encoder) (p : Part), s.sysFault = none ∧
    s.enc = some e ∧ e.Ok s.cfg ∧ exec .encNextPart s = .next t ∧ t.res = some (.ok (.part p)) :=
  ⟨encoderAt 2, nextState (exec .encNextPart (encoderAt 2)), _, part3 3 [0x73, 0x21, 0x00, 0x00], rfl, rfl,
    encoder2_ok, eq_next (by decide +kernel), test_next_part.1⟩

/-- A valid first part for the decoder tests. -/
def firstPart : OperandRecord := (part3 3 [0x73, 0x21, 0x00, 0x00]).toRecord

theorem witness_FailedDecoderRefuses :
    (∃ (s t : State) (e : CapacityError), s.sysFault = none ∧ exec .decReceive s = .next t ∧
      t.res = some (.err (.capacity e))) ∧
    (∃ (s : State) (e : CapacityError) (p : Part), s.sysFault = none ∧ s.dec = .failed e ∧
      partOperand s.cfg.usize s.opr = some p) ∧
    ∃ (s : State) (e : CapacityError), s.sysFault = none ∧ s.dec = .failed e ∧ s.opr = .empty :=
  ⟨⟨small firstPart, nextState (exec .decReceive (small firstPart)), .notEnoughSpace 12 8, rfl,
      eq_next (by decide +kernel), by decide +kernel⟩,
    ⟨decoding (.failed .tooManyFragments) firstPart, _, part3 3 [0x73, 0x21, 0x00, 0x00], rfl, rfl, by decide⟩,
    ⟨decoding (.failed .tooManyFragments) .empty, _, rfl, rfl, rfl⟩⟩

/-- A complete decoder; each of the five invalid parts at its boundary; a description that differs in the checksum. -/
theorem witness_ReceiveWithoutEffect :
    (∃ (s : State) (p : Part) (a : Assembly), s.sysFault = none ∧ partOperand s.cfg.usize s.opr = some p ∧
      s.dec = .complete a) ∧
    (∀ p ∈ [(⟨0, 3, 10, 0, [0]⟩ : Part), ⟨1, 0, 10, 0, [0]⟩, ⟨1, 3, 0, 0, [0]⟩, ⟨1, 3, 10, 0, []⟩, ⟨1, 3, 1, 0, [0, 0]⟩],
      partOperand .w64 p.toRecord = some p ∧ p.invalid = true) ∧
    (∃ s : State, s.dec.state = .empty ∨ s.dec.state = .accumulating) ∧
    ∃ (s : State) (p : Part) (a : Assembly), s.sysFault = none ∧ partOperand s.cfg.usize s.opr = some p ∧
      s.dec = .accumulating a ∧ p.sequence ≠ 0 ∧ p.sequenceCount ≠ 0 ∧ p.messageLength ≠ 0 ∧ p.data ≠ [] ∧
      p.data.length ≤ p.messageLength ∧
      (⟨p.sequenceCount, p.messageLength, p.checksum, p.data.length⟩ : MessageDescription) ≠ a.desc :=
  ⟨⟨decoding (.complete assembly3) firstPart, part3 3 [0x73, 0x21, 0x00, 0x00], _, rfl, by decide, rfl⟩, by decide,
    ⟨State.reset, .inl rfl⟩,
    ⟨decoding (.accumulating assembly2) (⟨1, 3, 10, 1, zeroBytes 4⟩ : Part).toRecord, ⟨1, 3, 10, 1, zeroBytes 4⟩, _, rfl,
      by decide, rfl, by decide, by decide, by decide, by decide, by decide, by decide⟩⟩

/-- The two data errors of the last clause of the same statement. -/
theorem witness_ReceiveWithoutEffect_errors :
    (∃ s t : State, s.sysFault = none ∧ exec .decReceive s = .next t ∧ t.res = some (.err .invalidPart)) ∧
    ∃ s t : State, s.sysFault = none ∧ exec .decReceive s = .next t ∧
      t.res = some (.err (.inconsistentPart ⟨3, 10, 1, 4⟩ desc3)) :=
  ⟨⟨withOperands (zeroOperands .decReceive), nextState (exec .decReceive _), rfl, eq_next (by decide), by decide⟩,
    ⟨decoding (.accumulating assembly2) (⟨1, 3, 10, 1, zeroBytes 4⟩ : Part).toRecord, nextState (exec .decReceive _),
      rfl, eq_next (by decide +kernel), by decide +kernel⟩⟩

/-- One part for each of the three capacities, and one for the bound of a `usize`. -/
theorem witness_FirstPartCapacity :
    (∃ (s : State) (p : Part), s.sysFault = none ∧ s.dec = .empty ∧ partOperand s.cfg.usize s.opr = some p ∧
      exceeds s.cfg.fragCap p.data.length = true) ∧
    (∃ (s : State) (p : Part), s.sysFault = none ∧ s.dec = .empty ∧ partOperand s.cfg.usize s.opr = some p ∧
      exceeds s.cfg.fragCap p.data.length = false ∧ exceeds s.cfg.maxFragments p.sequenceCount = true) ∧
    (∃ (s : State) (p : Part), s.sysFault = none ∧ s.dec = .empty ∧ partOperand s.cfg.usize s.opr = some p ∧
      exceeds s.cfg.fragCap p.data.length = false ∧ exceeds s.cfg.maxFragments p.sequenceCount = false ∧
      ∃ c, s.cfg.msgCap = some c ∧ c < p.data.length * p.sequenceCount) ∧
    ∃ (s : State) (p : Part), s.sysFault = none ∧ s.dec = .empty ∧ partOperand s.cfg.usize s.opr = some p ∧
      exceeds s.cfg.msgCap (p.data.length * p.sequenceCount) = false ∧
      2 ^ s.cfg.usize.bits - 1 < p.data.length * p.sequenceCount :=
  ⟨⟨small (⟨1, 1, 9, 0, zeroBytes 6⟩ : Part).toRecord, ⟨1, 1, 9, 0, zeroBytes 6⟩, rfl, rfl, by decide, by decide⟩,
    ⟨small (⟨1, 5, 9, 0, zeroBytes 5⟩ : Part).toRecord, ⟨1, 5, 9, 0, zeroBytes 5⟩, rfl, rfl, by decide, by decide,
      by decide⟩,
    ⟨small (⟨1, 3, 9, 0, zeroBytes 3⟩ : Part).toRecord, ⟨1, 3, 9, 0, zeroBytes 3⟩, rfl, rfl, by decide, by decide,
      by decide, 8, rfl, by decide⟩,
    ⟨{ withOperands (⟨1, 0x80000000, 9, 0, zeroBytes 2⟩ : Part).toRecord with cfg := Cfg.growable .w32 },
      ⟨1, 0x80000000, 9, 0, zeroBytes 2⟩, rfl, rfl, by decide, by decide, by decide⟩⟩

/-- The first part of the message, two combined ones, and one of a later round that carries the first fragment alone. -/
def part1 : Part := part3 1 [0x54, 0x65, 0x6E, 0x20]
def part5 : Part := part3 5 [0x44, 0x2C, 0x0F, 0x52]
def part7 : Part := part3 7 [0x37, 0x0D, 0x0F, 0x52]
def part6 : Part := part3 6 [0x54, 0x65, 0x6E, 0x20]

/-- Any part of the stream, combined or of a later round, within the capacities; a part of the first round with one fragment
and one with several, the last index among them. -/
theorem witness_FirstPartStored :
    (∀ p ∈ [part1, part5, part6], ∃ s : State, s.sysFault = none ∧ s.dec = .empty ∧
      partOperand s.cfg.usize s.opr = some p ∧ p.sequence ≠ 0 ∧ p.sequenceCount ≠ 0 ∧ p.data ≠ [] ∧
      p.data.length ≤ p.messageLength ∧ exceeds s.cfg.fragCap p.data.length = false ∧
      exceeds s.cfg.maxFragments p.sequenceCount = false ∧
      exceeds s.cfg.msgCap (p.data.length * p.sequenceCount) = false ∧
      p.data.length * p.sequenceCount ≤ s.cfg.usize.maxValue) ∧
    ∀ p ∈ [(⟨1, 1, 4, 0, zeroBytes 4⟩ : Part), ⟨3, 3, 10, 0, zeroBytes 4⟩], ∃ (s : State) (i : Nat), s.sysFault = none ∧
      s.dec = .empty ∧ partOperand s.cfg.usize s.opr = some p ∧ p.sequence.toNat = i + 1 ∧ i < p.sequenceCount ∧
      p.data ≠ [] ∧ p.data.length ≤ p.messageLength ∧ exceeds s.cfg.fragCap p.data.length = false ∧
      exceeds s.cfg.maxFragments p.sequenceCount = false ∧
      exceeds s.cfg.msgCap (p.data.length * p.sequenceCount) = false ∧
      p.data.length * p.sequenceCount ≤ s.cfg.usize.maxValue ∧ s.cfg.queueCap ≠ some 0 := by
  refine ⟨fun p hp => ⟨withOperands p.toRecord, rfl, rfl, ?_⟩, fun p hp => ?_⟩
  · simp only [List.mem_cons, List.not_mem_nil, or_false] at hp
    rcases hp with rfl | rfl | rfl <;> decide
  simp only [List.mem_cons, List.not_mem_nil, or_false] at hp
  rcases hp with rfl | rfl
  · exact ⟨withOperands (Part.toRecord ⟨1, 1, 4, 0, zeroBytes 4⟩), 0, rfl, rfl, by decide, by decide, by decide,
      by decide, by decide, rfl, rfl, rfl, by decide, by decide⟩
  · exact ⟨withOperands (Part.toRecord ⟨3, 3, 10, 0, zeroBytes 4⟩), 2, rfl, rfl, by decide, by decide, by decide,
      by decide, by decide, rfl, rfl, rfl, by decide, by decide⟩

/-- A decoder with fragment 2 resolved and one part of the other two pending. -/
def assemblyPair : Assembly := { assembly2 with mixed := [⟨[0, 1], [0x37, 0x0D, 0x0F, 0x52]⟩] }

/-- A decoder with two parts pending, each of which names index 0. -/
def assemblyTwo : Assembly :=
  ⟨desc3, zeroBytes 12, [], [], [⟨[0, 1], [0x37, 0x0D, 0x0F, 0x52]⟩, ⟨[0, 2], [0x27, 0x44, 0x6E, 0x20]⟩]⟩

/-- A decoder that accumulates, in a deployment, with a part as the operand. -/
def receiving (cfg : Cfg) (a : Assembly) (p : Part) : State :=
  { decoding (.accumulating a) p.toRecord with cfg := cfg }

/-- A decoder with one fragment missing; one with nothing pending; one in which a pending part becomes simple. The part is of the
first round or of a later one. -/
theorem witness_NewFragmentStored :
    ∀ a ∈ [{ assembly2 with resolved := [1, 2] }, assembly2, assemblyPair], ∀ p ∈ [part1, part6],
      ∃ (s : State) (i : Nat), s.sysFault = none ∧ s.dec = .accumulating a ∧ s.dec.Ok s.cfg ∧
      partOperand s.cfg.usize s.opr = some p ∧ p.sequence ≠ 0 ∧
      choose s.cfg p.sequence p.sequenceCount p.checksum = .ok [i] ∧ p.description = a.desc ∧ i ∉ a.resolved ∧
      s.cfg.queueCap ≠ some 0 ∧
      exceeds s.cfg.queueCap ((fragmentTakenOut i p.data a.mixed).filter fun m => m.indexes.length = 1).length = false := by
  intro a ha p hp
  have hparts : partOperand .w64 p.toRecord = some p ∧ p.sequence ≠ 0 ∧
      choose big p.sequence p.sequenceCount p.checksum = .ok [0] ∧ p.description = desc3 ∧ p.data = part1.data := by
    simp only [List.mem_cons, List.not_mem_nil, or_false] at hp
    rcases hp with rfl | rfl
    · exact ⟨by decide, by decide, by decide, by decide, rfl⟩
    · exact ⟨by decide, by decide, choose_6_3, by decide, rfl⟩
  obtain ⟨h1, h2, h3, h4, h5⟩ := hparts
  refine ⟨receiving big a p, 0, rfl, rfl, ?_, h1, h2, h3, h4.trans ?_, ?_⟩
  · show (Decoder.accumulating a).Ok big
    simp only [List.mem_cons, List.not_mem_nil, or_false] at ha
    rcases ha with rfl | rfl | rfl <;> (unfold Decoder.Ok Assembly.Ok IndexedPart.Ok IndexSet; decide +kernel)
  · simp only [List.mem_cons, List.not_mem_nil, or_false] at ha
    rcases ha with rfl | rfl | rfl <;> rfl
  · rw [h5]
    simp only [List.mem_cons, List.not_mem_nil, or_false] at ha
    rcases ha with rfl | rfl | rfl <;> exact ⟨by decide, nofun, rfl⟩

/-- A resolved index; an unresolved one with room in the FIFO; one without. -/
theorem witness_DrainSimpleRound :
    (∃ a : Assembly, a.Ok big ∧ a.fifo = [⟨[2], zeroBytes 4⟩] ∧ 2 ∈ a.resolved) ∧
    (∃ a : Assembly, a.Ok big ∧ a.fifo = [⟨[0], part1.data⟩] ∧ 0 ∉ a.resolved ∧
      fragmentTakenOut 0 part1.data a.mixed ≠ a.mixed) ∧
    ∃ (cfg : Cfg) (a : Assembly), a.Ok cfg ∧ a.fifo = [⟨[0], part1.data⟩] ∧ 0 ∉ a.resolved ∧ cfg.queueCap = some 1 ∧
      1 < ((fragmentTakenOut 0 part1.data a.mixed).filter fun m => m.indexes.length = 1).length := by
  refine ⟨⟨{ assembly2 with fifo := [⟨[2], zeroBytes 4⟩] }, ?_, rfl, by decide⟩,
    ⟨{ assemblyPair with fifo := [⟨[0], part1.data⟩] }, ?_, rfl, by decide, by decide +kernel⟩,
    ⟨{ big with queueCap := some 1 }, { assemblyTwo with fifo := [⟨[0], part1.data⟩] }, ?_, rfl, by decide, rfl,
      by decide +kernel⟩⟩ <;> (unfold Assembly.Ok IndexedPart.Ok IndexSet; decide +kernel)

/-- The hypotheses of `Obligations.CombinedPartOutcomes` on the decoder and the part. -/
def combinedOk (s : State) (a : Assembly) (p : Part) (indexes : List Nat) : Prop :=
  s.sysFault = none ∧ s.dec = .accumulating a ∧ s.dec.Ok s.cfg ∧ partOperand s.cfg.usize s.opr = some p ∧
    p.sequence ≠ 0 ∧ p.description = a.desc ∧ choose s.cfg p.sequence p.sequenceCount p.checksum = .ok indexes ∧
    2 ≤ indexes.length ∧ (∀ m ∈ a.mixed, m.indexes ≠ indexes)

theorem combinedOk_five {cfg : Cfg} {a : Assembly} (hs : cfg.binary64 = .standard ∧ cfg.sha256 = .standard)
    (hu : cfg.usize = .w64) (hd : a.desc = desc3) (h : (Decoder.accumulating a).Ok cfg)
    (hm : ∀ m ∈ a.mixed, m.indexes ≠ [0, 1, 2]) : combinedOk (receiving cfg a part5) a part5 [0, 1, 2] := by
  refine ⟨rfl, rfl, h, ?_, by decide, hd.symm, ?_, by decide, hm⟩
  · show partOperand cfg.usize part5.toRecord = some part5
    rw [hu]; decide
  · exact (choose_of_standard hs).trans choose_5_3

theorem combinedOk_seven {cfg : Cfg} {a : Assembly} (hs : cfg.binary64 = .standard ∧ cfg.sha256 = .standard)
    (hu : cfg.usize = .w64) (hd : a.desc = desc3) (h : (Decoder.accumulating a).Ok cfg)
    (hm : ∀ m ∈ a.mixed, m.indexes ≠ [0, 1]) : combinedOk (receiving cfg a part7) a part7 [0, 1] := by
  refine ⟨rfl, rfl, h, ?_, by decide, hd.symm, ?_, by decide, hm⟩
  · show partOperand cfg.usize part7.toRecord = some part7
    rw [hu]; decide
  · exact (choose_of_standard hs).trans choose_7_3

/-- Nothing left; one index left; reduced to one index by a pending part; stored; stored after it has made a pending part
simple. -/
theorem witness_CombinedPartOutcomes :
    (∃ (s : State) (a : Assembly) (p : Part) (indexes : List Nat), combinedOk s a p indexes ∧ s.cfg.queueCap ≠ some 0 ∧
      (indexes.filter fun i => i ∉ a.resolved) = []) ∧
    (∃ (s : State) (a : Assembly) (p : Part) (indexes : List Nat), combinedOk s a p indexes ∧ s.cfg.queueCap ≠ some 0 ∧
      (indexes.filter fun i => i ∉ a.resolved).length = 1) ∧
    (∃ (s : State) (a : Assembly) (p : Part) (indexes : List Nat), combinedOk s a p indexes ∧ s.cfg.queueCap ≠ some 0 ∧
      a.resolved = [] ∧ (a.mixed.foldl reducePart ⟨indexes, p.data⟩).indexes.length = 1) ∧
    (∃ (s : State) (a : Assembly) (p : Part) (indexes : List Nat), combinedOk s a p indexes ∧ s.cfg.queueCap ≠ some 0 ∧
      a.resolved = [] ∧ a.mixed = [] ∧ exceeds s.cfg.mixedCap 1 = false) ∧
    ∃ (s : State) (a : Assembly) (p : Part) (indexes : List Nat), combinedOk s a p indexes ∧ s.cfg.queueCap ≠ some 0 ∧
      a.resolved = [] ∧ s.cfg.reducePendingByNew = true ∧ (a.mixed.foldl reducePart ⟨indexes, p.data⟩).indexes = indexes ∧
      ∃ m ∈ a.mixed, (reducePart m ⟨indexes, p.data⟩).indexes.length = 1 := by
  refine ⟨⟨_, { assembly2 with resolved := [0, 1] }, part7, [0, 1], combinedOk_seven ⟨rfl, rfl⟩ rfl rfl (cfg := big) ?_ ?_,
      by decide, by decide⟩,
    ⟨_, { assembly2 with resolved := [0, 1] }, part5, [0, 1, 2], combinedOk_five ⟨rfl, rfl⟩ rfl rfl (cfg := big) ?_ ?_,
      by decide, by decide⟩,
    ⟨_, { assemblyPair with resolved := [] }, part5, [0, 1, 2], combinedOk_five ⟨rfl, rfl⟩ rfl rfl (cfg := big) ?_ ?_,
      by decide, rfl, by decide +kernel⟩,
    ⟨_, { assembly2 with resolved := [] }, part5, [0, 1, 2], combinedOk_five ⟨rfl, rfl⟩ rfl rfl (cfg := big) ?_ ?_,
      by decide, rfl, rfl, rfl⟩,
    ⟨_, assemblyMixed, part7, [0, 1], combinedOk_seven ⟨rfl, rfl⟩ rfl rfl (cfg := big) ?_ ?_, by decide, rfl, rfl,
      by decide +kernel, _, List.mem_cons_self, by decide +kernel⟩⟩ <;>
  first
    | decide
    | (unfold Decoder.Ok Assembly.Ok IndexedPart.Ok IndexSet; decide +kernel)

/-- A FIFO of no room at all; one that two pending parts overflow, by a new fragment and by a stored combined part; a full
pending list. -/
theorem witness_QueueFullFails :
    (∃ (s : State) (a : Assembly) (p : Part) (indexes : List Nat), combinedOk s a p indexes ∧ s.cfg.queueCap = some 0) ∧
    (∃ (s : State) (a : Assembly), s.sysFault = none ∧ s.dec = .accumulating a ∧ s.dec.Ok s.cfg ∧
      partOperand s.cfg.usize s.opr = some part1 ∧ part1.description = a.desc ∧
      choose s.cfg part1.sequence part1.sequenceCount part1.checksum = .ok [0] ∧ 0 ∉ a.resolved ∧
      s.cfg.queueCap = some 1 ∧
      1 < ((fragmentTakenOut 0 part1.data a.mixed).countP fun m => m.indexes.length = 1)) ∧
    (∃ (s : State) (a : Assembly) (p : Part) (indexes : List Nat), combinedOk s a p indexes ∧ a.resolved = [] ∧
      (a.mixed.foldl reducePart ⟨indexes, p.data⟩) = ⟨indexes, p.data⟩ ∧ s.cfg.reducePendingByNew = true ∧
      s.cfg.queueCap = some 1 ∧
      1 < ((a.mixed.map fun m => reducePart m ⟨indexes, p.data⟩).countP fun m => m.indexes.length = 1)) ∧
    ∃ (s : State) (a : Assembly) (p : Part) (indexes : List Nat), combinedOk s a p indexes ∧ a.resolved = [] ∧
      a.mixed = [] ∧ s.cfg.queueCap ≠ some 0 ∧ s.cfg.mixedCap = some 0 := by
  refine ⟨⟨_, assembly2, part5, [0, 1, 2], combinedOk_five ⟨rfl, rfl⟩ rfl rfl (cfg := { big with queueCap := some 0 }) ?_ ?_,
      rfl⟩,
    ⟨receiving { big with queueCap := some 1 } assemblyTwo part1, assemblyTwo, rfl, rfl, ?_, by decide, rfl, by decide,
      by decide, rfl, by decide +kernel⟩,
    ⟨_, { assemblyMixed with mixed := assemblyMixed.mixed ++ assemblyMixed.mixed }, part7, [0, 1],
      combinedOk_seven ⟨rfl, rfl⟩ rfl rfl (cfg := { big with queueCap := some 1 }) ?_ ?_, rfl, by decide +kernel, rfl, rfl,
      by decide +kernel⟩,
    ⟨_, { assembly2 with resolved := [] }, part5, [0, 1, 2],
      combinedOk_five ⟨rfl, rfl⟩ rfl rfl (cfg := { big with mixedCap := some 0 }) ?_ ?_, rfl, rfl, by decide, rfl⟩⟩ <;>
  first
    | decide
    | (unfold Decoder.Ok Assembly.Ok IndexedPart.Ok IndexSet; decide +kernel)
    | (unfold receiving decoding Decoder.Ok Assembly.Ok IndexedPart.Ok IndexSet; decide +kernel)

/-- A resolved simple part, and a pending mixed one. -/
theorem witness_DuplicatePartsChangeNothing :
    (∃ (s : State) (a : Assembly) (p : Part) (indexes : List Nat), s.sysFault = none ∧ s.dec = .accumulating a ∧
      s.dec.Ok s.cfg ∧ partOperand s.cfg.usize s.opr = some p ∧ p.sequence ≠ 0 ∧
      (⟨p.sequenceCount, p.messageLength, p.checksum, p.data.length⟩ : MessageDescription) = a.desc ∧
      choose s.cfg p.sequence p.sequenceCount p.checksum = .ok indexes ∧ (∃ i ∈ a.resolved, indexes = [i]) ∧
      s.cfg.queueCap ≠ some 0) ∧
    ∃ (s : State) (a : Assembly) (p : Part) (indexes : List Nat), s.sysFault = none ∧ s.dec = .accumulating a ∧
      s.dec.Ok s.cfg ∧ partOperand s.cfg.usize s.opr = some p ∧ p.sequence ≠ 0 ∧
      (⟨p.sequenceCount, p.messageLength, p.checksum, p.data.length⟩ : MessageDescription) = a.desc ∧
      choose s.cfg p.sequence p.sequenceCount p.checksum = .ok indexes ∧ (∃ m ∈ a.mixed, m.indexes = indexes) ∧
      s.cfg.queueCap ≠ some 0 :=
  ⟨⟨decoding (.accumulating assembly2) firstPart, assembly2, part3 3 [0x73, 0x21, 0x00, 0x00], [2], rfl, rfl,
      accumulating2_ok, by decide, by decide, by decide, by decide, ⟨2, by decide⟩, by decide⟩,
    ⟨decoding (.accumulating assemblyMixed) (part3 5 [0x44, 0x2C, 0x0F, 0x52]).toRecord, assemblyMixed,
      part3 5 [0x44, 0x2C, 0x0F, 0x52], [0, 1, 2], rfl, rfl, accumulatingMixed_ok, by decide, by decide, by decide,
      choose_5_3, ⟨_, List.mem_cons_self, rfl⟩, by decide⟩⟩

/-- A strict subset, and two sets that are equal. -/
theorem witness_ReduceStrictSubset :
    (∃ a b : IndexedPart, (∀ i ∈ b.indexes, i ∈ a.indexes) ∧ ∃ i ∈ a.indexes, i ∉ b.indexes) ∧
      ∃ a b : IndexedPart, ¬((∀ i ∈ b.indexes, i ∈ a.indexes) ∧ ∃ i ∈ a.indexes, i ∉ b.indexes) :=
  ⟨⟨⟨[0, 1], []⟩, ⟨[1], []⟩, by decide⟩, ⟨⟨[0, 1], []⟩, ⟨[0, 1], []⟩, by decide⟩⟩

theorem witness_ReceiveKeepsResolvedFragments : ∃ (s t : State) (a b : Assembly), s.Inv ∧ s.dec = .accumulating a ∧
    exec .decReceive s = .next t ∧ t.dec = .accumulating b ∧ 0 ∉ a.resolved ∧ 0 ∈ b.resolved ∧ 1 ∉ b.resolved :=
  ⟨decoding (.accumulating assembly2) (part3 1 [0x54, 0x65, 0x6E, 0x20]).toRecord, nextState (exec .decReceive _),
    assembly2, ⟨desc3, [0x54, 0x65, 0x6E, 0x20, 0, 0, 0, 0, 0x73, 0x21, 0, 0], [0, 2], [], []⟩,
    decoding_inv accumulating2_ok, rfl, eq_next (by decide +kernel), by decide +kernel, by decide, by decide, by decide⟩

theorem witness_DrainLoopEnds : ∃ (cfg : Cfg) (a b : Assembly) (p : IndexedPart) (k : Nat), a.Ok cfg ∧ a.fifo = [p] ∧
    a.resolved.length < a.desc.sequenceCount ∧ 2 + a.mixed.length ≤ k ∧ drain cfg k a = .ok (b, false) := by
  refine ⟨big, restricted, ?_⟩
  have h : ∃ b, drain big 6 restricted = .ok (b, false) := by
    have hx : (match drain big 6 restricted with | .ok (_, d) => !d | .error _ => false) = true := by decide +kernel
    split at hx
    · next b d hd => cases d with
      | false => exact ⟨b, hd⟩
      | true => cases hx
    · cases hx
  obtain ⟨b, hb⟩ := h
  exact ⟨b, _, 6, by unfold Assembly.Ok IndexedPart.Ok IndexSet; decide +kernel, rfl, by decide, by decide, hb⟩

/-- Each state of the decoder; a length above the buffer, a byte of padding that is not zero, a good message. -/
theorem witness_DecMessageOutcomes :
    (∀ d : Decoder, (decoding d .empty).sysFault = none ∧ (decoding d .empty).opr = .empty ∧
      (decoding d .empty).dec = d) ∧
    (∃ a : Assembly, a.buf.length < a.desc.messageLength) ∧
    (∃ a : Assembly, ¬a.buf.length < a.desc.messageLength ∧ ∃ b ∈ a.buf.drop a.desc.messageLength, b ≠ 0) ∧
    ∃ a : Assembly, ¬a.buf.length < a.desc.messageLength ∧ ¬∃ b ∈ a.buf.drop a.desc.messageLength, b ≠ 0 :=
  ⟨fun _ => ⟨rfl, rfl, rfl⟩, ⟨⟨⟨1, 10, 0, 4⟩, zeroBytes 4, [0], [], []⟩, by decide⟩,
    ⟨⟨⟨2, 3, 0, 2⟩, [0x61, 0x62, 0x63, 0x01], [0, 1], [], []⟩, by decide⟩, ⟨assembly3, by decide⟩⟩

theorem witness_DecIsCompleteOutcomes :
    (∃ s : State, s.sysFault = none ∧ s.opr = .empty) ∧
    (∃ s t : State, s.sysFault = none ∧ exec .decReceive s = .next t ∧ t.res = some (.ok (.more true))) ∧
    ∃ s t : State, s.sysFault = none ∧ exec .decReceive s = .next t ∧ t.res = some (.ok (.more false)) :=
  ⟨⟨withOperands .empty, rfl, rfl⟩,
    ⟨decoding .empty firstPart, nextState (exec .decReceive _), rfl, eq_next (by decide +kernel), by decide +kernel⟩,
    ⟨decoding (.complete assembly3) firstPart, nextState (exec .decReceive _), rfl, eq_next (by decide +kernel),
      by decide +kernel⟩⟩

/-- The largest share of resolved indices that an accumulating decoder can have; every decoder. -/
theorem witness_DecPercentOutcomes : (big.binary64 = .standard ∧ ∃ a : Assembly, a.desc.sequenceCount < 2 ^ 32 ∧
      a.resolved.length < a.desc.sequenceCount ∧ a.resolved.length + 1 = a.desc.sequenceCount) ∧
    ∀ d : Decoder, (decoding d .empty).sysFault = none ∧ (decoding d .empty).opr = .empty ∧ (decoding d .empty).dec = d :=
  ⟨⟨rfl, ⟨⟨3, 10, 0, 4⟩, zeroBytes 12, [0, 1], [], []⟩, by decide, by decide, by decide⟩, fun _ => ⟨rfl, rfl, rfl⟩⟩

theorem witness_DecClearOutcome : ∃ s t u : State, s.sysFault = none ∧ s.opr = .empty ∧ exec .decClear s = .next t ∧
    exec .sysReset s = .next u := ⟨decoding (.complete assembly3) .empty, _, _, rfl, rfl, rfl, rfl⟩

theorem witness_BwdEncodeTexts : ∃ (s : State) (payload : Bytes), s.sysFault = none ∧ s.opr = .payload payload :=
  ⟨withOperands (.payload []), _, rfl, rfl⟩

/-- The tables of the tests. -/
theorem big_tablesOk : big.TablesOk := tablesOk_of_standard rfl rfl

theorem witness_EncodedTextShape : ∃ cfg : Cfg, cfg.TablesOk := ⟨big, big_tablesOk⟩

/-- For every style: a byte that is no ASCII; tokens with an unknown one; tokens of fewer than four bytes; tokens of a
body; and for Minimal an odd length. -/
theorem witness_BwdDecodeOutcomes :
    (∃ (s : State) (text : Bytes), s.sysFault = none ∧ s.opr = .text text ∧ s.cfg.TablesOk ∧ ∃ b ∈ text, 0x80 ≤ b.toNat) ∧
    (∃ (s : State) (text : Bytes), s.sysFault = none ∧ s.opr = .text text ∧ (∀ b ∈ text, b.toNat < 0x80) ∧
      text.length % 2 = 1) ∧
    (∃ (known token : Bytes) (rest : List Bytes),
      TokensOf .standard (ascii "able wabs") (known.map (wordOfByte big .standard) ++ token :: rest) ∧
        ∀ b, wordOfByte big .standard b ≠ token) ∧
    (∃ body : Bytes, TokensOf .uri (ascii "able-tied") (body.map (wordOfByte big .uri)) ∧ body.length < 4) ∧
    ∃ (body payload : Bytes) (expected : U32), TokensOf .minimal (ascii "aeaeaeae") (body.map (wordOfByte big .minimal)) ∧
      body = payload ++ be32 expected := by
  refine ⟨⟨withOperands (.text [0x80]), _, rfl, rfl, big_tablesOk, 0x80, by decide⟩,
    ⟨withOperands (.text [0x61]), _, rfl, rfl, by decide, by decide⟩,
    ⟨[0], ascii "wabs", [], ?_, by decide +kernel⟩, ⟨[0, 0xD2], ?_, by decide⟩, ⟨[0, 0, 0, 0], [], 0, ?_, by decide⟩⟩
  · unfold TokensOf; simp only [styleSeparator]; decide +kernel
  · unfold TokensOf; simp only [styleSeparator]; decide +kernel
  · unfold TokensOf; simp only [styleSeparator]; decide +kernel

theorem witness_BytewordsRoundTrip :
    (∃ (style : Style) (text payload : Bytes), big.TablesOk ∧ decodeText big style text = .ok payload) ∧
    ∃ (s t : State) (payload text : Bytes), s.sysFault = none ∧ s.opr = .payload payload ∧
      exec .bwdEncodeMinimal s = .next t ∧ t.res = some (.ok (.text text)) :=
  ⟨⟨.minimal, ascii "aetdaowslg", [0], big_tablesOk, by decide +kernel⟩,
    ⟨withOperands (.payload [0]), _, [0], encodeText big .minimal [0], rfl, rfl, rfl, rfl⟩⟩

/-- A separator and a letter that are replaced. -/
theorem witness_SingleCharacterErrors :
    (big.TablesOk ∧ big.crc32 = .standard) ∧
    (∃ (payload before after : Bytes) (y : Byte), encodeText big .standard payload = before ++ 0x20 :: after ∧
      0x20 ≠ y ∧ y.toNat < 0x80) ∧
    ∃ (payload before after : Bytes) (y : Byte), encodeText big .minimal payload = before ++ 0x65 :: after ∧
      0x65 ≠ y ∧ y.toNat < 0x80 :=
  ⟨⟨big_tablesOk, rfl⟩, ⟨[], ascii "able", ascii "able able able", 0x61, by decide +kernel, by decide, by decide⟩,
    ⟨[], ascii "a", ascii "aeaeae", 0x64, by decide +kernel, by decide, by decide⟩⟩

theorem witness_OnlyNamedOperationsWrite : ∀ i : Instr, ∃ s t : State, exec i s = .next t := by
  intro i
  refine ⟨{ State.reset with sysFault := some .badIntRange }, nextState (exec i _), eq_next ?_⟩
  cases i <;> rfl

/-- Two states that differ in every other unit. -/
theorem witness_UnitsAreIndependent :
    (∃ s s' t : State, s'.cfg = s.cfg ∧ s'.sysFault = s.sysFault ∧ s'.opr = s.opr ∧ s'.enc = s.enc ∧ s'.dec ≠ s.dec ∧
      s'.prng ≠ s.prng ∧ exec .encSeqCount s = .next t) ∧
    (∃ s s' t : State, s'.cfg = s.cfg ∧ s'.sysFault = s.sysFault ∧ s'.opr = s.opr ∧ s'.enc ≠ s.enc ∧ s'.dec ≠ s.dec ∧
      exec .chsChoose s = .next t) ∧
    ∃ s s' t : State, s'.cfg = s.cfg ∧ s'.sysFault = s.sysFault ∧ s'.opr = s.opr ∧ s'.dec = s.dec ∧ s'.enc ≠ s.enc ∧
      exec .decIsComplete s = .next t :=
  ⟨⟨encoderAt 0, { encoderAt 0 with dec := .complete assembly3, prng := some wolf }, _, rfl, rfl, rfl, rfl, by decide,
      by decide, rfl⟩,
    ⟨withOperands (.choice 3 3 0), { encoderAt 0 with opr := .choice 3 3 0, dec := .complete assembly3 },
      nextState (exec .chsChoose _), rfl, rfl, rfl, by decide, by decide, eq_next (by decide)⟩,
    ⟨withOperands .empty, encoderAt 0, _, rfl, rfl, rfl, rfl, by decide, rfl⟩⟩

theorem witness_ReadsAreIdempotent : ∀ i ∈ [Instr.decMessage, .decIsComplete, .decPercent, .encSeqCount,
    .encIsComplete, .sysStatus], ∃ s t : State, s.sysFault = none ∧ exec i s = .next t := by
  intro i hi
  refine ⟨encoderAt 0, nextState (exec i _), rfl, eq_next ?_⟩
  simp only [List.mem_cons, List.not_mem_nil, or_false] at hi
  rcases hi with rfl | rfl | rfl | rfl | rfl | rfl <;> rfl

theorem witness_StepKeepsInvariant : ∃ s t : State, s.Inv ∧ step s = .next t ∧ t.dec ≠ s.dec := by
  refine ⟨{ decoding (.accumulating assembly2) .empty with issue := [⟨0x54, .empty⟩] }, _,
    ⟨fun _ ht => (nomatch ht), fun _ he => (nomatch he), accumulating2_ok⟩, rfl, by decide⟩

theorem witness_StepAlwaysAnswers : ∃ s : State, s.Inv ∧ s.issue ≠ [] :=
  ⟨{ decoding (.accumulating assembly2) .empty with issue := [⟨0x50, firstPart⟩] },
    ⟨fun _ ht => (nomatch ht), fun _ he => (nomatch he), accumulating2_ok⟩, by decide⟩

/-- A combined part on an accumulating decoder that holds one fragment of the message. -/
theorem witness_DecoderKeepsOneMessage : ∃ (s t : State) (message : Bytes) (fl : Nat) (sequence : U32)
    (indexes : List Nat), s.Inv ∧ s.dec.Consistent s.cfg message fl ∧
    choose s.cfg sequence (ceilDiv message.length fl) (s.cfg.crc32Of message) = .ok indexes ∧
    s.opr = (streamPart s.cfg message fl sequence indexes).toRecord ∧ exec .decReceive s = .next t :=
  ⟨decoding (.accumulating assembly2) (streamPart big tenChars 4 5 [0, 1, 2]).toRecord, nextState (exec .decReceive _),
    tenChars, 4, 5, [0, 1, 2], decoding_inv accumulating2_ok,
    by
      show assembly2.Consistent big tenChars 4
      unfold Assembly.Consistent describes IndexedPart.Consistent
      decide +kernel,
    by decide +kernel, rfl, eq_next (by decide +kernel)⟩

theorem witness_CompleteDecoderReturnsMessage : ∃ (s : State) (a : Assembly) (message : Bytes) (fl : Nat), s.Inv ∧
    s.sysFault = none ∧ s.opr = .empty ∧ s.dec = .complete a ∧ a.Consistent s.cfg message fl :=
  ⟨decoding (.complete assembly3) .empty, assembly3, tenChars, 4, decoding_inv complete3_ok, rfl, rfl, rfl, by
    unfold Assembly.Consistent describes IndexedPart.Consistent
    decide +kernel⟩

theorem witness_InOrderRoundTrip : ∃ (s : State) (message : Bytes) (fl n : Nat) (rest : List Request),
    s.sysFault = none ∧ s.dec = .empty ∧ 1 ≤ fl ∧ fl ≤ message.length ∧ n = ceilDiv message.length fl ∧ n < 2 ^ 32 ∧
    message.length < 2 ^ s.cfg.usize.bits ∧ fl * n ≤ s.cfg.usize.maxValue ∧ exceeds s.cfg.fragCap fl = false ∧
    exceeds s.cfg.maxFragments n = false ∧ exceeds s.cfg.msgCap (fl * n) = false ∧ s.cfg.queueCap ≠ some 0 ∧
    s.issue = firstRoundRequests s.cfg message fl ++ ⟨0x51, .empty⟩ :: rest ∧ 0 < n :=
  ⟨{ State.reset with issue := firstRoundRequests big tenChars 4 ++ [⟨0x51, .empty⟩] }, tenChars, 4, 3, [], rfl, rfl,
    by decide, by decide, by decide, by decide, by decide, by decide, rfl, rfl, rfl, by decide, rfl, by decide⟩

/-- The type may hold a dash. -/
theorem witness_FramingParsesBack : ∃ (urType : Bytes) (p : Part), urType ≠ [] ∧
    (∀ b ∈ urType, isTypeByte b = true) ∧ p.sequenceCount < 2 ^ 32 ∧ p.messageLength < 2 ^ 64 ∧ p.data.length < 2 ^ 64 :=
  ⟨ascii "crypto-psbt", part1, by decide, by decide, by decide, by decide, by decide⟩

/-- A type above the buffer; a limit above the scratch buffer; a start that the block takes and one it refuses; a part under
the host's type, and no part. -/
theorem witness_HostEncoderOutcomes :
    (∃ (h : HostSide) (urType : Bytes), exceeds h.cfg.typeCap urType.length = true) ∧
    (∃ (h : HostSide) (urType : Bytes) (m : Nat), exceeds h.cfg.typeCap urType.length = false ∧
      exceeds h.cfg.scratchCap m = true) ∧
    (∀ message ∈ [tenChars, []], ∃ (h : HostSide) (urType : Bytes) (s : State),
      exceeds h.cfg.typeCap urType.length = false ∧ exceeds h.cfg.scratchCap 4 = false ∧
      exec .encStart { h.block with opr := .start message 4 } = .next s) ∧
    (∃ (h : HostSide) (s : State) (p : Part) (urType : Bytes), exec .encNextPart { h.block with opr := .empty } = .next s ∧
      s.res = some (.ok (.part p)) ∧ h.urType = some urType) ∧
    ∃ (h : HostSide) (s : State), exec .encNextPart { h.block with opr := .empty } = .next s ∧
      s.res = some (.fault .encoderNotStarted) :=
  ⟨⟨hostSide State.reset, ascii "crypto-psbt", by decide⟩,
    ⟨⟨State.reset, ⟨none, some 3, .standard⟩, none⟩, ascii "bytes", 4, rfl, by decide⟩,
    fun message hm => ⟨hostSide State.reset, ascii "bytes", nextState (exec .encStart _), by decide, rfl, eq_next (by
      simp only [List.mem_cons, List.not_mem_nil, or_false] at hm
      rcases hm with rfl | rfl <;> decide +kernel)⟩,
    ⟨hostSide (encoderAt 2), nextState (exec .encNextPart (encoderAt 2)), part3 3 [0x73, 0x21, 0x00, 0x00], ascii "bytes",
      eq_next (by decide +kernel), test_next_part.1, rfl⟩,
    ⟨hostSide State.reset, _, rfl, rfl⟩⟩

/-- The URI of a part whose sequence number is no `u32`. -/
def malformedUr : Bytes := encodeText big .minimal (cborPart ⟨2 ^ 32, 1, 1, 0, [0]⟩)

/-- A text that is no URI; a type above the buffer; a payload text that does not decode; a single-part message; a part whose
sequence number is no `u32`; a part that the block receives. -/
theorem witness_HostReceiveOutcomes :
    parseUr (ascii "bytes/aeae") = .error .invalidScheme ∧
    (parseUr (ascii "ur:crypto-psbt/aeaeaeae") = .ok (.single (ascii "crypto-psbt") (ascii "aeaeaeae")) ∧
      exceeds (hostSide State.reset).cfg.typeCap (ascii "crypto-psbt").length = true) ∧
    (parseUr (ascii "ur:bytes/1-3/aea") = .ok (.multi (ascii "bytes") 1 3 (ascii "aea")) ∧
      decodeText big .minimal (ascii "aea") = .error .invalidLength) ∧
    (parseUr (ascii "ur:bytes/ghihjtcxiaishsjpjkclwkwmhfwn") =
        .ok (.single (ascii "bytes") (ascii "ghihjtcxiaishsjpjkclwkwmhfwn")) ∧
      decodeText big .minimal (ascii "ghihjtcxiaishsjpjkclwkwmhfwn") = .ok tenChars) ∧
    (parseUr (ascii "ur:bytes/1-1/" ++ malformedUr) = .ok (.multi (ascii "bytes") 1 1 malformedUr) ∧
      decodeText big .minimal malformedUr = .ok (cborPart ⟨2 ^ 32, 1, 1, 0, [0]⟩) ∧
      hostPart (hostSide State.reset) (cborPart ⟨2 ^ 32, 1, 1, 0, [0]⟩) = none) ∧
    (decodeText big .minimal (encodeText big .minimal (cborPart part1.toRaw)) = .ok (cborPart part1.toRaw) ∧
      hostPart (hostSide State.reset) (cborPart part1.toRaw) = some part1) ∧
    ∃ (h : HostSide) (u : Bytes) (p : Part) (t : State), h.block.sysFault = none ∧ h.block.cfg.TablesOk ∧
      h.cfg.codec = .standard ∧ u ≠ [] ∧ (∀ b ∈ u, isTypeByte b = true) ∧ exceeds h.cfg.typeCap u.length = false ∧
      partOperand h.block.cfg.usize p.toRecord = some p ∧ p.data.length < 2 ^ 64 ∧
      exec .decReceive { h.block with
        opr := p.toRecord, res := some (.ok (.payload (partBytes .standard p))) } = .next t :=
  ⟨by decide, ⟨by decide, by decide⟩, ⟨by decide, by decide +kernel⟩, ⟨by decide, by decide +kernel⟩,
    ⟨by decide +kernel, by decide +kernel, by decide +kernel⟩, ⟨by decide +kernel, by decide +kernel⟩,
    hostSide State.reset, ascii "bytes", part1, nextState (exec .decReceive _), rfl, big_tablesOk, rfl, by decide,
    by decide, by decide, by decide, by decide, eq_next (by decide +kernel)⟩

end Sys2Proof.Tests
end

