-- ==== Sys2Proof/Proofs/Frame.lean ====
section
/-! What the gate and each operation leave unchanged (10_state.md R20, R50, R55), and the obligations that rest on it. -/

namespace Sys2Proof.Machine

/-! ### Every operation but the two of the system unit runs behind the gate -/

/-- Every operation but `SYS.RESET` and `SYS.STATUS` is a rule behind the gate of 46_system.md R261. -/
theorem exec_gated (i : Instr) (s : State) (hr : i ≠ .sysReset) (hs : i ≠ .sysStatus) :
    ∃ (α : Type) (o : Option α) (rule : α → StepOutcome), exec i s = execute s o rule := by
  cases i with
  | sysReset => exact absurd rfl hr
  | sysStatus => exact absurd rfl hs
  | _ => exact ⟨_, _, _, rfl⟩

/-- While a fault is held, every operation behind the gate only answers with it. -/
theorem exec_of_held {s : State} {i : Instr} {f : FaultCode} (hf : s.sysFault = some f) (hr : i ≠ .sysReset)
    (hs : i ≠ .sysStatus) : exec i s = .next (s.reply (.fault f)) := by
  obtain ⟨α, o, rule, h⟩ := exec_gated i s hr hs
  rw [h, execute_of_held o rule hf]

/-- While a fault is held, an illegal command word only answers with it. -/
theorem rejectCommand_of_held {s : State} {f : FaultCode} (hf : s.sysFault = some f) :
    rejectCommand s = .next (s.reply (.fault f)) := by
  simp [rejectCommand, hf]

theorem State.raise_sysFault_getD (s : State) (f : FaultCode) : (s.raise f).sysFault = some (s.sysFault.getD f) := by
  rw [State.raise_sysFault]
  cases s.sysFault <;> rfl

theorem exec_sysReset (s : State) : exec .sysReset s = .next (s.resetBlock.reply (.ok .none)) := rfl

theorem exec_sysStatus (s : State) : exec .sysStatus s = .next (s.reply (.ok (.status s.statusRecord))) := rfl

/-- A held fault stays held after every operation but `SYS.RESET`. -/
theorem exec_keeps_held {s t : State} {i : Instr} {f : FaultCode} (hf : s.sysFault = some f)
    (h : exec i s = .next t) (hr : i ≠ .sysReset) : t.sysFault = some f := by
  by_cases hs : i = .sysStatus
  · subst hs
    rw [exec_sysStatus] at h
    cases h
    exact hf
  · rw [exec_of_held hf hr hs] at h
    cases h
    exact hf

/-! ### What an operation that writes a unit can do -/

/-- The operation wrote no unit: it delivered a result, or raised a fault on a ready block. -/
def OnlyAnswers (s t : State) : Prop := (∃ r, t = s.reply r) ∨ (s.sysFault = none ∧ ∃ f, t = s.raise f)

namespace OnlyAnswers

variable {s t : State}

theorem reply (r : Reply) : OnlyAnswers s (s.reply r) := .inl ⟨r, rfl⟩

theorem raise (h : s.sysFault = none) (f : FaultCode) : OnlyAnswers s (s.raise f) := .inr ⟨h, f, rfl⟩

theorem cfg (h : OnlyAnswers s t) : t.cfg = s.cfg := by
  obtain ⟨r, rfl⟩ | ⟨-, f, rfl⟩ := h <;> rfl

theorem smp (h : OnlyAnswers s t) : t.smp = s.smp := by
  obtain ⟨r, rfl⟩ | ⟨-, f, rfl⟩ := h <;> rfl

theorem enc (h : OnlyAnswers s t) : t.enc = s.enc := by
  obtain ⟨r, rfl⟩ | ⟨-, f, rfl⟩ := h <;> rfl

theorem dec (h : OnlyAnswers s t) : t.dec = s.dec := by
  obtain ⟨r, rfl⟩ | ⟨-, f, rfl⟩ := h <;> rfl

end OnlyAnswers

/-- The gate answers by itself, or the rule runs on the operands of a ready block. -/
theorem execute_answers_or_runs {α : Type} {s t : State} {o : Option α} {rule : α → StepOutcome}
    (h : execute s o rule = .next t) : OnlyAnswers s t ∨ ∃ a, s.sysFault = none ∧ o = some a ∧ rule a = .next t := by
  obtain ⟨f, -, rfl⟩ | ⟨hf, -, rfl⟩ | hrun := execute_next_cases h
  · exact .inl (.reply _)
  · exact .inl (.raise hf _)
  · exact .inr hrun

section
variable {s t : State}

/-- Everything `SMP.SETUP` can do. -/
theorem execSmpSetup_next_cases (h : execSmpSetup s = .next t) :
    OnlyAnswers s t ∨ ∃ ws tables, s.sysFault = none ∧ weightsOperand s.opr = some ws ∧
      buildTables s.cfg s.cfg.smpCap ws = .ok tables ∧ t = (s.withSmp (some tables)).reply (.ok .none) := by
  obtain hans | ⟨ws, hf, ho, ha⟩ := execute_answers_or_runs h
  · exact .inl hans
  split at ha <;> cases ha
  · exact .inl (.raise hf _)
  · next tables ht => exact .inr ⟨ws, tables, hf, ho, ht, rfl⟩

/-- Everything `ENC.START` can do. -/
theorem execEncStart_next_cases (h : execEncStart s = .next t) :
    OnlyAnswers s t ∨ ∃ o e, s.sysFault = none ∧ startOperands s.cfg.usize s.opr = some o ∧
      1 ≤ o.message.length ∧ 1 ≤ o.maxFragmentLength ∧ o.message.length < 2 ^ s.cfg.usize.bits ∧
      e = startedEncoder s.cfg o.message o.maxFragmentLength ∧ exceeds s.cfg.fragCap e.fragmentLength = false ∧
      exceeds s.cfg.maxFragments e.sequenceCount = false ∧ e.sequenceCount ≤ 2 ^ 32 - 1 ∧
      t = (s.withEnc (some e)).reply (.ok .none) := by
  obtain hans | ⟨o, hf, ho, ha⟩ := execute_answers_or_runs h
  · exact .inl hans
  dsimp only at ha
  split at ha
  · cases ha; exact .inl (.raise hf _)
  split at ha
  · cases ha; exact .inl (.raise hf _)
  split at ha
  · cases ha; exact .inl (.raise hf _)
  split at ha
  · cases ha; exact .inl (.raise hf _)
  · next hmessage hlimit husize hcaps =>
    cases ha
    simp only [Bool.or_eq_true, decide_eq_true_eq, not_or, Bool.not_eq_true, not_lt] at hcaps
    obtain ⟨⟨hfrag, hfragments⟩, hcount⟩ := hcaps
    exact .inr ⟨o, _, hf, ho, Nat.one_le_iff_ne_zero.2 hmessage, Nat.one_le_iff_ne_zero.2 hlimit, not_le.1 husize, rfl,
      hfrag, hfragments, hcount, rfl⟩

/-- Everything `ENC.NEXT_PART` can do: the counter advances before anything can fail. -/
theorem execEncNextPart_next_cases (h : execEncNextPart s = .next t) :
    OnlyAnswers s t ∨ ∃ e, s.sysFault = none ∧ s.enc = some e ∧
      ((e.advance.currentSequence = 0 ∧ t = (s.withEnc (some e.advance)).raise .chooserPrecondition) ∨
        (∃ f, choose s.cfg e.advance.currentSequence e.advance.sequenceCount e.advance.checksum = .error f ∧
          t = (s.withEnc (some e.advance)).raise f) ∨
        ∃ indexes, choose s.cfg e.advance.currentSequence e.advance.sequenceCount e.advance.checksum = .ok indexes ∧
          t = (s.withEnc (some (e.advance.emit indexes))).reply (.ok (.part (e.advance.partFor indexes)))) := by
  obtain hans | ⟨_, hf, -, ha⟩ := execute_answers_or_runs h
  · exact .inl hans
  split at ha
  · cases ha; exact .inl (.raise hf _)
  · next e he =>
    refine .inr ⟨e, hf, he, ?_⟩
    dsimp only at ha
    split at ha
    · next h0 => cases ha; exact .inl ⟨h0, rfl⟩
    · split at ha <;> cases ha
      · next f hc => exact .inr (.inl ⟨f, hc, rfl⟩)
      · next indexes hc => exact .inr (.inr ⟨indexes, hc, rfl⟩)

/-- A valid part `p` of the operand record enters the assembly `a`: the one it founds on an empty decoder, or the one of
its own description that the decoder accumulates (44_decoder.md R201 to R203). -/
structure EntersAssembly (s : State) (p : Part) (a : Assembly) : Prop where
  reads : partOperand s.cfg.usize s.opr = some p
  valid : p.invalid = false
  enters : (s.dec = .empty ∧ firstAssembly s.cfg p = .ok a) ∨ (s.dec = .accumulating a ∧ p.description = a.desc)

/-- Everything `DEC.RECEIVE` can do: a part that enters an assembly raises the chooser's fault, or is indexed, queued and
drained. -/
theorem execDecReceive_next_cases (h : execDecReceive s = .next t) :
    OnlyAnswers s t ∨ (∃ e, s.failWith e = .next t) ∨ ∃ p a, s.sysFault = none ∧ EntersAssembly s p a ∧
      ((∃ f, choose s.cfg p.sequence a.desc.sequenceCount a.desc.checksum = .error f ∧
          t = (s.withDec (.accumulating a)).raise f) ∨
        ∃ indexes a1 a2 done, choose s.cfg p.sequence a.desc.sequenceCount a.desc.checksum = .ok indexes ∧
          appendFifo s.cfg a ⟨indexes, p.data⟩ = .ok a1 ∧ drain s.cfg (drainBound a1) a1 = .ok (a2, done) ∧
          t = (s.withDec (if done then .complete a2 else .accumulating a2)).reply (.ok (.more (!done)))) := by
  obtain hans | ⟨p, hf, ho, ha⟩ := execute_answers_or_runs h
  · exact .inl hans
  split at ha
  · cases ha; exact .inl (.reply _)
  · cases ha; exact .inl (.reply _)
  · next hdec =>
    split at ha
    · cases ha; exact .inl (.reply _)
    next hvalid =>
    split at ha
    · next e _ => exact .inr (.inl ⟨e, ha⟩)
    next a hfirst =>
    have henters : EntersAssembly s p a := ⟨ho, by simpa using hvalid, .inl ⟨hdec, hfirst⟩⟩
    obtain hfault | ⟨e, he⟩ | hok := receiveInto_next_cases ha
    · exact .inr (.inr ⟨p, a, hf, henters, .inl hfault⟩)
    · exact .inr (.inl ⟨e, he⟩)
    · exact .inr (.inr ⟨p, a, hf, henters, .inr hok⟩)
  · next a hdec =>
    split at ha
    · cases ha; exact .inl (.reply _)
    next hvalid =>
    split at ha
    · next hdesc =>
      have henters : EntersAssembly s p a := ⟨ho, by simpa using hvalid, .inr ⟨hdec, hdesc⟩⟩
      have hself : s.withDec (.accumulating a) = s := by rw [← hdec]; rfl
      obtain hfault | ⟨e, he⟩ | hok := receiveInto_next_cases ha
      · exact .inr (.inr ⟨p, a, hf, henters, .inl (by rwa [hself])⟩)
      · exact .inr (.inl ⟨e, he⟩)
      · exact .inr (.inr ⟨p, a, hf, henters, .inr hok⟩)
    · cases ha; exact .inl (.reply _)

end

/-! ### Which operation writes which unit -/

/-- What the operation `i` may change from `s` to `t` by the column "written by" of 10_state.md R20. -/
structure OnlyWrites (i : Instr) (s t : State) : Prop where
  cfg : t.cfg = s.cfg
  opr : t.opr = s.opr
  issue : t.issue = s.issue
  res : t.res ≠ none
  prng : t.prng = s.prng ∨ i ∈ [Instr.sysReset, .prngSeedBytes, .prngSeedStr, .prngSeedDigest, .prngNext,
    .prngNextDouble, .prngNextInt, .smpNext]
  smp : t.smp = s.smp ∨ i ∈ [Instr.sysReset, .smpSetup]
  enc : t.enc = s.enc ∨ i ∈ [Instr.sysReset, .encStart, .encNextPart]
  dec : t.dec = s.dec ∨ i ∈ [Instr.sysReset, .decReceive, .decClear]
  sysFault : t.sysFault = s.sysFault ∨ i = .sysReset ∨
    (s.sysFault = none ∧ ∃ f, t.sysFault = some f ∧ t.res = some (.fault f))
  freeIndex : t.freeIndex = s.freeIndex ∨ i = .decReceive

namespace OnlyWrites

variable {i : Instr} {s t : State}

/-- Delivering a result writes no unit. -/
theorem reply (r : Reply) : OnlyWrites i s (s.reply r) :=
  ⟨rfl, rfl, rfl, by simp, .inl rfl, .inl rfl, .inl rfl, .inl rfl, .inl rfl, .inl rfl⟩

/-- Raising a fault on a ready block writes the register only. -/
theorem raise (h : s.sysFault = none) (f : FaultCode) : OnlyWrites i s (s.raise f) :=
  ⟨rfl, rfl, rfl, by simp, .inl rfl, .inl rfl, .inl rfl, .inl rfl, .inr (.inr ⟨h, f, by simp [h], rfl⟩), .inl rfl⟩

/-- Answering alone writes no unit. -/
theorem of_onlyAnswers (h : OnlyAnswers s t) : OnlyWrites i s t := by
  obtain ⟨r, rfl⟩ | ⟨hf, f, rfl⟩ := h
  · exact reply r
  · exact raise hf f

/-- `fail_with` writes the decoder and the model's free-value index. -/
theorem failWith (e : CapacityError) (h : s.failWith e = .next t) : OnlyWrites .decReceive s t := by
  cases h
  exact ⟨rfl, rfl, rfl, by simp, .inl rfl, .inl rfl, .inl rfl, .inr (by decide), .inl rfl, .inr rfl⟩

/-- An operation that may write the generator may write it first. -/
theorem of_withPrng {p : Option PrngWords} (hi : i ∈ [Instr.sysReset, .prngSeedBytes, .prngSeedStr, .prngSeedDigest,
    .prngNext, .prngNextDouble, .prngNextInt, .smpNext]) (h : OnlyWrites i (s.withPrng p) t) : OnlyWrites i s t :=
  { h with prng := .inr hi }

/-- An operation that may write the tables may write them first. -/
theorem of_withSmp {p : Option AliasTables} (hi : i ∈ [Instr.sysReset, .smpSetup])
    (h : OnlyWrites i (s.withSmp p) t) : OnlyWrites i s t :=
  { h with smp := .inr hi }

/-- An operation that may write the encoder may write it first. -/
theorem of_withEnc {e : Option Encoder} (hi : i ∈ [Instr.sysReset, .encStart, .encNextPart])
    (h : OnlyWrites i (s.withEnc e) t) : OnlyWrites i s t :=
  { h with enc := .inr hi }

/-- An operation that may write the decoder may write it first. -/
theorem of_withDec {d : Decoder} (hi : i ∈ [Instr.sysReset, .decReceive, .decClear])
    (h : OnlyWrites i (s.withDec d) t) : OnlyWrites i s t :=
  { h with dec := .inr hi }

/-- The gate writes no unit, so an operation writes what its rule writes. -/
theorem of_execute {α : Type} {o : Option α} {rule : α → StepOutcome} (h : execute s o rule = .next t)
    (hrule : ∀ a, s.sysFault = none → o = some a → rule a = .next t → OnlyWrites i s t) : OnlyWrites i s t := by
  obtain hans | ⟨a, hf, ho, ha⟩ := execute_answers_or_runs h
  · exact of_onlyAnswers hans
  · exact hrule a hf ho ha

/-- An operation that only answers, whatever its operands are, writes no unit. -/
theorem of_execute_reply {α : Type} {o : Option α} {rule : α → StepOutcome} (h : execute s o rule = .next t)
    (hrule : ∀ a, rule a = .next t → ∃ r, t = s.reply r) : OnlyWrites i s t := by
  refine of_execute h fun a _ _ ha => ?_
  obtain ⟨r, rfl⟩ := hrule a ha
  exact reply r

end OnlyWrites

section
variable {s t : State}

theorem sysReset_onlyWrites (h : execSysReset s = .next t) : OnlyWrites .sysReset s t := by
  cases h
  exact ⟨rfl, rfl, rfl, by simp, .inr (by decide), .inr (by decide), .inr (by decide), .inr (by decide),
    .inr (.inl rfl), .inl rfl⟩

theorem prngSeed_onlyWrites {i : Instr} {o : Option Bytes} {words : Bytes → PrngWords}
    (hi : i ∈ [Instr.prngSeedBytes, .prngSeedStr, .prngSeedDigest])
    (h : execute s o (fun b => (s.withPrng (some (words b))).answer .none) = .next t) : OnlyWrites i s t := by
  refine .of_execute h fun b _ _ hb => ?_
  cases hb
  refine .of_withPrng ?_ (.reply _)
  fin_cases hi <;> decide

theorem prngNext_onlyWrites (h : execPrngNext s = .next t) : OnlyWrites .prngNext s t := by
  refine .of_execute h fun _ hf _ ha => ?_
  split at ha <;> cases ha
  · exact .raise hf _
  · exact .of_withPrng (by decide) (.reply _)

theorem prngNextDouble_onlyWrites (h : execPrngNextDouble s = .next t) : OnlyWrites .prngNextDouble s t := by
  refine .of_execute h fun _ hf _ ha => ?_
  split at ha <;> cases ha
  · exact .raise hf _
  · exact .of_withPrng (by decide) (.reply _)

theorem prngNextInt_onlyWrites (h : execPrngNextInt s = .next t) : OnlyWrites .prngNextInt s t := by
  refine .of_execute h fun r hf _ ha => ?_
  split at ha
  · cases ha
    exact .raise hf _
  · split at ha
    · cases ha
      exact .raise hf _
    · dsimp only at ha
      split at ha <;> cases ha
      · exact .of_withPrng (by decide) (.reply _)
      · exact .of_withPrng (by decide) (.raise (by exact hf) _)

theorem smpSetup_onlyWrites (h : execSmpSetup s = .next t) : OnlyWrites .smpSetup s t := by
  obtain hans | ⟨_, tables, -, -, -, rfl⟩ := execSmpSetup_next_cases h
  · exact .of_onlyAnswers hans
  · exact .of_withSmp (by decide) (.reply _)

theorem smpNext_onlyWrites (h : execSmpNext s = .next t) : OnlyWrites .smpNext s t := by
  refine .of_execute h fun _ hf _ ha => ?_
  split at ha
  · cases ha
    exact .raise hf _
  · split at ha
    · cases ha
      exact .raise hf _
    · split at ha <;> cases ha
      · exact .of_withPrng (by decide) (.raise (by exact hf) _)
      · exact .of_withPrng (by decide) (.reply _)

theorem chsChoose_onlyWrites (h : execChsChoose s = .next t) : OnlyWrites .chsChoose s t := by
  refine .of_execute h fun o hf _ ha => ?_
  split at ha
  · cases ha
    exact .raise hf _
  · split at ha
    · cases ha
      exact .raise hf _
    · split at ha <;> cases ha
      · exact .raise hf _
      · exact .reply _

theorem encStart_onlyWrites (h : execEncStart s = .next t) : OnlyWrites .encStart s t := by
  obtain hans | ⟨o, e, -, -, -, -, -, -, -, -, -, rfl⟩ := execEncStart_next_cases h
  · exact .of_onlyAnswers hans
  · exact .of_withEnc (by decide) (.reply _)

theorem encNextPart_onlyWrites (h : execEncNextPart s = .next t) : OnlyWrites .encNextPart s t := by
  obtain hans | ⟨e, hf, -, ⟨-, rfl⟩ | ⟨f, -, rfl⟩ | ⟨indexes, -, rfl⟩⟩ := execEncNextPart_next_cases h
  · exact .of_onlyAnswers hans
  · exact .of_withEnc (by decide) (.raise (by exact hf) _)
  · exact .of_withEnc (by decide) (.raise (by exact hf) _)
  · exact .of_withEnc (by decide) (.reply _)

theorem encSeqCount_onlyWrites (h : execEncSeqCount s = .next t) : OnlyWrites .encSeqCount s t := by
  refine .of_execute h fun _ hf _ ha => ?_
  split at ha <;> cases ha
  · exact .raise hf _
  · exact .reply _

theorem encIsComplete_onlyWrites (h : execEncIsComplete s = .next t) : OnlyWrites .encIsComplete s t := by
  refine .of_execute h fun _ hf _ ha => ?_
  split at ha <;> cases ha
  · exact .raise hf _
  · exact .reply _

theorem decReceive_onlyWrites (h : execDecReceive s = .next t) : OnlyWrites .decReceive s t := by
  obtain hans | ⟨e, he⟩ | ⟨p, a, hf, -, ⟨f, -, rfl⟩ | ⟨_, _, a2, done, -, -, -, rfl⟩⟩ := execDecReceive_next_cases h
  · exact .of_onlyAnswers hans
  · exact .failWith e he
  · exact .of_withDec (by decide) (.raise (by exact hf) _)
  · exact .of_withDec (by decide) (.reply _)

theorem decMessage_onlyWrites (h : execDecMessage s = .next t) : OnlyWrites .decMessage s t := by
  refine .of_execute h fun _ hf _ ha => ?_
  split at ha
  · cases ha
    exact .reply _
  · cases ha
    exact .reply _
  · cases ha
    exact .reply _
  · split_ifs at ha <;> cases ha
    · exact .raise hf _
    · exact .reply _
    · exact .reply _

theorem decPercent_onlyWrites (h : execDecPercent s = .next t) : OnlyWrites .decPercent s t := by
  refine .of_execute_reply h fun _ ha => ?_
  split at ha <;> cases ha <;> exact ⟨_, rfl⟩

theorem decClear_onlyWrites (h : execDecClear s = .next t) : OnlyWrites .decClear s t := by
  refine .of_execute h fun _ _ _ ha => ?_
  cases ha
  exact .of_withDec (by decide) (.reply _)

theorem bwdEncode_onlyWrites {i : Instr} {style : Style} (h : bwdEncode style s = .next t) : OnlyWrites i s t :=
  .of_execute_reply h fun _ ha => ⟨_, (Host.Outcome.next.inj ha).symm⟩

theorem bwdDecode_onlyWrites {i : Instr} {style : Style} (h : bwdDecode style s = .next t) : OnlyWrites i s t := by
  refine .of_execute_reply h fun _ ha => ?_
  split at ha <;> cases ha <;> exact ⟨_, rfl⟩

/-- Every operation writes only what 10_state.md R20 lets it write. -/
theorem exec_onlyWrites {i : Instr} (h : exec i s = .next t) : OnlyWrites i s t := by
  cases i with
  | sysReset => exact sysReset_onlyWrites h
  | sysStatus => rw [exec_sysStatus] at h; cases h; exact .reply _
  | prngSeedBytes => exact prngSeed_onlyWrites (words := seededWords s.cfg) (by decide) h
  | prngSeedStr => exact prngSeed_onlyWrites (words := seededWords s.cfg) (by decide) h
  | prngSeedDigest => exact prngSeed_onlyWrites (words := wordsOfDigest) (by decide) h
  | prngNext => exact prngNext_onlyWrites h
  | prngNextDouble => exact prngNextDouble_onlyWrites h
  | prngNextInt => exact prngNextInt_onlyWrites h
  | smpSetup => exact smpSetup_onlyWrites h
  | smpNext => exact smpNext_onlyWrites h
  | chsChoose => exact chsChoose_onlyWrites h
  | encStart => exact encStart_onlyWrites h
  | encNextPart => exact encNextPart_onlyWrites h
  | encSeqCount => exact encSeqCount_onlyWrites h
  | encIsComplete => exact encIsComplete_onlyWrites h
  | decReceive => exact decReceive_onlyWrites h
  | decMessage => exact decMessage_onlyWrites h
  | decIsComplete => exact .of_execute_reply h fun _ ha => ⟨_, (Host.Outcome.next.inj ha).symm⟩
  | decPercent => exact decPercent_onlyWrites h
  | decClear => exact decClear_onlyWrites h
  | bwdEncodeStandard | bwdEncodeUri | bwdEncodeMinimal => exact bwdEncode_onlyWrites h
  | bwdDecodeStandard | bwdDecodeUri | bwdDecodeMinimal => exact bwdDecode_onlyWrites h

end

/-! ### The obligations on the register, the reset values and the units' writers -/

/-- Settles O4: the gate lets only the two `SYS` operations past a held fault, and `raise` keeps a held code. -/
theorem heldFaultGatesOperations : Obligations.HeldFaultGatesOperations := by
  refine ⟨rfl, State.raise_sysFault_getD, fun s i f hf hr hs => exec_of_held hf hr hs, ?_,
    fun s t i f hf h hr => exec_keeps_held hf h hr⟩
  intro s r rest e f hf hissue hd
  rw [step_of_reject hissue hd, rejectCommand_of_held (f := f) (by simpa using hf)]
  rfl

/-- Settles O6: `SYS.RESET` answers `resetBlock`, whose fields are those of `State.reset`. -/
theorem resetValues : Obligations.ResetValues := by
  refine ⟨by decide, fun s => ⟨_, exec_sysReset s, rfl, rfl⟩, ?_⟩
  rintro s t (rfl | h)
  · exact ⟨rfl, rfl, rfl, rfl, rfl, rfl, rfl, rfl, rfl, rfl, rfl, rfl, rfl, rfl⟩
  · rw [exec_sysReset] at h
    cases h
    exact ⟨rfl, rfl, rfl, rfl, rfl, rfl, rfl, rfl, rfl, rfl, rfl, rfl, rfl, rfl⟩

/-- Settles O49, operation by operation. -/
theorem onlyNamedOperationsWrite : Obligations.OnlyNamedOperationsWrite := by
  intro s t i h
  obtain ⟨hcfg, hopr, hissue, hres, hprng, hsmp, henc, hdec, hfault, hfree⟩ := exec_onlyWrites h
  exact ⟨hcfg, hopr, hissue, hres, hprng, hsmp, henc, hdec, hfault, hfree⟩

/-- A block that holds no tables, no encoder and an empty decoder has the invariant. -/
theorem State.Inv.of_nothing_held {s : State} (hsmp : s.smp = none) (henc : s.enc = none) (hdec : s.dec = .empty) :
    s.Inv := by
  refine ⟨?_, ?_, ?_⟩
  · simp [hsmp]
  · simp [henc]
  · rw [hdec]
    trivial

/-- Settles O52: nothing is held at reset, every capacity is without limit, and the tables are the spec's. -/
theorem resetMeetsInvariant : Obligations.ResetMeetsInvariant :=
  ⟨.of_nothing_held rfl rfl rfl, nofun, nofun, nofun, nofun, nofun, nofun, tablesOk_of_standard rfl rfl⟩

end Sys2Proof.Machine
end

