-- ==== Sys2Proof/Proofs/IndexSets.lean ====
section
/-! Index sets, what the chooser answers, and the XOR of the fragments an index set names (42_chooser.md R171 to R173,
43_encoder.md R183). -/

namespace Sys2Proof.Machine

/-! ### Index sets -/

theorem IndexSet.nodup {n : Nat} {l : List Nat} (h : IndexSet n l) : l.Nodup := h.1.imp (fun hlt => hlt.ne)

theorem IndexSet.filter {n : Nat} {l : List Nat} (h : IndexSet n l) (keep : Nat → Bool) : IndexSet n (l.filter keep) :=
  ⟨h.1.filter keep, fun i hi => h.2 i (List.mem_of_mem_filter hi)⟩

theorem IndexSet.insertIndex {n i : Nat} {l : List Nat} (h : IndexSet n l) (hi : i < n) :
    IndexSet n (insertIndex i l) := by
  refine ⟨insertIndex_pairwise h.1, fun j hj => ?_⟩
  obtain rfl | hj := mem_insertIndex.1 hj
  · exact hi
  · exact h.2 j hj

theorem IndexSet.length_le {n : Nat} {l : List Nat} (h : IndexSet n l) : l.length ≤ n := by
  have hsub : l ⊆ List.range n := fun i hi => List.mem_range.2 (h.2 i hi)
  simpa using (h.nodup.subperm hsub).length_le

theorem indexSet_singleton {n i : Nat} (hi : i < n) : IndexSet n [i] := by
  refine ⟨List.pairwise_singleton _ _, fun j hj => ?_⟩
  rwa [List.mem_singleton.1 hj]

/-! ### The chooser -/

/-- The picks: as many as asked for, each from the list. -/
theorem pickIndexes_eq_ok {cfg : Cfg} {k : Nat} {g : PrngWords} {remaining picked : List Nat}
    (h : pickIndexes cfg k g remaining = .ok picked) : picked.length = k ∧ ∀ i ∈ picked, i ∈ remaining := by
  induction k generalizing g remaining picked with
  | zero => cases h; simp
  | succ k ih =>
    simp only [pickIndexes] at h
    split at h
    · cases h
    next i hi =>
    split at h
    · cases h
    next rest hrest =>
    cases h
    obtain ⟨hlen, hmem⟩ := ih hrest
    refine ⟨by simp [hlen], fun j hj => ?_⟩
    obtain rfl | hj := List.mem_cons.1 hj
    · exact List.mem_of_getElem? hi
    · exact List.mem_of_mem_eraseIdx (hmem j hj)

/-- The first round passes the index through (42_chooser.md R171). -/
theorem choose_of_le {cfg : Cfg} {sequence : U32} {n : Nat} {checksum : U32} (h : sequence.toNat ≤ n) :
    choose cfg sequence n checksum = .ok [sequence.toNat - 1] := if_pos h

/-- A later round answers the set of at least one pick from the indices (42_chooser.md R172, R173). -/
theorem chooseLater_eq_ok {cfg : Cfg} {sequence : U32} {n : Nat} {checksum : U32} {indexes : List Nat}
    (h : chooseLater cfg sequence n checksum = .ok indexes) :
    ∃ k g picked, pickIndexes cfg (k + 1) g (List.range n) = .ok picked ∧ indexes = toIndexSet picked := by
  simp only [chooseLater] at h
  split at h
  · cases h
  split at h
  · cases h
  split at h
  · cases h
  next hpicked => cases h; exact ⟨_, _, _, hpicked, rfl⟩

/-- The chooser answers a non-empty set of indices below the fragment count. -/
theorem choose_indexSet {cfg : Cfg} {sequence : U32} {n : Nat} {checksum : U32} {indexes : List Nat}
    (hseq : sequence ≠ 0) (h : choose cfg sequence n checksum = .ok indexes) : IndexSet n indexes ∧ indexes ≠ [] := by
  by_cases hle : sequence.toNat ≤ n
  · rw [choose_of_le hle] at h
    cases h
    have hpos : sequence.toNat ≠ 0 := fun h0 => hseq (BitVec.eq_of_toNat_eq h0)
    exact ⟨indexSet_singleton (by omega), List.cons_ne_nil _ _⟩
  · rw [choose, if_neg hle] at h
    obtain ⟨k, g, picked, hpick, rfl⟩ := chooseLater_eq_ok h
    obtain ⟨hlen, hmem⟩ := pickIndexes_eq_ok hpick
    refine ⟨⟨toIndexSet_pairwise _, fun i hi => List.mem_range.1 (hmem i (mem_toIndexSet.1 hi))⟩, fun hnil => ?_⟩
    obtain ⟨i, hi⟩ := List.exists_mem_of_length_pos (l := picked) (by omega)
    have := mem_toIndexSet.2 hi
    simp [hnil] at this

/-! ### XOR of fragments -/

/-- XORing the same bytes out again. -/
theorem xorBytes_xorBytes_cancel {x y : Bytes} (h : x.length = y.length) : xorBytes (xorBytes x y) y = x := by
  rw [xorBytes_assoc, xorBytes_self, ← h, xorBytes_zero]

theorem xorBytes_zeroBytes {x : Bytes} {n : Nat} (h : x.length = n) : xorBytes x (zeroBytes n) = x := by
  rw [← h, xorBytes_zero]

theorem zeroBytes_xorBytes {x : Bytes} {n : Nat} (h : x.length = n) : xorBytes (zeroBytes n) x = x := by
  rw [xorBytes_comm, xorBytes_zeroBytes h]

@[simp] theorem fragmentOf_length (message : Bytes) (fl i : Nat) : (fragmentOf message fl i).length = fl := by
  simp [fragmentOf]

section
variable {message : Bytes} {fl : Nat}

/-- XORing fragments into some data is XORing their combination into it. -/
theorem foldl_xorBytes_fragmentOf (indexes : List Nat) {d : Bytes} (hd : d.length = fl) :
    indexes.foldl (fun acc i => xorBytes acc (fragmentOf message fl i)) d =
      xorBytes d (combineFragments message fl indexes) := by
  induction indexes generalizing d with
  | nil => exact (xorBytes_zeroBytes hd).symm
  | cons i rest ih =>
    have hcons : combineFragments message fl (i :: rest) =
        xorBytes (xorBytes (zeroBytes fl) (fragmentOf message fl i)) (combineFragments message fl rest) :=
      ih (by simp)
    rw [List.foldl_cons, ih (by simp [hd]), hcons, zeroBytes_xorBytes (by simp), xorBytes_assoc]

@[simp] theorem combineFragments_nil : combineFragments message fl [] = zeroBytes fl := rfl

theorem combineFragments_cons (i : Nat) (rest : List Nat) :
    combineFragments message fl (i :: rest) =
      xorBytes (fragmentOf message fl i) (combineFragments message fl rest) := by
  rw [combineFragments, List.foldl_cons, zeroBytes_xorBytes (by simp), foldl_xorBytes_fragmentOf rest (by simp)]

@[simp] theorem combineFragments_length (indexes : List Nat) :
    (combineFragments message fl indexes).length = fl := by
  induction indexes with
  | nil => simp
  | cons i rest ih => simp [combineFragments_cons, ih]

theorem combineFragments_singleton (i : Nat) : combineFragments message fl [i] = fragmentOf message fl i := by
  rw [combineFragments_cons, combineFragments_nil, xorBytes_zeroBytes (by simp)]

theorem combineFragments_append (l r : List Nat) :
    combineFragments message fl (l ++ r) =
      xorBytes (combineFragments message fl l) (combineFragments message fl r) := by
  rw [combineFragments, List.foldl_append]
  exact foldl_xorBytes_fragmentOf r (combineFragments_length l)

/-- The order of the fragments does not matter. -/
theorem combineFragments_perm {l r : List Nat} (h : l.Perm r) :
    combineFragments message fl l = combineFragments message fl r := by
  induction h with
  | nil => rfl
  | cons i _ ih => rw [combineFragments_cons, combineFragments_cons, ih]
  | swap i j rest =>
    simp only [combineFragments_cons]
    rw [← xorBytes_assoc, ← xorBytes_assoc, xorBytes_comm (fragmentOf message fl j)]
  | trans _ _ ih ih' => rw [ih, ih']

/-- Taking a subset's combination out of a set's leaves the combination of the rest. -/
theorem combineFragments_diff {l r : List Nat} (hl : l.Nodup) (hr : r.Nodup) (hsub : ∀ i ∈ r, i ∈ l) :
    combineFragments message fl (l.filter fun i => !r.contains i) =
      xorBytes (combineFragments message fl l) (combineFragments message fl r) := by
  have hrest : ((l.filter fun i => !r.contains i) ++ r).Nodup := by
    refine List.Nodup.append (hl.filter _) hr fun i hi hir => ?_
    simp [hir] at hi
  have hperm : l.Perm ((l.filter fun i => !r.contains i) ++ r) := by
    refine (List.perm_ext_iff_of_nodup hl hrest).2 fun i => ?_
    by_cases hir : i ∈ r
    · simp [hir, hsub i hir]
    · simp [hir]
  rw [combineFragments_perm hperm, combineFragments_append, xorBytes_xorBytes_cancel (by simp)]

end

end Sys2Proof.Machine
end

