-- ==== Sys2Proof/Proofs/DrainLists.lean ====
section
/-! What each operation of the drain loop does to the two lists of the decoder (44_decoder.md R204 to R211). -/

namespace Sys2Proof.Machine

/-! ### Simple parts and reduction -/

theorem simple_iff {p : IndexedPart} : p.simple = true ↔ ∃ i, p.indexes = [i] := by
  simp [IndexedPart.simple, List.length_eq_one_iff]

theorem simple_eq_false_iff {p : IndexedPart} : p.simple = false ↔ p.indexes.length ≠ 1 := by
  simp [IndexedPart.simple]

theorem IndexedPart.Ok.indexSet {d : MessageDescription} {p : IndexedPart} (h : p.Ok d) :
    IndexSet d.sequenceCount p.indexes := h.1

theorem IndexedPart.Ok.data_length {d : MessageDescription} {p : IndexedPart} (h : p.Ok d) :
    p.data.length = d.fragmentLength := h.2.2

/-- A well-formed part that is not simple names at least two indices. -/
theorem IndexedPart.Ok.two_le {d : MessageDescription} {p : IndexedPart} (h : p.Ok d) (hs : p.simple = false) :
    2 ≤ p.indexes.length := by
  obtain ⟨-, hne, -⟩ := h
  have hpos := List.length_pos_iff.2 hne
  have hone := simple_eq_false_iff.1 hs
  omega

/-- `Reduce` takes a strict subset out, and otherwise does nothing (44_decoder.md R206). -/
theorem reducePart_cases (p q : IndexedPart) :
    ((∀ i ∈ q.indexes, i ∈ p.indexes) ∧ (∃ i ∈ p.indexes, i ∉ q.indexes) ∧
        reducePart p q = ⟨p.indexes.filter fun i => !q.indexes.contains i, xorBytes p.data q.data⟩) ∨
      (¬((∀ i ∈ q.indexes, i ∈ p.indexes) ∧ ∃ i ∈ p.indexes, i ∉ q.indexes) ∧ reducePart p q = p) := by
  unfold reducePart
  split
  · next h => exact .inl (by simpa [indexSubset, and_assoc] using h)
  · next h => exact .inr (by simpa [indexSubset] using h)

/-- A reduced part is well-formed. -/
theorem reducePart_ok {d : MessageDescription} {p q : IndexedPart} (hp : p.Ok d) (hq : q.Ok d) :
    (reducePart p q).Ok d := by
  obtain ⟨hset, hne, hlen⟩ := hp
  obtain ⟨-, ⟨i, hi, hiq⟩, heq⟩ | ⟨-, heq⟩ := reducePart_cases p q
  · rw [heq]
    refine ⟨hset.filter _, List.ne_nil_of_mem (List.mem_filter.2 ⟨hi, by simpa using hiq⟩), ?_⟩
    simp [hlen, hq.data_length]
  · rw [heq]
    exact ⟨hset, hne, hlen⟩

/-- A reduced part is still the XOR of the fragments it names. -/
theorem reducePart_consistent {d : MessageDescription} {message : Bytes} {fl : Nat} {p q : IndexedPart}
    (hp : p.Ok d) (hq : q.Ok d) (hpc : p.Consistent message fl) (hqc : q.Consistent message fl) :
    (reducePart p q).Consistent message fl := by
  obtain ⟨hsub, -, heq⟩ | ⟨-, heq⟩ := reducePart_cases p q
  · rw [heq, IndexedPart.Consistent, combineFragments_diff hp.indexSet.nodup hq.indexSet.nodup hsub, hpc, hqc]
  · rwa [heq]

/-- A mixed part reduced by one index does not name it any more. -/
theorem not_mem_reducePart_singleton {n i : Nat} {p : IndexedPart} {x : Bytes} (hset : IndexSet n p.indexes)
    (htwo : 2 ≤ p.indexes.length) : i ∉ (reducePart p ⟨[i], x⟩).indexes := by
  obtain ⟨-, -, heq⟩ | ⟨hnot, heq⟩ := reducePart_cases p ⟨[i], x⟩
  · simp [heq]
  · rw [heq]
    intro hi
    refine hnot ⟨by simpa using hi, ?_⟩
    by_contra hall
    push Not at hall
    have hsub : p.indexes ⊆ [i] := hall
    have := (hset.nodup.subperm hsub).length_le
    simp at this
    omega

/-! ### A property of every part that is queued or pending -/

/-- Every part in the two lists has a property. -/
def Assembly.AllParts (K : IndexedPart → Prop) (a : Assembly) : Prop := (∀ p ∈ a.fifo, K p) ∧ ∀ p ∈ a.mixed, K p

/-- Two assemblies with the same description, buffer and resolved indices: they differ in the lists at most. -/
def SameFragments (a a' : Assembly) : Prop := a'.desc = a.desc ∧ a'.buf = a.buf ∧ a'.resolved = a.resolved

theorem appendFifo_sameFragments {cfg : Cfg} {a a' : Assembly} {p : IndexedPart} (h : appendFifo cfg a p = .ok a') :
    SameFragments a a' := by
  obtain ⟨-, rfl⟩ := appendFifo_eq_ok.1 h
  exact ⟨rfl, rfl, rfl⟩

theorem reducePending_sameFragments {cfg : Cfg} {a a' : Assembly} {p : IndexedPart}
    (h : reducePending cfg a p = .ok a') : SameFragments a a' := by
  rw [reducePending_eq_ok h]
  exact ⟨rfl, rfl, rfl⟩

/-- Storing a mixed part: the pending list, reduced by the part if the deployment says so, with the part at its tail
(44_decoder.md R210, R211). -/
theorem storeMixed_eq_ok {cfg : Cfg} {a a' : Assembly} {q : IndexedPart} (h : storeMixed cfg a q = .ok a') :
    ∃ a1, (a1 = a ∨ reducePending cfg a q = .ok a1) ∧ exceeds cfg.mixedCap (a1.mixed.length + 1) = false ∧
      a' = { a1 with mixed := a1.mixed ++ [q] } := by
  unfold storeMixed at h
  split at h
  · split at h
    · cases h
    · next a1 h1 => exact ⟨a1, .inr h1, appendMixed_eq_ok.1 h⟩
  · exact ⟨a, .inl rfl, appendMixed_eq_ok.1 h⟩

/-- `q` is what `ProcessMixed` leaves of the part `p`: something, without resolved indices, and reduced by the pending
parts if that did not make it simple (44_decoder.md R209, R210). -/
def Leaves (a : Assembly) (p q : IndexedPart) : Prop :=
  ∃ p1, withoutResolved a p = .ok p1 ∧ p1.indexes ≠ [] ∧ (q = p1 ∨ q = reduceByPending a p1)

/-- Everything `ProcessMixed` can do: drop the part, or queue or store what it leaves of it. -/
theorem processMixed_cases {cfg : Cfg} {a a' : Assembly} {p : IndexedPart} (h : processMixed cfg a p = .ok a') :
    a' = a ∨ ∃ q, Leaves a p q ∧
      ((q.simple = true ∧ appendFifo cfg a q = .ok a') ∨ (q.simple = false ∧ storeMixed cfg a q = .ok a')) := by
  unfold processMixed at h
  split at h
  · cases h; exact .inl rfl
  split at h
  · cases h
  next p1 hp1 =>
  split at h
  · cases h; exact .inl rfl
  next hne =>
  have hnil : p1.indexes ≠ [] := fun hnil => hne (by simp [hnil])
  split at h
  · next hs => exact .inr ⟨p1, ⟨p1, hp1, hnil, .inl rfl⟩, .inl ⟨hs, h⟩⟩
  · dsimp only at h
    split at h
    · next hs => exact .inr ⟨_, ⟨p1, hp1, hnil, .inr rfl⟩, .inl ⟨hs, h⟩⟩
    · next hs => exact .inr ⟨_, ⟨p1, hp1, hnil, .inr rfl⟩, .inr ⟨by simpa using hs, h⟩⟩

/-- `ProcessMixed` reads the buffer and writes the lists only. -/
theorem processMixed_sameFragments {cfg : Cfg} {a a' : Assembly} {p : IndexedPart}
    (h : processMixed cfg a p = .ok a') : SameFragments a a' := by
  obtain rfl | ⟨q, -, ⟨-, happ⟩ | ⟨-, hstore⟩⟩ := processMixed_cases h
  · exact ⟨rfl, rfl, rfl⟩
  · exact appendFifo_sameFragments happ
  · obtain ⟨a1, rfl | hred, -, rfl⟩ := storeMixed_eq_ok hstore
    · exact ⟨rfl, rfl, rfl⟩
    · exact (reducePending_sameFragments hred : SameFragments a a1)

section
variable {K : IndexedPart → Prop} (hK : ∀ p q, K p → K q → K (reducePart p q)) {cfg : Cfg} {a a' : Assembly}
  {p q : IndexedPart}

theorem appendFifo_allParts (ha : a.AllParts K) (hq : K q) (h : appendFifo cfg a q = .ok a') : a'.AllParts K := by
  obtain ⟨-, rfl⟩ := appendFifo_eq_ok.1 h
  obtain ⟨hfifo, hmixed⟩ := ha
  refine ⟨fun m hm => ?_, hmixed⟩
  obtain hm | hm := List.mem_append.1 hm
  · exact hfifo m hm
  · rwa [List.mem_singleton.1 hm]

include hK

theorem reducePending_allParts (ha : a.AllParts K) (hq : K q) (h : reducePending cfg a q = .ok a') :
    a'.AllParts K := by
  obtain ⟨hfifo, hmixed⟩ := ha
  have hreduced : ∀ m ∈ a.mixed.map fun m => reducePart m q, K m := by
    intro m hm
    obtain ⟨m', hm', rfl⟩ := List.mem_map.1 hm
    exact hK m' q (hmixed m' hm') hq
  rw [reducePending_eq_ok h]
  refine ⟨fun m hm => ?_, fun m hm => hreduced m (List.mem_of_mem_filter hm)⟩
  obtain hm | hm := List.mem_append.1 hm
  · exact hfifo m hm
  · exact hreduced m (List.mem_of_mem_filter hm)

theorem reduceByPending_keeps (ha : a.AllParts K) (hp : K p) : K (reduceByPending a p) :=
  List.foldlRecOn a.mixed reducePart hp fun q hq m hm => hK q m hq (ha.2 m hm)

theorem storeMixed_allParts (ha : a.AllParts K) (hq : K q) (h : storeMixed cfg a q = .ok a') : a'.AllParts K := by
  obtain ⟨a1, hred, -, rfl⟩ := storeMixed_eq_ok h
  have ha1 : a1.AllParts K := by
    obtain rfl | hred := hred
    · exact ha
    · exact reducePending_allParts hK ha hq hred
  obtain ⟨hfifo, hmixed⟩ := ha1
  refine ⟨hfifo, fun m hm => ?_⟩
  obtain hm | hm := List.mem_append.1 hm
  · exact hmixed m hm
  · rwa [List.mem_singleton.1 hm]

theorem Leaves.keeps (hrest : ∀ p1, withoutResolved a p = .ok p1 → p1.indexes ≠ [] → K p1) (ha : a.AllParts K)
    (h : Leaves a p q) : K q := by
  obtain ⟨p1, hp1, hne, rfl | rfl⟩ := h
  · exact hrest q hp1 hne
  · exact reduceByPending_keeps hK ha (hrest p1 hp1 hne)

theorem processMixed_allParts (hrest : ∀ p1, withoutResolved a p = .ok p1 → p1.indexes ≠ [] → K p1)
    (ha : a.AllParts K) (h : processMixed cfg a p = .ok a') : a'.AllParts K := by
  obtain rfl | ⟨q, hq, ⟨-, happ⟩ | ⟨-, hstore⟩⟩ := processMixed_cases h
  · exact ha
  · exact appendFifo_allParts ha (hq.keeps hK hrest ha) happ
  · exact storeMixed_allParts hK ha (hq.keeps hK hrest ha) hstore

theorem processSimple_allParts {i : Nat} {d : Bytes} {done : Bool} (ha : a.AllParts K) (hp : K ⟨[i], d⟩)
    (h : processSimple cfg a i d = .ok (a', done)) : a'.AllParts K := by
  obtain ⟨-, rfl, -⟩ | ⟨-, a1, b, hred, -, rfl, -⟩ := processSimple_eq_ok h
  · exact ha
  · exact (reducePending_allParts hK ha hp hred : a1.AllParts K)

end

/-! ### What a mixed part has left after its resolved indices are taken out -/

theorem subtractFragments_eq_ok {buf d d' : Bytes} {fl : Nat} {frag : Nat → Bytes} {l : List Nat}
    (hfrag : ∀ i ∈ l, ∀ v, memRead buf (i * fl) fl = some v → v = frag i)
    (h : subtractFragments buf fl l d = .ok d') : d' = l.foldl (fun acc i => xorBytes acc (frag i)) d := by
  induction l generalizing d with
  | nil => cases h; rfl
  | cons i rest ih =>
    rw [subtractFragments] at h
    split at h
    · cases h
    next v hv =>
    rw [hfrag i (by simp) v hv] at h
    exact ih (fun j hj => hfrag j (List.mem_cons_of_mem i hj)) h

theorem subtractFragments_length {buf d d' : Bytes} {fl : Nat} {l : List Nat} (hd : d.length = fl)
    (h : subtractFragments buf fl l d = .ok d') : d'.length = fl := by
  induction l generalizing d with
  | nil => cases h; exact hd
  | cons i rest ih =>
    rw [subtractFragments] at h
    split at h
    · cases h
    next v hv => exact ih (by simp [hd, memRead_length hv]) h

section
variable {a : Assembly} {p p1 : IndexedPart}

theorem withoutResolved_eq_ok (h : withoutResolved a p = .ok p1) :
    p1.indexes = (p.indexes.filter fun i => !a.resolved.contains i) ∧
      subtractFragments a.buf a.desc.fragmentLength (p.indexes.filter a.resolved.contains) p.data = .ok p1.data := by
  unfold withoutResolved at h
  split at h
  · cases h
  · next d hd => cases h; exact ⟨rfl, hd⟩

theorem withoutResolved_ok (hp : p.Ok a.desc) (h : withoutResolved a p = .ok p1) (hne : p1.indexes ≠ []) :
    p1.Ok a.desc := by
  obtain ⟨hindexes, hdata⟩ := withoutResolved_eq_ok h
  refine ⟨?_, hne, subtractFragments_length hp.data_length hdata⟩
  rw [hindexes]
  exact hp.indexSet.filter _

theorem withoutResolved_not_resolved (h : withoutResolved a p = .ok p1) : ∀ i ∈ p1.indexes, i ∉ a.resolved := by
  intro i hi
  rw [(withoutResolved_eq_ok h).1] at hi
  simpa using (List.mem_filter.1 hi).2

/-- What is left of a part is the XOR of the fragments it still names, if the buffer holds those it does not name any
more. -/
theorem withoutResolved_consistent {message : Bytes} {fl : Nat} (hfl : a.desc.fragmentLength = fl)
    (hbuf : ∀ i ∈ a.resolved, memRead a.buf (i * fl) fl = some (fragmentOf message fl i)) (hp : p.Ok a.desc)
    (hpc : p.Consistent message fl) (h : withoutResolved a p = .ok p1) : p1.Consistent message fl := by
  obtain ⟨hindexes, hdata⟩ := withoutResolved_eq_ok h
  rw [hfl] at hdata
  have hlen : p.data.length = fl := hfl ▸ hp.data_length
  have hread : ∀ i ∈ p.indexes.filter a.resolved.contains, ∀ v, memRead a.buf (i * fl) fl = some v →
      v = fragmentOf message fl i := by
    intro i hi v hv
    have hres : i ∈ a.resolved := by simpa using (List.mem_filter.1 hi).2
    rw [hbuf i hres] at hv
    exact (Option.some.inj hv).symm
  have hnot : (p.indexes.filter fun i => !(p.indexes.filter a.resolved.contains).contains i) =
      p.indexes.filter fun i => !a.resolved.contains i := by
    refine List.filter_congr fun i hi => ?_
    simp [hi]
  have hnodup := hp.indexSet.nodup
  rw [IndexedPart.Consistent, subtractFragments_eq_ok hread hdata, foldl_xorBytes_fragmentOf _ hlen, hindexes, ← hnot,
    combineFragments_diff hnodup (hnodup.filter _) (fun i hi => List.mem_of_mem_filter hi), hpc]

theorem reduceByPending_indexes_subset {i : Nat} (h : i ∈ (reduceByPending a p).indexes) : i ∈ p.indexes :=
  List.foldlRecOn (motive := fun q => i ∈ q.indexes → i ∈ p.indexes) a.mixed reducePart id
    (fun _ hq _ _ hi => hq (reducePart_indexes_subset hi)) h

theorem Leaves.not_resolved {q : IndexedPart} (h : Leaves a p q) : ∀ i ∈ q.indexes, i ∉ a.resolved := by
  obtain ⟨p1, hp1, -, rfl | rfl⟩ := h
  · exact withoutResolved_not_resolved hp1
  · exact fun i hi => withoutResolved_not_resolved hp1 i (reduceByPending_indexes_subset hi)

end

end Sys2Proof.Machine
end

