-- ==== Sys2Proof/Proofs/DrainLoop.lean ====
section
/-! The drain loop as a sequence of rounds (44_decoder.md R205): every round keeps the decoder's invariant, writes at most
the fragment it resolves, and leaves less work (R213). -/

namespace Sys2Proof.Machine

/-! ### Rounds -/

/-- One round of the drain loop takes the head of the FIFO, a simple or a mixed part; `done` says whether the decoder is
complete after it. -/
def DrainRound (cfg : Cfg) (a a' : Assembly) (done : Bool) : Prop :=
  ∃ p rest, a.fifo = p :: rest ∧
    ((∃ i, p.indexes = [i] ∧ processSimple cfg { a with fifo := rest } i p.data = .ok (a', done)) ∨
      (p.simple = false ∧ done = false ∧ processMixed cfg { a with fifo := rest } p = .ok a'))

section
variable {cfg : Cfg} {k : Nat} {a a' b : Assembly} {done : Bool}

/-- The loop with rounds left: it ends on an empty FIFO or on completion, or goes on after a round. -/
theorem drain_succ_cases (h : drain cfg (k + 1) a = .ok (b, done)) :
    (a.fifo = [] ∧ b = a ∧ done = false) ∨ (DrainRound cfg a b true ∧ done = true) ∨
      ∃ a', DrainRound cfg a a' false ∧ drain cfg k a' = .ok (b, done) := by
  rw [drain] at h
  split at h
  · next hnil => cases h; exact .inl ⟨hnil, rfl, rfl⟩
  next p rest hfifo =>
  refine .inr ?_
  split at h
  · next i hi =>
    split at h
    · cases h
    · next a' hp => cases h; exact .inl ⟨⟨p, rest, hfifo, .inl ⟨i, hi, hp⟩⟩, rfl⟩
    · next a' hp => exact .inr ⟨a', ⟨p, rest, hfifo, .inl ⟨i, hi, hp⟩⟩, h⟩
  · next hmixed =>
    have hs : p.simple = false := by
      rw [Bool.eq_false_iff]
      intro hs
      obtain ⟨i, hi⟩ := simple_iff.1 hs
      exact hmixed i hi
    split at h
    · cases h
    · next a' hp => exact .inr ⟨a', ⟨p, rest, hfifo, .inr ⟨hs, rfl, hp⟩⟩, h⟩

/-- What every round keeps holds when the loop ends. -/
theorem drain_induction {P : Assembly → Prop} (hround : ∀ a a' done, P a → DrainRound cfg a a' done → P a')
    (ha : P a) (h : drain cfg k a = .ok (b, done)) : P b := by
  induction k generalizing a with
  | zero => cases h; exact ha
  | succ k ih =>
    obtain ⟨-, rfl, -⟩ | ⟨hlast, -⟩ | ⟨a', hnext, hrest⟩ := drain_succ_cases h
    · exact ha
    · exact hround a b true ha hlast
    · exact ih (hround a a' false ha hnext) hrest

end

/-! ### The part of the invariant that a round changes -/

/-- What `Assembly.Ok` says of the resolved indices and of the two lists. -/
structure Assembly.ListsOk (cfg : Cfg) (a : Assembly) : Prop where
  resolved : IndexSet a.desc.sequenceCount a.resolved
  parts : a.AllParts (IndexedPart.Ok a.desc)
  fifoCap : exceeds cfg.queueCap a.fifo.length = false
  pending : ∀ m ∈ a.mixed, 2 ≤ m.indexes.length ∧ ∀ i ∈ m.indexes, i ∉ a.resolved
  mixedCap : exceeds cfg.mixedCap a.mixed.length = false

section
variable {cfg : Cfg} {a a' : Assembly} {p q : IndexedPart}

theorem Assembly.Ok.listsOk (h : a.Ok cfg) : a.ListsOk cfg := by
  obtain ⟨-, -, -, -, -, -, -, -, -, -, hresolved, hfifo, hqueue, hmixed, hcap⟩ := h
  exact ⟨hresolved, ⟨hfifo, fun m hm => (hmixed m hm).1⟩, hqueue, fun m hm => (hmixed m hm).2, hcap⟩

/-- With the same description and a buffer of the same size, only the lists are to be looked at. -/
theorem Assembly.Ok.of_listsOk (h : a.Ok cfg) (hdesc : a'.desc = a.desc) (hbuf : a'.buf.length = a.buf.length)
    (hlists : a'.ListsOk cfg) : a'.Ok cfg := by
  obtain ⟨h1, h2, h3, h4, h5, h6, h7, h8, h9, h10, -, -, -, -, -⟩ := h
  obtain ⟨hresolved, ⟨hfifo, hmixed⟩, hqueue, hpending, hcap⟩ := hlists
  unfold Assembly.Ok
  rw [hbuf, hdesc]
  rw [hdesc] at hresolved hfifo hmixed
  exact ⟨h1, h2, h3, h4, h5, h6, h7, h8, h9, h10, hresolved, hfifo, hqueue, fun m hm => ⟨hmixed m hm, hpending m hm⟩,
    hcap⟩

theorem Assembly.ListsOk.pop {rest : List IndexedPart} (h : a.ListsOk cfg) (hfifo : a.fifo = p :: rest) :
    p.Ok a.desc ∧ ({ a with fifo := rest } : Assembly).ListsOk cfg := by
  obtain ⟨hresolved, ⟨hparts, hmixed⟩, hqueue, hpending, hcap⟩ := h
  rw [hfifo] at hparts hqueue
  refine ⟨hparts p (by simp), hresolved, ⟨fun m hm => hparts m (List.mem_cons_of_mem p hm), hmixed⟩, ?_, hpending, hcap⟩
  exact exceeds_of_le (by simp) hqueue

theorem Assembly.ListsOk.appendFifo (h : a.ListsOk cfg) (hq : q.Ok a.desc) (happ : appendFifo cfg a q = .ok a') :
    a'.ListsOk cfg := by
  have hparts := appendFifo_allParts h.parts hq happ
  obtain ⟨hqueue, rfl⟩ := appendFifo_eq_ok.1 happ
  exact ⟨h.resolved, hparts, by simpa using hqueue, h.pending, h.mixedCap⟩

theorem Assembly.ListsOk.reducePending (h : a.ListsOk cfg) (hq : q.Ok a.desc)
    (hred : reducePending cfg a q = .ok a') : a'.ListsOk cfg := by
  have hparts := reducePending_allParts (fun _ _ => reducePart_ok) h.parts hq hred
  obtain ⟨-, hqueue⟩ := appendAllFifo_eq_ok hred
  obtain rfl := reducePending_eq_ok hred
  refine ⟨h.resolved, hparts, hqueue h.fifoCap, fun m hm => ?_, ?_⟩
  · refine ⟨(hparts.2 m hm).two_le (by simpa using (List.mem_filter.1 hm).2), fun i hi => ?_⟩
    obtain ⟨m', hm', rfl⟩ := List.mem_map.1 (List.mem_of_mem_filter hm)
    exact (h.pending m' hm').2 i (reducePart_indexes_subset hi)
  · refine exceeds_of_le ?_ h.mixedCap
    exact (List.length_filter_le _ _).trans (by simp)

/-- Once the pending parts are reduced by a fragment, none names its index. -/
theorem reducePending_forgets {i : Nat} {d : Bytes} (h : a.ListsOk cfg)
    (hred : Machine.reducePending cfg a ⟨[i], d⟩ = .ok a') : ∀ m ∈ a'.mixed, i ∉ m.indexes := by
  intro m hm
  rw [reducePending_eq_ok hred] at hm
  obtain ⟨m', hm', rfl⟩ := List.mem_map.1 (List.mem_of_mem_filter hm)
  exact not_mem_reducePart_singleton (h.parts.2 m' hm').1 (h.pending m' hm').1

theorem Assembly.ListsOk.storeMixed (h : a.ListsOk cfg) (hq : q.Ok a.desc) (hs : q.simple = false)
    (hnew : ∀ i ∈ q.indexes, i ∉ a.resolved) (hstore : storeMixed cfg a q = .ok a') : a'.ListsOk cfg := by
  have hparts := storeMixed_allParts (fun _ _ => reducePart_ok) h.parts hq hstore
  obtain ⟨a1, hred, hcap, rfl⟩ := storeMixed_eq_ok hstore
  have h1 : a1.ListsOk cfg ∧ a1.resolved = a.resolved ∧ a1.desc = a.desc := by
    obtain rfl | hred := hred
    · exact ⟨h, rfl, rfl⟩
    · obtain ⟨hdesc, -, hres⟩ := reducePending_sameFragments hred
      exact ⟨h.reducePending hq hred, hres, hdesc⟩
  obtain ⟨hlists, hres, hdesc⟩ := h1
  refine ⟨hlists.resolved, ?_, hlists.fifoCap, fun m hm => ?_, by simpa using hcap⟩
  · exact hdesc ▸ hparts
  · obtain hm | hm := List.mem_append.1 hm
    · exact hlists.pending m hm
    · rw [List.mem_singleton.1 hm]
      exact ⟨hq.two_le hs, fun i hi => by rw [hres]; exact hnew i hi⟩

theorem Assembly.ListsOk.processMixed (h : a.ListsOk cfg) (hp : p.Ok a.desc)
    (hmixed : processMixed cfg a p = .ok a') : a'.ListsOk cfg := by
  obtain rfl | ⟨q, hleft, hcases⟩ := processMixed_cases hmixed
  · exact h
  have hq : q.Ok a.desc :=
    hleft.keeps (fun _ _ => reducePart_ok) (fun p1 hp1 hne => withoutResolved_ok hp hp1 hne) h.parts
  obtain ⟨-, happ⟩ | ⟨hs, hstore⟩ := hcases
  · exact h.appendFifo hq happ
  · exact h.storeMixed hq hs hleft.not_resolved hstore

theorem Assembly.ListsOk.processSimple {i : Nat} {d : Bytes} {done : Bool} (h : a.ListsOk cfg)
    (hp : IndexedPart.Ok a.desc ⟨[i], d⟩) (hsimple : processSimple cfg a i d = .ok (a', done)) : a'.ListsOk cfg := by
  obtain ⟨-, rfl, -⟩ | ⟨-, a1, b, hred, -, rfl, -⟩ := processSimple_eq_ok hsimple
  · exact h
  obtain ⟨hdesc, -, -⟩ := reducePending_sameFragments hred
  have h1 := h.reducePending hp hred
  have hi : i < a1.desc.sequenceCount := by
    rw [hdesc]
    exact hp.indexSet.2 i (by simp)
  refine ⟨h1.resolved.insertIndex hi, h1.parts, h1.fifoCap, fun m hm => ?_, h1.mixedCap⟩
  obtain ⟨htwo, hnew⟩ := h1.pending m hm
  refine ⟨htwo, fun j hj hres => ?_⟩
  obtain rfl | hres := mem_insertIndex.1 hres
  · exact reducePending_forgets h hred m hm hj
  · exact hnew j hj hres

/-! ### The buffer -/

/-- From `a` to `a'` the description and the buffer's size stay, a resolved index stays resolved, and no fragment is
written but those that become resolved (10_state.md R32 to R34, 44_decoder.md R214 (d)). -/
structure KeepsFragments (a a' : Assembly) : Prop where
  desc : a'.desc = a.desc
  size : a'.buf.length = a.buf.length
  resolved : ∀ i ∈ a.resolved, i ∈ a'.resolved
  fragment : ∀ i, i ∈ a.resolved ∨ i ∉ a'.resolved →
    memRead a'.buf (i * a.desc.fragmentLength) a.desc.fragmentLength =
      memRead a.buf (i * a.desc.fragmentLength) a.desc.fragmentLength

theorem SameFragments.keepsFragments (h : SameFragments a a') : KeepsFragments a a' := by
  obtain ⟨hdesc, hbuf, hres⟩ := h
  exact ⟨hdesc, by rw [hbuf], fun i hi => by rwa [hres], fun i _ => by rw [hbuf]⟩

theorem KeepsFragments.trans {b : Assembly} (h : KeepsFragments a a') (h' : KeepsFragments a' b) :
    KeepsFragments a b := by
  refine ⟨h'.desc.trans h.desc, h'.size.trans h.size, fun i hi => h'.resolved i (h.resolved i hi), fun i hi => ?_⟩
  have hlast := h'.fragment i (hi.imp (h.resolved i) id)
  rw [h.desc] at hlast
  exact hlast.trans (h.fragment i (hi.imp id fun hnot hmid => hnot (h'.resolved i hmid)))

/-- Two different fragments do not overlap. -/
theorem fragments_disjoint {i j : Nat} (hne : j ≠ i) (fl : Nat) : j * fl + fl ≤ i * fl ∨ i * fl + fl ≤ j * fl := by
  rw [← Nat.succ_mul, ← Nat.succ_mul]
  obtain hlt | hlt := Nat.lt_or_gt_of_ne hne
  · exact .inl (Nat.mul_le_mul_right fl hlt)
  · exact .inr (Nat.mul_le_mul_right fl hlt)

/-- What `ProcessSimple` does to the buffer: nothing, or it writes the fragment it resolves. -/
theorem processSimple_buffer {i : Nat} {d : Bytes} {done : Bool} (h : processSimple cfg a i d = .ok (a', done)) :
    SameFragments a a' ∨ (i ∉ a.resolved ∧ a'.desc = a.desc ∧ a'.resolved = insertIndex i a.resolved ∧
      memWrite a.buf (i * a.desc.fragmentLength) d = some a'.buf) := by
  obtain ⟨-, rfl, -⟩ | ⟨hnew, a1, b, hred, hwrite, rfl, -⟩ := processSimple_eq_ok h
  · exact .inl ⟨rfl, rfl, rfl⟩
  · obtain ⟨hdesc, hbuf, hres⟩ := reducePending_sameFragments hred
    rw [hdesc, hbuf] at hwrite
    exact .inr ⟨hnew, hdesc, by rw [hres], hwrite⟩

theorem processSimple_keepsFragments {i : Nat} {d : Bytes} {done : Bool} (hd : d.length = a.desc.fragmentLength)
    (h : processSimple cfg a i d = .ok (a', done)) : KeepsFragments a a' := by
  obtain hsame | ⟨hnew, hdesc, hres, hwrite⟩ := processSimple_buffer h
  · exact hsame.keepsFragments
  refine ⟨hdesc, memWrite_length hwrite, fun j hj => ?_, fun j hj => ?_⟩
  · rw [hres]
    exact mem_insertIndex.2 (.inr hj)
  · have hne : j ≠ i := by
      rintro rfl
      rw [hres] at hj
      exact hj.elim hnew fun hnot => hnot (mem_insertIndex.2 (.inl rfl))
    exact memRead_memWrite_disjoint hwrite (by rw [hd]; exact fragments_disjoint hne _)

/-- The fragment `ProcessSimple` resolves is in the buffer at its place, and the others stay. -/
theorem processSimple_reads {i : Nat} {d : Bytes} {done : Bool} {fl : Nat} {frag : Nat → Bytes}
    (hfl : a.desc.fragmentLength = fl) (hd : d = frag i) (hlen : d.length = fl)
    (hbuf : ∀ j ∈ a.resolved, memRead a.buf (j * fl) fl = some (frag j))
    (h : processSimple cfg a i d = .ok (a', done)) :
    ∀ j ∈ a'.resolved, memRead a'.buf (j * fl) fl = some (frag j) := by
  subst hfl
  have hkeeps := processSimple_keepsFragments hlen h
  intro j hj
  by_cases hold : j ∈ a.resolved
  · rw [hkeeps.fragment j (.inl hold), hbuf j hold]
  obtain ⟨-, -, hres⟩ | ⟨-, -, hres, hwrite⟩ := processSimple_buffer h
  · exact absurd (hres ▸ hj) hold
  obtain rfl : j = i := (mem_insertIndex.1 (hres ▸ hj)).resolve_right hold
  have hsame := memRead_memWrite_same hwrite
  rwa [hlen, hd] at hsame

/-! ### A round -/

/-- A round of a decoder with the invariant writes no fragment but the one it resolves. -/
theorem DrainRound.keepsFragments {done : Bool} (ha : a.Ok cfg) (h : DrainRound cfg a a' done) :
    KeepsFragments a a' := by
  obtain ⟨p, rest, hfifo, hround⟩ := h
  have hpop : KeepsFragments a { a with fifo := rest } := SameFragments.keepsFragments ⟨rfl, rfl, rfl⟩
  refine hpop.trans ?_
  obtain ⟨i, hi, hsimple⟩ | ⟨-, -, hmixed⟩ := hround
  · obtain ⟨hp, -⟩ := ha.listsOk.pop hfifo
    exact processSimple_keepsFragments hp.data_length hsimple
  · exact (processMixed_sameFragments hmixed).keepsFragments

/-- A round keeps the invariant. -/
theorem DrainRound.ok {done : Bool} (ha : a.Ok cfg) (h : DrainRound cfg a a' done) : a'.Ok cfg := by
  have hkeeps := h.keepsFragments ha
  refine ha.of_listsOk hkeeps.desc hkeeps.size ?_
  obtain ⟨p, rest, hfifo, hround⟩ := h
  obtain ⟨hp, hlists⟩ := ha.listsOk.pop hfifo
  obtain ⟨i, hi, hsimple⟩ | ⟨-, -, hmixed⟩ := hround
  · obtain ⟨indexes, d⟩ := p
    obtain rfl : indexes = [i] := hi
    exact hlists.processSimple hp hsimple
  · exact hlists.processMixed hp hmixed

/-- A round ends in a complete decoder, or leaves an index unresolved. -/
theorem DrainRound.resolved_length {done : Bool} (ha : a.Ok cfg) (hopen : a.resolved.length < a.desc.sequenceCount)
    (h : DrainRound cfg a a' done) :
    if done then a'.resolved.length = a'.desc.sequenceCount else a'.resolved.length < a'.desc.sequenceCount := by
  have hle := (h.ok ha).listsOk.resolved.length_le
  obtain ⟨p, rest, -, ⟨i, -, hsimple⟩ | ⟨-, rfl, hmixed⟩⟩ := h
  · obtain ⟨-, rfl, rfl⟩ | ⟨-, a1, b, -, -, rfl, rfl⟩ := processSimple_eq_ok hsimple
    · exact hopen
    · split
      · next hdone => exact beq_iff_eq.1 hdone
      · next hmore => exact lt_of_le_of_ne hle fun heq => hmore (beq_iff_eq.2 heq)
  · obtain ⟨hdesc, -, hres⟩ := processMixed_sameFragments hmixed
    rw [hdesc, hres]
    exact hopen

/-! ### Work left (44_decoder.md R213) -/

/-- The rounds still to come at most: a simple part takes one, a mixed part of the FIFO two, a pending part one. -/
def Assembly.workLeft (a : Assembly) : Nat :=
  (a.fifo.map fun p => if p.simple then 1 else 2).sum + a.mixed.length

theorem workLeft_le_drainBound (a : Assembly) : a.workLeft ≤ drainBound a := by
  have hsum := List.sum_le_card_nsmul (a.fifo.map fun p => if p.simple then 1 else 2) 2 fun n hn => by
    obtain ⟨p, -, rfl⟩ := List.mem_map.1 hn
    split <;> omega
  simp only [List.length_map, smul_eq_mul] at hsum
  unfold Assembly.workLeft drainBound
  omega

theorem workLeft_append_fifo (a : Assembly) (l : List IndexedPart) :
    ({ a with fifo := a.fifo ++ l } : Assembly).workLeft =
      a.workLeft + (l.map fun p => if p.simple then 1 else 2).sum := by
  simp only [Assembly.workLeft, List.map_append, List.sum_append]
  omega

/-- Reducing the pending parts only moves work from one list to the other. -/
theorem reducePending_workLeft (h : reducePending cfg a q = .ok a') : a'.workLeft = a.workLeft := by
  rw [reducePending_eq_ok h]
  set reduced := a.mixed.map fun m => reducePart m q with hreduced
  have hmoved : ((reduced.filter IndexedPart.simple).map fun p => if p.simple then 1 else 2).sum =
      (reduced.filter IndexedPart.simple).length := by
    rw [List.map_congr_left (g := fun _ => 1) fun p hp => if_pos (List.mem_filter.1 hp).2]
    simp
  have hlen : reduced.length = a.mixed.length := by simp [hreduced]
  have hsplit := List.length_eq_length_filter_add (l := reduced) IndexedPart.simple
  simp only [Assembly.workLeft, List.map_append, List.sum_append, hmoved]
  omega

theorem storeMixed_workLeft (h : storeMixed cfg a q = .ok a') : a'.workLeft = a.workLeft + 1 := by
  obtain ⟨a1, hred, -, rfl⟩ := storeMixed_eq_ok h
  have h1 : a1.workLeft = a.workLeft := by
    obtain rfl | hred := hred
    · rfl
    · exact reducePending_workLeft hred
  rw [← h1]
  simp [Assembly.workLeft, Nat.add_assoc]

theorem processSimple_workLeft {i : Nat} {d : Bytes} {done : Bool} (h : processSimple cfg a i d = .ok (a', done)) :
    a'.workLeft = a.workLeft := by
  obtain ⟨-, rfl, -⟩ | ⟨-, a1, b, hred, -, rfl, -⟩ := processSimple_eq_ok h
  · rfl
  · exact (reducePending_workLeft hred : a1.workLeft = a.workLeft)

theorem processMixed_workLeft (h : processMixed cfg a p = .ok a') : a'.workLeft ≤ a.workLeft + 1 := by
  obtain rfl | ⟨q, -, ⟨hs, happ⟩ | ⟨-, hstore⟩⟩ := processMixed_cases h
  · omega
  · obtain ⟨-, rfl⟩ := appendFifo_eq_ok.1 happ
    rw [workLeft_append_fifo]
    simp [hs]
  · exact (storeMixed_workLeft hstore).le

/-- Every round leaves less work. -/
theorem DrainRound.workLeft_lt {done : Bool} (h : DrainRound cfg a a' done) : a'.workLeft < a.workLeft := by
  obtain ⟨p, rest, hfifo, hround⟩ := h
  have hpop : a.workLeft = ({ a with fifo := rest } : Assembly).workLeft + if p.simple then 1 else 2 := by
    simp only [Assembly.workLeft, hfifo, List.map_cons, List.sum_cons]
    omega
  obtain ⟨i, hi, hsimple⟩ | ⟨hs, -, hmixed⟩ := hround
  · rw [hpop, processSimple_workLeft hsimple, if_pos (simple_iff.2 ⟨i, hi⟩)]
    omega
  · have := processMixed_workLeft hmixed
    rw [hpop, hs]
    simp only [Bool.false_eq_true, if_false]
    omega

end

/-! ### The whole loop -/

section
variable {cfg : Cfg} {k : Nat} {a b : Assembly} {done : Bool}

theorem drain_ok (ha : a.Ok cfg) (h : drain cfg k a = .ok (b, done)) : b.Ok cfg :=
  drain_induction (P := Assembly.Ok cfg) (fun _ _ _ ha hround => hround.ok ha) ha h

theorem drain_keepsFragments (ha : a.Ok cfg) (h : drain cfg k a = .ok (b, done)) : KeepsFragments a b := by
  refine (drain_induction (P := fun b => b.Ok cfg ∧ KeepsFragments a b) ?_ ⟨ha, ?_⟩ h).2
  · rintro c c' done ⟨hc, hkeeps⟩ hround
    exact ⟨hround.ok hc, hkeeps.trans (hround.keepsFragments hc)⟩
  · exact SameFragments.keepsFragments ⟨rfl, rfl, rfl⟩

/-- The loop ends in a complete decoder, or with an index unresolved. -/
theorem drain_resolved_length (ha : a.Ok cfg) (hopen : a.resolved.length < a.desc.sequenceCount)
    (h : drain cfg k a = .ok (b, done)) :
    if done then b.resolved.length = b.desc.sequenceCount else b.resolved.length < b.desc.sequenceCount := by
  induction k generalizing a with
  | zero => cases h; exact hopen
  | succ k ih =>
    obtain ⟨-, rfl, rfl⟩ | ⟨hlast, rfl⟩ | ⟨a', hnext, hrest⟩ := drain_succ_cases h
    · exact hopen
    · exact hlast.resolved_length ha hopen
    · exact ih (hnext.ok ha) (hnext.resolved_length ha hopen) hrest

/-- With as many rounds as there is work, a decoder that is not complete has an empty FIFO. -/
theorem drain_fifo_nil (hwork : a.workLeft ≤ k) (h : drain cfg k a = .ok (b, false)) : b.fifo = [] := by
  induction k generalizing a with
  | zero =>
    cases h
    cases hfifo : b.fifo with
    | nil => rfl
    | cons p rest =>
      simp only [Assembly.workLeft, hfifo, List.map_cons, List.sum_cons] at hwork
      split at hwork <;> omega
  | succ k ih =>
    obtain ⟨hnil, rfl, -⟩ | ⟨-, hdone⟩ | ⟨a', hnext, hrest⟩ := drain_succ_cases h
    · exact hnil
    · cases hdone
    · have := hnext.workLeft_lt
      exact ih (by omega) hrest

end

end Sys2Proof.Machine
end

