-- ==== Sys2Proof/Proofs/Receive.lean ====
section
/-! `DEC.RECEIVE` as a whole: it keeps the decoder's invariant, the resolved fragments, and that the decoder holds only
pieces of one message. -/

namespace Sys2Proof.Machine

/-! ### The assembly a part enters -/

theorem Part.invalid_eq_false {p : Part} (h : p.invalid = false) :
    p.sequence ≠ 0 ∧ 1 ≤ p.sequenceCount ∧ 1 ≤ p.data.length ∧ p.data.length ≤ p.messageLength := by
  simp only [Part.invalid, Bool.or_eq_false_iff, beq_eq_false_iff_ne, decide_eq_false_iff_not, not_lt] at h
  obtain ⟨⟨⟨⟨hseq, hcount⟩, -⟩, hdata⟩, hle⟩ := h
  exact ⟨hseq, Nat.one_le_iff_ne_zero.2 hcount, Nat.one_le_iff_ne_zero.2 hdata, hle⟩

/-- Space that is not exceeded is within both bounds (44_decoder.md R202). -/
theorem exceededSpace_eq_none {cfg : Cfg} {need : Nat} (h : exceededSpace cfg need = none) :
    exceeds cfg.msgCap need = false ∧ need ≤ cfg.usize.maxValue := by
  unfold exceededSpace at h
  split at h
  · next hcap => simp [h] at hcap
  · next hcap =>
    split at h
    · cases h
    · next hmax => exact ⟨by simpa using hcap, not_lt.1 hmax⟩

/-- The assembly of a first part: zeros, within the capacities. -/
theorem firstAssembly_eq_ok {cfg : Cfg} {p : Part} {a : Assembly} (h : firstAssembly cfg p = .ok a) :
    exceeds cfg.fragCap p.data.length = false ∧ exceeds cfg.maxFragments p.sequenceCount = false ∧
      exceeds cfg.msgCap (p.data.length * p.sequenceCount) = false ∧
      p.data.length * p.sequenceCount ≤ cfg.usize.maxValue ∧
      a = ⟨p.description, zeroBytes (p.data.length * p.sequenceCount), [], [], []⟩ := by
  simp only [firstAssembly] at h
  split at h
  · cases h
  next hfrag =>
  split at h
  · cases h
  next hcount =>
  split at h
  · cases h
  next hspace =>
  cases h
  obtain ⟨hcap, hmax⟩ := exceededSpace_eq_none hspace
  exact ⟨by simpa using hfrag, by simpa using hcount, hcap, hmax, rfl⟩

theorem exceeds_zero (cap : Option Nat) : exceeds cap 0 = false := by
  cases cap <;> simp

theorem firstAssembly_ok {cfg : Cfg} {p : Part} {a : Assembly} (hvalid : p.invalid = false)
    (hcount : p.sequenceCount < 2 ^ 32) (hlength : p.messageLength < 2 ^ cfg.usize.bits)
    (h : firstAssembly cfg p = .ok a) : a.Ok cfg := by
  obtain ⟨-, hone, hdata, hle⟩ := Part.invalid_eq_false hvalid
  obtain ⟨hfrag, hfragments, hmsg, hmax, rfl⟩ := firstAssembly_eq_ok h
  have hbuf : (zeroBytes (p.data.length * p.sequenceCount)).length = p.data.length * p.sequenceCount := zeroBytes_length _
  exact ⟨hone, hcount, hdata, hle, hlength, hbuf, by rwa [hbuf], by rwa [hbuf], hfrag, hfragments,
    ⟨.nil, nofun⟩, nofun, exceeds_zero _, nofun, exceeds_zero _⟩

section
variable {s t : State} {p : Part} {a : Assembly}

theorem EntersAssembly.sequence_ne_zero (h : EntersAssembly s p a) : p.sequence ≠ 0 :=
  (Part.invalid_eq_false h.valid).1

theorem EntersAssembly.description (h : EntersAssembly s p a) : p.description = a.desc := by
  obtain ⟨-, -, ⟨-, hfirst⟩ | ⟨-, hdesc⟩⟩ := h
  · obtain ⟨-, -, -, -, rfl⟩ := firstAssembly_eq_ok hfirst
    rfl
  · exact hdesc

/-- The decoder that accumulates the assembly a part enters has the invariant. -/
theorem EntersAssembly.ok (hdec : s.dec.Ok s.cfg) (h : EntersAssembly s p a) :
    (Decoder.accumulating a).Ok s.cfg := by
  obtain ⟨hread, hvalid, ⟨-, hfirst⟩ | ⟨hacc, -⟩⟩ := h
  · obtain ⟨hcount, hlength⟩ := partOperand_bounds hread
    have hok := firstAssembly_ok hvalid hcount hlength hfirst
    obtain ⟨-, -, -, -, rfl⟩ := firstAssembly_eq_ok hfirst
    have ⟨hone, _⟩ := hok
    exact ⟨hok, rfl, hone⟩
  · rwa [hacc] at hdec

/-! ### The part in the FIFO -/

/-- A part of the assembly's description whose indices are chosen is well-formed. -/
theorem EntersAssembly.indexed_ok {indexes : List Nat} (h : EntersAssembly s p a)
    (hchoose : choose s.cfg p.sequence a.desc.sequenceCount a.desc.checksum = .ok indexes) :
    IndexedPart.Ok a.desc ⟨indexes, p.data⟩ := by
  obtain ⟨hset, hne⟩ := choose_indexSet h.sequence_ne_zero hchoose
  exact ⟨hset, hne, by rw [← h.description]; rfl⟩

/-- Putting a well-formed part into the FIFO keeps the invariant. -/
theorem Assembly.Ok.appendFifo {cfg : Cfg} {a a1 : Assembly} {q : IndexedPart} (ha : a.Ok cfg) (hq : q.Ok a.desc)
    (h : appendFifo cfg a q = .ok a1) : a1.Ok cfg := by
  obtain ⟨hdesc, hbuf, -⟩ := appendFifo_sameFragments h
  exact ha.of_listsOk hdesc (by rw [hbuf]) (ha.listsOk.appendFifo hq h)

/-- What the decoder becomes after the drain loop has the invariant. -/
theorem drained_ok {cfg : Cfg} {a1 a2 : Assembly} {done : Bool} (h1 : a1.Ok cfg)
    (hopen : a1.resolved.length < a1.desc.sequenceCount) (h : drain cfg (drainBound a1) a1 = .ok (a2, done)) :
    (if done then Decoder.complete a2 else .accumulating a2).Ok cfg := by
  have hlength := drain_resolved_length h1 hopen h
  have h2 := drain_ok h1 h
  cases done with
  | true => exact ⟨h2, hlength⟩
  | false => exact ⟨h2, drain_fifo_nil (workLeft_le_drainBound a1) h, hlength⟩

/-- `DEC.RECEIVE` keeps the decoder's invariant. -/
theorem decReceive_dec_ok (hdec : s.dec.Ok s.cfg) (h : execDecReceive s = .next t) : t.dec.Ok s.cfg := by
  obtain hans | ⟨e, he⟩ | ⟨p, a, -, henters, hcases⟩ := execDecReceive_next_cases h
  · rwa [hans.dec]
  · cases he
    trivial
  have hacc := henters.ok hdec
  obtain ⟨f, -, rfl⟩ | ⟨indexes, a1, a2, done, hchoose, happ, hdrain, rfl⟩ := hcases
  · exact hacc
  · obtain ⟨ha, -, hopen⟩ := hacc
    obtain ⟨hdesc, -, hres⟩ := appendFifo_sameFragments happ
    exact drained_ok (ha.appendFifo (henters.indexed_ok hchoose) happ) (by rwa [hdesc, hres]) hdrain

/-! ### Resolved fragments -/

/-- A part received while accumulating keeps the fragments of the assembly it enters. -/
theorem decReceive_keepsFragments {b : Assembly} (hdec : s.dec.Ok s.cfg) (hs : s.dec = .accumulating a)
    (h : execDecReceive s = .next t) (ht : t.dec = .accumulating b ∨ t.dec = .complete b) : KeepsFragments a b := by
  have hself : KeepsFragments a a := SameFragments.keepsFragments ⟨rfl, rfl, rfl⟩
  obtain hans | ⟨e, he⟩ | ⟨p, a', -, henters, hcases⟩ := execDecReceive_next_cases h
  · rw [hans.dec, hs] at ht
    obtain ht | ht := ht <;> cases ht
    exact hself
  · cases he
    obtain ht | ht := ht <;> cases ht
  have ha' : a' = a := by
    obtain ⟨-, -, ⟨hempty, -⟩ | ⟨hacc, -⟩⟩ := henters
    · rw [hs] at hempty
      cases hempty
    · rw [hs] at hacc
      cases hacc
      rfl
  subst ha'
  obtain ⟨ha, -, -⟩ := henters.ok hdec
  obtain ⟨f, -, rfl⟩ | ⟨indexes, a1, a2, done, hchoose, happ, hdrain, rfl⟩ := hcases
  · obtain ht | ht := ht <;> cases ht
    exact hself
  · have hb : b = a2 := by
      cases done <;> obtain ht | ht := ht <;> cases ht <;> rfl
    subst hb
    exact (appendFifo_sameFragments happ).keepsFragments.trans
      (drain_keepsFragments (ha.appendFifo (henters.indexed_ok hchoose) happ) hdrain)

end

/-- Settles O38: every round of the drain loop writes at most the fragment that it resolves. -/
theorem receiveKeepsResolvedFragments : Obligations.ReceiveKeepsResolvedFragments := by
  rintro s t a b ⟨-, -, hdec⟩ hs h ht
  obtain ⟨hdesc, hsize, hresolved, hfragment⟩ := decReceive_keepsFragments hdec hs h ht
  exact ⟨hdesc, hsize, hresolved, fun i _ hi => hfragment i hi⟩

/-! ### Pieces of one message -/

section
variable {cfg : Cfg} {message : Bytes} {fl : Nat} {a a' : Assembly}

/-- A well-formed part that is the XOR of the message's fragments it names. -/
def IndexedPart.PieceOf (d : MessageDescription) (message : Bytes) (fl : Nat) (p : IndexedPart) : Prop :=
  p.Ok d ∧ p.Consistent message fl

theorem reducePart_pieceOf {d : MessageDescription} {p q : IndexedPart} (hp : p.PieceOf d message fl)
    (hq : q.PieceOf d message fl) : (reducePart p q).PieceOf d message fl := by
  obtain ⟨hpOk, hpc⟩ := hp
  obtain ⟨hqOk, hqc⟩ := hq
  exact ⟨reducePart_ok hpOk hqOk, reducePart_consistent hpOk hqOk hpc hqc⟩

theorem Assembly.Consistent.allParts (ha : a.Ok cfg) (h : a.Consistent cfg message fl) :
    a.AllParts (IndexedPart.PieceOf a.desc message fl) := by
  obtain ⟨-, -, hfifo, hmixed⟩ := h
  obtain ⟨hfifoOk, hmixedOk⟩ := ha.listsOk.parts
  exact ⟨fun p hp => ⟨hfifoOk p hp, hfifo p hp⟩, fun p hp => ⟨hmixedOk p hp, hmixed p hp⟩⟩

/-- A round leaves only pieces of the message. -/
theorem DrainRound.consistent {done : Bool} (ha : a.Ok cfg) (hc : a.Consistent cfg message fl)
    (h : DrainRound cfg a a' done) : a'.Consistent cfg message fl := by
  have hdesc := (h.keepsFragments ha).desc
  obtain ⟨hfifoParts, hmixedParts⟩ := hc.allParts ha
  obtain ⟨hdescribes, hbuf, -, -⟩ := hc
  have hfl : a.desc.fragmentLength = fl := by rw [hdescribes]
  obtain ⟨p, rest, hfifo, hround⟩ := h
  rw [hfifo] at hfifoParts
  obtain ⟨hpOk, hpc⟩ := hfifoParts p (by simp)
  have hparts : ({ a with fifo := rest } : Assembly).AllParts (IndexedPart.PieceOf a.desc message fl) :=
    ⟨fun q hq => hfifoParts q (List.mem_cons_of_mem p hq), hmixedParts⟩
  suffices hnew : a'.AllParts (IndexedPart.PieceOf a.desc message fl) ∧
      ∀ i ∈ a'.resolved, memRead a'.buf (i * fl) fl = some (fragmentOf message fl i) by
    obtain ⟨⟨hfifo', hmixed'⟩, hbuf'⟩ := hnew
    exact ⟨hdesc ▸ hdescribes, hbuf', fun q hq => (hfifo' q hq).2, fun q hq => (hmixed' q hq).2⟩
  obtain ⟨i, hi, hsimple⟩ | ⟨-, -, hmixed⟩ := hround
  · obtain ⟨indexes, d⟩ := p
    obtain rfl : indexes = [i] := hi
    have hd : d = fragmentOf message fl i := by rw [← combineFragments_singleton]; exact hpc
    exact ⟨processSimple_allParts (fun _ _ => reducePart_pieceOf) hparts ⟨hpOk, hpc⟩ hsimple,
      processSimple_reads (a := { a with fifo := rest }) hfl hd (hfl ▸ hpOk.data_length) hbuf hsimple⟩
  · obtain ⟨-, hbuf', hres'⟩ := processMixed_sameFragments hmixed
    rw [hbuf', hres']
    refine ⟨processMixed_allParts (fun _ _ => reducePart_pieceOf) (fun p1 hp1 hne => ?_) hparts hmixed, hbuf⟩
    exact ⟨withoutResolved_ok hpOk hp1 hne, withoutResolved_consistent hfl hbuf hpOk hpc hp1⟩

theorem drain_consistent {k : Nat} {done : Bool} (ha : a.Ok cfg) (hc : a.Consistent cfg message fl)
    (h : drain cfg k a = .ok (a', done)) : a'.Consistent cfg message fl := by
  refine (drain_induction (P := fun b => b.Ok cfg ∧ b.Consistent cfg message fl) ?_ ⟨ha, hc⟩ h).2
  rintro b b' done ⟨hb, hbc⟩ hround
  exact ⟨hround.ok hb, hround.consistent hb hbc⟩

/-- Queueing a piece of the message. -/
theorem Assembly.Consistent.appendFifo {q : IndexedPart} (hc : a.Consistent cfg message fl)
    (hq : q.Consistent message fl) (h : appendFifo cfg a q = .ok a') : a'.Consistent cfg message fl := by
  obtain ⟨hdescribes, hbuf, hfifo, hmixed⟩ := hc
  obtain ⟨hparts, -⟩ := appendFifo_allParts (K := IndexedPart.Consistent message fl) ⟨hfifo, hmixed⟩ hq h
  obtain ⟨-, rfl⟩ := appendFifo_eq_ok.1 h
  exact ⟨hdescribes, hbuf, hparts, hmixed⟩

/-- The record of a part, if the block reads it at all, is read as the part. -/
theorem partOperand_toRecord_eq_some {w : UsizeWidth} {p q : Part} (h : partOperand w p.toRecord = some q) : q = p := by
  simp only [partOperand, Part.toRecord, Part.toRaw] at h
  split at h
  · cases h
    simp
  · cases h

@[simp] theorem streamPart_description (sequence : U32) (indexes : List Nat) :
    (streamPart cfg message fl sequence indexes).description =
      ⟨ceilDiv message.length fl, message.length, cfg.crc32Of message, fl⟩ := by
  simp [streamPart, Part.description]

/-- A part of the message's stream enters an assembly that holds only pieces of the message. -/
theorem EntersAssembly.consistent {s : State} {p : Part} {sequence : U32} {indexes : List Nat}
    (hdec : s.dec.Consistent s.cfg message fl) (hp : p = streamPart s.cfg message fl sequence indexes)
    (h : EntersAssembly s p a) : a.Consistent s.cfg message fl := by
  obtain ⟨-, -, ⟨-, hfirst⟩ | ⟨hacc, -⟩⟩ := h
  · obtain ⟨-, -, -, -, rfl⟩ := firstAssembly_eq_ok hfirst
    exact ⟨by rw [hp]; exact streamPart_description _ _, nofun, nofun, nofun⟩
  · rwa [hacc] at hdec

end

/-- Settles O55: a part of the stream is queued as a piece of the message, and every round of the drain loop leaves
pieces of it. -/
theorem decoderKeepsOneMessage : Obligations.DecoderKeepsOneMessage := by
  rintro s t message fl sequence indexes ⟨-, -, hdec⟩ hc hchoose hopr h
  obtain hans | ⟨e, he⟩ | ⟨p, a, -, henters, hcases⟩ := execDecReceive_next_cases h
  · rwa [hans.dec]
  · cases he
    trivial
  have hp : p = streamPart s.cfg message fl sequence indexes :=
    partOperand_toRecord_eq_some (by rw [← hopr]; exact henters.reads)
  obtain ⟨ha, -, -⟩ := henters.ok hdec
  have hac := henters.consistent hc hp
  have ⟨hdescribes, _⟩ := hac
  obtain ⟨f, -, rfl⟩ | ⟨indexes', a1, a2, done, hchoose', happ, hdrain, rfl⟩ := hcases
  · exact hac
  obtain rfl : indexes' = indexes := by
    rw [hdescribes, hp] at hchoose'
    exact Except.ok.inj (hchoose'.symm.trans hchoose)
  have hpiece : IndexedPart.Consistent message fl ⟨indexes', p.data⟩ := by rw [hp]; rfl
  have ha2 := drain_consistent (ha.appendFifo (henters.indexed_ok hchoose') happ) (hac.appendFifo hpiece happ) hdrain
  cases done <;> exact ha2

end Sys2Proof.Machine
end

