-- ==== Sys2Proof/Proofs/Tables.lean ====
section
/-! The sampler's tables as they are built (41_sampler.md R151) are well-formed under every arithmetic. -/

namespace Sys2Proof.Machine

/-- What holds before every pairing: the open indices are in range and stand once in the two work lists, the small ones have
a weight below 1.0, and the entries of all other indices are closed. -/
structure PairingWork.Ok (cfg : Cfg) (n : Nat) (k : PairingWork) : Prop where
  weights : k.p.length = n
  entries : k.entries.length = n
  nodup : (k.small ++ k.large).Nodup
  range : ∀ i ∈ k.small ++ k.large, i < n
  small : ∀ i ∈ k.small, cfg.ltF (k.weight i) fOne = true
  aliases : ∀ e ∈ k.entries, e.alternative < n
  closed : ∀ i e, k.entries[i]? = some e → i ∉ k.small ++ k.large → cfg.ltF e.prob fOne = true

theorem pairingStart_ok (cfg : Cfg) {p : List F64} (hp : 1 ≤ p.length) : (pairingStart cfg p).Ok cfg p.length where
  weights := rfl
  entries := by simp [pairingStart]
  nodup := by
    refine List.Nodup.append (List.nodup_range.filter _) (List.nodup_range.filter _) fun i hs hl => ?_
    have hlarge := (List.mem_filter.1 hl).2
    rw [(List.mem_filter.1 hs).2] at hlarge
    cases hlarge
  range i hi := by
    obtain hi | hi := List.mem_append.1 hi <;> exact List.mem_range.1 (List.mem_of_mem_filter hi)
  small i hi := (List.mem_filter.1 hi).2
  aliases e he := by
    rw [List.eq_of_mem_replicate he]
    exact hp
  closed i e he hopen := by
    have hi : i < p.length := by
      obtain ⟨hlt, -⟩ := List.getElem?_eq_some_iff.1 he
      simpa [pairingStart] using hlt
    refine absurd ?_ hopen
    by_cases hlt : cfg.ltF (p.getD i fZero) fOne
    · exact List.mem_append.2 (.inl (List.mem_filter.2 ⟨List.mem_range.2 hi, hlt⟩))
    · exact List.mem_append.2 (.inr (List.mem_filter.2 ⟨List.mem_range.2 hi, by simpa using hlt⟩))

section
variable {cfg : Cfg} {n a g : Nat} {k : PairingWork} {small large : List Nat}

/-- A pairing closes `a`: what is open after it is the rest, with `g` on one of the two sides. -/
theorem pairOnce_open (cfg : Cfg) (k : PairingWork) (a g : Nat) (small large : List Nat) :
    ((pairOnce cfg k a g small large).small ++ (pairOnce cfg k a g small large).large).Perm
      (g :: (small ++ large)) := by
  simp only [pairOnce]
  split
  · exact .rfl
  · exact List.perm_middle

/-- A pairing changes the weight of `g` only. -/
theorem pairOnce_weight_ne {i : Nat} (hne : i ≠ g) : (pairOnce cfg k a g small large).weight i = k.weight i := by
  simp only [pairOnce, PairingWork.weight, List.getD_eq_getElem?_getD]
  rw [List.getElem?_set_ne hne.symm]

/-- `g` is put on the small side only if its new weight is below 1.0. -/
theorem pairOnce_small (hg : g < k.p.length) (hnew : g ∉ small)
    (hlt : ∀ i ∈ small, cfg.ltF (k.weight i) fOne = true) {i : Nat} (hi : i ∈ (pairOnce cfg k a g small large).small) :
    cfg.ltF ((pairOnce cfg k a g small large).weight i) fOne = true := by
  by_cases hig : i = g
  · subst hig
    simp only [pairOnce, PairingWork.weight, List.getD_eq_getElem?_getD, List.getElem?_set_self hg,
      Option.getD_some] at hi ⊢
    by_contra hnot
    rw [if_neg hnot] at hi
    exact hnew hi
  · rw [pairOnce_weight_ne hig]
    refine hlt i ?_
    simp only [pairOnce] at hi
    split at hi
    · exact (List.mem_cons.1 hi).resolve_left hig
    · exact hi

theorem pairOnce_ok (h : k.Ok cfg n) (hsmall : k.small = a :: small) (hlarge : k.large = g :: large) :
    (pairOnce cfg k a g small large).Ok cfg n := by
  have hperm := pairOnce_open cfg k a g small large
  obtain ⟨hweights, hentries, hnodup, hrange, hlt, haliases, hclosed⟩ := h
  rw [hsmall, hlarge] at hnodup hrange hclosed
  rw [hsmall] at hlt
  have hopen : ((a :: small) ++ g :: large).Perm (a :: g :: (small ++ large)) := List.perm_middle.cons a
  obtain ⟨-, hnodup'⟩ := List.nodup_cons.1 (hopen.nodup_iff.1 hnodup)
  have hrange' : ∀ i ∈ g :: (small ++ large), i < n := fun i hi =>
    hrange i (hopen.mem_iff.2 (List.mem_cons_of_mem a hi))
  have hg : g < n := hrange' g List.mem_cons_self
  refine ⟨by simp [pairOnce, hweights], by simp [pairOnce, hentries], hperm.nodup_iff.2 hnodup',
    fun i hi => hrange' i (hperm.mem_iff.1 hi), fun i hi => ?_, fun e he => ?_, fun i e he hi => ?_⟩
  · exact pairOnce_small (hweights ▸ hg) (fun hgs => (List.nodup_cons.1 hnodup').1 (List.mem_append.2 (.inl hgs)))
      (fun j hj => hlt j (List.mem_cons_of_mem a hj)) hi
  · obtain he | rfl := List.mem_or_eq_of_mem_set he
    · exact haliases e he
    · exact hg
  · simp only [pairOnce] at he
    by_cases hia : i = a
    · subst hia
      have hi' : i < k.entries.length := by
        simpa using (List.getElem?_eq_some_iff.1 he).1
      rw [List.getElem?_set_self hi'] at he
      cases he
      exact hlt i List.mem_cons_self
    · rw [List.getElem?_set_ne (Ne.symm hia)] at he
      refine hclosed i e he fun hmem => hi (hperm.mem_iff.2 ?_)
      exact (List.mem_cons.1 (hopen.mem_iff.1 hmem)).resolve_left hia

theorem pairingLoop_ok {rounds : Nat} (h : k.Ok cfg n) : (pairingLoop cfg rounds k).Ok cfg n := by
  induction rounds generalizing k with
  | zero => exact h
  | succ rounds ih =>
    rw [pairingLoop]
    split
    · next hsmall hlarge => exact ih (pairOnce_ok h hsmall hlarge)
    · exact h

end

/-! ### The indices that stay open get the probability 1.0 -/

theorem fillOnes_length (entries : List AliasEntry) (l : List Nat) : (fillOnes entries l).length = entries.length :=
  List.foldlRecOn (motive := fun es : List AliasEntry => es.length = entries.length) l _ rfl fun es hes i _ => by
    rw [List.length_modify, hes]

/-- An entry after the fill: the probability is 1.0, or, outside the list, as it was; the rest stays. -/
theorem fillOnes_getElem? {entries : List AliasEntry} {l : List Nat} {i : Nat} {e : AliasEntry}
    (h : (fillOnes entries l)[i]? = some e) :
    ∃ e0, entries[i]? = some e0 ∧ e.alternative = e0.alternative ∧
      (e.prob = fOne ∨ (i ∉ l ∧ e.prob = e0.prob)) := by
  induction l generalizing entries with
  | nil => exact ⟨e, h, rfl, .inr ⟨by simp, rfl⟩⟩
  | cons j rest ih =>
    obtain ⟨e1, he1, halias, hprob⟩ := ih (entries := entries.modify j fun e => { e with prob := fOne }) h
    rw [List.getElem?_modify] at he1
    obtain ⟨e0, he0, rfl⟩ := Option.map_eq_some_iff.1 he1
    refine ⟨e0, he0, ?_, ?_⟩
    · rw [halias]
      split <;> rfl
    · by_cases hji : j = i
      · simp only [hji, if_true] at hprob
        exact .inl (hprob.elim id fun hsame => hsame.2)
      · simp only [hji, if_false] at hprob
        exact hprob.imp id fun ⟨hi, hsame⟩ => ⟨by simp [hi, Ne.symm hji], hsame⟩

/-- The tables of a non-empty list: as many entries, aliases in range, probabilities below 1.0 or 1.0. -/
theorem aliasTables_entries (cfg : Cfg) {p : List F64} (hp : 1 ≤ p.length) :
    (aliasTables cfg p).n = p.length ∧ ∀ e ∈ (aliasTables cfg p).entries,
      e.alternative < p.length ∧ (cfg.ltF e.prob fOne = true ∨ e.prob = fOne) := by
  have hk := pairingLoop_ok (rounds := p.length) (pairingStart_ok cfg hp)
  refine ⟨by simp [aliasTables, AliasTables.n, fillOnes_length, hk.entries], fun e he => ?_⟩
  obtain ⟨i, hi⟩ := List.mem_iff_getElem?.1 he
  obtain ⟨e1, he1, halias1, hprob1⟩ := fillOnes_getElem? hi
  obtain ⟨e0, he0, halias0, hprob0⟩ := fillOnes_getElem? he1
  refine ⟨by rw [halias1, halias0]; exact hk.aliases e0 (List.mem_of_getElem? he0), ?_⟩
  obtain hone | ⟨hsmall, hsame1⟩ := hprob1
  · exact .inr hone
  obtain hone | ⟨hlarge, hsame0⟩ := hprob0
  · exact .inr (hsame1.trans hone)
  · rw [hsame1, hsame0]
    exact .inl (hk.closed i e0 he0 fun hopen => (List.mem_append.1 hopen).elim hsmall hlarge)

/-- Built tables are well-formed under the capacity they are built under. -/
theorem buildTables_ok {cfg : Cfg} {ws : List F64} {t : AliasTables} (h : buildTables cfg cfg.smpCap ws = .ok t) :
    t.Ok cfg := by
  unfold buildTables at h
  split at h
  · cases h
  next hne =>
  split at h
  · cases h
  next hcap =>
  split at h
  · cases h
  split at h
  · cases h
  split at h
  · cases h
  next hu64 =>
  cases h
  have hlen : (scaledWeights cfg ws).length = ws.length := by simp [scaledWeights]
  obtain ⟨hn, hentries⟩ := aliasTables_entries cfg (p := scaledWeights cfg ws) (by omega)
  rw [hlen] at hn hentries
  unfold AliasTables.Ok
  rw [hn]
  exact ⟨by omega, by omega, by simpa using hcap, hentries⟩

end Sys2Proof.Machine
end

