-- ==== Sys2Proof/Proofs/Invariant.lean ====
section
/-! Every step keeps the invariant of the block: the tables by `buildTables_ok`, the decoder by `decReceive_dec_ok`, the
encoder as below. -/

namespace Sys2Proof.Machine

/-! ### The encoder -/

/-- The fragment length of `ENC.START` is at least one byte and no longer than the message (43_encoder.md R180). -/
theorem fragmentLengthFor_bounds {l m : Nat} (hl : 1 ≤ l) (hm : 1 ≤ m) :
    1 ≤ fragmentLengthFor l m ∧ fragmentLengthFor l m ≤ l := by
  have hcount := one_le_ceilDiv hm hl
  exact ⟨one_le_ceilDiv hcount hl, (ceilDiv_le_iff hcount).2 (Nat.le_mul_of_pos_right l hcount)⟩

theorem startedEncoder_ok {cfg : Cfg} {message : Bytes} {m : Nat} (hl : 1 ≤ message.length) (hm : 1 ≤ m)
    (husize : message.length < 2 ^ cfg.usize.bits)
    (hfrag : exceeds cfg.fragCap (startedEncoder cfg message m).fragmentLength = false)
    (hfragments : exceeds cfg.maxFragments (startedEncoder cfg message m).sequenceCount = false)
    (hcount : (startedEncoder cfg message m).sequenceCount ≤ 2 ^ 32 - 1) : (startedEncoder cfg message m).Ok cfg := by
  obtain ⟨hone, hle⟩ := fragmentLengthFor_bounds hl hm
  exact ⟨hl, husize, hone, hle, hcount, hfrag, hfragments, rfl, nofun, fun _ => one_le_ceilDiv hone hl⟩

/-- Only the counter, the flag and the scratch buffer of an encoder ever change; these are the conditions on them. -/
theorem Encoder.Ok.of_same_message {cfg : Cfg} {e e' : Encoder} (h : e.Ok cfg) (hmessage : e'.message = e.message)
    (hfl : e'.fragmentLength = e.fragmentLength) (hchecksum : e'.checksum = e.checksum)
    (hscratch : ∀ b, e'.scratch = some b → b.length = e.fragmentLength)
    (hflag : e'.allEmitted = false → e'.currentSequence.toNat < e.sequenceCount) : e'.Ok cfg := by
  obtain ⟨h1, h2, h3, h4, h5, h6, h7, h8, -, -⟩ := h
  unfold Encoder.Ok Encoder.sequenceCount Encoder.messageLength
  rw [hmessage, hfl, hchecksum]
  exact ⟨h1, h2, h3, h4, h5, h6, h7, h8, hscratch, hflag⟩

/-- While fragments are still to come the counter does not wrap. -/
theorem advance_toNat_le {cfg : Cfg} {e : Encoder} (h : e.Ok cfg) (hflag : e.allEmitted = false) :
    e.advance.currentSequence.toNat = e.currentSequence.toNat + 1 ∧
      e.advance.currentSequence.toNat ≤ e.sequenceCount := by
  obtain ⟨-, -, -, -, hcount, -, -, -, -, hopen⟩ := h
  have hlt := hopen hflag
  have hadd : e.advance.currentSequence.toNat = e.currentSequence.toNat + 1 := by
    have hadd : e.advance.currentSequence.toNat = (e.currentSequence.toNat + 1) % 2 ^ 32 := BitVec.toNat_add _ _
    rw [hadd, Nat.mod_eq_of_lt (by omega)]
  exact ⟨hadd, by omega⟩

theorem Encoder.Ok.scratch_length {cfg : Cfg} {e : Encoder} (h : e.Ok cfg) :
    ∀ b, e.scratch = some b → b.length = e.fragmentLength := by
  obtain ⟨-, -, -, -, -, -, -, -, hscratch, -⟩ := h
  exact hscratch

/-- An encoder that advanced and stopped at a fault: no fault stops it at the last fragment. -/
theorem advance_ok {cfg : Cfg} {e : Encoder} (h : e.Ok cfg)
    (hlast : e.advance.currentSequence.toNat ≠ e.sequenceCount ∨ e.allEmitted = true) : e.advance.Ok cfg := by
  refine h.of_same_message rfl rfl rfl h.scratch_length fun hflag => ?_
  have hle := (advance_toNat_le h hflag).2
  have hne := hlast.resolve_right (by rw [show e.allEmitted = false from hflag]; exact Bool.false_ne_true)
  omega

/-- An encoder that advanced and emitted a part. -/
theorem advance_emit_ok {cfg : Cfg} {e : Encoder} (h : e.Ok cfg) (indexes : List Nat) :
    (e.advance.emit indexes).Ok cfg := by
  refine h.of_same_message rfl rfl rfl ?_ fun hflag => ?_
  · rintro b ⟨⟩
    exact combineFragments_length indexes
  · simp only [Encoder.emit, Bool.or_eq_false_iff, decide_eq_false_iff_not] at hflag
    obtain ⟨hold, hne⟩ := hflag
    have hle := (advance_toNat_le h hold).2
    exact lt_of_le_of_ne hle hne

section
variable {s t : State}

theorem encStart_enc_ok {e : Encoder} (henc : ∀ e, s.enc = some e → e.Ok s.cfg) (h : execEncStart s = .next t)
    (ht : t.enc = some e) : e.Ok s.cfg := by
  obtain hans | ⟨o, e', -, -, hl, hm, husize, rfl, hfrag, hfragments, hcount, rfl⟩ := execEncStart_next_cases h
  · exact henc e (hans.enc ▸ ht)
  · cases ht
    exact startedEncoder_ok hl hm husize hfrag hfragments hcount

theorem encNextPart_enc_ok {e : Encoder} (henc : ∀ e, s.enc = some e → e.Ok s.cfg) (h : execEncNextPart s = .next t)
    (ht : t.enc = some e) : e.Ok s.cfg := by
  obtain hans | ⟨e0, -, he0, hcases⟩ := execEncNextPart_next_cases h
  · exact henc e (hans.enc ▸ ht)
  have hok := henc e0 he0
  obtain ⟨hwrap, rfl⟩ | ⟨f, hfault, rfl⟩ | ⟨indexes, -, rfl⟩ := hcases <;> cases ht
  · refine advance_ok hok (.inr ?_)
    by_contra hflag
    have hadd := (advance_toNat_le hok (Bool.eq_false_iff.2 hflag)).1
    simp [hwrap] at hadd
  · refine advance_ok hok (.inl fun heq => ?_)
    rw [choose_of_le (by exact heq.le)] at hfault
    cases hfault
  · exact advance_emit_ok hok indexes

/-! ### Every operation, every step -/

/-- The invariant looks at the deployment and three units only. -/
theorem State.Inv.of_units (h : s.Inv) (hcfg : t.cfg = s.cfg) (hsmp : t.smp = s.smp) (henc : t.enc = s.enc)
    (hdec : t.dec = s.dec) : t.Inv := by
  unfold State.Inv
  rwa [hcfg, hsmp, henc, hdec]

theorem exec_smp_ok {i : Instr} {tables : AliasTables} (hinv : s.Inv) (h : exec i s = .next t)
    (ht : t.smp = some tables) : tables.Ok s.cfg := by
  obtain ⟨hsmp, -, -⟩ := hinv
  obtain hsame | hi := (exec_onlyWrites h).smp
  · exact hsmp tables (hsame ▸ ht)
  fin_cases hi
  · cases h
    cases ht
  · obtain hans | ⟨ws, tables', -, -, hbuild, rfl⟩ := execSmpSetup_next_cases h
    · exact hsmp tables (hans.smp ▸ ht)
    · cases ht
      exact buildTables_ok hbuild

theorem exec_enc_ok {i : Instr} {e : Encoder} (hinv : s.Inv) (h : exec i s = .next t) (ht : t.enc = some e) :
    e.Ok s.cfg := by
  obtain ⟨-, henc, -⟩ := hinv
  obtain hsame | hi := (exec_onlyWrites h).enc
  · exact henc e (hsame ▸ ht)
  fin_cases hi
  · cases h
    cases ht
  · exact encStart_enc_ok henc h ht
  · exact encNextPart_enc_ok henc h ht

theorem exec_dec_ok {i : Instr} (hinv : s.Inv) (h : exec i s = .next t) : t.dec.Ok s.cfg := by
  obtain ⟨-, -, hdec⟩ := hinv
  obtain hsame | hi := (exec_onlyWrites h).dec
  · rwa [hsame]
  fin_cases hi
  · cases h
    trivial
  · exact decReceive_dec_ok hdec h
  · obtain hans | ⟨_, -, -, hclear⟩ := execute_answers_or_runs h
    · rwa [hans.dec]
    · cases hclear
      trivial

/-- Every operation keeps the invariant. -/
theorem exec_inv {i : Instr} (hinv : s.Inv) (h : exec i s = .next t) : t.Inv := by
  unfold State.Inv
  rw [(exec_onlyWrites h).cfg]
  exact ⟨fun _ ht => exec_smp_ok hinv h ht, fun _ ht => exec_enc_ok hinv h ht, exec_dec_ok hinv h⟩

theorem rejectCommand_onlyAnswers (h : rejectCommand s = .next t) : OnlyAnswers s t := by
  unfold rejectCommand at h
  split at h <;> cases h
  · exact .reply _
  · next hf => exact .raise hf _

end

/-- Settles O53: a step holds the state, runs an operation, or refuses a command word. -/
theorem stepKeepsInvariant : Obligations.StepKeepsInvariant := by
  intro s t hinv h
  cases hissue : s.issue with
  | nil =>
    rw [step_of_idle hissue] at h
    cases h
    exact hinv
  | cons r rest =>
    have hpresent : (s.present r.operands rest).Inv := hinv.of_units rfl rfl rfl rfl
    cases hd : decode r.cmd with
    | ok i =>
      rw [step_of_decode hissue hd] at h
      exact exec_inv hpresent h
    | error e =>
      rw [step_of_reject hissue hd] at h
      have hans := rejectCommand_onlyAnswers h
      exact hpresent.of_units hans.cfg hans.smp hans.enc hans.dec

end Sys2Proof.Machine
end

