-- ==== Sys2Proof/Proofs/Reads.lean ====
section
/-! The operations that only read (20_memory.md R71): they write no unit and no operation reads the result record back, so
their second issue meets the state the first one met, or the fault the first one raised. -/

namespace Sys2Proof.Machine

/-- The operations of 20_memory.md R71 that only read. -/
def readingOperations : List Instr :=
  [.decMessage, .decIsComplete, .decPercent, .encSeqCount, .encIsComplete, .sysStatus, .chsChoose,
    .bwdEncodeStandard, .bwdEncodeUri, .bwdEncodeMinimal, .bwdDecodeStandard, .bwdDecodeUri, .bwdDecodeMinimal]

section
variable {i : Instr} {s t : State}

/-- What only a list of writers may change stays, where no reading operation is in the list. -/
theorem unchanged_of_reading {unchanged : Prop} {writers : List Instr} (hi : i ∈ readingOperations)
    (hdisjoint : ∀ j ∈ readingOperations, j ∉ writers) (h : unchanged ∨ i ∈ writers) : unchanged :=
  h.resolve_right (hdisjoint i hi)

/-- A reading operation stands in no unit's column "written by" of 10_state.md R20. -/
theorem OnlyWrites.onlyAnswers_of_reading (hi : i ∈ readingOperations) (h : OnlyWrites i s t) : OnlyAnswers s t := by
  obtain ⟨hcfg, hopr, hissue, hres, hprng, hsmp, henc, hdec, hfault, hfree⟩ := h
  replace hprng := unchanged_of_reading hi (by decide) hprng
  replace hsmp := unchanged_of_reading hi (by decide) hsmp
  replace henc := unchanged_of_reading hi (by decide) henc
  replace hdec := unchanged_of_reading hi (by decide) hdec
  replace hfree := hfree.resolve_right (ne_of_mem_of_not_mem hi (by decide))
  replace hfault := hfault.imp_right fun hr => hr.resolve_left (ne_of_mem_of_not_mem hi (by decide))
  cases s
  cases t
  dsimp only at hcfg hopr hissue hprng hsmp henc hdec hfree hfault hres
  subst hcfg hopr hissue hprng hsmp henc hdec hfree
  obtain rfl | ⟨rfl, f, rfl, rfl⟩ := hfault
  · obtain ⟨r, rfl⟩ := Option.ne_none_iff_exists'.1 hres
    exact .reply r
  · exact .raise rfl f

/-- A reading operation depends on no result delivered before it. -/
theorem exec_reply_of_reading (hi : i ∈ readingOperations) (s : State) (r : Reply) : exec i (s.reply r) = exec i s := by
  fin_cases hi <;> rfl

/-- An operation behind the gate answers the fault just raised, which is already the result. -/
theorem exec_raise (hf : s.sysFault = none) (f : FaultCode) (hr : i ≠ .sysReset) (hs : i ≠ .sysStatus) :
    exec i (s.raise f) = .next (s.raise f) :=
  exec_of_held (by simp [hf]) hr hs

/-- `SYS.STATUS` raises no fault: it leaves the register as it is (46_system.md R261, line 1). -/
theorem exec_sysStatus_ne_raise (hf : s.sysFault = none) (f : FaultCode) : exec .sysStatus s ≠ .next (s.raise f) := by
  intro h
  have hreply : s.reply (.ok (.status s.statusRecord)) = s.raise f := Host.Outcome.next.inj h
  have hheld := congrArg State.sysFault hreply
  simp [hf] at hheld

end

/-- Settles O51: the second issue of a reading operation meets the units of the first, or the fault it raised. -/
theorem readsAreIdempotent : Obligations.ReadsAreIdempotent := by
  intro s t i (hi : i ∈ readingOperations) h
  obtain ⟨r, rfl⟩ | ⟨hf, f, rfl⟩ := (exec_onlyWrites h).onlyAnswers_of_reading hi
  · rw [exec_reply_of_reading hi, h]
  · have hreset : i ≠ .sysReset := ne_of_mem_of_not_mem hi (by decide)
    have hstatus : i ≠ .sysStatus := by
      rintro rfl
      exact exec_sysStatus_ne_raise hf f h
    exact exec_raise hf f hreset hstatus

end Sys2Proof.Machine
end

