-- ==== Sys2Proof/Proofs/CommandWords.lean ====
section
/-! The command word (30_encoding.md R90, R91, R94): decoder and encoder are inverse, so the words that do not decode are
those of no operation; and what a command that is none, or whose record is ill-typed, does to a ready block. -/

namespace Sys2Proof

/-! ### Decoder and encoder are inverse -/

theorem commandWord_unitField_functionField (w : Byte) : commandWord (unitField w) (functionField w) = w := by
  refine BitVec.eq_of_getLsbD_eq fun k hk => ?_
  simp only [commandWord, unitField, functionField, BitVec.getLsbD_append, BitVec.getLsbD_extractLsb']
  split
  · next hlow => simp [hlow]
  · next hhigh => simp [show k - 4 < 4 by omega, show 4 + (k - 4) = k by omega]

/-- The function field of the bytewords unit is 0, direction, style (30_encoding.md R90). -/
theorem functionField_eq_append (w : Byte) : functionField w =
    BitVec.ofBool (w.getLsbD 3) ++ BitVec.ofBool (directionField w) ++ BitVec.ofNat 2 (styleField w).toNat := by
  refine BitVec.eq_of_getLsbD_eq fun k hk => ?_
  simp only [functionField, directionField, styleField, BitVec.getLsbD_append, BitVec.getLsbD_extractLsb',
    BitVec.ofNat_toNat, BitVec.setWidth_eq]
  interval_cases k <;> simp

theorem decode_encode (i : Instr) : decode (encode i) = .ok i := by
  cases i <;> rfl

/-- An operation of units 0 to 5 has the fields it was decoded from. -/
theorem encode_of_decodePlain {unit fn : Nat} {i : Instr} (h : decodePlain unit fn = .ok i) :
    encode i = commandWord (BitVec.ofNat 4 unit) (BitVec.ofNat 4 fn) := by
  unfold decodePlain at h
  split at h <;> cases h <;> rfl

/-- An operation of unit 6 has the function field it was decoded from. -/
theorem encode_of_decodeBytewords {w : Byte} {i : Instr} (h : decodeBytewords w = .ok i) :
    encode i = commandWord 6 (functionField w) := by
  rw [functionField_eq_append]
  unfold decodeBytewords at h
  split at h
  · cases h
  next hbit =>
    rw [Bool.eq_false_iff.2 hbit]
    split at h <;> cases h
    all_goals
      next hdir hstyle =>
        rw [hdir, hstyle]
        rfl

theorem encode_of_decode {w : Byte} {i : Instr} (h : decode w = .ok i) : encode i = w := by
  unfold decode at h
  dsimp only at h
  split at h
  · rw [encode_of_decodePlain h, BitVec.ofNat_toNat, BitVec.ofNat_toNat, BitVec.setWidth_eq, BitVec.setWidth_eq,
      commandWord_unitField_functionField]
  split at h
  · next hunit =>
    have hunit : unitField w = 6 := BitVec.eq_of_toNat_eq hunit
    rw [encode_of_decodeBytewords h, ← hunit, commandWord_unitField_functionField]
  · cases h

theorem decode_eq_ok_iff {w : Byte} {i : Instr} : decode w = .ok i ↔ encode i = w := by
  constructor
  · exact encode_of_decode
  · rintro rfl
    exact decode_encode i

/-! ### Illegal command words -/

theorem decode_rejects_iff {w : Byte} : (∃ e, decode w = .error e) ↔ ∀ i, encode i ≠ w := by
  cases hd : decode w with
  | ok i => exact iff_of_false (by simp) fun h => h i (decode_eq_ok_iff.1 hd)
  | error e =>
    refine iff_of_true ⟨e, rfl⟩ fun i hi => ?_
    rw [decode_eq_ok_iff.2 hi] at hd
    cases hd

/-- The first and the last assigned word of each unit, of each direction in unit 6 (30_encoding.md R91). -/
theorem exists_encode_eq_iff {w : Byte} : (∃ i, encode i = w) ↔
    w.toNat ≤ 0x01 ∨ (0x10 ≤ w.toNat ∧ w.toNat ≤ 0x15) ∨ (0x20 ≤ w.toNat ∧ w.toNat ≤ 0x21) ∨
      (0x30 ≤ w.toNat ∧ w.toNat ≤ 0x30) ∨ (0x40 ≤ w.toNat ∧ w.toNat ≤ 0x43) ∨ (0x50 ≤ w.toNat ∧ w.toNat ≤ 0x54) ∨
      (0x60 ≤ w.toNat ∧ w.toNat ≤ 0x62) ∨ (0x64 ≤ w.toNat ∧ w.toNat ≤ 0x66) := by
  constructor
  · rintro ⟨i, rfl⟩
    cases i <;> decide
  · intro h
    rw [← BitVec.setWidth_eq w, ← BitVec.ofNat_toNat]
    generalize w.toNat = n at h ⊢
    obtain h | ⟨hlow, hhigh⟩ | ⟨hlow, hhigh⟩ | ⟨hlow, hhigh⟩ | ⟨hlow, hhigh⟩ | ⟨hlow, hhigh⟩ | ⟨hlow, hhigh⟩ |
      ⟨hlow, hhigh⟩ := h
    all_goals interval_cases n <;> exact ⟨_, encode_of_decode rfl⟩

/-- The illegal command words, as 30_encoding.md R94 lists them. -/
theorem decode_rejects_iff_ranges (w : Byte) : (∃ e, decode w = .error e) ↔
    (0x02 ≤ w.toNat ∧ w.toNat ≤ 0x0F) ∨ (0x16 ≤ w.toNat ∧ w.toNat ≤ 0x1F) ∨ (0x22 ≤ w.toNat ∧ w.toNat ≤ 0x2F) ∨
      (0x31 ≤ w.toNat ∧ w.toNat ≤ 0x3F) ∨ (0x44 ≤ w.toNat ∧ w.toNat ≤ 0x4F) ∨ (0x55 ≤ w.toNat ∧ w.toNat ≤ 0x5F) ∨
      w.toNat = 0x63 ∨ w.toNat = 0x67 ∨ (0x68 ≤ w.toNat ∧ w.toNat ≤ 0x6F) ∨ 0x70 ≤ w.toNat := by
  rw [decode_rejects_iff, ← not_exists, exists_encode_eq_iff]
  omega

end Sys2Proof

namespace Sys2Proof.Machine

theorem rejectCommand_of_none {s : State} (hf : s.sysFault = none) :
    rejectCommand s = .next (s.raise .illegalCommand) := by
  simp [rejectCommand, hf]

/-- A ready block that takes an illegal command word raises `IllegalCommand` (46_system.md R261, line 3). -/
theorem step_of_reject_ready {s : State} {r : Request} {rest : List Request} {e : DecodeReject}
    (hf : s.sysFault = none) (hissue : s.issue = r :: rest) (hd : decode r.cmd = .error e) :
    step s = .next ((s.present r.operands rest).raise .illegalCommand) := by
  exact (step_of_reject hissue hd).trans (rejectCommand_of_none hf)

/-! ### Ill-typed records -/

theorem choiceOperands_typed {w : UsizeWidth} {r : OperandRecord} {o : ChoiceOperands}
    (h : choiceOperands w r = some o) : r.wellFormedFor w .chsChoose = true := by
  cases r with
  | choice sequence count checksum =>
    simp only [choiceOperands] at h
    split at h
    · next hfits => simpa [OperandRecord.wellFormedFor, and_assoc] using hfits
    · cases h
  | _ => cases h

theorem partOperand_typed {w : UsizeWidth} {r : OperandRecord} {p : Part} (h : partOperand w r = some p) :
    r.wellFormedFor w .decReceive = true := by
  cases r with
  | part p =>
    simp only [partOperand] at h
    split at h
    · next hfits => simpa [OperandRecord.wellFormedFor, RawPart.wellFormed, and_assoc] using hfits
    · cases h
  | _ => cases h

/-- The reader of an operation behind the gate accepts only records with the operation's operand types. -/
theorem exec_gated_typed (i : Instr) (s : State) (hr : i ≠ .sysReset) (hs : i ≠ .sysStatus) :
    ∃ (α : Type) (o : Option α) (rule : α → StepOutcome), exec i s = execute s o rule ∧
      ∀ a, o = some a → s.opr.wellFormedFor s.cfg.usize i = true := by
  cases i with
  | sysReset => exact absurd rfl hr
  | sysStatus => exact absurd rfl hs
  | prngNext | prngNextDouble | smpNext | encNextPart | encSeqCount | encIsComplete | decMessage | decIsComplete
  | decPercent | decClear =>
    refine ⟨_, noOperands s.opr, _, rfl, fun _ ho => ?_⟩
    rw [noOperands_eq_some.1 ho]
    rfl
  | prngSeedBytes | prngSeedStr =>
    refine ⟨_, seedOperand s.opr, _, rfl, fun _ ho => ?_⟩
    rw [seedOperand_eq_some.1 ho]
    rfl
  | prngSeedDigest =>
    refine ⟨_, digestOperand s.opr, _, rfl, fun _ ho => ?_⟩
    obtain ⟨hopr, hlen⟩ := digestOperand_eq_some.1 ho
    simp [hopr, OperandRecord.wellFormedFor, hlen]
  | prngNextInt =>
    refine ⟨_, rangeOperands s.opr, _, rfl, fun _ ho => ?_⟩
    obtain ⟨hopr, hfits⟩ := rangeOperands_eq_some.1 ho
    simpa [hopr, OperandRecord.wellFormedFor] using hfits
  | smpSetup =>
    refine ⟨_, weightsOperand s.opr, _, rfl, fun _ ho => ?_⟩
    rw [weightsOperand_eq_some.1 ho]
    rfl
  | chsChoose => exact ⟨_, choiceOperands s.cfg.usize s.opr, _, rfl, fun _ => choiceOperands_typed⟩
  | encStart =>
    refine ⟨_, startOperands s.cfg.usize s.opr, _, rfl, fun _ ho => ?_⟩
    obtain ⟨hopr, hfits⟩ := startOperands_eq_some.1 ho
    simpa [hopr, OperandRecord.wellFormedFor] using hfits
  | decReceive => exact ⟨_, partOperand s.cfg.usize s.opr, _, rfl, fun _ => partOperand_typed⟩
  | bwdEncodeStandard | bwdEncodeUri | bwdEncodeMinimal =>
    refine ⟨_, payloadOperand s.opr, _, rfl, fun _ ho => ?_⟩
    rw [payloadOperand_eq_some.1 ho]
    rfl
  | bwdDecodeStandard | bwdDecodeUri | bwdDecodeMinimal =>
    refine ⟨_, textOperand s.opr, _, rfl, fun _ ho => ?_⟩
    rw [textOperand_eq_some.1 ho]
    rfl

/-- On a ready block an operation whose record is ill-typed raises `IllegalCommand` (46_system.md R261, line 3). -/
theorem exec_of_illTyped {s : State} {i : Instr} (hf : s.sysFault = none) (hr : i ≠ .sysReset) (hs : i ≠ .sysStatus)
    (hill : s.opr.wellFormedFor s.cfg.usize i = false) : exec i s = .next (s.raise .illegalCommand) := by
  obtain ⟨α, o, rule, hexec, htyped⟩ := exec_gated_typed i s hr hs
  have ho : o = none := Option.eq_none_iff_forall_ne_some.2 fun a ha => by simp [htyped a ha] at hill
  rw [hexec, ho, execute_of_none rule hf]

/-! ### The obligations on command words -/

/-- Settles O1: decoder and encoder are inverse, and one word of each unit. -/
theorem commandWordsRoundTrip : Obligations.CommandWordsRoundTrip :=
  ⟨decode_encode, fun _ _ => encode_of_decode, rfl, rfl, rfl, rfl, rfl, rfl, rfl, rfl⟩

/-- Settles O2: the illegal words by range, and the one fault both kinds of illegal command raise. -/
theorem illegalCommandsRaise : Obligations.IllegalCommandsRaise := by
  refine ⟨decode_rejects_iff_ranges, ?_, ?_⟩
  · intro s r rest e hf hissue hd
    rw [step_of_reject_ready hf hissue hd, (s.present r.operands rest).raise_of_none _ hf]
    rfl
  · intro s i hf hr hs hill
    rw [exec_of_illTyped hf hr hs hill, s.raise_of_none _ hf]

end Sys2Proof.Machine
end

