-- ==== Sys2Proof/Proofs/EncodedTexts.lean ====
section
/-! The text of a payload in a style (45_bytewords.md R241): how many bytes it has and which, for word tables with the
properties of 30_encoding.md R112. -/

namespace Sys2Proof.Machine

/-! ### Words of one length with a separator between them -/

theorem length_intercalate_add_one {sep : Byte} {n : Nat} {words : List Bytes} (hne : words ≠ [])
    (hn : ∀ w ∈ words, w.length = n) : (List.intercalate [sep] words).length + 1 = (n + 1) * words.length := by
  induction words with
  | nil => exact absurd rfl hne
  | cons w rest ih =>
    obtain ⟨hw, hrest⟩ := List.forall_mem_cons.1 hn
    cases rest with
    | nil => simp [hw]
    | cons v rest =>
      have ih := ih (List.cons_ne_nil _ _) hrest
      rw [List.intercalate_cons_cons, List.length_cons, Nat.mul_succ, ← ih]
      simp [hw]
      omega

theorem mem_intercalate_singleton {sep b : Byte} {words : List Bytes} (h : b ∈ List.intercalate [sep] words) :
    (∃ w ∈ words, b ∈ w) ∨ sep = b := by
  induction words with
  | nil => simp at h
  | cons w rest ih =>
    cases rest with
    | nil => exact .inl ⟨w, List.mem_singleton_self w, by simpa using h⟩
    | cons v rest =>
      rw [List.intercalate_cons_cons, List.mem_append, List.mem_append, List.mem_singleton] at h
      obtain (hw | hsep) | hrest := h
      · exact .inl ⟨w, List.mem_cons_self, hw⟩
      · exact .inr hsep.symm
      · exact (ih hrest).imp_left fun ⟨u, hu, hb⟩ => ⟨u, List.mem_cons_of_mem w hu, hb⟩

/-! ### Words joined as a style does -/

theorem joinWords_length_of_separator {style : Style} {sep : Byte} {n : Nat} {words : List Bytes}
    (hstyle : styleSeparator style = some sep) (hne : words ≠ []) (hn : ∀ w ∈ words, w.length = n) :
    (joinWords style words).length = (n + 1) * words.length - 1 := by
  have hlen := length_intercalate_add_one (sep := sep) hne hn
  simp only [joinWords, hstyle]
  omega

theorem joinWords_length_of_no_separator {style : Style} {n : Nat} {words : List Bytes}
    (hstyle : styleSeparator style = none) (hn : ∀ w ∈ words, w.length = n) :
    (joinWords style words).length = n * words.length := by
  simp only [joinWords, hstyle, List.length_flatten]
  rw [List.map_congr_left hn, List.map_const', List.sum_replicate, smul_eq_mul, Nat.mul_comm]

theorem mem_joinWords {style : Style} {b : Byte} {words : List Bytes} (h : b ∈ joinWords style words) :
    (∃ w ∈ words, b ∈ w) ∨ styleSeparator style = some b := by
  unfold joinWords at h
  split at h
  · exact .inl (List.mem_flatten.1 h)
  · next sep hsep => exact (mem_intercalate_singleton h).imp_right fun (hb : sep = b) => hb ▸ hsep

/-! ### The words of a text -/

@[simp] theorem textBody_length (cfg : Cfg) (payload : Bytes) :
    (textBody cfg payload).length = payload.length + 4 := by
  simp [textBody]

section
variable {cfg : Cfg} (h : cfg.TablesOk) (style : Style)
include h

theorem wordOfByte_length (b : Byte) : (wordOfByte cfg style b).length = styleWordLength style := by
  obtain ⟨-, -, hwords⟩ := styleTable_ok h style
  exact (hwords _ (wordOfByte_mem h style b)).1

theorem wordOfByte_letters (b : Byte) : ∀ c ∈ wordOfByte cfg style b, 0x61 ≤ c.toNat ∧ c.toNat ≤ 0x7A := by
  obtain ⟨-, -, hwords⟩ := styleTable_ok h style
  exact (hwords _ (wordOfByte_mem h style b)).2

/-- The words that a text is joined from all have the style's length. -/
theorem encodeText_word_length (payload : Bytes) :
    ∀ w ∈ (textBody cfg payload).map (wordOfByte cfg style), w.length = styleWordLength style :=
  List.forall_mem_map.2 fun b _ => wordOfByte_length h style b

/-- A text with separators: one byte between two words (30_encoding.md R105). -/
theorem encodeText_length_of_separator {sep : Byte} (hstyle : styleSeparator style = some sep) (payload : Bytes) :
    (encodeText cfg style payload).length = (styleWordLength style + 1) * (payload.length + 4) - 1 := by
  have hne : (textBody cfg payload).map (wordOfByte cfg style) ≠ [] := by simp [textBody, be32]
  rw [encodeText, joinWords_length_of_separator hstyle hne (encodeText_word_length h style payload), List.length_map,
    textBody_length]

/-- A text without separators. -/
theorem encodeText_length_of_no_separator (hstyle : styleSeparator style = none) (payload : Bytes) :
    (encodeText cfg style payload).length = styleWordLength style * (payload.length + 4) := by
  rw [encodeText, joinWords_length_of_no_separator hstyle (encodeText_word_length h style payload), List.length_map,
    textBody_length]

/-- A text holds the letters of its words and the style's separator (45_bytewords.md R240). -/
theorem encodeText_letters {b : Byte} {payload : Bytes} (hb : b ∈ encodeText cfg style payload) :
    (0x61 ≤ b.toNat ∧ b.toNat ≤ 0x7A) ∨ styleSeparator style = some b := by
  refine (mem_joinWords hb).imp_left fun ⟨w, hw, hbw⟩ => ?_
  obtain ⟨c, -, rfl⟩ := List.mem_map.1 hw
  exact wordOfByte_letters h style c b hbw

end

/-- Settles O45: two styles have four-letter words and a separator, the third has two-letter words and none. -/
theorem encodedTextShape : Obligations.EncodedTextShape := by
  intro cfg payload h
  refine ⟨?_, ?_, ?_, fun style b => encodeText_letters h style⟩
  · exact encodeText_length_of_separator h .standard rfl payload
  · exact encodeText_length_of_separator h .uri rfl payload
  · exact encodeText_length_of_no_separator h .minimal rfl payload

end Sys2Proof.Machine
end

