-- ==== Sys2Proof/Proofs/Binary64.lean ====
section
/-! Rounding to binary64 (48_collaborators.md R315) on the patterns of positive normal values, and the conversions,
the division by `2 ^ 64` and the product with `1.0` that are built on it (R316, R319, R320, R322). -/

namespace Sys2Proof.Machine

/-! ### Positive normal values -/

/-- The pattern of a positive normal value: no sign, and an exponent field that is neither 0 nor 2047. -/
def PositiveNormal (a : F64) : Prop := 2 ^ 52 ≤ a.toNat ∧ a.toNat < 2047 * 2 ^ 52

section
variable {a b : F64} (ha : PositiveNormal a)
include ha

theorem PositiveNormal.sign : f64Sign a = false := by
  obtain ⟨-, hhi⟩ := ha
  exact Nat.testBit_lt_two_pow (by omega)

theorem PositiveNormal.exponent : f64Exponent a = a.toNat / 2 ^ 52 := by
  obtain ⟨-, hhi⟩ := ha
  exact Nat.mod_eq_of_lt (by omega)

/-- The exponent field of a normal value is none of the two reserved ones. -/
theorem PositiveNormal.exponent_bounds : f64Exponent a ≠ 0 ∧ f64Exponent a ≠ 2047 := by
  rw [ha.exponent]
  obtain ⟨hlo, hhi⟩ := ha
  omega

theorem PositiveNormal.isNaN : f64IsNaN a = false := by
  simp [f64IsNaN, ha.exponent_bounds.2]

theorem PositiveNormal.isInf : f64IsInf a = false := by
  simp [f64IsInf, ha.exponent_bounds.2]

theorem PositiveNormal.significand : f64Significand a = 2 ^ 52 + a.toNat % 2 ^ 52 := by
  simp [f64Significand, f64Fraction, ha.exponent_bounds.1]

theorem PositiveNormal.scale : f64Scale a = (a.toNat / 2 ^ 52 : Nat) - 1075 := by
  rw [f64Scale, if_neg ha.exponent_bounds.1, ha.exponent]

theorem PositiveNormal.significand_bounds : 2 ^ 52 ≤ f64Significand a ∧ f64Significand a < 2 ^ 53 := by
  rw [ha.significand]
  omega

/-- Patterns `k` steps of the exponent field apart have one significand, and scales `k` apart. -/
theorem PositiveNormal.significand_scale_of_toNat_add (hb : PositiveNormal b) {k : Nat}
    (h : b.toNat + k * 2 ^ 52 = a.toNat) :
    f64Significand b = f64Significand a ∧ f64Scale b = f64Scale a - k := by
  rw [ha.significand, hb.significand, ha.scale, hb.scale]
  omega

end

theorem fOne_positiveNormal : PositiveNormal fOne := ⟨by decide, by decide⟩

theorem fTwo64_positiveNormal : PositiveNormal fTwo64 := ⟨by decide, by decide⟩

theorem fOne_toNat : fOne.toNat = 1023 * 2 ^ 52 := by decide

theorem fTwo64_toNat : fTwo64.toNat = 1087 * 2 ^ 52 := by decide

/-! ### Rounding -/

theorem shiftRoundEven_mul_pow (m j : Nat) : shiftRoundEven (m * 2 ^ j) j = m := by
  have hhalf : 0 < 2 ^ (j - 1) := Nat.two_pow_pos _
  by_cases hj : j = 0
  · simp [shiftRoundEven, hj]
  · simp [shiftRoundEven, hj, hhalf.ne]

/-- Rounding goes to one of the two neighbouring integers. -/
theorem shiftRoundEven_bounds (m k : Nat) : m / 2 ^ k ≤ shiftRoundEven m k ∧ shiftRoundEven m k ≤ m / 2 ^ k + 1 := by
  unfold shiftRoundEven
  split
  · next hk => simp [hk]
  · dsimp only
    split <;> omega

/-- The significand of `m` rounded to 53 bits: `2 ^ 52` to `2 ^ 53`, the upper bound when the rounding carries. -/
def roundedSignificand (m : Nat) : Nat :=
  if m.log2 ≤ 52 then m * 2 ^ (52 - m.log2) else shiftRoundEven m (m.log2 - 52)

theorem roundedSignificand_bounds {m : Nat} (hm : m ≠ 0) :
    2 ^ 52 ≤ roundedSignificand m ∧ roundedSignificand m ≤ 2 ^ 53 := by
  have hlo : 2 ^ m.log2 ≤ m := Nat.log2_self_le hm
  have hhi : m < 2 ^ (m.log2 + 1) := Nat.lt_log2_self
  unfold roundedSignificand
  split
  · next h =>
    constructor
    · calc 2 ^ 52 = 2 ^ m.log2 * 2 ^ (52 - m.log2) := by rw [← pow_add]; congr 1; omega
        _ ≤ _ := Nat.mul_le_mul_right _ hlo
    · calc m * 2 ^ (52 - m.log2) ≤ 2 ^ (m.log2 + 1) * 2 ^ (52 - m.log2) := Nat.mul_le_mul_right _ hhi.le
        _ = 2 ^ 53 := by rw [← pow_add]; congr 1; omega
  · next h =>
    have hbounds := shiftRoundEven_bounds m (m.log2 - 52)
    have hdivlo : 2 ^ 52 ≤ m / 2 ^ (m.log2 - 52) := by
      rw [Nat.le_div_iff_mul_le (by positivity), ← pow_add]
      exact (Nat.pow_le_pow_right (by decide) (by omega)).trans hlo
    have hdivhi : m / 2 ^ (m.log2 - 52) < 2 ^ 53 := by
      rw [Nat.div_lt_iff_lt_mul (by positivity), ← pow_add]
      exact hhi.trans_le (Nat.pow_le_pow_right (by decide) (by omega))
    omega

/-- A number of 53 significant bits is not rounded. -/
theorem roundedSignificand_mul_pow {m : Nat} (hlo : 2 ^ 52 ≤ m) (hhi : m < 2 ^ 53) (j : Nat) :
    (m * 2 ^ j).log2 = 52 + j ∧ roundedSignificand (m * 2 ^ j) = m := by
  have hpos : m * 2 ^ j ≠ 0 := by positivity
  have hlog : (m * 2 ^ j).log2 = 52 + j := by
    rw [Nat.log2_eq_iff hpos, pow_add, show 52 + j + 1 = 53 + j by omega, pow_add]
    exact ⟨Nat.mul_le_mul_right _ hlo, Nat.mul_lt_mul_of_pos_right hhi (by positivity)⟩
  refine ⟨hlog, ?_⟩
  rw [roundedSignificand, hlog, show 52 + j - 52 = j by omega, shiftRoundEven_mul_pow]
  split
  · next h =>
    obtain rfl : j = 0 := by omega
    simp
  · rfl

/-- The pattern of a rounded value whose exponent is above the subnormal range and that stays finite. -/
theorem f64Round_toNat {m : Nat} {e : Int} {E : Nat} (hm : m ≠ 0) (hE : e + m.log2 + 1022 = E)
    (hfin : E * 2 ^ 52 + roundedSignificand m < 2047 * 2 ^ 52) :
    (f64Round false m e).toNat = E * 2 ^ 52 + roundedSignificand m := by
  have hq : max (e + (m.log2 : Int) - 52) (-1074) = e + m.log2 - 52 := by omega
  have hexp : (e + (m.log2 : Int) - 52 + 1074).toNat = E := by omega
  have hsig : (if e + (m.log2 : Int) - 52 ≤ e then m * 2 ^ (e - (e + (m.log2 : Int) - 52)).toNat
      else shiftRoundEven m (e + (m.log2 : Int) - 52 - e).toNat) = roundedSignificand m := by
    rw [show (e - (e + (m.log2 : Int) - 52)).toNat = 52 - m.log2 by omega,
      show (e + (m.log2 : Int) - 52 - e).toNat = m.log2 - 52 by omega]
    exact if_congr (by omega) rfl rfl
  simp only [f64Round, if_neg hm, hq, hexp, hsig, if_neg hfin.not_ge, f64SignBit, Bool.false_eq_true, if_false, Nat.zero_add,
    BitVec.toNat_ofNat]
  exact Nat.mod_eq_of_lt (by omega)

/-- A positive normal value is what its significand, with zero bits added below, is rounded to. -/
theorem PositiveNormal.f64Round_significand {b : F64} (hb : PositiveNormal b) {j : Nat} {e : Int}
    (he : e + j = f64Scale b) : f64Round false (f64Significand b * 2 ^ j) e = b := by
  obtain ⟨hlo, hhi⟩ := hb.significand_bounds
  obtain ⟨hlog, hsig⟩ := roundedSignificand_mul_pow hlo hhi j
  have hscale := hb.scale
  have hsignificand := hb.significand
  obtain ⟨hblo, hbhi⟩ := hb
  have hround := f64Round_toNat (m := f64Significand b * 2 ^ j) (e := e) (E := b.toNat / 2 ^ 52 - 1)
    (by positivity) (by omega) (by omega)
  apply BitVec.eq_of_toNat_eq
  omega

/-! ### The product with `1.0` -/

theorem mulF_fOne {a : F64} (ha : PositiveNormal a) : mulF a fOne = a := by
  have hone := fOne_positiveNormal
  have hround := ha.f64Round_significand (j := 52) (e := f64Scale a + f64Scale fOne)
    (by rw [show f64Scale fOne = -52 by decide]; omega)
  simpa [mulF, ha.isNaN, ha.isInf, ha.sign, hone.isNaN, hone.isInf, hone.sign,
    show f64Significand fOne = 2 ^ 52 by decide] using hround

theorem mulF_comm (a b : F64) : mulF a b = mulF b a := by
  unfold mulF
  rw [bne_comm, Bool.or_comm (f64IsNaN a), Bool.or_comm (f64IsInf a), Bool.or_comm (f64IsZero a),
    Nat.mul_comm, Int.add_comm]

theorem fOne_mulF {a : F64} (ha : PositiveNormal a) : mulF fOne a = a := by
  rw [mulF_comm, mulF_fOne ha]

theorem mulF_fZero_fOne : mulF fZero fOne = fZero := by decide

/-! ### The division by `2 ^ 64` -/

/-- The division by `2 ^ 64` takes 64 from the exponent field: nothing is rounded. -/
theorem divF_fTwo64 {a b : F64} (ha : PositiveNormal a) (hb : PositiveNormal b)
    (h : b.toNat + 64 * 2 ^ 52 = a.toNat) : divF a fTwo64 = b := by
  have htwo := fTwo64_positiveNormal
  have hzero : f64IsZero fTwo64 = false := by decide
  have htwosig : f64Significand fTwo64 = 2 ^ 52 := by decide
  have htwoscale : f64Scale fTwo64 = 12 := by decide
  obtain ⟨hsig, hscale⟩ := ha.significand_scale_of_toNat_add hb h
  have hdividend : f64Significand a * 2 ^ divGuardBits = f64Significand b * 2 ^ 58 * 2 ^ 52 := by
    rw [hsig, divGuardBits, mul_assoc, ← pow_add]
  have hround := hb.f64Round_significand (j := 59) (e := f64Scale a - 12 - (divGuardBits + 1 : Nat))
    (by rw [hscale]; simp only [divGuardBits]; omega)
  have hquotient : 2 * (f64Significand b * 2 ^ 58) = f64Significand b * 2 ^ 59 := by omega
  simp only [divF, ha.isNaN, ha.isInf, ha.sign, htwo.isNaN, htwo.isInf, htwo.sign, hzero, htwosig, htwoscale, hdividend,
    Nat.mul_mod_left, Nat.mul_div_cancel _ (Nat.two_pow_pos 52), hquotient, Bool.or_self, bne_self_eq_false,
    Bool.false_eq_true, if_true, if_false, Nat.add_zero]
  exact hround

/-! ### Conversions from and to integers -/

section
variable {n : Nat} (hpos : n ≠ 0) (hlt : n < 2 ^ 64)
include hpos hlt

/-- The pattern of a converted integer: its leading bit gives the exponent, its first 53 bits the significand. -/
theorem u64ToF_toNat : (u64ToF n).toNat = (n.log2 + 1022) * 2 ^ 52 + roundedSignificand n := by
  have hlog : n.log2 < 64 := (Nat.log2_lt hpos).2 hlt
  obtain ⟨-, hsig⟩ := roundedSignificand_bounds hpos
  exact f64Round_toNat hpos (by omega) (by omega)

/-- A converted integer is at least 1.0 and at most `2 ^ 64`. -/
theorem u64ToF_toNat_bounds : fOne.toNat ≤ (u64ToF n).toNat ∧ (u64ToF n).toNat ≤ fTwo64.toNat := by
  have hlog : n.log2 < 64 := (Nat.log2_lt hpos).2 hlt
  have hsig := roundedSignificand_bounds hpos
  rw [u64ToF_toNat hpos hlt, fOne_toNat, fTwo64_toNat]
  omega

theorem u64ToF_positiveNormal : PositiveNormal (u64ToF n) := by
  have hbounds := u64ToF_toNat_bounds hpos hlt
  rw [fOne_toNat, fTwo64_toNat] at hbounds
  exact ⟨by omega, by omega⟩

/-- Exactly the 1024 greatest integers round up to `2 ^ 64` (40_prng.md R135). -/
theorem u64ToF_eq_fTwo64_iff : u64ToF n = fTwo64 ↔ 2 ^ 64 - 1024 ≤ n := by
  have hlog : n.log2 < 64 := (Nat.log2_lt hpos).2 hlt
  obtain ⟨-, hsig⟩ := roundedSignificand_bounds hpos
  rw [← BitVec.toNat_inj, u64ToF_toNat hpos hlt, fTwo64_toNat]
  by_cases htop : n.log2 = 63
  · have hround : roundedSignificand n = shiftRoundEven n 11 := by simp [roundedSignificand, htop]
    rw [htop, hround]
    simp only [shiftRoundEven, OfNat.ofNat_ne_zero, if_false, Nat.reduceSub]
    split_ifs <;> omega
  · have hn : n < 2 ^ 63 := (Nat.log2_lt hpos).1 (by omega)
    omega

end

/-- Integers up to `2 ^ 53` are converted exactly, and read back. -/
theorem fToNat_u64ToF {n : Nat} (hpos : n ≠ 0) (hle : n ≤ 2 ^ 53) : fToNat (u64ToF n) = n := by
  obtain rfl | hlt := hle.eq_or_lt
  · decide
  · have hnormal := u64ToF_positiveNormal hpos (by omega)
    have hlog : n.log2 < 53 := (Nat.log2_lt hpos).2 hlt
    have hsig : roundedSignificand n = n * 2 ^ (52 - n.log2) := by
      rw [roundedSignificand, if_pos (by omega)]
    have hpattern := u64ToF_toNat hpos (by omega)
    have hrange := roundedSignificand_bounds hpos
    have hbelow : n * 2 ^ (52 - n.log2) < 2 ^ 53 := by
      calc n * 2 ^ (52 - n.log2) < 2 ^ (n.log2 + 1) * 2 ^ (52 - n.log2) :=
            Nat.mul_lt_mul_of_pos_right Nat.lt_log2_self (Nat.two_pow_pos _)
        _ = 2 ^ 53 := by rw [← pow_add]; congr 1; omega
    rw [hsig] at hpattern hrange
    have hsignificand : f64Significand (u64ToF n) = n * 2 ^ (52 - n.log2) := by
      rw [hnormal.significand]; omega
    have hscale : f64Scale (u64ToF n) = -(52 - n.log2 : Nat) := by
      rw [hnormal.scale]; omega
    rw [fToNat, hsignificand, hscale]
    split
    · next hzero => rw [show 52 - n.log2 = 0 by omega]; simp
    · rw [neg_neg, Int.toNat_natCast, Nat.mul_div_cancel _ (Nat.two_pow_pos _)]

theorem fToNat_fZero : fToNat fZero = 0 := by
  simp [fToNat, show f64Significand fZero = 0 by decide]

/-- A positive value below 1.0 has the floor 0. -/
theorem fToNat_of_lt_fOne {a : F64} (ha : PositiveNormal a) (h : a.toNat < fOne.toNat) : fToNat a = 0 := by
  rw [fOne_toNat] at h
  have hscale := ha.scale
  obtain ⟨-, hsig⟩ := ha.significand_bounds
  rw [fToNat, if_neg (by omega)]
  exact Nat.div_eq_of_lt (hsig.trans_le (Nat.pow_le_pow_right (by decide) (by omega)))

end Sys2Proof.Machine
end

