-- ==== Sys2Proof/Proofs/Prng.lean ====
section
/-! The PRNG unit (40_prng.md): its operations on a ready block, the double and the integer of a draw under the arithmetic
of 48_collaborators.md R315, and the obligations on them. -/

namespace Sys2Proof.Machine

/-! ### The operations on a ready block -/

section
variable {s : State} (hf : s.sysFault = none)
include hf

theorem exec_seed_of_seed {i : Instr} {seed : Bytes} (hi : i = .prngSeedBytes ∨ i = .prngSeedStr)
    (hopr : s.opr = .seed seed) :
    exec i s = .next ((s.withPrng (some (seededWords s.cfg seed))).reply (.ok .none)) := by
  have hoperand := seedOperand_eq_some.2 hopr
  obtain rfl | rfl := hi
  · simp [exec, execPrngSeedBytes, hoperand, execute_of_some _ _ hf]
  · simp [exec, execPrngSeedStr, hoperand, execute_of_some _ _ hf]

theorem exec_prngSeedDigest_of_length {d : Bytes} (hopr : s.opr = .digest d) (hlen : d.length = 32) :
    exec .prngSeedDigest s = .next ((s.withPrng (some (wordsOfDigest d))).reply (.ok .none)) := by
  simp [exec, execPrngSeedDigest, digestOperand_eq_some.2 ⟨hopr, hlen⟩, execute_of_some _ _ hf]

theorem exec_prngSeedDigest_of_length_ne {d : Bytes} (hopr : s.opr = .digest d) (hlen : d.length ≠ 32) :
    exec .prngSeedDigest s = .next (s.raise .illegalCommand) := by
  have hoperand : digestOperand s.opr = none := by simp [hopr, digestOperand, hlen]
  simp [exec, execPrngSeedDigest, hoperand, execute_of_none _ hf]

theorem exec_prngNext_of_seeded {p : PrngWords} (hopr : s.opr = .empty) (hp : s.prng = some p) :
    exec .prngNext s = .next ((s.withPrng (some (prngAfter p))).reply (.ok (.u64 (prngDraw p)))) := by
  simp [exec, execPrngNext, hopr, noOperands, execute_of_some _ _ hf, hp]

theorem exec_prngNext_of_unseeded (hopr : s.opr = .empty) (hp : s.prng = none) :
    exec .prngNext s = .next (s.raise .prngNotSeeded) := by
  simp [exec, execPrngNext, hopr, noOperands, execute_of_some _ _ hf, hp]

theorem exec_prngNextDouble_of_seeded {p : PrngWords} (hopr : s.opr = .empty) (hp : s.prng = some p) :
    exec .prngNextDouble s =
      .next ((s.withPrng (some (prngAfter p))).reply (.ok (.f64 (doubleOfDraw s.cfg (prngDraw p))))) := by
  simp [exec, execPrngNextDouble, hopr, noOperands, execute_of_some _ _ hf, hp]

theorem exec_prngNextDouble_of_unseeded (hopr : s.opr = .empty) (hp : s.prng = none) :
    exec .prngNextDouble s = .next (s.raise .prngNotSeeded) := by
  simp [exec, execPrngNextDouble, hopr, noOperands, execute_of_some _ _ hf, hp]

section
variable {low high : Nat} (hopr : s.opr = .range low high) (hlow : low < 2 ^ 64) (hhigh : high < 2 ^ 64)
include hopr hlow hhigh

theorem exec_prngNextInt_of_unseeded (hp : s.prng = none) :
    exec .prngNextInt s = .next (s.raise .prngNotSeeded) := by
  have hoperand := rangeOperands_eq_some (o := ⟨low, high⟩).2 ⟨hopr, hlow, hhigh⟩
  simp [exec, execPrngNextInt, hoperand, execute_of_some _ _ hf, hp]

/-- The range fault comes before the draw (40_prng.md R136). -/
theorem exec_prngNextInt_of_badIntRange {p : PrngWords} (hp : s.prng = some p) (hbad : badIntRange low high = true) :
    exec .prngNextInt s = .next (s.raise .badIntRange) := by
  have hoperand := rangeOperands_eq_some (o := ⟨low, high⟩).2 ⟨hopr, hlow, hhigh⟩
  simp [exec, execPrngNextInt, hoperand, execute_of_some _ _ hf, hp, hbad]

/-- The overflow fault comes after the draw (40_prng.md R136). -/
theorem exec_prngNextInt_of_seeded {p : PrngWords} {v : Nat} (hp : s.prng = some p)
    (hgood : badIntRange low high = false) (hv : v = intOfDraw s.cfg (prngDraw p) low high) :
    exec .prngNextInt s = .next (if v < 2 ^ 64 then
        (s.withPrng (some (prngAfter p))).reply (.ok (.u64 (BitVec.ofNat 64 v)))
      else (s.withPrng (some (prngAfter p))).raise .arithmeticOverflow) := by
  have hoperand := rangeOperands_eq_some (o := ⟨low, high⟩).2 ⟨hopr, hlow, hhigh⟩
  subst hv
  simp only [exec, execPrngNextInt, hoperand, execute_of_some _ _ hf, hp, hgood, State.answer_eq]
  exact (apply_ite _ _ _ _).symm

end

end

theorem badIntRange_iff {low high : Nat} :
    badIntRange low high = true ↔ high < low ∨ 2 ^ 64 - 1 < high - low + 1 := by
  simp [badIntRange]

/-- The generator's state does not change from the all-zero state, which a digest can give (40_prng.md R133). -/
theorem prngStep_zero : prngStep ⟨0, 0, 0, 0⟩ = (0, ⟨0, 0, 0, 0⟩) := by decide

theorem State.withPrng_of_eq {s : State} {p : Option PrngWords} (h : s.prng = p) : s.withPrng p = s := by
  subst h; rfl

/-! ### The double and the integer of a draw -/

theorem draw_toNat_ne_zero {x : U64} (hx : x ≠ 0) : x.toNat ≠ 0 := fun h => hx (BitVec.eq_of_toNat_eq h)

section
variable {cfg : Cfg} (hcfg : cfg.binary64 = .standard)
include hcfg

theorem doubleOfDraw_of_standard (x : U64) : doubleOfDraw cfg x = divF (u64ToF x.toNat) fTwo64 := by
  rw [doubleOfDraw, Cfg.divF_of_standard hcfg, Cfg.u64ToF_of_standard hcfg]

theorem intOfDraw_of_standard (x : U64) (low high : Nat) :
    intOfDraw cfg x low high = fToNat (mulF (doubleOfDraw cfg x) (u64ToF (high - low + 1))) + low := by
  rw [intOfDraw, Cfg.fToNat_of_standard hcfg, Cfg.mulF_of_standard hcfg, Cfg.u64ToF_of_standard hcfg]

theorem doubleOfDraw_zero : doubleOfDraw cfg 0 = fZero := by
  rw [doubleOfDraw_of_standard hcfg]
  decide

/-- The double of a draw that is not 0 has the pattern of the converted draw, 64 lower in the exponent field. -/
theorem doubleOfDraw_pattern {x : U64} (hx : x ≠ 0) : PositiveNormal (doubleOfDraw cfg x) ∧
    (doubleOfDraw cfg x).toNat + 64 * 2 ^ 52 = (u64ToF x.toNat).toNat := by
  have hpos := draw_toNat_ne_zero hx
  obtain ⟨hlo, hhi⟩ := u64ToF_toNat_bounds hpos x.isLt
  rw [fOne_toNat] at hlo
  rw [fTwo64_toNat] at hhi
  obtain ⟨b, hpattern⟩ : ∃ b : F64, b.toNat + 64 * 2 ^ 52 = (u64ToF x.toNat).toNat :=
    ⟨BitVec.ofNat 64 ((u64ToF x.toNat).toNat - 64 * 2 ^ 52), by rw [BitVec.toNat_ofNat]; omega⟩
  have hnormal : PositiveNormal b := ⟨by omega, by omega⟩
  rw [doubleOfDraw_of_standard hcfg, divF_fTwo64 (u64ToF_positiveNormal hpos x.isLt) hnormal hpattern]
  exact ⟨hnormal, hpattern⟩

/-- The draws that give `1.0` (40_prng.md R135). -/
theorem doubleOfDraw_eq_fOne_iff (x : U64) : doubleOfDraw cfg x = fOne ↔ 2 ^ 64 - 1024 ≤ x.toNat := by
  by_cases hx : x = 0
  · subst hx
    rw [doubleOfDraw_zero hcfg]
    decide
  · have hpos : x.toNat ≠ 0 := fun h => hx (BitVec.eq_of_toNat_eq h)
    obtain ⟨-, hpattern⟩ := doubleOfDraw_pattern hcfg hx
    rw [← u64ToF_eq_fTwo64_iff hpos x.isLt, ← BitVec.toNat_inj, ← BitVec.toNat_inj, fOne_toNat, fTwo64_toNat]
    omega

/-- Every other draw has a double below 1.0. -/
theorem doubleOfDraw_lt_fOne {x : U64} (hx : x ≠ 0) (hlt : x.toNat < 2 ^ 64 - 1024) :
    (doubleOfDraw cfg x).toNat < fOne.toNat := by
  have hpos := draw_toNat_ne_zero hx
  obtain ⟨-, hpattern⟩ := doubleOfDraw_pattern hcfg hx
  obtain ⟨-, hhi⟩ := u64ToF_toNat_bounds hpos x.isLt
  have hne : (doubleOfDraw cfg x).toNat ≠ fOne.toNat := fun h =>
    hlt.not_ge ((doubleOfDraw_eq_fOne_iff hcfg x).1 (BitVec.eq_of_toNat_eq h))
  rw [fTwo64_toNat] at hhi
  rw [fOne_toNat] at hne ⊢
  omega

/-- A range of one value, and a draw below the top 1024 (40_prng.md R136). -/
theorem intOfDraw_singleton {x : U64} (hlt : x.toNat < 2 ^ 64 - 1024) (low : Nat) : intOfDraw cfg x low low = low := by
  have hone : u64ToF (low - low + 1) = fOne := by rw [Nat.sub_self]; decide
  rw [intOfDraw_of_standard hcfg, hone]
  by_cases hx : x = 0
  · subst hx
    rw [doubleOfDraw_zero hcfg, mulF_fZero_fOne, fToNat_fZero, Nat.zero_add]
  · obtain ⟨hnormal, -⟩ := doubleOfDraw_pattern hcfg hx
    rw [mulF_fOne hnormal, fToNat_of_lt_fOne hnormal (doubleOfDraw_lt_fOne hcfg hx hlt), Nat.zero_add]

/-- A draw of the top 1024 gives one more than the greatest value of the range (40_prng.md R136). -/
theorem intOfDraw_of_top {x : U64} {low high : Nat} (htop : 2 ^ 64 - 1024 ≤ x.toNat) (hle : low ≤ high)
    (hspan : high - low + 1 ≤ 2 ^ 53) : intOfDraw cfg x low high = high + 1 := by
  have hpos : high - low + 1 ≠ 0 := Nat.succ_ne_zero _
  rw [intOfDraw_of_standard hcfg, (doubleOfDraw_eq_fOne_iff hcfg x).2 htop,
    fOne_mulF (u64ToF_positiveNormal hpos (by omega)), fToNat_u64ToF hpos hspan]
  omega

end

/-! ### The obligations on the unit -/

/-- Settles O11: the division by `2 ^ 64` only lowers the exponent field of the converted draw, by 64, so that it is 1.0
exactly if the conversion rounded up to `2 ^ 64`. -/
theorem prngNextDouble : Obligations.PrngNextDouble := by
  refine ⟨rfl, fun s p hf hopr hp => exec_prngNextDouble_of_seeded hf hopr hp, fun s hf hopr hp => ?_,
    fun cfg hcfg => ?_⟩
  · rw [exec_prngNextDouble_of_unseeded hf hopr hp, s.raise_of_none _ hf]
  · refine ⟨fun x hx => ?_, doubleOfDraw_zero hcfg, doubleOfDraw_eq_fOne_iff hcfg⟩
    have hpos := draw_toNat_ne_zero hx
    obtain ⟨hnormal, hpattern⟩ := doubleOfDraw_pattern hcfg hx
    obtain ⟨hsig, hscale⟩ :=
      (u64ToF_positiveNormal hpos x.isLt).significand_scale_of_toNat_add hnormal hpattern
    exact ⟨hsig, hscale, hnormal.sign⟩

/-- Settles O12: the order of the three faults, and the two ends of the range of draws. -/
theorem prngNextIntDraws : Obligations.PrngNextIntDraws := by
  refine ⟨?_, ?_, ?_, fun cfg hcfg => ⟨fun x low hlt => intOfDraw_singleton hcfg hlt low,
    fun x low high htop hle hspan => intOfDraw_of_top hcfg htop hle hspan⟩⟩
  · intro s p low high v hf hopr hhigh hp hle hspan hv
    have hgood : badIntRange low high = false := by
      rw [← Bool.not_eq_true, badIntRange_iff]
      omega
    rw [exec_prngNextInt_of_seeded hf hopr (hle.trans_lt hhigh) hhigh hp hgood hv,
      (s.withPrng (some (prngAfter p))).raise_of_none _ hf]
    rfl
  · intro s low high hf hp hopr hlow hhigh
    rw [exec_prngNextInt_of_unseeded hf hopr hlow hhigh hp, s.raise_of_none _ hf]
  · intro s p low high hf hopr hlow hhigh hp hbad
    rw [exec_prngNextInt_of_badIntRange hf hopr hlow hhigh hp (badIntRange_iff.2 hbad), s.raise_of_none _ hf]

/-- Settles O8: both operations hash the seed; the example is one block of SHA-256. -/
theorem seedFromBytes : Obligations.SeedFromBytes := by
  refine ⟨rfl, rfl, fun s seed i hf hopr hi => exec_seed_of_seed hf hi hopr, fun cfg hcfg => ?_⟩
  rw [seededWords, Cfg.sha256Of_of_standard hcfg]
  decide +kernel

/-- Settles O9: the digest is loaded as it is, and the all-zero one gives the fixed point of the generator. -/
theorem seedFromDigest : Obligations.SeedFromDigest := by
  refine ⟨rfl, fun s d hf hopr hlen => exec_prngSeedDigest_of_length hf hopr hlen, ?_, ?_, ?_, by decide, by decide⟩
  · intro s d hf hopr hlen
    rw [exec_prngSeedDigest_of_length_ne hf hopr hlen, s.raise_of_none _ hf]
  · intro s hf hopr
    rw [exec_prngSeedDigest_of_length hf hopr List.length_replicate,
      show wordsOfDigest (List.replicate 32 0) = ⟨0, 0, 0, 0⟩ by decide]
    rfl
  · intro s hf hopr hp
    have hafter : prngAfter ⟨0, 0, 0, 0⟩ = ⟨0, 0, 0, 0⟩ := by rw [prngAfter, prngStep_zero]
    have hdraw : prngDraw ⟨0, 0, 0, 0⟩ = 0 := by rw [prngDraw, prngStep_zero]
    constructor
    · rw [exec_prngNext_of_seeded hf hopr hp, hafter, hdraw, State.withPrng_of_eq hp]
      rfl
    · intro hcfg
      rw [exec_prngNextDouble_of_seeded hf hopr hp, hafter, hdraw, doubleOfDraw_zero hcfg, State.withPrng_of_eq hp]
      rfl

/-- Settles O10: a draw is `prngStep`, whose equations are those of R130. -/
theorem prngNextDraws : Obligations.PrngNextDraws := by
  refine ⟨rfl, fun s p hf hopr hp => exec_prngNext_of_seeded hf hopr hp, fun s hf hopr hp => ?_, by decide,
    by decide⟩
  rw [exec_prngNext_of_unseeded hf hopr hp, s.raise_of_none _ hf]

end Sys2Proof.Machine
end

