-- ==== Sys2Proof/Proofs/Pairings.lean ====
section
/-! The rounds of the pairing loop (41_sampler.md R151), and the obligations on the tables of a setup. -/

namespace Sys2Proof.Machine

/-! ### One round -/

/-- What a round reads of the work: the weights and the two sides. -/
def PairingWork.round (k : PairingWork) : PairingRound := ⟨k.p, k.small, k.large⟩

section
variable {cfg : Cfg} {n a g i : Nat} {k : PairingWork} {small large : List Nat}

theorem pairOnce_step (hs : k.small = a :: small) (hl : k.large = g :: large) :
    PairingStep cfg k.round (pairOnce cfg k a g small large).round := by
  refine ⟨a, g, small, large, cfg.addF (k.weight g) (cfg.subF (k.weight a) fOne), hs, hl, rfl, rfl, ?_⟩
  by_cases hlt : cfg.ltF (cfg.addF (k.weight g) (cfg.subF (k.weight a) fOne)) fOne
  · rw [if_pos hlt]
    exact ⟨if_pos hlt, if_pos hlt⟩
  · rw [if_neg hlt]
    exact ⟨if_neg hlt, if_neg hlt⟩

section
variable (hs : k.small = a :: small) (hl : k.large = g :: large)
include hs hl

/-- A pairing takes one index from the two sides. -/
theorem pairOnce_length (cfg : Cfg) : (pairOnce cfg k a g small large).small.length +
    (pairOnce cfg k a g small large).large.length + 1 = k.small.length + k.large.length := by
  have hopen := (pairOnce_open cfg k a g small large).length_eq
  simp only [List.length_append, List.length_cons] at hopen
  rw [hs, hl, hopen, List.length_cons, List.length_cons]
  omega

/-- A pairing opens no index. -/
theorem mem_open_of_mem_pairOnce
    (hi : i ∈ (pairOnce cfg k a g small large).small ++ (pairOnce cfg k a g small large).large) :
    i ∈ k.small ++ k.large := by
  have hmem := (pairOnce_open cfg k a g small large).mem_iff.1 hi
  rw [hs, hl, (List.perm_middle (l₁ := a :: small)).mem_iff]
  simp only [List.mem_cons, List.mem_append] at hmem ⊢
  tauto

/-- A pairing closes `a`. -/
theorem not_mem_pairOnce (h : k.Ok cfg n) :
    a ∉ (pairOnce cfg k a g small large).small ++ (pairOnce cfg k a g small large).large := by
  have hnodup := h.nodup
  rw [hs, hl, List.cons_append, List.nodup_cons, List.perm_middle.mem_iff] at hnodup
  rw [(pairOnce_open cfg k a g small large).mem_iff]
  exact hnodup.1

end

/-- A pairing stores the entry of `a`. -/
theorem pairOnce_entry_self (hs : k.small = a :: small) (h : k.Ok cfg n) :
    (pairOnce cfg k a g small large).entries[a]? = some ⟨k.p.getD a fZero, g⟩ := by
  have ha : a < k.entries.length := h.entries ▸ h.range a (by simp [hs])
  exact List.getElem?_set_self ha

/-- A pairing leaves the other entries. -/
theorem pairOnce_entry_ne (hne : i ≠ a) : (pairOnce cfg k a g small large).entries[i]? = k.entries[i]? :=
  List.getElem?_set_ne hne.symm

/-- The loop ends when a side is empty. -/
theorem pairingLoop_of_side_empty (h : k.small = [] ∨ k.large = []) : pairingLoop cfg n k = k := by
  cases n with
  | zero => rfl
  | succ n => obtain h | h := h <;> simp [pairingLoop, h]

theorem pairingLoop_succ (hs : k.small = a :: small) (hl : k.large = g :: large) :
    pairingLoop cfg (n + 1) k = pairingLoop cfg n (pairOnce cfg k a g small large) := by
  rw [pairingLoop, hs, hl]

end

/-! ### The rounds up to the end -/

/-- The pairings from a work to the one that has a side empty, with the rounds that were paired. -/
inductive PairingRun (cfg : Cfg) : PairingWork → List PairingRound → PairingWork → Prop
  | stop {k : PairingWork} (hend : k.small = [] ∨ k.large = []) : PairingRun cfg k [] k
  | pair {k last : PairingWork} {a g : Nat} {small large : List Nat} {rounds : List PairingRound}
      (hs : k.small = a :: small) (hl : k.large = g :: large)
      (hrest : PairingRun cfg (pairOnce cfg k a g small large) rounds last) :
      PairingRun cfg k (k.round :: rounds) last

/-- The loop runs to the end when it may take as many rounds as there are open indices. -/
theorem pairingLoop_run (cfg : Cfg) {n : Nat} {k : PairingWork} (h : k.small.length + k.large.length ≤ n) :
    ∃ rounds, PairingRun cfg k rounds (pairingLoop cfg n k) := by
  induction n generalizing k with
  | zero => exact ⟨[], .stop (.inl (List.eq_nil_of_length_eq_zero (by omega)))⟩
  | succ n ih =>
    match hs : k.small, hl : k.large with
    | [], _ => exact ⟨[], by rw [pairingLoop_of_side_empty (.inl hs)]; exact .stop (.inl hs)⟩
    | _, [] => exact ⟨[], by rw [pairingLoop_of_side_empty (.inr hl)]; exact .stop (.inr hl)⟩
    | a :: small, g :: large =>
      have hlen := pairOnce_length hs hl cfg
      obtain ⟨rounds, hrun⟩ := ih (k := pairOnce cfg k a g small large) (by omega)
      exact ⟨k.round :: rounds, pairingLoop_succ hs hl ▸ .pair hs hl hrun⟩

namespace PairingRun

variable {cfg : Cfg} {n i : Nat} {k last : PairingWork} {rounds : List PairingRound}

theorem side_empty (h : PairingRun cfg k rounds last) : last.small = [] ∨ last.large = [] := by
  induction h with
  | stop hend => exact hend
  | pair _ _ _ ih => exact ih

theorem head? (h : PairingRun cfg k rounds last) : (rounds ++ [last.round]).head? = some k.round := by
  cases h <;> rfl

theorem isChain (h : PairingRun cfg k rounds last) : (rounds ++ [last.round]).IsChain (PairingStep cfg) := by
  induction h with
  | stop _ => exact .singleton _
  | pair hs hl hrest ih =>
    refine List.isChain_cons.2 ⟨fun r hr => ?_, ih⟩
    obtain rfl : _ = r := Option.some.inj (hrest.head?.symm.trans hr)
    exact pairOnce_step hs hl

/-- A closed index stays closed, with its entry. -/
theorem keeps_closed (h : PairingRun cfg k rounds last) (hi : i ∉ k.small ++ k.large) :
    i ∉ last.small ++ last.large ∧ last.entries[i]? = k.entries[i]? := by
  induction h with
  | stop _ => exact ⟨hi, rfl⟩
  | @pair k _ a _ _ _ _ hs hl _ ih =>
    have hne : i ≠ a := fun hia => hi (by simp [hs, hia])
    obtain ⟨hclosed, hentry⟩ := ih fun hmem => hi (mem_open_of_mem_pairOnce hs hl hmem)
    exact ⟨hclosed, hentry.trans (pairOnce_entry_ne hne)⟩

/-- The entry that a round stores stands at the end. -/
theorem paired (h : PairingRun cfg k rounds last) (hk : k.Ok cfg n) {r : PairingRound} (hr : r ∈ rounds) {a g : Nat}
    {small large : List Nat} (hs : r.small = a :: small) (hl : r.large = g :: large) :
    a ∉ last.small ++ last.large ∧ last.entries[a]? = some ⟨r.p.getD a fZero, g⟩ := by
  induction h with
  | stop _ => cases hr
  | pair hsk hlk hrest ih =>
    obtain rfl | hr := List.mem_cons.1 hr
    · obtain ⟨rfl, rfl⟩ := List.cons.inj (hsk.symm.trans hs)
      obtain ⟨rfl, rfl⟩ := List.cons.inj (hlk.symm.trans hl)
      obtain ⟨hclosed, hentry⟩ := hrest.keeps_closed (not_mem_pairOnce hsk hlk hk)
      exact ⟨hclosed, hentry.trans (pairOnce_entry_self hsk hk)⟩
    · exact ih (pairOnce_ok hk hsk hlk) hr

/-- An index that is open at the end has the entry it had. -/
theorem keeps_open (h : PairingRun cfg k rounds last) (hk : k.Ok cfg n) (hi : i ∈ last.small ++ last.large) :
    i ∈ k.small ++ k.large ∧ last.entries[i]? = k.entries[i]? := by
  induction h with
  | stop _ => exact ⟨hi, rfl⟩
  | @pair k _ a _ _ _ _ hs hl _ ih =>
    obtain ⟨hopen, hentry⟩ := ih (pairOnce_ok hk hs hl) hi
    have hne : i ≠ a := by
      rintro rfl
      exact not_mem_pairOnce hs hl hk hopen
    exact ⟨mem_open_of_mem_pairOnce hs hl hopen, hentry.trans (pairOnce_entry_ne hne)⟩

end PairingRun

/-! ### The tables -/

/-- Every entry after the fill. -/
theorem getElem?_fillOnes (entries : List AliasEntry) (l : List Nat) (i : Nat) :
    (fillOnes entries l)[i]? = entries[i]?.map fun e => if i ∈ l then { e with prob := fOne } else e := by
  induction l generalizing entries with
  | nil => simp [fillOnes]
  | cons j rest ih =>
    have hstep : fillOnes entries (j :: rest) =
        fillOnes (entries.modify j fun e => { e with prob := fOne }) rest := rfl
    rw [hstep, ih, List.getElem?_modify]
    by_cases hij : i = j
    · subst hij
      cases entries[i]? <;> simp
    · simp [hij, Ne.symm hij]

/-- An index that the loop leaves open has the probability 1.0 and keeps its alternative. -/
theorem aliasTables_of_open {cfg : Cfg} {p : List F64} {k : PairingWork} {i : Nat} {e : AliasEntry}
    (hk : pairingLoop cfg p.length (pairingStart cfg p) = k) (hi : i ∈ k.small ++ k.large)
    (he : k.entries[i]? = some e) : (aliasTables cfg p).entries[i]? = some { e with prob := fOne } := by
  simp only [aliasTables, hk, getElem?_fillOnes, he, Option.map_some]
  by_cases hs : i ∈ k.small
  · by_cases hl : i ∈ k.large <;> simp [hs, hl]
  · have hl : i ∈ k.large := (List.mem_append.1 hi).resolve_left hs
    simp [hs, hl]

/-- An index that the loop closes has the loop's entry. -/
theorem aliasTables_of_closed {cfg : Cfg} {p : List F64} {k : PairingWork} {i : Nat}
    (hk : pairingLoop cfg p.length (pairingStart cfg p) = k) (hi : i ∉ k.small ++ k.large) :
    (aliasTables cfg p).entries[i]? = k.entries[i]? := by
  obtain ⟨hs, hl⟩ := not_or.1 fun h => hi (List.mem_append.2 h)
  simp [aliasTables, hk, getElem?_fillOnes, hs, hl]

/-- Before the first pairing every index is open. -/
theorem pairingStart_open (cfg : Cfg) (p : List F64) :
    ((pairingStart cfg p).small ++ (pairingStart cfg p).large).Perm (List.range p.length) :=
  List.filter_append_perm _ _

theorem pairingStart_entry {cfg : Cfg} {p : List F64} {i : Nat} (hi : i < p.length) :
    (pairingStart cfg p).entries[i]? = some ⟨fZero, 0⟩ := List.getElem?_replicate_of_lt hi

/-- The start is sound also for no weights, which have no index. -/
theorem pairingStart_ok_of_any_length (cfg : Cfg) (p : List F64) : (pairingStart cfg p).Ok cfg p.length := by
  cases p with
  | nil => exact ⟨rfl, rfl, .nil, nofun, nofun, nofun, nofun⟩
  | cons w p => exact pairingStart_ok cfg (Nat.le_add_left 1 p.length)

theorem aliasTables_length (cfg : Cfg) (p : List F64) : (aliasTables cfg p).entries.length = p.length := by
  simp [aliasTables, fillOnes_length, (pairingLoop_ok (pairingStart_ok_of_any_length cfg p)).entries]

/-- Without a weight on one of the sides there is no pairing. -/
theorem aliasTables_of_side_empty {cfg : Cfg} {p : List F64}
    (h : (pairingStart cfg p).small = [] ∨ (pairingStart cfg p).large = []) :
    (aliasTables cfg p).entries = List.replicate p.length ⟨fOne, 0⟩ := by
  have hlen := aliasTables_length cfg p
  refine List.ext_getElem? fun i => ?_
  by_cases hi : i < p.length
  · have hopen := (pairingStart_open cfg p).mem_iff.2 (List.mem_range.2 hi)
    rw [aliasTables_of_open (pairingLoop_of_side_empty h) hopen (pairingStart_entry hi),
      List.getElem?_replicate_of_lt hi]
  · rw [List.getElem?_eq_none (by omega), List.getElem?_eq_none (by rw [List.length_replicate]; omega)]

/-- Equal weights all stand on one side. -/
theorem pairingStart_replicate (cfg : Cfg) (n : Nat) (w : F64) :
    (pairingStart cfg (List.replicate n w)).small = [] ∨ (pairingStart cfg (List.replicate n w)).large = [] := by
  have hweight : ∀ j ∈ List.range n, (List.replicate n w).getD j fZero = w := fun j hj => by
    simp [List.mem_range.1 hj]
  simp only [pairingStart, List.length_replicate, List.filter_eq_nil_iff]
  cases hw : cfg.ltF w fOne with
  | false => exact .inl fun j hj => by rw [hweight j hj, hw]; decide
  | true => exact .inr fun j hj => by rw [hweight j hj, hw]; decide

/-- When a list of weights builds tables, and which (41_sampler.md R151). -/
theorem buildTables_eq_ok {cfg : Cfg} {cap : Option Nat} {ws : List F64} {t : AliasTables} :
    buildTables cfg cap ws = .ok t ↔ ws.length ≠ 0 ∧ exceeds cap ws.length = false ∧ ws.any (badWeight cfg) = false ∧
      cfg.ltF fZero (weightTotal cfg ws) = true ∧ ws.length < 2 ^ 64 ∧ t = aliasTables cfg (scaledWeights cfg ws) := by
  unfold buildTables
  constructor
  · intro h
    split_ifs at h with hne hcap hbad hzero hlen
    cases h
    exact ⟨hne, by simpa using hcap, by simpa using hbad, by simpa using hzero, by omega, rfl⟩
  · rintro ⟨hne, hcap, hbad, hzero, hlen, rfl⟩
    rw [if_neg hne, hcap, hbad, hzero, if_neg hlen.not_ge]
    rfl

theorem scaledWeights_length (cfg : Cfg) (ws : List F64) : (scaledWeights cfg ws).length = ws.length :=
  List.length_map _

/-! ### The arithmetic is all that the tables read of a deployment -/

section
variable {cfg cfg' : Cfg} (h : cfg.binary64 = cfg'.binary64)
include h

theorem arithmetic_eq_of_binary64 : cfg.u64ToF = cfg'.u64ToF ∧ cfg.addF = cfg'.addF ∧ cfg.subF = cfg'.subF ∧
    cfg.mulF = cfg'.mulF ∧ cfg.divF = cfg'.divF ∧ cfg.ltF = cfg'.ltF := by
  refine ⟨funext fun x => ?_, ?_, ?_, ?_, ?_, ?_⟩
  · simp only [Cfg.u64ToF, h]
  all_goals funext x y
  · simp only [Cfg.addF, h]
  · simp only [Cfg.subF, h]
  · simp only [Cfg.mulF, h]
  · simp only [Cfg.divF, h]
  · simp only [Cfg.ltF, h]

theorem pairingLoop_eq_of_binary64 (n : Nat) (k : PairingWork) : pairingLoop cfg n k = pairingLoop cfg' n k := by
  obtain ⟨-, hadd, hsub, -, -, hlt⟩ := arithmetic_eq_of_binary64 h
  induction n generalizing k with
  | zero => rfl
  | succ n ih => simp only [pairingLoop, ih, pairOnce, hadd, hsub, hlt]

theorem aliasTables_eq_of_binary64 (p : List F64) : aliasTables cfg p = aliasTables cfg' p := by
  obtain ⟨-, -, -, -, -, hlt⟩ := arithmetic_eq_of_binary64 h
  have hstart : pairingStart cfg p = pairingStart cfg' p := by rw [pairingStart, pairingStart, hlt]
  rw [aliasTables, aliasTables, hstart, pairingLoop_eq_of_binary64 h]

theorem buildTables_eq_of_binary64 (cap : Option Nat) (ws : List F64) :
    buildTables cfg cap ws = buildTables cfg' cap ws := by
  obtain ⟨hu64, hadd, -, hmul, hdiv, hlt⟩ := arithmetic_eq_of_binary64 h
  have hbad : badWeight cfg = badWeight cfg' := by funext w; rw [badWeight, badWeight, hlt]
  have htotal : weightTotal cfg ws = weightTotal cfg' ws := by rw [weightTotal, weightTotal, hadd]
  have hscaled : scaledWeights cfg ws = scaledWeights cfg' ws := by
    rw [scaledWeights, scaledWeights, hu64, hmul, hdiv, htotal]
  rw [buildTables, buildTables, hbad, htotal, hscaled, hlt, aliasTables_eq_of_binary64 h]

end

/-! ### The obligations on the tables -/

/-- Settles O14: the loop's invariant at its end, and for equal weights the side that is empty from the start. -/
theorem aliasTablesWellFormed : Obligations.AliasTablesWellFormed := by
  refine ⟨fun cfg cap ws t h => ?_, fun cfg cap n w t h => ?_⟩
  · obtain ⟨hne, hcap, -, -, -, rfl⟩ := buildTables_eq_ok.1 h
    have hpos : 1 ≤ (scaledWeights cfg ws).length := by rw [scaledWeights_length]; omega
    obtain ⟨hn, hentries⟩ := aliasTables_entries cfg hpos
    rw [hn]
    exact ⟨scaledWeights_length cfg ws, hpos, by rwa [scaledWeights_length], hentries⟩
  · obtain ⟨-, -, -, -, -, rfl⟩ := buildTables_eq_ok.1 h
    rw [scaledWeights, List.map_replicate, aliasTables_of_side_empty (pairingStart_replicate cfg n _),
      List.length_replicate]

/-- Settles O15: the loop may take one round for each index, so it runs until a side is empty. -/
theorem aliasPairings : Obligations.AliasPairings := by
  refine ⟨fun cfg p => ?_, fun cfg hcfg => ?_⟩
  · have hok := pairingStart_ok_of_any_length cfg p
    have hlen := (pairingStart_open cfg p).length_eq
    rw [List.length_append, List.length_range] at hlen
    obtain ⟨rounds, hrun⟩ := pairingLoop_run cfg hlen.le
    refine ⟨rounds, _, ?_, hrun.isChain, hrun.side_empty, aliasTables_length cfg p,
      fun r hr a g small large hs hl => ?_, fun i hi => ?_⟩
    · rw [List.headD_eq_head?_getD, hrun.head?]
      exact ⟨rfl, rfl, rfl⟩
    · obtain ⟨hclosed, hpaired⟩ := hrun.paired hok hr hs hl
      rw [aliasTables_of_closed rfl hclosed, hpaired]
    · obtain ⟨hopen, hkept⟩ := hrun.keeps_open hok hi
      have hlt := List.mem_range.1 ((pairingStart_open cfg p).mem_iff.1 hopen)
      exact aliasTables_of_open rfl hi (hkept.trans (pairingStart_entry hlt))
  · have hread : cfg.binary64 = (Cfg.growable .w64).binary64 := hcfg
    rw [buildTables_eq_of_binary64 hread, buildTables_eq_of_binary64 hread]
    decide +kernel

end Sys2Proof.Machine
end

