-- ==== Sys2Proof/Proofs/Sampler.lean ====
section
/-! The sampler unit (41_sampler.md): its operations on a ready block, and the draws of 1.0 under the arithmetic of
48_collaborators.md R315. -/

namespace Sys2Proof.Machine

/-! ### The operations on a ready block -/

theorem exceeds_eq_true_iff {cap : Option Nat} {n : Nat} : exceeds cap n = true ↔ ∃ c, cap = some c ∧ c < n := by
  cases cap <;> simp

theorem badWeight_eq_true_iff {cfg : Cfg} {w : F64} :
    badWeight cfg w = true ↔ f64IsNaN w = true ∨ f64IsInf w = true ∨ cfg.ltF w fZero = true := by
  simp [badWeight, or_assoc]

/-- The tests of a setup in their order, for a list whose length is a `u64` (41_sampler.md R151). -/
theorem buildTables_of_lt (cfg : Cfg) (cap : Option Nat) {ws : List F64} (hlen : ws.length < 2 ^ 64) :
    buildTables cfg cap ws =
      if ws = [] then .error .emptyWeights
      else if ∃ c, cap = some c ∧ c < ws.length then .error .capacityOverflow
      else if ∃ w ∈ ws, f64IsNaN w = true ∨ f64IsInf w = true ∨ cfg.ltF w fZero = true then .error .negativeWeight
      else if cfg.ltF fZero (weightTotal cfg ws) = false then .error .zeroWeights
      else .ok (aliasTables cfg (scaledWeights cfg ws)) := by
  simp only [buildTables, List.length_eq_zero_iff, exceeds_eq_true_iff, List.any_eq_true, badWeight_eq_true_iff,
    Bool.not_eq_true', if_neg hlen.not_ge]

section
variable {s : State} (hf : s.sysFault = none)
include hf

theorem exec_smpSetup_of_error {ws : List F64} {f : FaultCode} (hopr : s.opr = .weights ws)
    (hbuild : buildTables s.cfg s.cfg.smpCap ws = .error f) :
    exec .smpSetup s = .next { s with sysFault := some f, res := some (.fault f) } := by
  rw [← s.raise_of_none f hf]
  simp [exec, execSmpSetup, weightsOperand_eq_some.2 hopr, execute_of_some _ _ hf, hbuild]

theorem exec_smpSetup_of_ok {ws : List F64} {t : AliasTables} (hopr : s.opr = .weights ws)
    (hbuild : buildTables s.cfg s.cfg.smpCap ws = .ok t) :
    exec .smpSetup s = .next ((s.withSmp (some t)).reply (.ok .none)) := by
  simp [exec, execSmpSetup, weightsOperand_eq_some.2 hopr, execute_of_some _ _ hf, hbuild]

section
variable (hopr : s.opr = .empty)
include hopr

theorem exec_smpNext_of_not_set_up (hsmp : s.smp = none) : exec .smpNext s = .next (s.raise .samplerNotSetUp) := by
  simp [exec, execSmpNext, hopr, noOperands, execute_of_some _ _ hf, hsmp]

variable {t : AliasTables} (hsmp : s.smp = some t)
include hsmp

theorem exec_smpNext_of_unseeded (hp : s.prng = none) : exec .smpNext s = .next (s.raise .prngNotSeeded) := by
  simp [exec, execSmpNext, hopr, noOperands, execute_of_some _ _ hf, hsmp, hp]

section
variable {p : PrngWords} (hp : s.prng = some p)
include hp

/-- The fault of a sample comes after the two draws (41_sampler.md R153). -/
theorem exec_smpNext_of_error {f : FaultCode} (hsample : sampleFrom s.cfg t p = .error f) :
    exec .smpNext s = .next ((s.withPrng (some (prngAfter (prngAfter p)))).raise f) := by
  simp [exec, execSmpNext, hopr, noOperands, execute_of_some _ _ hf, hsmp, hp, hsample]

theorem exec_smpNext_of_ok {i : Nat} (hsample : sampleFrom s.cfg t p = .ok i) :
    exec .smpNext s = .next ((s.withPrng (some (prngAfter (prngAfter p)))).reply (.ok (.index i))) := by
  simp [exec, execSmpNext, hopr, noOperands, execute_of_some _ _ hf, hsmp, hp, hsample]

end

end

end

/-! ### The sample of two draws -/

section
variable {cfg : Cfg} {t : AliasTables} {x1 x2 : U64} {i : Nat}
  (hi : i = cfg.fToNat (cfg.mulF (cfg.u64ToF t.n) (doubleOfDraw cfg x1)))
include hi

theorem sampleOfDraws_of_le (hle : t.n ≤ i) : sampleOfDraws cfg t x1 x2 = .error .samplerIndexOutOfRange := by
  have hnone : t.entries[i]? = none := List.getElem?_eq_none hle
  simp only [sampleOfDraws, ← hi, hnone]

theorem sampleOfDraws_of_entry {e : AliasEntry} (he : t.entries[i]? = some e) :
    sampleOfDraws cfg t x1 x2 = .ok (if cfg.ltF (doubleOfDraw cfg x2) e.prob then i else e.alternative) := by
  simp only [sampleOfDraws, ← hi, he]

end

/-- A sample is an entry's index or its alternative. -/
theorem sampleOfDraws_eq_ok {cfg : Cfg} {t : AliasTables} {x1 x2 : U64} {i : Nat}
    (h : sampleOfDraws cfg t x1 x2 = .ok i) :
    ∃ e, t.entries[cfg.fToNat (cfg.mulF (cfg.u64ToF t.n) (doubleOfDraw cfg x1))]? = some e ∧
      i = if cfg.ltF (doubleOfDraw cfg x2) e.prob then
        cfg.fToNat (cfg.mulF (cfg.u64ToF t.n) (doubleOfDraw cfg x1)) else e.alternative := by
  cases he : t.entries[cfg.fToNat (cfg.mulF (cfg.u64ToF t.n) (doubleOfDraw cfg x1))]? with
  | none =>
    rw [sampleOfDraws_of_le rfl (List.getElem?_eq_none_iff.1 he)] at h
    cases h
  | some e =>
    rw [sampleOfDraws_of_entry rfl he] at h
    cases h
    exact ⟨e, rfl, rfl⟩

/-! ### Draws of 1.0 under the arithmetic of 48_collaborators.md R315 -/

/-- The comparison is that of numbers, so no value is below one that is not above it. -/
theorem ltF_asymm {a b : F64} (h : ltF a b = true) : ltF b a = false := by
  simp only [ltF, Bool.and_eq_true, decide_eq_true_eq] at h
  obtain ⟨-, hlt⟩ := h
  simp [ltF, hlt.le]

/-- An integer of at most 53 bits comes back from its product with 1.0. -/
theorem fToNat_u64ToF_mulF_fOne {n : Nat} (hle : n ≤ 2 ^ 53) : fToNat (mulF (u64ToF n) fOne) = n := by
  by_cases hn : n = 0
  · subst hn
    rw [show u64ToF 0 = fZero by decide, mulF_fZero_fOne, fToNat_fZero]
  · rw [mulF_fOne (u64ToF_positiveNormal hn (by omega)), fToNat_u64ToF hn hle]

/-! ### The obligations on the unit -/

/-- Settles O17: the product with 1.0 keeps `n`, and no probability of well-formed tables is above 1.0. -/
theorem samplerDrawOfOne : Obligations.SamplerDrawOfOne := by
  intro cfg t x1 x2 hcfg
  refine ⟨fun hn htop => ?_, fun i hok htop h => ?_⟩
  · have hindex : fToNat (mulF (u64ToF t.n) (doubleOfDraw cfg x1)) = t.n := by
      rw [(doubleOfDraw_eq_fOne_iff hcfg x1).2 htop, fToNat_u64ToF_mulF_fOne hn]
    refine ⟨hindex, sampleOfDraws_of_le (i := t.n) ?_ le_rfl⟩
    rw [Cfg.fToNat_of_standard hcfg, Cfg.mulF_of_standard hcfg, Cfg.u64ToF_of_standard hcfg, hindex]
  · obtain ⟨e, he, rfl⟩ := sampleOfDraws_eq_ok h
    obtain ⟨-, -, -, hentries⟩ := hok
    obtain ⟨halias, hprob⟩ := hentries e (List.mem_of_getElem? he)
    have hnot : cfg.ltF (doubleOfDraw cfg x2) e.prob = false := by
      rw [(doubleOfDraw_eq_fOne_iff hcfg x2).2 htop, Cfg.ltF_of_standard hcfg]
      rw [Cfg.ltF_of_standard hcfg] at hprob
      obtain hlt | hone := hprob
      · exact ltF_asymm hlt
      · rw [hone]
        decide
    rw [Cfg.fToNat_of_standard hcfg, Cfg.mulF_of_standard hcfg, Cfg.u64ToF_of_standard hcfg] at he
    simp only [hnot, Bool.false_eq_true, if_false]
    exact ⟨e, he, rfl, halias⟩

/-- Settles O13: the tests of the setup in their order. -/
theorem smpSetupOutcomes : Obligations.SmpSetupOutcomes := by
  intro s ws hf hopr hlen
  have hbuild := buildTables_of_lt s.cfg s.cfg.smpCap hlen
  rw [weightTotal] at hbuild
  split_ifs at hbuild ⊢
  · exact exec_smpSetup_of_error hf hopr hbuild
  · exact exec_smpSetup_of_error hf hopr hbuild
  · exact exec_smpSetup_of_error hf hopr hbuild
  · exact exec_smpSetup_of_error hf hopr hbuild
  · exact exec_smpSetup_of_ok hf hopr hbuild

/-- Settles O16: the two faults before the draws, and the two draws. -/
theorem smpNextOutcomes : Obligations.SmpNextOutcomes := by
  refine ⟨fun s t p i hf hopr hsmp hp hi => ⟨fun hle => ?_, fun e he => ?_⟩, fun s hf hopr hsmp => ?_,
    fun s t hf hopr hsmp hp => ?_⟩
  · have hsample : sampleFrom s.cfg t p = .error .samplerIndexOutOfRange := sampleOfDraws_of_le hi hle
    rw [exec_smpNext_of_error hf hopr hsmp hp hsample, (s.withPrng (some (prngAfter (prngAfter p)))).raise_of_none _ hf]
    rfl
  · exact exec_smpNext_of_ok hf hopr hsmp hp (sampleOfDraws_of_entry hi he)
  · rw [exec_smpNext_of_not_set_up hf hopr hsmp, s.raise_of_none _ hf]
  · rw [exec_smpNext_of_unseeded hf hopr hsmp hp, s.raise_of_none _ hf]

end Sys2Proof.Machine
end

/-! Binary64 facts behind the chooser (48_collaborators.md R315 to R322): sums of positive values, the weights `1/k`, and that
the product of an integer with a double below 1.0 stays below that integer. -/

namespace Sys2Proof.Machine

/-! ### Positive values, rounded sums -/

/-- The pattern of a value above 0.0, subnormal, normal or infinite. -/
def PositiveValue (a : F64) : Prop := 0 < a.toNat ∧ a.toNat ≤ 2047 * 2 ^ 52

theorem PositiveNormal.positiveValue {a : F64} (h : PositiveNormal a) : PositiveValue a := by
  obtain ⟨hlo, hhi⟩ := h
  exact ⟨by omega, by omega⟩

theorem PositiveNormal.isZero {a : F64} (h : PositiveNormal a) : f64IsZero a = false := by
  obtain ⟨hlo, hhi⟩ := h
  simp only [f64IsZero, beq_eq_false_iff_ne]
  omega

theorem f64IsNaN_of_toNat_le {a : F64} (h : a.toNat ≤ 2047 * 2 ^ 52) : f64IsNaN a = false := by
  simp only [f64IsNaN, f64Exponent, f64Fraction, Bool.and_eq_false_iff, beq_eq_false_iff_ne, bne_eq_false_iff_eq]
  omega

theorem f64Sign_of_toNat_le {a : F64} (h : a.toNat ≤ 2047 * 2 ^ 52) : f64Sign a = false :=
  Nat.testBit_lt_two_pow (by omega)

theorem PositiveValue.fZero_ltF {a : F64} (h : PositiveValue a) : ltF fZero a = true := by
  obtain ⟨hlo, hhi⟩ := h
  simp [ltF, f64Key, f64IsNaN_of_toNat_le hhi, f64Sign_of_toNat_le hhi, hlo, show f64IsNaN fZero = false by decide,
    show f64Sign fZero = false by decide, show fZero.toNat = 0 by decide]

theorem f64Scale_ge (a : F64) : -1074 ≤ f64Scale a := by
  unfold f64Scale
  split <;> omega

theorem positiveValue_of_magnitude {magnitude : Nat} (h : 0 < magnitude) :
    PositiveValue (if 2047 * 2 ^ 52 ≤ magnitude then f64Inf false
      else BitVec.ofNat 64 (f64SignBit false + magnitude)) := by
  split
  · exact ⟨by decide, by decide⟩
  · have htoNat : (BitVec.ofNat 64 (f64SignBit false + magnitude)).toNat = magnitude := by
      simp only [f64SignBit, Bool.false_eq_true, if_false, Nat.zero_add, BitVec.toNat_ofNat]
      exact Nat.mod_eq_of_lt (by omega)
    exact ⟨by omega, by omega⟩

/-- A multiple of the least subnormal is not rounded to 0.0. -/
theorem f64Round_positive {m : Nat} {e : Int} (hm : m ≠ 0) (he : -1074 ≤ e) : PositiveValue (f64Round false m e) := by
  rw [f64Round, if_neg hm]
  refine positiveValue_of_magnitude (Nat.add_pos_right _ ?_)
  split
  · positivity
  · next hq =>
    obtain ⟨hround, -⟩ := roundedSignificand_bounds hm
    rw [roundedSignificand, if_neg (by omega)] at hround
    rw [show (max (e + (m.log2 : Int) - 52) (-1074) - e).toNat = m.log2 - 52 by omega]
    omega

theorem f64Scaled_nonneg {a : F64} (ha : a.toNat ≤ 2047 * 2 ^ 52) (e : Int) : 0 ≤ f64Scaled a e := by
  simp only [f64Scaled, f64Sign_of_toNat_le ha, Bool.false_eq_true, if_false]
  positivity

theorem PositiveNormal.f64Scaled_pos {b : F64} (hb : PositiveNormal b) (e : Int) : 0 < f64Scaled b e := by
  have hsig : 0 < f64Significand b := (Nat.two_pow_pos 52).trans_le hb.significand_bounds.1
  simp only [f64Scaled, hb.sign, Bool.false_eq_true, if_false]
  positivity

/-- Adding a positive normal value to a value that is not negative gives a positive value. -/
theorem addF_positive {a b : F64} (ha : a.toNat ≤ 2047 * 2 ^ 52) (hb : PositiveNormal b) : PositiveValue (addF a b) := by
  have hscale := le_min (f64Scale_ge a) (f64Scale_ge b)
  have hsum := add_pos_of_nonneg_of_pos (f64Scaled_nonneg ha (min (f64Scale a) (f64Scale b)))
    (hb.f64Scaled_pos (min (f64Scale a) (f64Scale b)))
  simp only [addF, f64IsNaN_of_toNat_le ha, hb.isNaN, hb.isInf, Bool.or_self, Bool.false_eq_true, if_false,
    Bool.false_and, hsum.ne']
  split
  · next hinf =>
    refine ⟨Nat.pos_of_ne_zero fun h0 => ?_, ha⟩
    simp [f64IsInf, f64Exponent, h0] at hinf
  · rw [decide_eq_false hsum.not_gt]
    exact f64Round_positive (Int.natAbs_ne_zero.2 hsum.ne') hscale

/-- The sum of positive normal weights is positive; it may be an infinity. -/
theorem foldl_addF_positive {ws : List F64} (hne : ws ≠ []) (hws : ∀ w ∈ ws, PositiveNormal w) :
    PositiveValue (ws.foldl addF fZero) := by
  obtain ⟨w, ws, rfl⟩ := List.exists_cons_of_ne_nil hne
  rw [List.foldl_cons]
  refine List.foldlRecOn ws addF (addF_positive (by decide) (hws w List.mem_cons_self)) fun acc hacc v hv => ?_
  exact addF_positive hacc.2 (hws v (List.mem_cons_of_mem w hv))

/-! ### The weights -/

/-- The quotient of 1.0 by a value from 1.0 to `2 ^ 64` is a normal value. -/
theorem divF_fOne_positiveNormal {b : F64} (hlo : fOne.toNat ≤ b.toNat) (hhi : b.toNat ≤ fTwo64.toNat) :
    PositiveNormal (divF fOne b) := by
  rw [fOne_toNat] at hlo
  rw [fTwo64_toNat] at hhi
  have hone := fOne_positiveNormal
  have hb : PositiveNormal b := ⟨by omega, by omega⟩
  have hscale := hb.scale
  obtain ⟨hsiglo, hsighi⟩ := hb.significand_bounds
  obtain ⟨m, hround, hmlo, hmhi⟩ : ∃ m, divF fOne b = f64Round false m (-52 - f64Scale b - 111) ∧
      2 ^ 110 ≤ m ∧ m < 2 ^ 112 := by
    have hquotient : 2 ^ 109 ≤ 2 ^ 162 / f64Significand b ∧ 2 ^ 162 / f64Significand b ≤ 2 ^ 110 := by
      rw [Nat.le_div_iff_mul_le (by omega)]
      exact ⟨by omega, Nat.div_le_of_le_mul (by omega)⟩
    refine ⟨2 * (2 ^ 162 / f64Significand b) + if 2 ^ 162 % f64Significand b = 0 then 0 else 1, ?_, by omega,
      by split <;> omega⟩
    simp [divF, hone.isNaN, hone.isInf, hone.sign, hb.isNaN, hb.isInf, hb.sign, hb.isZero, divGuardBits,
      show f64Significand fOne = 2 ^ 52 by decide, show f64Scale fOne = -52 by decide]
  have hne : m ≠ 0 := by omega
  have hlog : 110 ≤ m.log2 ∧ m.log2 < 112 := ⟨(Nat.le_log2 hne).2 hmlo, (Nat.log2_lt hne).2 hmhi⟩
  obtain ⟨hrlo, hrhi⟩ := roundedSignificand_bounds hne
  have htoNat := f64Round_toNat hne (e := -52 - f64Scale b - 111)
    (E := (-52 - f64Scale b - 111 + m.log2 + 1022).toNat) (by omega) (by omega)
  rw [hround, PositiveNormal, htoNat]
  omega

/-! ### The product with a double below 1.0 -/

theorem mulF_of_positiveNormal {a b : F64} (ha : PositiveNormal a) (hb : PositiveNormal b) :
    mulF a b = f64Round false (f64Significand a * f64Significand b) (f64Scale a + f64Scale b) := by
  simp [mulF, ha.isNaN, ha.isInf, ha.sign, hb.isNaN, hb.isInf, hb.sign]

theorem mulF_fZero {a : F64} (ha : PositiveNormal a) : mulF a fZero = fZero := by
  simp only [mulF, ha.isNaN, ha.isInf, ha.sign, show f64IsNaN fZero = false by decide,
    show f64IsInf fZero = false by decide, show f64Sign fZero = false by decide,
    show f64Significand fZero = 0 by decide, Bool.or_self, Bool.false_eq_true, if_false, Nat.mul_zero]
  rfl

/-- A value below the middle of `c - 1` and `c` is not rounded up to `c`. -/
theorem shiftRoundEven_lt {m k c : Nat} (hk : k ≠ 0) (h : m + 2 ^ (k - 1) < c * 2 ^ k) : shiftRoundEven m k < c := by
  have hdiv := Nat.div_add_mod m (2 ^ k)
  have hpow : 2 ^ k = 2 * 2 ^ (k - 1) := by rw [← pow_succ', Nat.sub_add_cancel (Nat.pos_of_ne_zero hk)]
  rw [shiftRoundEven, if_neg hk]
  dsimp only
  split
  · next hup =>
    refine Nat.lt_of_mul_lt_mul_right (a := 2 ^ k) ?_
    rw [Nat.add_mul, Nat.mul_comm (m / 2 ^ k)]
    omega
  · exact (Nat.div_lt_iff_lt_mul (Nat.two_pow_pos k)).2 (by omega)

/-- The product of two significands, rounded: below the first one if the product has all 106 bits, since the second is below
`2 ^ 53`; with 105 bits at most `2 ^ 53`, where the exponent is one lower, and less if the first is the least one, since then
nothing is rounded. -/
theorem roundedSignificand_mul_lt {a d : Nat} (halo : 2 ^ 52 ≤ a) (hahi : a < 2 ^ 53) (hdlo : 2 ^ 52 ≤ d)
    (hdhi : d < 2 ^ 53) : ((a * d).log2 = 105 ∧ roundedSignificand (a * d) < a) ∨
      ((a * d).log2 = 104 ∧ roundedSignificand (a * d) ≤ 2 ^ 53 ∧
        (a = 2 ^ 52 → roundedSignificand (a * d) < 2 ^ 53)) := by
  have hpos : a * d ≠ 0 := by positivity
  have hlo : 2 ^ 52 * 2 ^ 52 ≤ a * d := Nat.mul_le_mul halo hdlo
  have hhi : a * d < 2 ^ 53 * 2 ^ 53 := Nat.mul_lt_mul'' hahi hdhi
  by_cases h105 : 2 ^ 105 ≤ a * d
  · have hlog : (a * d).log2 = 105 := (Nat.log2_eq_iff hpos).2 ⟨h105, hhi⟩
    have hle : a * d ≤ a * (2 ^ 53 - 1) := Nat.mul_le_mul_left a (by omega)
    refine .inl ⟨hlog, ?_⟩
    rw [roundedSignificand, hlog, if_neg (by decide)]
    exact shiftRoundEven_lt (by decide) (by omega)
  · have hlog : (a * d).log2 = 104 := (Nat.log2_eq_iff hpos).2 ⟨hlo, by omega⟩
    refine .inr ⟨hlog, (roundedSignificand_bounds hpos).2, ?_⟩
    rintro rfl
    rw [Nat.mul_comm, (roundedSignificand_mul_pow hdlo hdhi 52).2]
    exact hdhi

/-- The product of a value of at least 1.0 with a double of at least `2 ^ -64` and below 1.0 is below that value: rounding
does not make up for the factor. -/
theorem mulF_lt {a d : F64} (ha : PositiveNormal a) (hd : PositiveNormal d) (halo : fOne.toNat ≤ a.toNat)
    (hdlo : fOne.toNat ≤ d.toNat + 64 * 2 ^ 52) (hdhi : d.toNat < fOne.toNat) :
    PositiveNormal (mulF a d) ∧ (mulF a d).toNat < a.toNat := by
  rw [fOne_toNat] at halo hdlo hdhi
  obtain ⟨hasiglo, hasighi⟩ := ha.significand_bounds
  obtain ⟨hdsiglo, hdsighi⟩ := hd.significand_bounds
  have hasig := ha.significand
  have hascale := ha.scale
  have hdscale := hd.scale
  have hne : f64Significand a * f64Significand d ≠ 0 := by positivity
  obtain ⟨hrlo, hrhi⟩ := roundedSignificand_bounds hne
  obtain ⟨-, hahi⟩ := ha
  have hcases := roundedSignificand_mul_lt hasiglo hasighi hdsiglo hdsighi
  have htoNat := f64Round_toNat (E := (f64Scale a + f64Scale d + (f64Significand a * f64Significand d).log2 + 1022).toNat)
    hne (e := f64Scale a + f64Scale d) (by omega) (by omega)
  rw [mulF_of_positiveNormal ⟨by omega, hahi⟩ hd, PositiveNormal, htoNat]
  omega

/-! ### The floor of a value below an integer -/

/-- An integer of at most 53 bits is its significand, scaled: nothing is rounded. -/
theorem roundedSignificand_mul_pow_log2 {n : Nat} (hpos : n ≠ 0) (hle : n ≤ 2 ^ 53) :
    roundedSignificand n * 2 ^ n.log2 = n * 2 ^ 52 := by
  obtain rfl | hlt := hle.eq_or_lt
  · decide
  · have hlog : n.log2 < 53 := (Nat.log2_lt hpos).2 hlt
    rw [roundedSignificand, if_pos (by omega), mul_assoc, ← pow_add, Nat.sub_add_cancel (by omega)]

/-- A value below an integer of at most 53 bits has a floor below it; `k` is the number of its bits below 1.0. -/
theorem fToNat_lt_of_toNat_lt {n : Nat} {b : F64} (hpos : n ≠ 0) (hle : n ≤ 2 ^ 53) (hb : PositiveNormal b)
    (hlt : b.toNat < (u64ToF n).toNat) : fToNat b < n := by
  rw [u64ToF_toNat hpos (by omega)] at hlt
  obtain ⟨hnlo, hnhi⟩ := roundedSignificand_bounds hpos
  have hexact := roundedSignificand_mul_pow_log2 hpos hle
  have hlog : n.log2 < 54 := (Nat.log2_lt hpos).2 (by omega)
  have hscale := hb.scale
  have hsig := hb.significand
  obtain ⟨hsiglo, hsighi⟩ := hb.significand_bounds
  have htop : n.log2 = 53 → roundedSignificand n ≤ 2 ^ 52 := fun h => by rw [h] at hexact; omega
  obtain ⟨k, hk⟩ : ∃ k : Nat, f64Scale b = -(k : Int) := ⟨(-f64Scale b).toNat, by omega⟩
  have hfloor : fToNat b = f64Significand b / 2 ^ k := by
    rw [fToNat, hk, neg_neg, Int.toNat_natCast]
    split
    · next hzero =>
      obtain rfl : k = 0 := by omega
      simp
    · rfl
  have hbits : f64Significand b * 2 ^ 52 < roundedSignificand n * 2 ^ (n.log2 + k) := by
    obtain hequal | hmore : n.log2 + k = 52 ∨ 53 ≤ n.log2 + k := by omega
    · rw [hequal]
      omega
    · calc f64Significand b * 2 ^ 52 < 2 ^ 52 * 2 ^ 53 := by omega
        _ ≤ _ := Nat.mul_le_mul hnlo (Nat.pow_le_pow_right (by decide) hmore)
  rw [hfloor, Nat.div_lt_iff_lt_mul (Nat.two_pow_pos k)]
  refine Nat.lt_of_mul_lt_mul_right (a := 2 ^ 52) ?_
  calc f64Significand b * 2 ^ 52 < roundedSignificand n * 2 ^ (n.log2 + k) := hbits
    _ = n * 2 ^ k * 2 ^ 52 := by rw [pow_add, ← mul_assoc, hexact, mul_right_comm]

end Sys2Proof.Machine

/-! The fragment chooser (42_chooser.md): `CHS.CHOOSE` on a ready block, the picks of a later round, the faults that a draw of
1.0 gives under the arithmetic of 48_collaborators.md R315, and the part of the stream that the indices give. -/

namespace Sys2Proof.Machine

/-! ### The operation on a ready block -/

/-- The operand `sequence` is 0 as a word exactly if the host's number is. -/
theorem choice_zero_iff {sequence n : Nat} (h : sequence < 2 ^ 32) :
    (BitVec.ofNat 32 sequence = 0 ∨ n = 0) ↔ (sequence = 0 ∨ n = 0) := by
  rw [← BitVec.toNat_inj, BitVec.toNat_ofNat, Nat.mod_eq_of_lt h]
  rfl

section
variable {s : State} {sequence n checksum : Nat} (hf : s.sysFault = none) (hopr : s.opr = .choice sequence n checksum)
  (hfits : sequence < 2 ^ 32 ∧ n < 2 ^ s.cfg.usize.bits ∧ checksum < 2 ^ 32)
include hf hopr hfits

theorem exec_chsChoose_of_zero (hzero : sequence = 0 ∨ n = 0) :
    exec .chsChoose s = .next (s.raise .chooserPrecondition) := by
  simp only [exec, execChsChoose, hopr, choiceOperands_of_fits hfits, execute_of_some _ _ hf, choice_zero_iff hfits.1,
    if_pos hzero]

section
variable (hpos : ¬(sequence = 0 ∨ n = 0))
include hpos

theorem exec_chsChoose_of_exceeds (hcap : exceeds s.cfg.maxFragments n = true) :
    exec .chsChoose s = .next (s.raise .capacityOverflow) := by
  simp only [exec, execChsChoose, hopr, choiceOperands_of_fits hfits, execute_of_some _ _ hf, choice_zero_iff hfits.1,
    if_neg hpos, if_pos hcap]

variable (hcap : exceeds s.cfg.maxFragments n = false)
include hcap

theorem exec_chsChoose_of_error {f : FaultCode}
    (hchoose : choose s.cfg (BitVec.ofNat 32 sequence) n (BitVec.ofNat 32 checksum) = .error f) :
    exec .chsChoose s = .next (s.raise f) := by
  simp only [exec, execChsChoose, hopr, choiceOperands_of_fits hfits, execute_of_some _ _ hf, choice_zero_iff hfits.1,
    if_neg hpos, hcap, Bool.false_eq_true, if_false, hchoose]

theorem exec_chsChoose_of_ok {indexes : List Nat}
    (hchoose : choose s.cfg (BitVec.ofNat 32 sequence) n (BitVec.ofNat 32 checksum) = .ok indexes) :
    exec .chsChoose s = .next (s.reply (.ok (.indexes indexes))) := by
  simp only [exec, execChsChoose, hopr, choiceOperands_of_fits hfits, execute_of_some _ _ hf, choice_zero_iff hfits.1,
    if_neg hpos, hcap, Bool.false_eq_true, if_false, hchoose, State.answer_eq]

end

end

theorem exceeds_eq_false_iff {cap : Option Nat} {n : Nat} : exceeds cap n = false ↔ ∀ c, cap = some c → n ≤ c := by
  rw [← Bool.not_eq_true, exceeds_eq_true_iff]
  simp only [not_exists, not_and, not_lt]

/-- Settles O18: the tests of `CHS.CHOOSE` in their order, then the chooser, which in the first round passes through. -/
theorem chsChooseOutcomes : Obligations.ChsChooseOutcomes := by
  refine ⟨fun cfg sequence n checksum _ hle => choose_of_le hle, fun s sequence n checksum hf hopr hseq hn hsum => ?_⟩
  have hfits : sequence < 2 ^ 32 ∧ n < 2 ^ s.cfg.usize.bits ∧ checksum < 2 ^ 32 := ⟨hseq, hn, hsum⟩
  have htoNat : (BitVec.ofNat 32 sequence).toNat = sequence := by rw [BitVec.toNat_ofNat, Nat.mod_eq_of_lt hseq]
  refine ⟨fun hzero => ?_, fun hs1 hn1 c hc hlt => ?_, fun hs1 hle hcap => ?_, fun hn1 hlt hcap => ?_⟩
  · rw [exec_chsChoose_of_zero hf hopr hfits hzero, s.raise_of_none _ hf]
  · rw [exec_chsChoose_of_exceeds hf hopr hfits (by omega) (exceeds_eq_true_iff.2 ⟨c, hc, hlt⟩), s.raise_of_none _ hf]
  · have hchoose := choose_of_le (cfg := s.cfg) (checksum := BitVec.ofNat 32 checksum) (htoNat.trans_le hle)
    rw [exec_chsChoose_of_ok hf hopr hfits (by omega) (exceeds_eq_false_iff.2 hcap) hchoose, htoNat]
    rfl
  · have hpos : ¬(sequence = 0 ∨ n = 0) := by omega
    have hcap' := exceeds_eq_false_iff.2 hcap
    cases hchoose : choose s.cfg (BitVec.ofNat 32 sequence) n (BitVec.ofNat 32 checksum) with
    | error f => rw [exec_chsChoose_of_error hf hopr hfits hpos hcap' hchoose, s.raise_of_none _ hf]
    | ok indexes => exact exec_chsChoose_of_ok hf hopr hfits hpos hcap' hchoose

/-! ### A later round -/

/-- What a later round went through to answer a set (42_chooser.md R172, R173): the private tables, the sample `k` from the
seeded generator, and `k + 1` picks from the generator two draws on. -/
theorem chooseLater_ok_cases {cfg : Cfg} {sequence : U32} {n : Nat} {checksum : U32} {indexes : List Nat}
    (h : chooseLater cfg sequence n checksum = .ok indexes) :
    ∃ t k picked, buildTables cfg none (chooserWeights cfg n) = .ok t ∧
      sampleFrom cfg t (seededWords cfg (chooserSeed sequence checksum)) = .ok k ∧
      pickIndexes cfg (k + 1) (prngAfter^[2] (seededWords cfg (chooserSeed sequence checksum))) (List.range n) =
        .ok picked ∧ indexes = toIndexSet picked := by
  simp only [chooseLater] at h
  split at h
  · cases h
  next t ht =>
  split at h
  · cases h
  next k hk =>
  split at h
  · cases h
  next picked hpicked =>
  cases h
  exact ⟨t, k, picked, ht, hk, hpicked, rfl⟩

/-- A later round whose private tables are built fails in its sample or in its picks. -/
theorem chooseLater_error_cases {cfg : Cfg} {sequence : U32} {n : Nat} {checksum : U32} {t : AliasTables} {f : FaultCode}
    (ht : buildTables cfg none (chooserWeights cfg n) = .ok t) (h : chooseLater cfg sequence n checksum = .error f) :
    sampleFrom cfg t (seededWords cfg (chooserSeed sequence checksum)) = .error f ∨
      ∃ k, sampleFrom cfg t (seededWords cfg (chooserSeed sequence checksum)) = .ok k ∧
        pickIndexes cfg (k + 1) (prngAfter^[2] (seededWords cfg (chooserSeed sequence checksum))) (List.range n) =
          .error f := by
  simp only [chooseLater, ht] at h
  split at h
  · next f' hsample => cases h; exact .inl hsample
  next k hk =>
  split at h
  · next f' hpicks => cases h; exact .inr ⟨k, hk, hpicks⟩
  · cases h

/-- A sample of tables that a setup built is one of their indices: the selected one or its alias. -/
theorem sampleFrom_lt {cfg : Cfg} {cap : Option Nat} {ws : List F64} {t : AliasTables} {g : PrngWords} {k : Nat}
    (ht : buildTables cfg cap ws = .ok t) (h : sampleFrom cfg t g = .ok k) : k < ws.length := by
  obtain ⟨htables, -⟩ := aliasTablesWellFormed
  obtain ⟨hn, -, -, hentries⟩ := htables cfg cap ws t ht
  obtain ⟨e, he, rfl⟩ := sampleOfDraws_eq_ok h
  obtain ⟨hindex, -⟩ := List.getElem?_eq_some_iff.1 he
  obtain ⟨halias, -⟩ := hentries e (List.mem_of_getElem? he)
  rw [← hn]
  split
  · exact hindex
  · exact halias

/-! ### The picks -/

/-- Taking out the element at a place of a list of distinct elements is taking out that element. -/
theorem eraseIdx_eq_filter_of_nodup {l : List Nat} (h : l.Nodup) {p i : Nat} (hi : l[p]? = some i) :
    l.eraseIdx p = l.filter fun m => m ≠ i := by
  obtain ⟨hp, rfl⟩ := List.getElem?_eq_some_iff.1 hi
  rw [← h.erase_getElem p hp, h.erase_eq_filter]
  exact List.filter_congr fun m _ => (decide_not ..).symm

/-- Pick `j` stands at the place that draw `j` gives among the elements not picked before (42_chooser.md R173), so that no
element is picked twice. -/
theorem pickIndexes_picks {cfg : Cfg} {k : Nat} {g : PrngWords} {remaining picked : List Nat} (hnodup : remaining.Nodup)
    (h : pickIndexes cfg k g remaining = .ok picked) :
    picked.Nodup ∧ ∀ j, j < k → ∃ i, picked[j]? = some i ∧
      (remaining.filter fun m => m ∉ picked.take j)[
        intOfDraw cfg (prngDraw (prngAfter^[j] g)) 0 (remaining.length - j - 1)]? = some i := by
  induction k generalizing g remaining picked with
  | zero => cases h; exact ⟨.nil, nofun⟩
  | succ k ih =>
    simp only [pickIndexes] at h
    split at h
    · cases h
    next i hi =>
    split at h
    · cases h
    next rest hrest =>
    cases h
    obtain ⟨hplace, -⟩ := List.getElem?_eq_some_iff.1 hi
    have hlength := List.length_eraseIdx_of_lt hplace
    rw [eraseIdx_eq_filter_of_nodup hnodup hi] at hrest hlength
    obtain ⟨hrestNodup, hpicks⟩ := ih (hnodup.filter _) hrest
    obtain ⟨-, hmem⟩ := pickIndexes_eq_ok hrest
    have hnew : i ∉ rest := fun hir => by simpa using (List.mem_filter.1 (hmem i hir)).2
    refine ⟨List.nodup_cons.2 ⟨hnew, hrestNodup⟩, fun j hj => ?_⟩
    cases j with
    | zero => exact ⟨i, rfl, by simpa using hi⟩
    | succ j =>
      obtain ⟨i', hi', hat⟩ := hpicks j (by omega)
      refine ⟨i', hi', ?_⟩
      rw [hlength, List.filter_filter, show remaining.length - 1 - j - 1 = remaining.length - (j + 1) - 1 by omega] at hat
      rw [← hat, Function.iterate_succ_apply]
      congr 2
      funext m
      simp [Bool.and_comm]

theorem toIndexSet_length {l : List Nat} (h : l.Nodup) : (toIndexSet l).length = l.length := by
  induction l with
  | nil => rfl
  | cons i l ih =>
    obtain ⟨hi, hl⟩ := List.nodup_cons.1 h
    have hnew : i ∉ toIndexSet l := fun hmem => hi (mem_toIndexSet.1 hmem)
    calc (toIndexSet (i :: l)).length = (toIndexSet l).length + 1 := insertIndex_length_of_not_mem hnew
      _ = (i :: l).length := by rw [ih hl, List.length_cons]

/-- Settles O19: the set is an index set, and in a later round the set of `k + 1` distinct picks. -/
theorem chooserResultSet : Obligations.ChooserResultSet := by
  intro cfg sequence n checksum indexes hseq h
  have hne : sequence ≠ 0 := by rintro rfl; exact absurd hseq (by decide)
  obtain ⟨hset, hnonempty⟩ := choose_indexSet hne h
  refine ⟨hset.1, hset.2, List.length_pos_iff.2 hnonempty, hset.length_le, fun hle => ?_, fun hlt => ?_⟩
  · rw [choose_of_le hle] at h
    cases h
    rfl
  · rw [choose, if_neg hlt.not_ge] at h
    obtain ⟨t, k, picked, ht, hsample, hpick, rfl⟩ := chooseLater_ok_cases h
    obtain ⟨hlen, -⟩ := pickIndexes_eq_ok hpick
    obtain ⟨hnodup, hpicks⟩ := pickIndexes_picks List.nodup_range hpick
    refine ⟨t, _, k, picked, ht, rfl, hsample, hlen, (toIndexSet_length hnodup).trans hlen, fun i => mem_toIndexSet,
      fun j hj => ?_⟩
    obtain ⟨i, hi, hat⟩ := hpicks j hj
    rw [List.length_range, ← Function.iterate_add_apply] at hat
    exact ⟨i, hi, hat⟩

/-! ### Places that a draw below 1.0 gives -/

section
variable {cfg : Cfg} (hcfg : cfg.binary64 = .standard) {n : Nat} (hpos : n ≠ 0) (hle : n ≤ 2 ^ 53) {x : U64}
  (hx : x.toNat < 2 ^ 64 - 1024)
include hcfg hpos hle hx

/-- A draw whose double is below 1.0 selects a place below `n`. -/
theorem fToNat_mulF_doubleOfDraw_lt : fToNat (mulF (u64ToF n) (doubleOfDraw cfg x)) < n := by
  have hnormal := u64ToF_positiveNormal hpos (by omega)
  by_cases hzero : x = 0
  · rw [hzero, doubleOfDraw_zero hcfg, mulF_fZero hnormal, fToNat_fZero]
    exact Nat.pos_of_ne_zero hpos
  · obtain ⟨hdraw, hpattern⟩ := doubleOfDraw_pattern hcfg hzero
    have hdrawlo := (u64ToF_toNat_bounds (draw_toNat_ne_zero hzero) x.isLt).1
    obtain ⟨hproduct, hlt⟩ := mulF_lt hnormal hdraw (u64ToF_toNat_bounds hpos (by omega)).1
      (hdrawlo.trans_eq hpattern.symm) (doubleOfDraw_lt_fOne hcfg hzero hx)
    exact fToNat_lt_of_toNat_lt hpos hle hproduct hlt

/-- `NextInt(0, n - 1)` of such a draw is a place below `n`. -/
theorem intOfDraw_lt : intOfDraw cfg x 0 (n - 1) < n := by
  rw [intOfDraw_of_standard hcfg, mulF_comm, show n - 1 - 0 + 1 = n by omega]
  exact fToNat_mulF_doubleOfDraw_lt hcfg hpos hle hx

end

/-! ### The faults of a draw of 1.0 -/

/-- A sample only fails by its index (41_sampler.md R153). -/
theorem sampleOfDraws_eq_error {cfg : Cfg} {t : AliasTables} {x1 x2 : U64} {f : FaultCode}
    (h : sampleOfDraws cfg t x1 x2 = .error f) : f = .samplerIndexOutOfRange ∧
      t.n ≤ cfg.fToNat (cfg.mulF (cfg.u64ToF t.n) (doubleOfDraw cfg x1)) := by
  cases he : t.entries[cfg.fToNat (cfg.mulF (cfg.u64ToF t.n) (doubleOfDraw cfg x1))]? with
  | none =>
    have hle : t.n ≤ cfg.fToNat (cfg.mulF (cfg.u64ToF t.n) (doubleOfDraw cfg x1)) := List.getElem?_eq_none_iff.1 he
    rw [sampleOfDraws_of_le rfl hle] at h
    cases h
    exact ⟨rfl, hle⟩
  | some e =>
    rw [sampleOfDraws_of_entry rfl he] at h
    cases h

/-- The index fault of a sample takes a first draw of 1.0 (40_prng.md R135). -/
theorem top_draw_of_sampleFrom_error {cfg : Cfg} {t : AliasTables} {g : PrngWords} {f : FaultCode}
    (hcfg : cfg.binary64 = .standard) (hpos : t.n ≠ 0) (hle : t.n ≤ 2 ^ 53) (h : sampleFrom cfg t g = .error f) :
    2 ^ 64 - 1024 ≤ (prngDraw g).toNat := by
  obtain ⟨-, hindex⟩ := sampleOfDraws_eq_error h
  rw [Cfg.fToNat_of_standard hcfg, Cfg.mulF_of_standard hcfg, Cfg.u64ToF_of_standard hcfg] at hindex
  by_contra hx
  exact hindex.not_gt (fToNat_mulF_doubleOfDraw_lt hcfg hpos hle (not_le.1 hx))

/-- A pick fails at the first place past the end (60_exceptions.md R352): pick `j`, of the indices that are left. -/
theorem pickIndexes_eq_error {cfg : Cfg} {k : Nat} {g : PrngWords} {remaining : List Nat} {f : FaultCode}
    (h : pickIndexes cfg k g remaining = .error f) : f = .arithmeticOverflow ∧
      ∃ j < k, remaining.length - j ≤ intOfDraw cfg (prngDraw (prngAfter^[j] g)) 0 (remaining.length - j - 1) := by
  induction k generalizing g remaining with
  | zero => cases h
  | succ k ih =>
    simp only [pickIndexes] at h
    split at h
    · next hend =>
      cases h
      exact ⟨rfl, 0, by omega, List.getElem?_eq_none_iff.1 hend⟩
    next i hi =>
    split at h
    · next f' hrest =>
      cases h
      obtain ⟨hplace, -⟩ := List.getElem?_eq_some_iff.1 hi
      obtain ⟨hf, j, hj, hend⟩ := ih hrest
      rw [List.length_eraseIdx_of_lt hplace, Nat.sub_right_comm, Nat.sub_sub] at hend
      exact ⟨hf, j + 1, by omega, hend⟩
    · cases h

/-- The fault of a pick takes a draw of 1.0 (40_prng.md R135), as long as there is an index left for each pick. -/
theorem top_draw_of_pickIndexes_error {cfg : Cfg} {k : Nat} {g : PrngWords} {remaining : List Nat} {f : FaultCode}
    (hcfg : cfg.binary64 = .standard) (hk : k ≤ remaining.length) (hle : remaining.length ≤ 2 ^ 53)
    (h : pickIndexes cfg k g remaining = .error f) :
    ∃ j < k, 2 ^ 64 - 1024 ≤ (prngDraw (prngAfter^[j] g)).toNat := by
  obtain ⟨-, j, hj, hend⟩ := pickIndexes_eq_error h
  refine ⟨j, hj, ?_⟩
  by_contra hx
  exact hend.not_gt (intOfDraw_lt hcfg (by omega) (by omega) (not_le.1 hx))

/-! ### The private setup -/

theorem chooserWeights_length (cfg : Cfg) (n : Nat) : (chooserWeights cfg n).length = n := by
  rw [chooserWeights, List.length_map, List.length_range]

/-- Under the arithmetic of 48_collaborators.md R315 every weight is a positive normal value. -/
theorem chooserWeights_positiveNormal {cfg : Cfg} (hcfg : cfg.binary64 = .standard) {n : Nat} (hn : n < 2 ^ 64) :
    ∀ w ∈ chooserWeights cfg n, PositiveNormal w := by
  intro w hw
  obtain ⟨i, hi, rfl⟩ := List.mem_map.1 hw
  have hlt : i + 1 < 2 ^ 64 := Nat.lt_of_le_of_lt (List.mem_range.1 hi) hn
  obtain ⟨hlo, hhi⟩ := u64ToF_toNat_bounds (Nat.succ_ne_zero i) hlt
  rw [Cfg.divF_of_standard hcfg, Cfg.u64ToF_of_standard hcfg]
  exact divF_fOne_positiveNormal hlo hhi

theorem PositiveNormal.badWeight_eq_false {cfg : Cfg} (hcfg : cfg.binary64 = .standard) {w : F64} (hw : PositiveNormal w) :
    badWeight cfg w = false := by
  rw [badWeight, hw.isNaN, hw.isInf, Cfg.ltF_of_standard hcfg, ltF_asymm hw.positiveValue.fZero_ltF]
  rfl

/-- The private setup has no capacity, and its weights and their sum are positive, so no fault of 41_sampler.md R151 occurs. -/
theorem buildTables_chooserWeights {cfg : Cfg} (hcfg : cfg.binary64 = .standard) {n : Nat} (hpos : 1 ≤ n)
    (hlt : n < 2 ^ 64) : ∃ t, buildTables cfg none (chooserWeights cfg n) = .ok t := by
  have hweights := chooserWeights_positiveNormal hcfg hlt
  have hlen := chooserWeights_length cfg n
  refine ⟨_, buildTables_eq_ok.2 ⟨by omega, rfl, ?_, ?_, by omega, rfl⟩⟩
  · exact List.any_eq_false.2 fun w hw => by rw [(hweights w hw).badWeight_eq_false hcfg]; decide
  · rw [weightTotal, Cfg.addF_of_standard hcfg, Cfg.ltF_of_standard hcfg]
    exact (foldl_addF_positive (List.ne_nil_of_length_pos (by omega)) hweights).fZero_ltF

/-! ### The faults of the chooser -/

/-- Everything that can make the chooser fail when its private setup succeeds: the index fault of the sample, or the overflow of
one of at most `n` picks (42_chooser.md R172, R173). -/
theorem choose_error_cases {cfg : Cfg} {sequence : U32} {n : Nat} {checksum : U32} {t : AliasTables} {f : FaultCode}
    (ht : buildTables cfg none (chooserWeights cfg n) = .ok t) (h : choose cfg sequence n checksum = .error f) :
    (f = .samplerIndexOutOfRange ∧ sampleFrom cfg t (seededWords cfg (chooserSeed sequence checksum)) = .error f) ∨
      (f = .arithmeticOverflow ∧ ∃ k < n, pickIndexes cfg (k + 1)
        (prngAfter^[2] (seededWords cfg (chooserSeed sequence checksum))) (List.range n) = .error f) := by
  by_cases hle : sequence.toNat ≤ n
  · rw [choose_of_le hle] at h
    cases h
  rw [choose, if_neg hle] at h
  obtain hsample | ⟨k, hsample, hpicks⟩ := chooseLater_error_cases ht h
  · exact .inl ⟨(sampleOfDraws_eq_error hsample).1, hsample⟩
  · have hk := sampleFrom_lt ht hsample
    rw [chooserWeights_length] at hk
    exact .inr ⟨(pickIndexes_eq_error hpicks).1, k, hk, hpicks⟩

/-- Settles O20: a draw below 1.0 gives a place below the number it is multiplied with, and for each of the at most `n` picks an
index is left. -/
theorem chooserFaults : Obligations.ChooserFaults := by
  intro cfg sequence n checksum g hcfg hpos hlt hg
  obtain ⟨t, ht⟩ := buildTables_chooserWeights hcfg hpos hlt
  refine ⟨⟨t, ht⟩, ?_, fun hle => ⟨fun h => ?_, fun h => ?_⟩⟩
  · cases h : choose cfg sequence n checksum with
    | ok indexes => exact .inl ⟨indexes, rfl⟩
    | error f =>
      obtain ⟨rfl, -⟩ | ⟨rfl, -⟩ := choose_error_cases ht h
      · exact .inr (.inl rfl)
      · exact .inr (.inr rfl)
  · obtain ⟨-, hsample⟩ | ⟨hne, -⟩ := choose_error_cases ht h
    · obtain ⟨htables, -⟩ := aliasTablesWellFormed
      obtain ⟨hn, -⟩ := htables cfg none _ t ht
      rw [chooserWeights_length] at hn
      rw [hg]
      exact top_draw_of_sampleFrom_error hcfg (by omega) (by omega) hsample
    · cases hne
  · obtain ⟨hne, -⟩ | ⟨-, k, hk, hpicks⟩ := choose_error_cases ht h
    · cases hne
    · obtain ⟨j, hj, htop⟩ := top_draw_of_pickIndexes_error hcfg (by rw [List.length_range]; omega)
        (by rwa [List.length_range]) hpicks
      rw [← Function.iterate_add_apply] at htop
      exact ⟨j, by omega, by rw [hg]; exact htop⟩

/-! ### The emitted part -/

/-- The part of some indices under the advanced counter of a well-formed encoder is the message's stream part. -/
theorem partFor_advance_eq_streamPart {cfg : Cfg} {e : Encoder} (h : e.Ok cfg) (indexes : List Nat) :
    e.advance.partFor indexes =
      streamPart cfg e.message e.fragmentLength e.advance.currentSequence indexes := by
  obtain ⟨-, -, -, -, -, -, -, hchecksum, -, -⟩ := h
  rw [streamPart, ← hchecksum]
  rfl

/-- A part of a well-formed encoder whose counter has not wrapped meets none of the five conditions of 44_decoder.md R201. -/
theorem partFor_advance_valid {cfg : Cfg} {e : Encoder} (h : e.Ok cfg) (hseq : e.advance.currentSequence ≠ 0)
    (indexes : List Nat) : (e.advance.partFor indexes).invalid = false := by
  obtain ⟨hlen, -, hfl, hle, -, -, -, -, -, -⟩ := h
  have hcount : 1 ≤ e.advance.sequenceCount := one_le_ceilDiv hfl hlen
  have hdata : (e.advance.partFor indexes).data.length = e.fragmentLength := combineFragments_length indexes
  simp only [Part.invalid, hdata, Bool.or_eq_false_iff, beq_eq_false_iff_ne, decide_eq_false_iff_not, not_lt]
  exact ⟨⟨⟨⟨hseq, Nat.one_le_iff_ne_zero.1 hcount⟩, Nat.one_le_iff_ne_zero.1 hlen⟩, Nat.one_le_iff_ne_zero.1 hfl⟩, hle⟩

/-- What `ENC.NEXT_PART` has done when it delivers a part: the counter has not wrapped, and the part is that of the chooser's
indices. -/
theorem encNextPart_part_cases {s t : State} {e : Encoder} {p : Part} (hf : s.sysFault = none) (he : s.enc = some e)
    (h : exec .encNextPart s = .next t) (hp : t.res = some (.ok (.part p))) :
    e.advance.currentSequence ≠ 0 ∧ ∃ indexes,
      choose s.cfg e.advance.currentSequence e.advance.sequenceCount e.advance.checksum = .ok indexes ∧
        p = e.advance.partFor indexes := by
  obtain ⟨f, hheld, -⟩ | ⟨-, -, rfl⟩ | ⟨_, -, -, hrule⟩ := execute_next_cases h
  · rw [hf] at hheld
    cases hheld
  · cases hp
  simp only [he] at hrule
  split at hrule
  · cases hrule; cases hp
  next hseq =>
  split at hrule
  · cases hrule; cases hp
  next indexes hchoose =>
  cases hrule
  cases hp
  exact ⟨hseq, indexes, hchoose, rfl⟩

/-- Settles O27: the part carries the encoder's own description under its advanced counter. -/
theorem emittedPartMatchesChooser : Obligations.EmittedPartMatchesChooser := by
  intro s t e p hf he hok h hp
  obtain ⟨hseq, indexes, hchoose, rfl⟩ := encNextPart_part_cases hf he h hp
  have hvalid := partFor_advance_valid hok hseq indexes
  have hstream := partFor_advance_eq_streamPart hok indexes
  obtain ⟨-, husize, -, -, hcount, -⟩ := hok
  exact ⟨partOperand_toRecord (Nat.lt_of_le_of_lt hcount (by decide)) husize, hvalid, indexes, hchoose, hstream⟩

end Sys2Proof.Machine

/-! The fountain encoder (43_encoder.md): the fragment length and count of a message, the bytes of a fragment and of a
combination of fragments, and the unit's operations on a ready block. -/

namespace Sys2Proof.Machine

/-! ### Fragment length and count -/

section
variable {l m : Nat}

/-- The fragments are no longer than the maximum (43_encoder.md R180). -/
theorem fragmentLengthFor_le_max (hl : 1 ≤ l) (hm : 1 ≤ m) : fragmentLengthFor l m ≤ m := by
  rw [fragmentLengthFor, ceilDiv_le_iff (one_le_ceilDiv hm hl), Nat.mul_comm]
  exact le_ceilDiv_mul hm

/-- A larger piece needs no more pieces. -/
theorem ceilDiv_anti {b c : Nat} (hb : 1 ≤ b) (hbc : b ≤ c) : ceilDiv l c ≤ ceilDiv l b := by
  rw [ceilDiv_le_iff (hb.trans hbc)]
  exact (le_ceilDiv_mul hb).trans (Nat.mul_le_mul_left _ hbc)

/-- Evening the fragments out keeps their number (43_encoder.md R180). -/
theorem ceilDiv_fragmentLengthFor (hl : 1 ≤ l) (hm : 1 ≤ m) : ceilDiv l (fragmentLengthFor l m) = ceilDiv l m := by
  have hfl : 1 ≤ fragmentLengthFor l m := (fragmentLengthFor_bounds hl hm).1
  refine Nat.le_antisymm ((ceilDiv_le_iff hfl).2 ?_) (ceilDiv_anti hfl (fragmentLengthFor_le_max hl hm))
  rw [Nat.mul_comm]
  exact le_ceilDiv_mul (one_le_ceilDiv hm hl)

/-- The padding of the last piece is shorter than a piece. -/
theorem ceilDiv_mul_sub_lt {b : Nat} (hb : 1 ≤ b) (hl : 1 ≤ l) : ceilDiv l b * b - l < b := by
  have hlast := ceilDiv_pred_mul_lt hb hl
  rw [Nat.sub_mul, one_mul] at hlast
  omega

end

/-- Settles O21: rounding up twice keeps the count, and the rest is rounded-up division by the fragment length. -/
theorem fragmentArithmetic : Obligations.FragmentArithmetic := by
  intro l m hl hm
  have hfl : 1 ≤ fragmentLengthFor l m := (fragmentLengthFor_bounds hl hm).1
  exact ⟨hfl, fragmentLengthFor_le_max hl hm, ceilDiv_fragmentLengthFor hl hm, ceilDiv_pred_mul_lt hfl hl,
    le_ceilDiv_mul hfl, ceilDiv_mul_sub_lt hfl hl⟩

/-! ### The bytes of fragments -/

section
variable {message : Bytes} {fl k : Nat}

/-- Byte `k` of a fragment: the message's byte at the fragment's place, zero past the message's end (20_memory.md R61,
R62). -/
theorem fragmentOf_getElem? (i : Nat) (hk : k < fl) :
    (fragmentOf message fl i)[k]? = some (message.getD (i * fl + k) 0) := by
  have hpresent : ((message.drop (i * fl)).take fl).length = min fl (message.length - i * fl) := by simp
  rw [fragmentOf]
  by_cases hin : i * fl + k < message.length
  · rw [List.getElem?_append_left (by omega), List.getElem?_take_of_lt hk, List.getElem?_drop,
      List.getElem?_eq_getElem hin, List.getD_eq_getElem _ _ hin]
  · rw [List.getElem?_append_right (by omega), zeroBytes, List.getElem?_replicate_of_lt (by omega),
      List.getD_eq_default _ _ (by omega)]

theorem xorBytes_getElem? {a b : Bytes} {x y : Byte} (ha : a[k]? = some x) (hb : b[k]? = some y) :
    (xorBytes a b)[k]? = some (x ^^^ y) := by
  rw [xorBytes, List.getElem?_zipWith, ha, hb]

/-- Byte `k` while the fragments of a list are XORed into some data one by one. -/
theorem foldl_xorBytes_getElem? (hk : k < fl) (indexes : List Nat) {d : Bytes} {b : Byte} (hd : d[k]? = some b) :
    (indexes.foldl (fun acc i => xorBytes acc (fragmentOf message fl i)) d)[k]? =
      some (indexes.foldl (fun acc i => acc ^^^ message.getD (i * fl + k) 0) b) := by
  induction indexes generalizing d b with
  | nil => exact hd
  | cons i rest ih => exact ih (xorBytes_getElem? hd (fragmentOf_getElem? i hk))

/-- The combination of fragments, byte by byte (43_encoder.md R183). -/
theorem combineFragments_getElem? (indexes : List Nat) (hk : k < fl) :
    (combineFragments message fl indexes)[k]? = some (xorOfMessageBytes message fl k indexes) :=
  foldl_xorBytes_getElem? hk indexes (List.getElem?_replicate_of_lt hk)

end

/-! ### The operations on a ready block -/

/-- A counter below its last value advances without a wrap (10_state.md R27). -/
theorem advance_currentSequence_toNat {e : Encoder} (h : e.currentSequence.toNat < 2 ^ 32 - 1) :
    e.advance.currentSequence.toNat = e.currentSequence.toNat + 1 := by
  have hadd : e.advance.currentSequence.toNat = (e.currentSequence.toNat + 1) % 2 ^ 32 := BitVec.toNat_add _ _
  rw [hadd, Nat.mod_eq_of_lt (by omega)]

/-- The counter wraps exactly from its last value (43_encoder.md R186). -/
theorem advance_currentSequence_eq_zero_iff {e : Encoder} :
    e.advance.currentSequence = 0 ↔ e.currentSequence = 0xFFFFFFFF := by
  change e.currentSequence + 1 = 0 ↔ _
  bv_omega

section
variable {s : State} (hf : s.sysFault = none)
include hf

/-- The rule of `ENC.START` on a ready block: its tests in their order (43_encoder.md R181). -/
theorem exec_encStart_of_ready {message : Bytes} {m : Nat} (hopr : s.opr = .start message m)
    (hm : m < 2 ^ s.cfg.usize.bits) :
    exec .encStart s = .next (
      if message = [] then s.raise .emptyMessage
      else if m = 0 then s.raise .zeroMaxFragmentLength
      else if 2 ^ s.cfg.usize.bits ≤ message.length then s.raise .arithmeticOverflow
      else if (exceeds s.cfg.fragCap (startedEncoder s.cfg message m).fragmentLength
          || exceeds s.cfg.maxFragments (startedEncoder s.cfg message m).sequenceCount
          || decide (2 ^ 32 - 1 < (startedEncoder s.cfg message m).sequenceCount)) = true then
        s.raise .capacityOverflow
      else (s.withEnc (some (startedEncoder s.cfg message m))).reply (.ok .none)) := by
  have hoperands : startOperands s.cfg.usize s.opr = some ⟨message, m⟩ := startOperands_eq_some.2 ⟨hopr, hm⟩
  simp only [exec, execEncStart, hoperands, execute_of_some _ _ hf, List.length_eq_zero_iff, State.answer_eq,
    apply_ite Host.Outcome.next]

section
variable (hopr : s.opr = .empty)
include hopr

/-- Past the gate, the rule of an operation without operands (46_system.md R261, line 4). -/
theorem execute_noOperands (rule : Unit → StepOutcome) : execute s (noOperands s.opr) rule = rule () := by
  rw [hopr]
  exact execute_of_some () rule hf

/-- The three operations that need a started encoder (43_encoder.md R187). -/
theorem exec_of_not_started {i : Instr} (hi : i = .encNextPart ∨ i = .encSeqCount ∨ i = .encIsComplete)
    (he : s.enc = none) : exec i s = .next (s.raise .encoderNotStarted) := by
  obtain rfl | rfl | rfl := hi
  · simp only [exec, execEncNextPart, execute_noOperands hf hopr, he]
  · simp only [exec, execEncSeqCount, execute_noOperands hf hopr, he]
  · simp only [exec, execEncIsComplete, execute_noOperands hf hopr, he]

variable {e : Encoder} (he : s.enc = some e)
include he

theorem exec_encSeqCount_of_started : exec .encSeqCount s = .next (s.reply (.ok (.count e.sequenceCount))) := by
  simp only [exec, execEncSeqCount, execute_noOperands hf hopr, he, State.answer_eq]

theorem exec_encIsComplete_of_started : exec .encIsComplete s = .next (s.reply (.ok (.flag e.allEmitted))) := by
  simp only [exec, execEncIsComplete, execute_noOperands hf hopr, he, State.answer_eq]

theorem exec_encNextPart_of_wrap (hwrap : e.currentSequence = 0xFFFFFFFF) :
    exec .encNextPart s = .next ((s.withEnc (some e.advance)).raise .chooserPrecondition) := by
  simp only [exec, execEncNextPart, execute_noOperands hf hopr, he,
    if_pos (advance_currentSequence_eq_zero_iff.2 hwrap)]

section
variable (hseq : e.currentSequence ≠ 0xFFFFFFFF)
include hseq

/-- A chooser fault leaves only the advanced counter (43_encoder.md R183). -/
theorem exec_encNextPart_of_error {f : FaultCode}
    (hchoose : choose s.cfg e.advance.currentSequence e.advance.sequenceCount e.advance.checksum = .error f) :
    exec .encNextPart s = .next ((s.withEnc (some e.advance)).raise f) := by
  simp only [exec, execEncNextPart, execute_noOperands hf hopr, he,
    if_neg (mt advance_currentSequence_eq_zero_iff.1 hseq), hchoose]

theorem exec_encNextPart_of_ok {indexes : List Nat}
    (hchoose : choose s.cfg e.advance.currentSequence e.advance.sequenceCount e.advance.checksum = .ok indexes) :
    exec .encNextPart s =
      .next ((s.withEnc (some (e.advance.emit indexes))).reply (.ok (.part (e.advance.partFor indexes)))) := by
  simp only [exec, execEncNextPart, execute_noOperands hf hopr, he,
    if_neg (mt advance_currentSequence_eq_zero_iff.1 hseq), hchoose, State.answer_eq]

end

end

end

/-! ### The obligations on the unit -/

/-- Settles O23: the data of the emitted part is the combination of the chooser's fragments, read byte by byte. -/
theorem encNextPartEmits : Obligations.EncNextPartEmits := by
  intro s e n hf hopr he hseq hn
  subst hn
  cases hchoose : choose s.cfg (e.currentSequence + 1) (ceilDiv e.message.length e.fragmentLength) e.checksum with
  | error f =>
    exact (exec_encNextPart_of_error hf hopr he hseq hchoose).trans
      (congrArg _ ((s.withEnc (some e.advance)).raise_of_none f hf))
  | ok indexes =>
    exact ⟨combineFragments e.message e.fragmentLength indexes, combineFragments_length indexes,
      fun k hk => combineFragments_getElem? indexes hk, exec_encNextPart_of_ok hf hopr he hseq hchoose⟩

/-- Settles O24: the first round passes the counter through, and one fragment is its own combination. -/
theorem encFirstRoundFragments : Obligations.EncFirstRoundFragments := by
  intro s e hf hopr he hok hlt
  obtain ⟨-, -, -, -, hcount, -⟩ := hok
  have hadvance := advance_currentSequence_toNat (e := e) (by omega)
  have hseq : e.currentSequence ≠ 0xFFFFFFFF := by
    intro hwrap
    rw [advance_currentSequence_eq_zero_iff.2 hwrap] at hadvance
    exact absurd hadvance (by simp)
  have hle : e.advance.currentSequence.toNat ≤ e.advance.sequenceCount := hadvance.trans_le hlt
  have hchoose := choose_of_le (cfg := s.cfg) (checksum := e.advance.checksum) hle
  rw [hadvance, Nat.add_sub_cancel] at hchoose
  refine ⟨_, _, exec_encNextPart_of_ok hf hopr he hseq hchoose, rfl, hadvance, combineFragments_length _,
    fun k hk => ?_⟩
  rw [Encoder.partFor, combineFragments_singleton]
  exact fragmentOf_getElem? _ hk

/-- Settles O22: the tests of the start in their order. -/
theorem encStartOutcomes : Obligations.EncStartOutcomes := by
  refine ⟨by decide, fun s message m fl n hf hopr hm hfl hn => ?_⟩
  subst hfl hn
  have hexec := exec_encStart_of_ready hf hopr hm
  simp only [Bool.or_eq_true, decide_eq_true_eq, exceeds_eq_true_iff, or_assoc, s.raise_of_none _ hf] at hexec
  exact hexec

/-- Settles O25: the counter wraps before the chooser is asked. -/
theorem encSequenceWraps : Obligations.EncSequenceWraps := by
  intro s e hf hopr he hwrap
  have hadvance : e.advance = { e with currentSequence := 0 } := by
    rw [← advance_currentSequence_eq_zero_iff.2 hwrap]
    rfl
  rw [exec_encNextPart_of_wrap hf hopr he hwrap, (s.withEnc (some e.advance)).raise_of_none _ hf, hadvance]
  rfl

/-- Settles O26: the two reads, and the fault of an encoder that is not started. -/
theorem encoderReads : Obligations.EncoderReads := by
  refine ⟨by decide, by decide, fun s e hf hopr he => ?_, fun s i hf hopr he hi => ?_⟩
  · exact ⟨exec_encSeqCount_of_started hf hopr he, exec_encIsComplete_of_started hf hopr he⟩
  · rw [exec_of_not_started hf hopr hi he, s.raise_of_none _ hf]

end Sys2Proof.Machine

/-! The rounds of the drain loop, forwards (44_decoder.md R204 to R211): what each operation on the two lists answers, with
room and without, and which rounds change nothing. -/

namespace Sys2Proof.Machine

/-! ### Reduction -/

/-- Settles O37: the two cases of `Reduce`, read as index sets. -/
theorem reduceStrictSubset : Obligations.ReduceStrictSubset := by
  intro a b
  obtain ⟨hsub, hstrict, heq⟩ | ⟨hnot, heq⟩ := reducePart_cases a b
  · refine ⟨fun _ => ?_, fun hnot => absurd ⟨hsub, hstrict⟩ hnot⟩
    have hmem : ∀ i, i ∈ (reducePart a b).indexes ↔ i ∈ a.indexes ∧ i ∉ b.indexes := by simp [heq]
    obtain ⟨i, hi, hib⟩ := hstrict
    exact ⟨hmem, List.ne_nil_of_mem ((hmem i).2 ⟨hi, hib⟩), by rw [heq]; rfl⟩
  · exact ⟨fun h => absurd h hnot, fun _ => heq⟩

/-- A mixed part reduced by one fragment: the fragment is taken out if the part names it. -/
theorem reducePart_singleton {n i : Nat} {d : Bytes} {m : IndexedPart} (hset : IndexSet n m.indexes)
    (htwo : 2 ≤ m.indexes.length) : reducePart m ⟨[i], d⟩ =
      if i ∈ m.indexes then ⟨m.indexes.filter fun j => j ≠ i, xorBytes m.data d⟩ else m := by
  have hforgets : i ∉ (reducePart m ⟨[i], d⟩).indexes := not_mem_reducePart_singleton hset htwo
  obtain ⟨hsub, -, heq⟩ | ⟨-, heq⟩ := reducePart_cases m ⟨[i], d⟩
  · rw [heq, if_pos (hsub i (List.mem_singleton_self i))]
    simp
  · rw [heq] at hforgets ⊢
    rw [if_neg hforgets]

section
variable {cfg : Cfg} {a : Assembly}

/-- The pending parts, each reduced by one fragment, are the pending parts with the fragment taken out (44_decoder.md R207,
R208). -/
theorem Assembly.ListsOk.map_reducePart_singleton (h : a.ListsOk cfg) (i : Nat) (d : Bytes) :
    (a.mixed.map fun m => reducePart m ⟨[i], d⟩) = fragmentTakenOut i d a.mixed :=
  List.map_congr_left fun m hm => reducePart_singleton (h.parts.2 m hm).indexSet (h.pending m hm).1

theorem Assembly.Ok.pop {p : IndexedPart} {rest : List IndexedPart} (h : a.Ok cfg) (hfifo : a.fifo = p :: rest) :
    p.Ok a.desc ∧ ({ a with fifo := rest } : Assembly).Ok cfg := by
  obtain ⟨hp, hlists⟩ := h.listsOk.pop hfifo
  exact ⟨hp, h.of_listsOk rfl rfl hlists⟩

end

/-! ### Appending, within a capacity and beyond it -/

theorem simple_eq_decide : IndexedPart.simple = fun m => decide (m.indexes.length = 1) := rfl

theorem not_simple_eq_decide : (fun m : IndexedPart => !m.simple) = fun m => decide (m.indexes.length ≠ 1) := by
  funext m
  exact (decide_not (p := m.indexes.length = 1)).symm

/-- A list that holds something at all has room for one item. -/
theorem exceeds_one_of_ne_zero {cap : Option Nat} (h : cap ≠ some 0) : exceeds cap 1 = false := by
  rw [exceeds_eq_false_iff]
  rintro c rfl
  exact Nat.one_le_iff_ne_zero.2 fun h0 => h (congrArg some h0)

section
variable {cfg : Cfg} {a : Assembly} {l reduced : List IndexedPart} {b q : IndexedPart} {c : Nat}

theorem appendFifo_of_fifo_nil (hfifo : a.fifo = []) (hcap : cfg.queueCap ≠ some 0) :
    appendFifo cfg a q = .ok { a with fifo := [q] } :=
  appendFifo_eq_ok.2 ⟨by simpa [hfifo] using exceeds_one_of_ne_zero hcap, by rw [hfifo]; rfl⟩

theorem appendAllFifo_of_room (hroom : exceeds cfg.queueCap (a.fifo.length + l.length) = false) :
    appendAllFifo cfg a l = .ok { a with fifo := a.fifo ++ l } := by
  induction l generalizing a with
  | nil => simp [appendAllFifo]
  | cons p l ih =>
    rw [List.length_cons] at hroom
    have hone : appendFifo cfg a p = .ok { a with fifo := a.fifo ++ [p] } :=
      appendFifo_eq_ok.2 ⟨exceeds_of_le (by omega) hroom, rfl⟩
    simp only [appendAllFifo, hone]
    rw [ih (exceeds_of_le (by simp; omega) hroom), List.append_assoc]
    rfl

theorem appendAllFifo_of_full (hcap : cfg.queueCap = some c) (hheld : a.fifo.length ≤ c)
    (hfull : c < a.fifo.length + l.length) : appendAllFifo cfg a l = .error (.capacity (.queueFull .fifo c)) := by
  induction l generalizing a with
  | nil => simp at hfull; omega
  | cons p l ih =>
    rw [List.length_cons] at hfull
    by_cases hlast : c < a.fifo.length + 1
    · have hone := appendFifo_eq_error (p := p).2 ⟨c, hcap, hlast, rfl⟩
      simp only [appendAllFifo, hone]
    · have hone : appendFifo cfg a p = .ok { a with fifo := a.fifo ++ [p] } :=
        appendFifo_eq_ok.2 ⟨by simpa [hcap] using hlast, rfl⟩
      simp only [appendAllFifo, hone]
      exact ih (by simp; omega) (by simp; omega)

section
variable (hreduced : reduced = a.mixed.map fun m => reducePart m b)
include hreduced

/-- `ReducePending` with room in the FIFO (44_decoder.md R207). -/
theorem reducePending_of_room
    (hroom : exceeds cfg.queueCap (a.fifo.length + (reduced.filter fun m => m.indexes.length = 1).length) = false) :
    reducePending cfg a b = .ok { a with
      fifo := a.fifo ++ reduced.filter fun m => m.indexes.length = 1
      mixed := reduced.filter fun m => m.indexes.length ≠ 1 } := by
  subst hreduced
  rw [reducePending, not_simple_eq_decide, simple_eq_decide]
  exact appendAllFifo_of_room hroom

/-- `ReducePending` that makes more parts simple than the FIFO holds (44_decoder.md R223). -/
theorem reducePending_of_full (hcap : cfg.queueCap = some c) (hheld : a.fifo.length ≤ c)
    (hfull : c < a.fifo.length + (reduced.filter fun m => m.indexes.length = 1).length) :
    reducePending cfg a b = .error (.capacity (.queueFull .fifo c)) := by
  subst hreduced
  rw [reducePending, simple_eq_decide]
  exact appendAllFifo_of_full hcap hheld hfull

end

theorem appendMixed_of_full (hcap : cfg.mixedCap = some c) (hfull : c < a.mixed.length + 1) :
    appendMixed cfg a q = .error (.capacity (.queueFull .mixed c)) := by
  simp only [appendMixed, hcap, if_pos hfull]

end

/-! ### A simple item -/

/-- The assembly with fragment `i` in the buffer, its index resolved, and taken out of the pending parts, those that become
simple at the tail of the FIFO (44_decoder.md R207, R208). -/
def Assembly.withFragment (a : Assembly) (i : Nat) (d : Bytes) : Assembly :=
  { a with
    buf := a.buf.take (i * d.length) ++ d ++ a.buf.drop ((i + 1) * d.length)
    resolved := insertIndex i a.resolved
    fifo := a.fifo ++ (fragmentTakenOut i d a.mixed).filter fun m => m.indexes.length = 1
    mixed := (fragmentTakenOut i d a.mixed).filter fun m => m.indexes.length ≠ 1 }

section
variable {cfg : Cfg} {a : Assembly} {i : Nat} {d : Bytes}

theorem processSimple_of_resolved (hi : i ∈ a.resolved) : processSimple cfg a i d = .ok (a, false) := by
  simp [processSimple, hi]

/-- The place of a fragment of the message lies inside the buffer (20_memory.md R63). -/
theorem Assembly.Ok.fragment_inside (ha : a.Ok cfg) (hi : i < a.desc.sequenceCount) :
    i * a.desc.fragmentLength + a.desc.fragmentLength ≤ a.buf.length := by
  obtain ⟨-, -, -, -, -, hbuf, -⟩ := ha
  rw [hbuf, ← Nat.succ_mul, Nat.mul_comm]
  exact Nat.mul_le_mul_left _ hi

theorem processSimple_of_room (ha : a.Ok cfg) (hp : IndexedPart.Ok a.desc ⟨[i], d⟩) (hnew : i ∉ a.resolved)
    (hroom : exceeds cfg.queueCap (a.withFragment i d).fifo.length = false) :
    processSimple cfg a i d =
      .ok (a.withFragment i d, decide (a.resolved.length + 1 = a.desc.sequenceCount)) := by
  have hreduce := reducePending_of_room (ha.listsOk.map_reducePart_singleton i d).symm
    (by rwa [Assembly.withFragment, List.length_append] at hroom)
  have hd : d.length = a.desc.fragmentLength := hp.data_length
  have hinside := ha.fragment_inside (hp.indexSet.2 i (List.mem_singleton_self i))
  have hwrite : memWrite a.buf (i * a.desc.fragmentLength) d =
      some (a.buf.take (i * d.length) ++ d ++ a.buf.drop ((i + 1) * d.length)) :=
    memWrite_eq_some.2 ⟨by rwa [hd], by rw [← hd, Nat.succ_mul]⟩
  simp only [processSimple, List.contains_eq_mem, hnew, decide_false, Bool.false_eq_true, if_false, hreduce,
    writeFragment, hwrite, insertIndex_length_of_not_mem hnew]
  rfl

theorem processSimple_of_full {c : Nat} (ha : a.Ok cfg) (hnew : i ∉ a.resolved) (hcap : cfg.queueCap = some c)
    (hfull : c < (a.withFragment i d).fifo.length) :
    processSimple cfg a i d = .error (.capacity (.queueFull .fifo c)) := by
  have hheld : a.fifo.length ≤ c := exceeds_eq_false_iff.1 ha.listsOk.fifoCap c hcap
  have hreduce := reducePending_of_full (ha.listsOk.map_reducePart_singleton i d).symm hcap hheld
    (by rwa [Assembly.withFragment, List.length_append] at hfull)
  simp only [processSimple, List.contains_eq_mem, hnew, decide_false, Bool.false_eq_true, if_false, hreduce]

end

/-! ### A round of the loop -/

section
variable {cfg : Cfg} {k : Nat} {a a' : Assembly} {p : IndexedPart} {rest : List IndexedPart} {i : Nat} {d : Bytes}
  {e : DrainStop}

theorem drain_of_fifo_nil (h : a.fifo = []) : drain cfg k a = .ok (a, false) := by
  cases k with
  | zero => rfl
  | succ k => simp only [drain, h]

section
variable (hfifo : a.fifo = ⟨[i], d⟩ :: rest)
include hfifo

theorem drain_simple_of_error (h : processSimple cfg { a with fifo := rest } i d = .error e) :
    drain cfg (k + 1) a = .error e := by
  simp only [drain, hfifo, h]

theorem drain_simple_of_ok {done : Bool} (h : processSimple cfg { a with fifo := rest } i d = .ok (a', done)) :
    drain cfg (k + 1) a = if done then .ok (a', true) else drain cfg k a' := by
  cases done <;> simp only [drain, hfifo, h] <;> rfl

end

section
variable (hfifo : a.fifo = p :: rest) (hmixed : p.indexes.length ≠ 1)
include hfifo hmixed

theorem drain_mixed_of_error (h : processMixed cfg { a with fifo := rest } p = .error e) :
    drain cfg (k + 1) a = .error e := by
  simp only [drain, hfifo, h]
  split
  · next hi => exact absurd (congrArg List.length hi) hmixed
  · rfl

theorem drain_mixed_of_ok (h : processMixed cfg { a with fifo := rest } p = .ok a') :
    drain cfg (k + 1) a = drain cfg k a' := by
  simp only [drain, hfifo, h]
  split
  · next hi => exact absurd (congrArg List.length hi) hmixed
  · rfl

end

/-- What a round does, whatever the number of rounds left. -/
theorem drain_round_cases (cfg : Cfg) (a : Assembly) :
    a.fifo = [] ∨ (∃ e, ∀ k, drain cfg (k + 1) a = .error e) ∨ (∃ a', ∀ k, drain cfg (k + 1) a = .ok (a', true)) ∨
      ∃ a', DrainRound cfg a a' false ∧ ∀ k, drain cfg (k + 1) a = drain cfg k a' := by
  cases hfifo : a.fifo with
  | nil => exact .inl rfl
  | cons p rest =>
    refine .inr ?_
    by_cases hs : p.simple = true
    · obtain ⟨indexes, d⟩ := p
      obtain ⟨i, rfl⟩ := simple_iff.1 hs
      cases h : processSimple cfg { a with fifo := rest } i d with
      | error e => exact .inl ⟨e, fun k => drain_simple_of_error hfifo h⟩
      | ok r =>
        obtain ⟨a', done⟩ := r
        cases done with
        | true => exact .inr (.inl ⟨a', fun k => drain_simple_of_ok hfifo h⟩)
        | false => exact .inr (.inr ⟨a', ⟨_, rest, hfifo, .inl ⟨i, rfl, h⟩⟩, fun k => drain_simple_of_ok hfifo h⟩)
    · have hs : p.simple = false := by simpa using hs
      have hmixed := simple_eq_false_iff.1 hs
      cases h : processMixed cfg { a with fifo := rest } p with
      | error e => exact .inl ⟨e, fun k => drain_mixed_of_error hfifo hmixed h⟩
      | ok a' =>
        exact .inr (.inr ⟨a', ⟨p, rest, hfifo, .inr ⟨hs, rfl, h⟩⟩, fun k => drain_mixed_of_ok hfifo hmixed h⟩)

theorem one_le_workLeft (h : a.fifo ≠ []) : 1 ≤ a.workLeft := by
  obtain ⟨p, rest, hfifo⟩ := List.exists_cons_of_ne_nil h
  simp only [Assembly.workLeft, hfifo, List.map_cons, List.sum_cons]
  split <;> omega

/-- Rounds beyond the work that is left change nothing (44_decoder.md R213). -/
theorem drain_eq_of_workLeft_le {k' : Nat} (hk : a.workLeft ≤ k) (hk' : a.workLeft ≤ k') :
    drain cfg k a = drain cfg k' a := by
  induction k generalizing a k' with
  | zero =>
    have hnil : a.fifo = [] := by
      by_contra hne
      have := one_le_workLeft hne
      omega
    rw [drain_of_fifo_nil hnil, drain_of_fifo_nil hnil]
  | succ k ih =>
    by_cases hnil : a.fifo = []
    · rw [drain_of_fifo_nil hnil, drain_of_fifo_nil hnil]
    have hwork := one_le_workLeft hnil
    obtain ⟨k', rfl⟩ := Nat.exists_eq_succ_of_ne_zero (show k' ≠ 0 by omega)
    obtain hnil' | ⟨e, h⟩ | ⟨a', h⟩ | ⟨a', hnext, h⟩ := drain_round_cases cfg a
    · exact absurd hnil' hnil
    · rw [h, h]
    · rw [h, h]
    · have hless := hnext.workLeft_lt
      rw [h, h]
      exact ih (by omega) (by omega)

end

/-! ### The obligations on the loop -/

/-- Settles O39: one item is two rounds of work at most, each pending part one, and every round leaves less. -/
theorem drainLoopEnds : Obligations.DrainLoopEnds := by
  intro cfg a p k ha hfifo hopen hk
  have hwork : a.workLeft ≤ 2 + a.mixed.length := by
    simp only [Assembly.workLeft, hfifo, List.map_cons, List.map_nil, List.sum_cons, List.sum_nil]
    split <;> omega
  exact ⟨drain_eq_of_workLeft_le (hwork.trans hk) hwork, fun b h =>
    ⟨drain_fifo_nil (hwork.trans hk) h, drain_resolved_length ha hopen h⟩⟩

/-- Settles O33: a round on a simple item is `ProcessSimple` on the assembly without it. -/
theorem drainSimpleRound : Obligations.DrainSimpleRound := by
  refine ⟨fun cfg k a b i d rest reduced ha hfifo hreduced hb => ?_, fun s b => ⟨rfl, rfl⟩, fun s e => rfl⟩
  obtain ⟨hp, hrest⟩ := ha.pop hfifo
  have hwith : b = ({ a with fifo := rest } : Assembly).withFragment i d := by
    rw [hb, hreduced]
    rfl
  refine ⟨fun hi => ?_, fun hnew hroom => ?_, fun c hnew hcap hfull => ?_⟩
  · exact drain_simple_of_ok hfifo (processSimple_of_resolved hi)
  · rw [hwith] at hroom ⊢
    have hround := drain_simple_of_ok (k := k) hfifo (processSimple_of_room hrest hp hnew hroom)
    simpa only [decide_eq_true_eq] using hround
  · rw [hwith] at hfull
    exact drain_simple_of_error hfifo (processSimple_of_full hrest hnew hcap hfull)

end Sys2Proof.Machine

/-! `DEC.RECEIVE` on a ready block (44_decoder.md R200 to R212, R214, R221 to R223): which of its rules runs and every way
in which it can end; and the operations that only read the decoder (R216 to R220). -/

namespace Sys2Proof.Machine

/-! ### Valid parts -/

/-- The five conditions of 44_decoder.md R201. -/
theorem Part.invalid_eq_true_iff {p : Part} : p.invalid = true ↔
    p.sequence = 0 ∨ p.sequenceCount = 0 ∨ p.messageLength = 0 ∨ p.data = [] ∨ p.messageLength < p.data.length := by
  simp [Part.invalid, or_assoc]

/-- A part with data no longer than its message, which is then not empty either. -/
theorem Part.invalid_eq_false_of {p : Part} (hseq : p.sequence ≠ 0) (hcount : p.sequenceCount ≠ 0) (hdata : p.data ≠ [])
    (hle : p.data.length ≤ p.messageLength) : p.invalid = false := by
  have hpos := List.length_pos_iff.2 hdata
  rw [← Bool.not_eq_true, Part.invalid_eq_true_iff]
  rintro (h | h | h | h | h)
  · exact hseq h
  · exact hcount h
  · omega
  · exact hdata h
  · omega

/-- A part of the description of a well-formed assembly. -/
theorem Part.invalid_eq_false_of_description {cfg : Cfg} {a : Assembly} {p : Part} (ha : a.Ok cfg) (hseq : p.sequence ≠ 0)
    (hdesc : p.description = a.desc) : p.invalid = false := by
  obtain ⟨hcount, -, hfl, hle, -⟩ := ha
  rw [← hdesc] at hcount hfl hle
  exact Part.invalid_eq_false_of hseq (Nat.one_le_iff_ne_zero.1 hcount) (List.length_pos_iff.1 hfl) hle

/-- The assembly a part founds: its description, zeros, nothing resolved, nothing listed (44_decoder.md R202). -/
def Part.founds (p : Part) : Assembly := ⟨p.description, zeroBytes (p.data.length * p.sequenceCount), [], [], []⟩

theorem firstAssembly_of_room {cfg : Cfg} {p : Part} (hfrag : exceeds cfg.fragCap p.data.length = false)
    (hcount : exceeds cfg.maxFragments p.sequenceCount = false)
    (hmsg : exceeds cfg.msgCap (p.data.length * p.sequenceCount) = false)
    (hmax : p.data.length * p.sequenceCount ≤ cfg.usize.maxValue) : firstAssembly cfg p = .ok p.founds := by
  simp only [firstAssembly, exceededSpace, hfrag, hcount, hmsg, if_neg hmax.not_gt, Bool.false_eq_true, if_false]
  rfl

theorem exceededSpace_of_msgCap {cfg : Cfg} {need c : Nat} (hcap : cfg.msgCap = some c) (hlt : c < need) :
    exceededSpace cfg need = some c := by
  simp only [exceededSpace, hcap, exceeds_some, decide_eq_true hlt, if_true]

theorem exceededSpace_of_maxValue {cfg : Cfg} {need : Nat} (hcap : exceeds cfg.msgCap need = false)
    (hlt : cfg.usize.maxValue < need) : exceededSpace cfg need = some cfg.usize.maxValue := by
  simp only [exceededSpace, hcap, Bool.false_eq_true, if_false, if_pos hlt]

theorem firstAssembly_of_space {cfg : Cfg} {p : Part} {c : Nat} (hfrag : exceeds cfg.fragCap p.data.length = false)
    (hcount : exceeds cfg.maxFragments p.sequenceCount = false)
    (hspace : exceededSpace cfg (p.data.length * p.sequenceCount) = some c) :
    firstAssembly cfg p = .error (.notEnoughSpace (p.data.length * p.sequenceCount) c) := by
  simp only [firstAssembly, hfrag, hcount, hspace, Bool.false_eq_true, if_false]

/-! ### The rule that runs -/

theorem State.withDec_self {s : State} {d : Decoder} (h : s.dec = d) : s.withDec d = s := by
  subst h
  rfl

section
variable {s : State} {p : Part} {a : Assembly} (hf : s.sysFault = none) (hread : partOperand s.cfg.usize s.opr = some p)
include hf hread

theorem exec_decReceive_of_failed {e : CapacityError} (hdec : s.dec = .failed e) :
    exec .decReceive s = .next (s.reply (.err (.capacity e))) := by
  simp only [exec, execDecReceive, hread, execute_of_some _ _ hf, hdec, State.answerErr_eq]

theorem exec_decReceive_of_complete (hdec : s.dec = .complete a) :
    exec .decReceive s = .next (s.reply (.ok (.more false))) := by
  simp only [exec, execDecReceive, hread, execute_of_some _ _ hf, hdec, State.answer_eq]

theorem exec_decReceive_of_invalid (hstate : s.dec.state = .empty ∨ s.dec.state = .accumulating)
    (hinvalid : p.invalid = true) : exec .decReceive s = .next (s.reply (.err .invalidPart)) := by
  simp only [exec, execDecReceive, hread, execute_of_some _ _ hf, hinvalid, if_true, State.answerErr_eq]
  cases hdec : s.dec with
  | empty => rfl
  | accumulating a => rfl
  | complete a => simp [hdec, Decoder.state] at hstate
  | failed e => simp [hdec, Decoder.state] at hstate

section
variable (hvalid : p.invalid = false)
include hvalid

theorem exec_decReceive_of_inconsistent (hdec : s.dec = .accumulating a) (hdesc : p.description ≠ a.desc) :
    exec .decReceive s = .next (s.reply (.err (.inconsistentPart p.description a.desc))) := by
  simp only [exec, execDecReceive, hread, execute_of_some _ _ hf, hdec, hvalid, Bool.false_eq_true, if_false,
    if_neg hdesc, State.answerErr_eq]

theorem exec_decReceive_of_accumulating (hdec : s.dec = .accumulating a) (hdesc : p.description = a.desc) :
    exec .decReceive s = receiveInto s a p := by
  simp only [exec, execDecReceive, hread, execute_of_some _ _ hf, hdec, hvalid, Bool.false_eq_true, if_false,
    if_pos hdesc]

section
variable (hdec : s.dec = .empty)
include hdec

theorem exec_decReceive_of_first_error {e : CapacityError} (hfirst : firstAssembly s.cfg p = .error e) :
    exec .decReceive s = s.failWith e := by
  simp only [exec, execDecReceive, hread, execute_of_some _ _ hf, hdec, hvalid, Bool.false_eq_true, if_false, hfirst]

/-- A first part is received as by a decoder that accumulates in the assembly it founds. -/
theorem exec_decReceive_of_first (hfirst : firstAssembly s.cfg p = .ok a) :
    exec .decReceive s = exec .decReceive (s.withDec (.accumulating a)) := by
  have hdesc : p.description = a.desc := EntersAssembly.description ⟨hread, hvalid, .inl ⟨hdec, hfirst⟩⟩
  rw [exec_decReceive_of_accumulating (s := s.withDec (.accumulating a)) hf hread hvalid rfl hdesc]
  simp only [exec, execDecReceive, hread, execute_of_some _ _ hf, hdec, hvalid, Bool.false_eq_true, if_false, hfirst]

end

end

end

/-! ### The operations that read the decoder, on a ready block -/

section
variable {s : State} (hf : s.sysFault = none) (hopr : s.opr = .empty)
include hf hopr

theorem exec_decIsComplete_of_ready :
    exec .decIsComplete s = .next (s.reply (.ok (.flag (decide (s.dec.state = .complete))))) := by
  simp only [exec, execDecIsComplete, execute_noOperands hf hopr, State.answer_eq]

theorem exec_decMessage_of_failed {e : CapacityError} (hdec : s.dec = .failed e) :
    exec .decMessage s = .next (s.reply (.err (.capacity e))) := by
  simp only [exec, execDecMessage, execute_noOperands hf hopr, hdec, State.answerErr_eq]

theorem exec_decMessage_of_none (hstate : s.dec.state = .empty ∨ s.dec.state = .accumulating) :
    exec .decMessage s = .next (s.reply (.ok (.message none))) := by
  simp only [exec, execDecMessage, execute_noOperands hf hopr]
  cases hdec : s.dec with
  | empty => rfl
  | accumulating a => rfl
  | complete a => simp [hdec, Decoder.state] at hstate
  | failed e => simp [hdec, Decoder.state] at hstate

theorem exec_decPercent_of_failed {e : CapacityError} (hdec : s.dec = .failed e) :
    exec .decPercent s = .next (s.reply (.err (.capacity e))) := by
  simp only [exec, execDecPercent, execute_noOperands hf hopr, hdec, State.answerErr_eq]

theorem exec_decPercent_of_empty (hdec : s.dec = .empty) : exec .decPercent s = .next (s.reply (.ok (.f64 fZero))) := by
  simp only [exec, execDecPercent, execute_noOperands hf hopr, hdec, State.answer_eq]

section
variable {a : Assembly}

theorem exec_decMessage_of_complete (hdec : s.dec = .complete a) : exec .decMessage s = .next (
    if a.buf.length < a.desc.messageLength then s.raise .messageLengthExceedsBuffer
    else if ∃ b ∈ a.buf.drop a.desc.messageLength, b ≠ 0 then s.reply (.err .invalidPadding)
    else s.reply (.ok (.message (some (a.buf.take a.desc.messageLength))))) := by
  simp only [exec, execDecMessage, execute_noOperands hf hopr, hdec, State.answer_eq, State.answerErr_eq,
    List.any_eq_true, bne_iff_ne, apply_ite Host.Outcome.next]

theorem exec_decPercent_of_complete (hdec : s.dec = .complete a) :
    exec .decPercent s = .next (s.reply (.ok (.f64 fOne))) := by
  simp only [exec, execDecPercent, execute_noOperands hf hopr, hdec, State.answer_eq]

theorem exec_decPercent_of_accumulating (hdec : s.dec = .accumulating a) :
    exec .decPercent s = .next (s.reply (.ok (.f64 (percentEstimate s.cfg a)))) := by
  simp only [exec, execDecPercent, execute_noOperands hf hopr, hdec, State.answer_eq]

end

end

/-! ### Every end of the operation -/

/-- How `DEC.RECEIVE` on a ready block can end: the refusals of a failed and of a complete decoder, the two data errors, a
capacity error, a fault, or the end of the drain loop. -/
inductive ReceiveEnd (s : State) : State → Prop
  | refused {e : CapacityError} (hdec : s.dec = .failed e) : ReceiveEnd s (s.reply (.err (.capacity e)))
  | noMore {a : Assembly} (hdec : s.dec = .complete a) : ReceiveEnd s (s.reply (.ok (.more false)))
  | invalid : ReceiveEnd s (s.reply (.err .invalidPart))
  | inconsistent (r x : MessageDescription) : ReceiveEnd s (s.reply (.err (.inconsistentPart r x)))
  | capacity (e : CapacityError) :
    ReceiveEnd s { s with dec := .failed e, freeIndex := s.freeIndex + 1, res := some (.err (.capacity e)) }
  | faulted {t : State} {f : FaultCode} (hres : t.res = some (.fault f)) : ReceiveEnd s t
  | drained (a : Assembly) (done : Bool) :
    ReceiveEnd s ((s.withDec (if done then .complete a else .accumulating a)).reply (.ok (.more (!done))))

theorem receiveInto_end {s t : State} {d : Decoder} {a : Assembly} {p : Part} (h : receiveInto (s.withDec d) a p = .next t) :
    ReceiveEnd s t := by
  obtain ⟨f, -, rfl⟩ | ⟨e, he⟩ | ⟨_, _, b, done, -, -, -, rfl⟩ := receiveInto_next_cases h
  · exact .faulted (State.raise_res _ f)
  · cases he
    exact .capacity e
  · exact .drained b done

theorem decReceive_end {s t : State} (hf : s.sysFault = none) (h : exec .decReceive s = .next t) : ReceiveEnd s t := by
  obtain ⟨f, hheld, -⟩ | ⟨-, -, rfl⟩ | ⟨p, -, -, hrule⟩ := execute_next_cases h
  · rw [hf] at hheld
    cases hheld
  · exact .faulted (State.raise_res s _)
  split at hrule
  · next hdec => cases hrule; exact .refused hdec
  · next hdec => cases hrule; exact .noMore hdec
  · split at hrule
    · cases hrule; exact .invalid
    · split at hrule
      · next e _ => cases hrule; exact .capacity e
      · exact receiveInto_end hrule
  · next hdec =>
    split at hrule
    · cases hrule; exact .invalid
    · split at hrule
      · rw [← State.withDec_self hdec] at hrule
        exact receiveInto_end hrule
      · cases hrule; exact .inconsistent _ _

/-! ### A matching part -/

/-- A part of the description that the decoder accumulates, with the indices the chooser answers for it. -/
structure MatchingPart (s : State) (a : Assembly) (p : Part) (indexes : List Nat) : Prop where
  ready : s.sysFault = none
  dec : s.dec = .accumulating a
  decOk : s.dec.Ok s.cfg
  reads : partOperand s.cfg.usize s.opr = some p
  sequence : p.sequence ≠ 0
  description : p.description = a.desc
  chosen : choose s.cfg p.sequence p.sequenceCount p.checksum = .ok indexes

namespace MatchingPart

variable {s : State} {a a' : Assembly} {p : Part} {indexes : List Nat}

theorem accumulating_ok (h : MatchingPart s a p indexes) :
    a.Ok s.cfg ∧ a.fifo = [] ∧ a.resolved.length < a.desc.sequenceCount := by
  have hok := h.decOk
  rwa [h.dec] at hok

theorem valid (h : MatchingPart s a p indexes) : p.invalid = false :=
  Part.invalid_eq_false_of_description h.accumulating_ok.1 h.sequence h.description

theorem chosen_of_desc (h : MatchingPart s a p indexes) :
    choose s.cfg p.sequence a.desc.sequenceCount a.desc.checksum = .ok indexes := by
  rw [← h.description]
  exact h.chosen

theorem indexed_ok (h : MatchingPart s a p indexes) : IndexedPart.Ok a.desc ⟨indexes, p.data⟩ :=
  EntersAssembly.indexed_ok ⟨h.reads, h.valid, .inr ⟨h.dec, h.description⟩⟩ h.chosen_of_desc

/-- With a FIFO that holds nothing the part itself is too much (44_decoder.md R223). -/
theorem exec_of_queueCap_zero (h : MatchingPart s a p indexes) (hcap : s.cfg.queueCap = some 0) :
    exec .decReceive s = s.failWith (.queueFull .fifo 0) := by
  have happ := appendFifo_eq_error (a := a) (p := ⟨indexes, p.data⟩).2 ⟨0, hcap, Nat.succ_pos _, rfl⟩
  rw [exec_decReceive_of_accumulating h.ready h.reads h.valid h.dec h.description]
  simp only [receiveInto, h.chosen_of_desc, happ]
  rfl

section
variable (h : MatchingPart s a p indexes) (hcap : s.cfg.queueCap ≠ some 0)
include h hcap

/-- The part, indexed, is alone in the FIFO when the drain loop begins (44_decoder.md R204, R205). -/
theorem exec_eq_drain : exec .decReceive s =
    s.finishReceive (drain s.cfg (1 + a.mixed.length + 1) { a with fifo := [⟨indexes, p.data⟩] }) := by
  obtain ⟨-, hfifo, -⟩ := h.accumulating_ok
  have hbound : drainBound { a with fifo := [⟨indexes, p.data⟩] } = 1 + a.mixed.length + 1 := by
    simp only [drainBound, List.length_singleton]
    omega
  rw [exec_decReceive_of_accumulating h.ready h.reads h.valid h.dec h.description]
  simp only [receiveInto, h.chosen_of_desc, appendFifo_of_fifo_nil hfifo hcap, hbound]

section
variable (hmixed : indexes.length ≠ 1)
include hmixed

theorem exec_of_mixed_ok (hprocess : processMixed s.cfg a ⟨indexes, p.data⟩ = .ok a') :
    exec .decReceive s = s.finishReceive (drain s.cfg (1 + a.mixed.length) a') := by
  obtain ⟨-, hfifo, -⟩ := h.accumulating_ok
  rw [h.exec_eq_drain hcap, drain_mixed_of_ok (a := { a with fifo := [⟨indexes, p.data⟩] }) (rest := a.fifo)
    (by rw [hfifo]) hmixed hprocess]

theorem exec_of_mixed_full {e : CapacityError} (hprocess : processMixed s.cfg a ⟨indexes, p.data⟩ = .error (.capacity e)) :
    exec .decReceive s = s.failWith e := by
  obtain ⟨-, hfifo, -⟩ := h.accumulating_ok
  rw [h.exec_eq_drain hcap, drain_mixed_of_error (a := { a with fifo := [⟨indexes, p.data⟩] }) (rest := a.fifo)
    (by rw [hfifo]) hmixed hprocess]
  rfl

end

end

/-- A part that leaves the assembly as it is changes nothing but the result. -/
theorem finishReceive_same (h : MatchingPart s a p indexes) (k : Nat) :
    s.finishReceive (drain s.cfg k a) = .next (s.reply (.ok (.more true))) := by
  rw [drain_of_fifo_nil h.accumulating_ok.2.1]
  simp only [State.finishReceive, State.withDec_self h.dec, State.answer_eq]

end MatchingPart

/-! ### The obligations on refusals, data errors and the reads -/

/-- Settles O28: `ReceiveEnd` names the two ends that answer a capacity error, and both leave the decoder failed with it. -/
theorem failedDecoderRefuses : Obligations.FailedDecoderRefuses := by
  refine ⟨fun s t e hf h hres => ?_, fun s e p hf hdec hread => exec_decReceive_of_failed hf hread hdec,
    fun s e hf hdec hopr => ⟨exec_decMessage_of_failed hf hopr hdec, exec_decPercent_of_failed hf hopr hdec, ?_⟩⟩
  · cases decReceive_end hf h with
    | refused hdec => cases hres; exact hdec
    | capacity e => cases hres; rfl
    | faulted hfault => rw [hfault] at hres; cases hres
    | noMore => cases hres
    | invalid => cases hres
    | inconsistent => cases hres
    | drained => cases hres
  · have hflag : decide (s.dec.state = .complete) = false := by rw [hdec]; rfl
    rw [exec_decIsComplete_of_ready hf hopr, hflag]
    rfl

/-- Settles O29: the tests come before anything is written, and only their two ends of `ReceiveEnd` answer a data error. -/
theorem receiveWithoutEffect : Obligations.ReceiveWithoutEffect := by
  refine ⟨fun s p hf hread => ⟨fun a hdec => exec_decReceive_of_complete hf hread hdec, fun hstate hbad =>
    exec_decReceive_of_invalid hf hread hstate (Part.invalid_eq_true_iff.2 hbad),
    fun a hdec hseq hcount _ hdata hle hdesc => exec_decReceive_of_inconsistent hf hread
      (Part.invalid_eq_false_of hseq hcount hdata hle) hdec hdesc⟩, fun s t hf h hres => ?_⟩
  cases decReceive_end hf h with
  | invalid => rfl
  | inconsistent => rfl
  | refused => obtain hres | ⟨_, _, hres⟩ := hres <;> cases hres
  | noMore => obtain hres | ⟨_, _, hres⟩ := hres <;> cases hres
  | capacity => obtain hres | ⟨_, _, hres⟩ := hres <;> cases hres
  | faulted hfault => rw [hfault] at hres; obtain hres | ⟨_, _, hres⟩ := hres <;> cases hres
  | drained => obtain hres | ⟨_, _, hres⟩ := hres <;> cases hres

/-- Settles O30: the three tests of a first part in their order. -/
theorem firstPartCapacity : Obligations.FirstPartCapacity := by
  intro s p e hf hdec hread hseq hcount hdata hle hcap
  refine exec_decReceive_of_first_error hf hread (Part.invalid_eq_false_of hseq hcount hdata hle) hdec ?_
  split at hcap
  · next hfrag =>
    subst hcap
    simp only [firstAssembly, hfrag, if_true]
  next hfrag =>
  rw [Bool.not_eq_true] at hfrag
  split at hcap
  · next hfragments =>
    subst hcap
    simp only [firstAssembly, hfrag, hfragments, Bool.false_eq_true, if_true, if_false]
  next hfragments =>
  rw [Bool.not_eq_true] at hfragments
  obtain ⟨c, hc, hlt, rfl⟩ | ⟨hmsg, hlt, rfl⟩ := hcap
  · exact firstAssembly_of_space hfrag hfragments (exceededSpace_of_msgCap hc hlt)
  · exact firstAssembly_of_space hfrag hfragments (exceededSpace_of_maxValue hmsg hlt)

/-- Settles O41: the `more` of a receive is false only in the ends that leave the decoder complete. -/
theorem decIsCompleteOutcomes : Obligations.DecIsCompleteOutcomes := by
  refine ⟨by decide, fun s hf hopr => ?_, fun s t m hf h hres => ?_⟩
  · exact exec_decIsComplete_of_ready hf hopr
  cases decReceive_end hf h with
  | noMore hdec => cases hres; simp [hdec, Decoder.state]
  | drained a done => cases hres; cases done <;> simp [Decoder.state]
  | faulted hfault => rw [hfault] at hres; cases hres
  | refused => cases hres
  | invalid => cases hres
  | inconsistent => cases hres
  | capacity => cases hres

/-- Settles O40, state by state. -/
theorem decMessageOutcomes : Obligations.DecMessageOutcomes := by
  refine ⟨by decide, fun s hf hopr => ⟨fun e hdec => exec_decMessage_of_failed hf hopr hdec,
    fun hstate => exec_decMessage_of_none hf hopr hstate, fun a hdec => ?_⟩⟩
  rw [exec_decMessage_of_complete hf hopr hdec, s.raise_of_none _ hf]
  rfl

/-- Settles O43: `DEC.CLEAR` writes the decoder of the reset. -/
theorem decClearOutcome : Obligations.DecClearOutcome := by
  have hclear (s : State) (hf : s.sysFault = none) (hopr : s.opr = .empty) :
      exec .decClear s = .next ((s.withDec .empty).reply (.ok .none)) := by
    simp only [exec, execDecClear, execute_noOperands hf hopr, State.answer_eq]
  refine ⟨by decide, hclear, fun s t u hf hopr ht hu => ?_⟩
  rw [hclear s hf hopr] at ht
  rw [exec_sysReset] at hu
  cases ht
  cases hu
  rfl

end Sys2Proof.Machine

/-! What `DEC.RECEIVE` does with a matching part (44_decoder.md R204 to R214, R223): a new fragment, a part already seen, a
combined part, and the appends that the lists have no room for. -/

namespace Sys2Proof.Machine

/-! ### `ProcessMixed`, forwards -/

/-- A part without its resolved fragments, each XORed out of the data (44_decoder.md R209). -/
def Assembly.without (a : Assembly) (p : IndexedPart) : IndexedPart :=
  ⟨p.indexes.filter fun i => i ∉ a.resolved,
    (p.indexes.filter fun i => i ∈ a.resolved).foldl
      (fun d i => xorBytes d ((a.buf.drop (i * p.data.length)).take p.data.length)) p.data⟩

/-- The pending parts when `r` is to be stored: reduced by it, if the deployment says so (44_decoder.md R210, R211). -/
def Assembly.pendingFor (cfg : Cfg) (a : Assembly) (r : IndexedPart) : List IndexedPart :=
  if cfg.reducePendingByNew then a.mixed.map fun m => reducePart m r else a.mixed

theorem subtractFragments_of_inside {buf : Bytes} {fl : Nat} {l : List Nat} (h : ∀ i ∈ l, i * fl + fl ≤ buf.length)
    (d : Bytes) : subtractFragments buf fl l d =
      .ok (l.foldl (fun d i => xorBytes d ((buf.drop (i * fl)).take fl)) d) := by
  induction l generalizing d with
  | nil => rfl
  | cons i rest ih =>
    have hread : memRead buf (i * fl) fl = some ((buf.drop (i * fl)).take fl) :=
      memRead_eq_some.2 ⟨h i List.mem_cons_self, rfl⟩
    simp only [subtractFragments, hread, List.foldl_cons]
    exact ih (fun j hj => h j (List.mem_cons_of_mem i hj)) _

section
variable {cfg : Cfg} {a : Assembly} {p r : IndexedPart} {pending : List IndexedPart} {c : Nat}

theorem withoutResolved_of_ok (ha : a.Ok cfg) (hp : p.Ok a.desc) : withoutResolved a p = .ok (a.without p) := by
  have hinside : ∀ i ∈ p.indexes.filter a.resolved.contains,
      i * a.desc.fragmentLength + a.desc.fragmentLength ≤ a.buf.length :=
    fun i hi => ha.fragment_inside (hp.indexSet.2 i (List.mem_of_mem_filter hi))
  have hcontains : a.resolved.contains = fun i => decide (i ∈ a.resolved) := funext fun i => List.contains_eq_mem i _
  rw [withoutResolved, subtractFragments_of_inside hinside]
  simp only [Assembly.without, hp.data_length, hcontains, List.contains_eq_mem, decide_not]

theorem processMixed_of_pending (h : ∃ m ∈ a.mixed, m.indexes = p.indexes) : processMixed cfg a p = .ok a := by
  simp [processMixed, h]

section
variable (ha : a.Ok cfg) (hp : p.Ok a.desc)
include ha hp

theorem processMixed_of_nothing_left (hnil : (a.without p).indexes = []) : processMixed cfg a p = .ok a := by
  simp [processMixed, withoutResolved_of_ok ha hp, hnil]

section
variable (hnew : ∀ m ∈ a.mixed, m.indexes ≠ p.indexes)
include hnew

theorem processMixed_of_one_left (hone : (a.without p).indexes.length = 1) :
    processMixed cfg a p = appendFifo cfg a (a.without p) := by
  have hany : (a.mixed.any fun m => m.indexes == p.indexes) = false := by simpa using hnew
  have hs : (a.without p).simple = true := decide_eq_true hone
  simp only [processMixed, hany, withoutResolved_of_ok ha hp, hone, hs, one_ne_zero, Bool.false_eq_true, if_true, if_false]

/-- More than one index left: what the pending parts make of the part is enqueued if it is simple and stored otherwise. -/
theorem processMixed_of_more_left (htwo : 2 ≤ (a.without p).indexes.length) : processMixed cfg a p =
    if (a.mixed.foldl reducePart (a.without p)).indexes.length = 1
    then appendFifo cfg a (a.mixed.foldl reducePart (a.without p))
    else storeMixed cfg a (a.mixed.foldl reducePart (a.without p)) := by
  have hany : (a.mixed.any fun m => m.indexes == p.indexes) = false := by simpa using hnew
  have hs : (a.without p).simple = false := simple_eq_false_iff.2 (by omega)
  have hne : (a.without p).indexes.length ≠ 0 := by omega
  simp only [processMixed, hany, withoutResolved_of_ok ha hp, hs, if_neg hne, Bool.false_eq_true, if_false,
    reduceByPending]
  simp only [IndexedPart.simple, beq_iff_eq]

end

end

/-- No pending part is simple. -/
theorem Assembly.ListsOk.filter_simple (h : a.ListsOk cfg) :
    (a.mixed.filter fun m => m.indexes.length = 1) = [] ∧
      (a.mixed.filter fun m => m.indexes.length ≠ 1) = a.mixed := by
  have hne : ∀ m ∈ a.mixed, m.indexes.length ≠ 1 := fun m hm => by
    have := (h.pending m hm).1
    omega
  exact ⟨List.filter_eq_nil_iff.2 fun m hm => by simpa using hne m hm,
    List.filter_eq_self.2 fun m hm => by simpa using hne m hm⟩

section
variable (ha : a.ListsOk cfg) (hfifo : a.fifo = []) (hpending : pending = a.pendingFor cfg r)
include ha hfifo hpending

/-- Storing with room in the FIFO: the pending parts that became simple are enqueued, and the part goes to the tail of the
others. -/
theorem storeMixed_eq_appendMixed
    (hroom : exceeds cfg.queueCap (pending.filter fun m => m.indexes.length = 1).length = false) :
    storeMixed cfg a r = appendMixed cfg { a with
      fifo := pending.filter fun m => m.indexes.length = 1
      mixed := pending.filter fun m => m.indexes.length ≠ 1 } r := by
  unfold Assembly.pendingFor at hpending
  unfold storeMixed
  split at hpending
  · next hreduce =>
    have hok := reducePending_of_room (cfg := cfg) hpending (by simpa [hfifo] using hroom)
    rw [if_pos hreduce, hok, hfifo]
    rfl
  · next hkeep =>
    obtain ⟨hnil, hall⟩ := ha.filter_simple
    rw [if_neg hkeep, hpending, hnil, hall, ← hfifo]

theorem storeMixed_of_fifo_full (hcap : cfg.queueCap = some c)
    (hfull : c < (pending.filter fun m => m.indexes.length = 1).length) :
    storeMixed cfg a r = .error (.capacity (.queueFull .fifo c)) := by
  unfold Assembly.pendingFor at hpending
  unfold storeMixed
  split at hpending
  · next hreduce =>
    have herror := reducePending_of_full hpending hcap (by simp [hfifo]) (by simpa [hfifo] using hfull)
    rw [if_pos hreduce, herror]
  · next hkeep =>
    rw [hpending, ha.filter_simple.1] at hfull
    exact absurd hfull (Nat.not_lt_zero c)

end

/-- A part that is still mixed is stored, with room in both lists. -/
theorem processMixed_of_stored (ha : a.Ok cfg) (hfifo : a.fifo = []) (hp : p.Ok a.desc)
    (hnew : ∀ m ∈ a.mixed, m.indexes ≠ p.indexes) (hleft : 2 ≤ (a.without p).indexes.length)
    (hr : r = a.mixed.foldl reducePart (a.without p)) (hstill : 2 ≤ r.indexes.length)
    (hpending : pending = a.pendingFor cfg r)
    (hroom : exceeds cfg.queueCap (pending.filter fun m => m.indexes.length = 1).length = false)
    (hmixedRoom : exceeds cfg.mixedCap ((pending.filter fun m => m.indexes.length ≠ 1).length + 1) = false) :
    processMixed cfg a p = .ok { a with
      fifo := pending.filter fun m => m.indexes.length = 1
      mixed := (pending.filter fun m => m.indexes.length ≠ 1) ++ [r] } := by
  rw [processMixed_of_more_left ha hp hnew hleft, ← hr, if_neg (by omega),
    storeMixed_eq_appendMixed ha.listsOk hfifo hpending hroom]
  exact appendMixed_eq_ok.2 ⟨hmixedRoom, rfl⟩

end

/-! ### A new fragment, and a part already seen -/

section
variable {s : State} {a : Assembly} {p : Part} {i : Nat} (h : MatchingPart s a p [i]) (hcap : s.cfg.queueCap ≠ some 0)
include h hcap

theorem MatchingPart.exec_of_resolved (hi : i ∈ a.resolved) :
    exec .decReceive s = .next (s.reply (.ok (.more true))) := by
  obtain ⟨-, hfifo, -⟩ := h.accumulating_ok
  have hround := drain_simple_of_ok (k := 1 + a.mixed.length) (a := { a with fifo := [⟨[i], p.data⟩] }) (rest := a.fifo)
    (by rw [hfifo]) (processSimple_of_resolved (cfg := s.cfg) (d := p.data) hi)
  rw [h.exec_eq_drain hcap, hround]
  exact h.finishReceive_same _

section
variable (hnew : i ∉ a.resolved)
include hnew

/-- The first round of the drain loop on a new fragment. -/
theorem MatchingPart.exec_of_new (hroom : exceeds s.cfg.queueCap (a.withFragment i p.data).fifo.length = false) :
    exec .decReceive s = s.finishReceive (
      if a.resolved.length + 1 = a.desc.sequenceCount then .ok (a.withFragment i p.data, true)
      else drain s.cfg (1 + a.mixed.length) (a.withFragment i p.data)) := by
  obtain ⟨ha, hfifo, -⟩ := h.accumulating_ok
  have hround := drain_simple_of_ok (k := 1 + a.mixed.length) (a := { a with fifo := [⟨[i], p.data⟩] }) (rest := a.fifo)
    (by rw [hfifo]) (processSimple_of_room ha h.indexed_ok hnew hroom)
  rw [h.exec_eq_drain hcap, hround]
  simp only [decide_eq_true_eq]

theorem MatchingPart.exec_of_new_full {c : Nat} (hc : s.cfg.queueCap = some c)
    (hfull : c < (a.withFragment i p.data).fifo.length) :
    exec .decReceive s = s.failWith (.queueFull .fifo c) := by
  obtain ⟨ha, hfifo, -⟩ := h.accumulating_ok
  have hround := drain_simple_of_error (k := 1 + a.mixed.length) (a := { a with fifo := [⟨[i], p.data⟩] }) (rest := a.fifo)
    (by rw [hfifo]) (processSimple_of_full ha hnew hc hfull)
  rw [h.exec_eq_drain hcap, hround]
  rfl

end

end

/-- Settles O36: `ProcessSimple` drops a resolved index, `ProcessMixed` a set that is pending. -/
theorem duplicatePartsChangeNothing : Obligations.DuplicatePartsChangeNothing := by
  intro s a p indexes hf hdec hok hread hseq hdesc hchoose hseen hcap
  have h : MatchingPart s a p indexes := ⟨hf, hdec, hok, hread, hseq, hdesc, hchoose⟩
  obtain ⟨i, hi, rfl⟩ | ⟨m, hm, hindexes⟩ := hseen
  · exact h.exec_of_resolved hcap hi
  · obtain ⟨ha, -, -⟩ := h.accumulating_ok
    have htwo := (ha.listsOk.pending m hm).1
    rw [hindexes] at htwo
    rw [h.exec_of_mixed_ok hcap (by omega) (processMixed_of_pending ⟨m, hm, hindexes⟩)]
    exact h.finishReceive_same _

/-- Settles O32: the first round of the drain loop stores the fragment. -/
theorem newFragmentStored : Obligations.NewFragmentStored := by
  intro s a p i reduced b hf hdec hok hread hseq hchoose hdesc hnew hreduced hb hcap hroom
  have h : MatchingPart s a p [i] := ⟨hf, hdec, hok, hread, hseq, hdesc, hchoose⟩
  obtain ⟨-, hfifo, -⟩ := h.accumulating_ok
  have hwith : b = a.withFragment i p.data := by
    rw [hb, hreduced, Assembly.withFragment, hfifo]
    rfl
  have hcount : a.desc.sequenceCount = p.sequenceCount := by rw [← hdesc]; rfl
  have hexec := h.exec_of_new hcap hnew (by rwa [← hwith])
  rw [← hwith, hcount] at hexec
  refine ⟨fun hall => ?_, fun hmore hnil => ?_, fun hmore => ?_⟩
  · rw [hexec, if_pos hall]
    rfl
  · rw [hexec, if_neg hmore, drain_of_fifo_nil hnil]
    rfl
  · rw [hexec, if_neg hmore]

/-! ### A first part -/

theorem fresh_fragment_buffer {i n : Nat} {d : Bytes} (hi : i < n) :
    (zeroBytes (d.length * n)).take (i * d.length) ++ d ++ (zeroBytes (d.length * n)).drop ((i + 1) * d.length) =
      zeroBytes (i * d.length) ++ d ++ zeroBytes ((n - 1 - i) * d.length) := by
  have hle : i * d.length ≤ d.length * n := by
    rw [Nat.mul_comm]
    exact Nat.mul_le_mul_left _ hi.le
  have hrest : d.length * n - (i + 1) * d.length = (n - 1 - i) * d.length := by
    rw [Nat.mul_comm d.length, ← Nat.sub_mul]
    congr 1
    omega
  simp only [zeroBytes, List.take_replicate, List.drop_replicate, Nat.min_eq_left hle, hrest]

/-- Settles O31: a first part founds an assembly, and is then received as a new fragment. -/
theorem firstPartStored : Obligations.FirstPartStored := by
  refine ⟨fun s p hf hdec hread hseq hcount hdata hle hfrag hfragments hmsg hmax => ?_, ?_⟩
  · exact exec_decReceive_of_first hf hread (Part.invalid_eq_false_of hseq hcount hdata hle) hdec
      (firstAssembly_of_room hfrag hfragments hmsg hmax)
  intro s p i hf hdec hread htoNat hi hdata hle hfrag hfragments hmsg hmax hcap
  have hseq : p.sequence ≠ 0 := by
    intro h0
    rw [h0] at htoNat
    exact absurd htoNat (Nat.succ_ne_zero i).symm
  have hvalid := Part.invalid_eq_false_of hseq (by omega) hdata hle
  have hfirst := firstAssembly_of_room hfrag hfragments hmsg hmax
  have hok := EntersAssembly.ok (s := s) (by rw [hdec]; trivial) ⟨hread, hvalid, .inl ⟨hdec, hfirst⟩⟩
  have hchoose : choose s.cfg p.sequence p.sequenceCount p.checksum = .ok [i] := by
    rw [choose_of_le (by omega), htoNat]
    rfl
  have h : MatchingPart (s.withDec (.accumulating p.founds)) p.founds p [i] :=
    ⟨hf, rfl, hok, hread, hseq, rfl, hchoose⟩
  have hwith : p.founds.withFragment i p.data = ⟨p.description,
      zeroBytes (i * p.data.length) ++ p.data ++ zeroBytes ((p.sequenceCount - 1 - i) * p.data.length), [i], [], []⟩ := by
    rw [← fresh_fragment_buffer hi]
    rfl
  have hexec := h.exec_of_new hcap (List.not_mem_nil) (by rw [hwith]; exact exceeds_zero _)
  rw [exec_decReceive_of_first hf hread hvalid hdec hfirst, hexec, hwith]
  by_cases hone : p.sequenceCount = 1
  · rw [if_pos (show p.founds.resolved.length + 1 = p.founds.desc.sequenceCount from hone.symm), if_pos hone,
      decide_eq_false (not_not.2 hone)]
    rfl
  · rw [if_neg (show p.founds.resolved.length + 1 ≠ p.founds.desc.sequenceCount from Ne.symm hone),
      drain_of_fifo_nil rfl, if_neg hone, decide_eq_true hone]
    rfl

/-! ### A combined part -/

/-- Settles O34: `ProcessMixed` by what it leaves of the part. -/
theorem combinedPartOutcomes : Obligations.CombinedPartOutcomes := by
  intro s a p indexes q r pending hf hdec hok hread hseq hdesc hchoose hmany hnew hcap hq hr hpending
  have h : MatchingPart s a p indexes := ⟨hf, hdec, hok, hread, hseq, hdesc, hchoose⟩
  obtain ⟨ha, hfifo, -⟩ := h.accumulating_ok
  have hmixed : indexes.length ≠ 1 := by omega
  have hq : q = a.without ⟨indexes, p.data⟩ := hq
  subst hq
  refine ⟨fun hnil => ?_, fun hone => ?_, fun hleft hone => ?_, fun hleft hstill hnone hroom => ?_,
    fun hleft hstill hroom hmixedRoom => ?_⟩
  · rw [h.exec_of_mixed_ok hcap hmixed (processMixed_of_nothing_left ha h.indexed_ok hnil)]
    exact h.finishReceive_same _
  · refine h.exec_of_mixed_ok hcap hmixed ?_
    rw [processMixed_of_one_left ha h.indexed_ok hnew hone, appendFifo_of_fifo_nil hfifo hcap]
  · refine h.exec_of_mixed_ok hcap hmixed ?_
    rw [processMixed_of_more_left ha h.indexed_ok hnew hleft, ← hr, if_pos hone, appendFifo_of_fifo_nil hfifo hcap]
  · have hsimple : (pending.filter fun m => m.indexes.length = 1) = [] :=
      List.filter_eq_nil_iff.2 fun m hm => by simpa using hnone m hm
    have hall : (pending.filter fun m => m.indexes.length ≠ 1) = pending :=
      List.filter_eq_self.2 fun m hm => by simpa using hnone m hm
    have hstored := processMixed_of_stored ha hfifo h.indexed_ok hnew hleft hr hstill hpending
      (by rw [hsimple]; exact exceeds_zero _) (by rwa [hall])
    rw [h.exec_of_mixed_ok hcap hmixed hstored, drain_of_fifo_nil hsimple, hsimple, hall, ← hfifo]
    rfl
  · rw [List.countP_eq_length_filter] at hroom hmixedRoom
    exact h.exec_of_mixed_ok hcap hmixed
      (processMixed_of_stored ha hfifo h.indexed_ok hnew hleft hr hstill hpending hroom hmixedRoom)

/-- Settles O35: each of the appends that can overflow. -/
theorem queueFullFails : Obligations.QueueFullFails := by
  intro s a p indexes c hf hdec hok hread hseq hdesc hchoose
  have h : MatchingPart s a p indexes := ⟨hf, hdec, hok, hread, hseq, hdesc, hchoose⟩
  obtain ⟨ha, hfifo, -⟩ := h.accumulating_ok
  refine ⟨fun hzero => h.exec_of_queueCap_zero hzero, ?_, ?_⟩
  · rintro i rfl hnew hc hpos hfull
    refine h.exec_of_new_full (by rw [hc]; exact fun h0 => by cases h0; omega) hnew hc ?_
    rw [List.countP_eq_length_filter] at hfull
    rwa [Assembly.withFragment, hfifo]
  · intro q r pending hnew hmany hcap hq hr hleft hstill hpending
    have hq : q = a.without ⟨indexes, p.data⟩ := hq
    subst hq
    have hprocess : processMixed s.cfg a ⟨indexes, p.data⟩ = storeMixed s.cfg a r := by
      rw [processMixed_of_more_left ha h.indexed_ok hnew hleft, ← hr, if_neg (by omega)]
    rw [List.countP_eq_length_filter, List.countP_eq_length_filter]
    refine ⟨fun hc hfull => ?_, fun hroom hc hfull => ?_⟩
    · refine h.exec_of_mixed_full hcap (by omega) ?_
      rw [hprocess, storeMixed_of_fifo_full ha.listsOk hfifo hpending hc hfull]
    · refine h.exec_of_mixed_full hcap (by omega) ?_
      rw [hprocess, storeMixed_eq_appendMixed ha.listsOk hfifo hpending hroom, appendMixed_of_full hc hfull]

end Sys2Proof.Machine

/-! The message of a complete decoder (44_decoder.md R215, R216), and the run over the parts of the first round in order
(R226). -/

namespace Sys2Proof.Machine

/-! ### The padded message -/

/-- The message with the zeros that fill its last fragment (20_memory.md R61, R62). -/
def paddedMessage (message : Bytes) (fl : Nat) : Bytes :=
  message ++ zeroBytes (fl * ceilDiv message.length fl - message.length)

section
variable {message : Bytes} {fl : Nat} (hfl : 1 ≤ fl)
include hfl

theorem length_le_fragments : message.length ≤ fl * ceilDiv message.length fl := by
  rw [Nat.mul_comm]
  exact le_ceilDiv_mul hfl

theorem paddedMessage_length : (paddedMessage message fl).length = fl * ceilDiv message.length fl := by
  have hle := length_le_fragments (message := message) hfl
  rw [paddedMessage, List.length_append, zeroBytes_length]
  omega

theorem paddedMessage_getElem? {k : Nat} (hk : k < fl * ceilDiv message.length fl) :
    (paddedMessage message fl)[k]? = some (message.getD k 0) := by
  have hle := length_le_fragments (message := message) hfl
  rw [paddedMessage]
  by_cases hin : k < message.length
  · rw [List.getElem?_append_left hin, List.getElem?_eq_getElem hin, List.getD_eq_getElem _ _ hin]
  · rw [List.getElem?_append_right (not_lt.1 hin), zeroBytes, List.getElem?_replicate_of_lt (by omega),
      List.getD_eq_default _ _ (not_lt.1 hin)]

/-- Fragment `i` is the run of bytes at its place in the padded message. -/
theorem fragmentOf_eq_take_drop {i : Nat} (hi : i < ceilDiv message.length fl) :
    fragmentOf message fl i = ((paddedMessage message fl).drop (i * fl)).take fl := by
  have hend : i * fl + fl ≤ fl * ceilDiv message.length fl := by
    rw [← Nat.succ_mul, Nat.mul_comm]
    exact Nat.mul_le_mul_left _ hi
  apply List.ext_getElem?
  intro k
  by_cases hk : k < fl
  · rw [fragmentOf_getElem? i hk, List.getElem?_take_of_lt hk, List.getElem?_drop,
      paddedMessage_getElem? hfl (by omega)]
  · rw [List.getElem?_eq_none (by rw [fragmentOf_length]; omega),
      List.getElem?_eq_none (by rw [List.length_take]; omega)]

end

/-! ### The message of a complete decoder -/

/-- An index set with as many elements as there are indices names all of them. -/
theorem IndexSet.mem_of_length_eq {n i : Nat} {l : List Nat} (h : IndexSet n l) (hlen : l.length = n) (hi : i < n) :
    i ∈ l := by
  have hsub : l ⊆ List.range n := fun j hj => List.mem_range.2 (h.2 j hj)
  have hperm := (h.nodup.subperm hsub).perm_of_length_le (by simp [hlen])
  exact hperm.mem_iff.2 (List.mem_range.2 hi)

/-- The buffer of a decoder that has resolved every index of one message is the padded message. -/
theorem Assembly.Consistent.buf_eq {cfg : Cfg} {a : Assembly} {message : Bytes} {fl : Nat} (ha : a.Ok cfg)
    (hc : a.Consistent cfg message fl) (hall : a.resolved.length = a.desc.sequenceCount) :
    a.buf = paddedMessage message fl := by
  obtain ⟨hdescribes, hbuf, -, -⟩ := hc
  have hresolved := ha.listsOk.resolved
  obtain ⟨-, -, hfl, -, -, hlen, -⟩ := ha
  rw [hdescribes] at hfl hlen hresolved hall
  dsimp only at hfl hlen hresolved hall
  apply List.ext_getElem?
  intro k
  by_cases hk : k < fl * ceilDiv message.length fl
  · have hi : k / fl < ceilDiv message.length fl := Nat.div_lt_of_lt_mul hk
    have hj : k % fl < fl := Nat.mod_lt k hfl
    have hplace : k / fl * fl + k % fl = k := Nat.div_add_mod' k fl
    obtain ⟨-, hread⟩ := memRead_eq_some.1 (hbuf _ (hresolved.mem_of_length_eq hall hi))
    have hbyte := fragmentOf_getElem? (message := message) (k / fl) hj
    rw [hread, List.getElem?_take_of_lt hj, List.getElem?_drop, hplace] at hbyte
    rw [hbyte, paddedMessage_getElem? hfl hk]
  · rw [List.getElem?_eq_none (by omega), List.getElem?_eq_none (by rw [paddedMessage_length hfl]; omega)]

/-- A complete decoder whose buffer is the padded message answers the message (44_decoder.md R216). -/
theorem exec_decMessage_of_padded {s : State} {a : Assembly} {message : Bytes} {fl : Nat} (hf : s.sysFault = none)
    (hopr : s.opr = .empty) (hdec : s.dec = .complete a) (hbuf : a.buf = paddedMessage message fl)
    (hlen : a.desc.messageLength = message.length) :
    exec .decMessage s = .next (s.reply (.ok (.message (some message)))) := by
  have hpadding : ¬∃ b ∈ a.buf.drop a.desc.messageLength, b ≠ 0 := by
    rw [hbuf, hlen, paddedMessage, List.drop_left]
    rintro ⟨b, hb, hne⟩
    exact hne (List.eq_of_mem_replicate hb)
  have hroom : ¬a.buf.length < a.desc.messageLength := by
    rw [hbuf, hlen, paddedMessage, List.length_append]
    omega
  rw [exec_decMessage_of_complete hf hopr hdec, if_neg hroom, if_neg hpadding, hbuf, hlen, paddedMessage, List.take_left]

/-- Settles O56: with every index resolved, the consistent buffer is the padded message. -/
theorem completeDecoderReturnsMessage : Obligations.CompleteDecoderReturnsMessage := by
  rintro s a message fl ⟨-, -, hok⟩ hf hopr hdec hc
  rw [hdec] at hok
  obtain ⟨ha, hall⟩ := hok
  have hbuf := hc.buf_eq ha hall
  obtain ⟨hdescribes, -⟩ := hc
  exact exec_decMessage_of_padded hf hopr hdec hbuf (by rw [hdescribes])

/-! ### The decoder after some parts of the first round -/

theorem insertIndex_of_forall_lt {i : Nat} {l : List Nat} (h : ∀ j ∈ l, j < i) : insertIndex i l = l ++ [i] := by
  induction l with
  | nil => rfl
  | cons j l ih =>
    have hj := h j List.mem_cons_self
    rw [insertIndex, if_neg (by omega), if_neg (by omega), ih fun m hm => h m (List.mem_cons_of_mem j hm)]
    rfl

/-- Part `k + 1` of the message's stream, a part of the first round. -/
def firstRoundPart (cfg : Cfg) (message : Bytes) (fl k : Nat) : Part :=
  streamPart cfg message fl (BitVec.ofNat 32 (k + 1)) [k]

/-- What the decoder holds after the first `k` parts: the first `k` fragments, and zeros. -/
def firstRoundAssembly (cfg : Cfg) (message : Bytes) (fl k : Nat) : Assembly where
  desc := ⟨ceilDiv message.length fl, message.length, cfg.crc32Of message, fl⟩
  buf := (paddedMessage message fl).take (k * fl) ++ zeroBytes ((ceilDiv message.length fl - k) * fl)
  resolved := List.range k
  fifo := []
  mixed := []

/-- The decoder after the first `k` parts: complete with the last one. -/
def firstRoundDecoder (cfg : Cfg) (message : Bytes) (fl k : Nat) : Decoder :=
  if k = 0 then .empty
  else (if k = ceilDiv message.length fl then Decoder.complete else Decoder.accumulating)
    (firstRoundAssembly cfg message fl k)

/-- A message in fragments of `fl` bytes that the deployment has room for. -/
structure FitsDeployment (cfg : Cfg) (message : Bytes) (fl : Nat) : Prop where
  fl_pos : 1 ≤ fl
  fl_le : fl ≤ message.length
  count : ceilDiv message.length fl < 2 ^ 32
  usize : message.length < 2 ^ cfg.usize.bits
  space : fl * ceilDiv message.length fl ≤ cfg.usize.maxValue
  fragCap : exceeds cfg.fragCap fl = false
  maxFragments : exceeds cfg.maxFragments (ceilDiv message.length fl) = false
  msgCap : exceeds cfg.msgCap (fl * ceilDiv message.length fl) = false
  queueCap : cfg.queueCap ≠ some 0

section
variable {cfg : Cfg} {message : Bytes} {fl k : Nat} (hfits : FitsDeployment cfg message fl)
  (hk : k < ceilDiv message.length fl)
include hfits hk

theorem firstRoundAssembly_take_length : ((paddedMessage message fl).take (k * fl)).length = k * fl := by
  rw [List.length_take, paddedMessage_length hfits.fl_pos, Nat.mul_comm fl]
  exact Nat.min_eq_left (Nat.mul_le_mul_right fl hk.le)

theorem firstRoundAssembly_ok : (firstRoundAssembly cfg message fl k).Ok cfg := by
  have hbuf : (firstRoundAssembly cfg message fl k).buf.length = fl * ceilDiv message.length fl := by
    rw [firstRoundAssembly, List.length_append, firstRoundAssembly_take_length hfits hk, zeroBytes_length, ← Nat.add_mul,
      Nat.add_sub_cancel' hk.le, Nat.mul_comm]
  have hindexes : IndexSet (ceilDiv message.length fl) (List.range k) :=
    ⟨List.pairwise_lt_range, fun i hi => (List.mem_range.1 hi).trans hk⟩
  exact ⟨by exact Nat.one_le_of_lt hk, hfits.count, hfits.fl_pos, hfits.fl_le, hfits.usize, hbuf,
    hbuf.trans_le hfits.space, by rw [hbuf]; exact hfits.msgCap, hfits.fragCap, hfits.maxFragments, hindexes, nofun,
    exceeds_zero _, nofun, exceeds_zero _⟩

/-- The next fragment in order. -/
theorem firstRoundAssembly_withFragment :
    (firstRoundAssembly cfg message fl k).withFragment k (fragmentOf message fl k) =
      firstRoundAssembly cfg message fl (k + 1) := by
  have htake := firstRoundAssembly_take_length hfits hk
  have hbefore : (firstRoundAssembly cfg message fl k).buf.take (k * fl) = (paddedMessage message fl).take (k * fl) :=
    List.take_left' htake
  have hafter : (firstRoundAssembly cfg message fl k).buf.drop ((k + 1) * fl) =
      zeroBytes ((ceilDiv message.length fl - (k + 1)) * fl) := by
    have hrest : (ceilDiv message.length fl - k) * fl - fl = (ceilDiv message.length fl - (k + 1)) * fl := by
      rw [← Nat.sub_sub, Nat.sub_mul _ 1, one_mul]
    rw [Nat.succ_mul, ← List.drop_drop, firstRoundAssembly, List.drop_left' htake, zeroBytes, List.drop_replicate, hrest,
      zeroBytes]
  have hresolved : insertIndex k (List.range k) = List.range (k + 1) := by
    rw [insertIndex_of_forall_lt fun j hj => List.mem_range.1 hj, List.range_succ]
  have hfragment := fragmentOf_eq_take_drop hfits.fl_pos hk
  rw [Assembly.withFragment, fragmentOf_length, hbefore, hafter, hfragment, ← List.take_add, ← Nat.succ_mul]
  simp only [firstRoundAssembly, hresolved]
  rfl

end

/-! ### The run -/

theorem stepMany_succ_of_next {n : Nat} {s t : State} (h : step s = .next t) : stepMany (n + 1) s = stepMany n t := by
  simp only [stepMany, h]

theorem stepMany_add_of_next {m n : Nat} {s t : State} (h : stepMany m s = .next t) :
    stepMany (m + n) s = stepMany n t := by
  induction m generalizing s with
  | zero => cases h; rw [Nat.zero_add]
  | succ m ih =>
    cases hstep : step s with
    | next u =>
      rw [stepMany_succ_of_next hstep] at h
      rw [Nat.succ_add, stepMany_succ_of_next hstep, ih h]
    | fault f => simp [stepMany, hstep] at h
    | refused r => simp [stepMany, hstep] at h

/-- The state after the first `k` parts: a ready block with the rest of the first round, and what comes after it, still to be
issued. -/
structure FirstRoundAt (cfg : Cfg) (message : Bytes) (fl : Nat) (after : List Request) (k : Nat) (s : State) : Prop where
  deployment : s.cfg = cfg
  ready : s.sysFault = none
  dec : s.dec = firstRoundDecoder cfg message fl k
  issue : s.issue = (firstRoundRequests cfg message fl).drop k ++ after

section
variable {cfg : Cfg} {message : Bytes} {fl k : Nat} {after : List Request} {s : State}

theorem firstRoundRequests_drop (hk : k < ceilDiv message.length fl) : (firstRoundRequests cfg message fl).drop k =
    receiveRequest (firstRoundPart cfg message fl k) :: (firstRoundRequests cfg message fl).drop (k + 1) := by
  rw [List.drop_eq_getElem_cons (by simpa [firstRoundRequests] using hk)]
  simp [firstRoundRequests, firstRoundPart]

theorem firstRoundPart_sequence (hfits : FitsDeployment cfg message fl) (hk : k < ceilDiv message.length fl) :
    (firstRoundPart cfg message fl k).sequence.toNat = k + 1 :=
  Nat.mod_eq_of_lt (Nat.lt_of_le_of_lt hk hfits.count)

theorem firstRoundPart_data : (firstRoundPart cfg message fl k).data = fragmentOf message fl k :=
  combineFragments_singleton k

/-- The assembly that part 1 founds. -/
theorem firstRoundPart_founds :
    (firstRoundPart cfg message fl 0).founds = firstRoundAssembly cfg message fl 0 := by
  have hdesc : (firstRoundPart cfg message fl 0).description = (firstRoundAssembly cfg message fl 0).desc :=
    streamPart_description _ _
  have hcount : (firstRoundPart cfg message fl 0).sequenceCount = ceilDiv message.length fl := rfl
  rw [Part.founds, hdesc, hcount, firstRoundPart_data, fragmentOf_length, Nat.mul_comm]
  simp [firstRoundAssembly]

section
variable (hfits : FitsDeployment s.cfg message fl) (hk : k < ceilDiv message.length fl) (hf : s.sysFault = none)
  (hopr : s.opr = (firstRoundPart s.cfg message fl k).toRecord)
include hfits hk hf hopr

/-- Part `k + 1` matches the decoder that holds the first `k` fragments, and its index is `k`. -/
theorem firstRoundPart_matching :
    MatchingPart (s.withDec (.accumulating (firstRoundAssembly s.cfg message fl k)))
      (firstRoundAssembly s.cfg message fl k) (firstRoundPart s.cfg message fl k) [k] where
  ready := hf
  dec := rfl
  decOk := ⟨firstRoundAssembly_ok hfits hk, rfl, List.length_range.trans_lt hk⟩
  reads := by
    rw [State.withDec_opr, hopr]
    exact partOperand_toRecord hfits.count hfits.usize
  sequence h0 := by
    have htoNat := firstRoundPart_sequence hfits hk
    rw [h0] at htoNat
    exact absurd htoNat (Nat.succ_ne_zero k).symm
  description := streamPart_description _ _
  chosen := by
    have htoNat := firstRoundPart_sequence hfits hk
    have hle : (firstRoundPart s.cfg message fl k).sequence.toNat ≤ (firstRoundPart s.cfg message fl k).sequenceCount :=
      htoNat.trans_le hk
    rw [choose_of_le hle, htoNat]
    rfl

variable (hdec : s.dec = firstRoundDecoder s.cfg message fl k)
include hdec

/-- A block that has received `k` parts receives the next as one that accumulates the first `k` fragments. -/
theorem exec_decReceive_of_firstRoundDecoder :
    exec .decReceive s = exec .decReceive (s.withDec (.accumulating (firstRoundAssembly s.cfg message fl k))) := by
  have hmatch := firstRoundPart_matching hfits hk hf hopr
  by_cases h0 : k = 0
  · subst h0
    refine exec_decReceive_of_first hf hmatch.reads hmatch.valid hdec ?_
    have hlen : (firstRoundPart s.cfg message fl 0).data.length = fl := by rw [firstRoundPart_data, fragmentOf_length]
    rw [← firstRoundPart_founds]
    exact firstAssembly_of_room (by rw [hlen]; exact hfits.fragCap) hfits.maxFragments
      (by rw [hlen]; exact hfits.msgCap) (by rw [hlen]; exact hfits.space)
  · rw [firstRoundDecoder, if_neg h0, if_neg hk.ne] at hdec
    rw [State.withDec_self hdec]

/-- `DEC.RECEIVE` of part `k + 1` after the first `k`. -/
theorem exec_decReceive_of_firstRound :
    exec .decReceive s = .next ((s.withDec (firstRoundDecoder s.cfg message fl (k + 1))).reply
      (.ok (.more (decide (k + 1 ≠ ceilDiv message.length fl))))) := by
  have hwith : (firstRoundAssembly s.cfg message fl k).withFragment k (firstRoundPart s.cfg message fl k).data =
      firstRoundAssembly s.cfg message fl (k + 1) := by
    rw [firstRoundPart_data, firstRoundAssembly_withFragment hfits hk]
  have hnew := (firstRoundPart_matching hfits hk hf hopr).exec_of_new hfits.queueCap List.not_mem_range_self
    (by rw [hwith]; exact exceeds_zero _)
  have hresolved : (firstRoundAssembly s.cfg message fl k).resolved.length = k := List.length_range
  have hcount : (firstRoundAssembly s.cfg message fl k).desc.sequenceCount = ceilDiv message.length fl := rfl
  rw [exec_decReceive_of_firstRoundDecoder hfits hk hf hopr hdec, hnew, hwith, hresolved, hcount, firstRoundDecoder,
    if_neg (Nat.succ_ne_zero k)]
  by_cases hlast : k + 1 = ceilDiv message.length fl
  · rw [if_pos hlast, if_pos hlast, decide_eq_false (not_not.2 hlast)]
    rfl
  · rw [if_neg hlast, if_neg hlast, decide_eq_true hlast, drain_of_fifo_nil rfl]
    rfl

end

/-- A step of the first round. -/
theorem FirstRoundAt.step (hfits : FitsDeployment cfg message fl) (hk : k < ceilDiv message.length fl)
    (h : FirstRoundAt cfg message fl after k s) : ∃ t, step s = .next t ∧ FirstRoundAt cfg message fl after (k + 1) t := by
  obtain ⟨rfl, hf, hdec, hissue⟩ := h
  rw [firstRoundRequests_drop hk, List.cons_append] at hissue
  have hexec := exec_decReceive_of_firstRound (s := s.present (firstRoundPart s.cfg message fl k).toRecord
    ((firstRoundRequests s.cfg message fl).drop (k + 1) ++ after)) hfits hk hf rfl hdec
  exact ⟨_, (step_of_decode hissue (show decode 0x50 = .ok .decReceive by decide)).trans hexec, rfl, hf, rfl, rfl⟩

theorem FirstRoundAt.stepMany (hfits : FitsDeployment cfg message fl) {j : Nat} (hj : k + j ≤ ceilDiv message.length fl)
    (h : FirstRoundAt cfg message fl after k s) :
    ∃ t, stepMany j s = .next t ∧ FirstRoundAt cfg message fl after (k + j) t := by
  induction j generalizing k s with
  | zero => exact ⟨s, rfl, h⟩
  | succ j ih =>
    obtain ⟨u, hu, hat⟩ := h.step hfits (by omega)
    obtain ⟨t, ht, hat⟩ := ih (by omega) hat
    rw [Nat.succ_add_eq_add_succ] at hat
    exact ⟨t, (stepMany_succ_of_next hu).trans ht, hat⟩

/-- Before the last part of the round the decoder is not complete and has resolved the indices of the parts so far. -/
theorem firstRoundDecoder_of_lt (hk : k < ceilDiv message.length fl) :
    (firstRoundDecoder cfg message fl k).state ≠ .complete ∧
      (firstRoundDecoder cfg message fl k).resolved = List.range k := by
  unfold firstRoundDecoder
  split
  · next h0 =>
    subst h0
    exact ⟨by decide, rfl⟩
  · rw [if_neg hk.ne]
    exact ⟨nofun, rfl⟩

end

/-- Settles O57, by induction over the parts: after `k` of them the decoder is `firstRoundDecoder k`, and after the last one
its buffer is the padded message. -/
theorem inOrderRoundTrip : Obligations.InOrderRoundTrip := by
  intro s message fl n rest hf hdec hfl hle hn hcount husize hspace hfrag hfragments hmsg hqueue hissue
  subst hn
  have hfits : FitsDeployment s.cfg message fl := ⟨hfl, hle, hcount, husize, hspace, hfrag, hfragments, hmsg, hqueue⟩
  have hstart : FirstRoundAt s.cfg message fl (⟨0x51, .empty⟩ :: rest) 0 s := ⟨rfl, hf, hdec, hissue⟩
  refine ⟨fun k hk => ?_, ?_⟩
  · obtain ⟨u, hu, -, -, hudec, -⟩ := hstart.stepMany hfits (j := k) (by omega)
    rw [Nat.zero_add] at hudec
    refine ⟨u, hu, ?_⟩
    rw [hudec]
    exact firstRoundDecoder_of_lt hk
  · obtain ⟨u, hu, -, huf, hudec, huissue⟩ := hstart.stepMany hfits (j := ceilDiv message.length fl) (by omega)
    have hpos : ceilDiv message.length fl ≠ 0 := Nat.one_le_iff_ne_zero.1 (one_le_ceilDiv hfl (hfl.trans hle))
    rw [Nat.zero_add, firstRoundDecoder, if_neg hpos, if_pos rfl] at hudec
    have hdrop : (firstRoundRequests s.cfg message fl).drop (0 + ceilDiv message.length fl) = [] :=
      List.drop_eq_nil_of_le (by simp [firstRoundRequests])
    rw [hdrop, List.nil_append] at huissue
    have hbuf : (firstRoundAssembly s.cfg message fl (ceilDiv message.length fl)).buf = paddedMessage message fl := by
      rw [firstRoundAssembly, Nat.sub_self, Nat.zero_mul, Nat.mul_comm _ fl, ← paddedMessage_length hfl, List.take_length]
      exact List.append_nil _
    have hmessage := exec_decMessage_of_padded (s := u.present .empty rest) huf rfl hudec hbuf rfl
    have hstep : step u = .next ((u.present .empty rest).reply (.ok (.message (some message)))) :=
      (step_of_decode huissue (by decide)).trans hmessage
    refine ⟨_, (stepMany_add_of_next hu).trans (stepMany_succ_of_next hstep), ?_, rfl, huf, rfl⟩
    rw [State.reply_dec, State.present_dec, hudec]
    rfl

end Sys2Proof.Machine

/-! The estimate of `DEC.PERCENT` (44_decoder.md R219) under the arithmetic of 48_collaborators.md R315: while an index is
unresolved it is below `1 / 1.75`, so that the cap of 0.99 never binds. -/

namespace Sys2Proof.Machine

/-! ### Values that are not rounded -/

/-- Patterns without a sign bit are ordered as their values are. -/
theorem ltF_eq_decide {a b : F64} (ha : a.toNat ≤ 2047 * 2 ^ 52) (hb : b.toNat ≤ 2047 * 2 ^ 52) :
    ltF a b = decide (a.toNat < b.toNat) := by
  simp [ltF, f64Key, f64IsNaN_of_toNat_le ha, f64IsNaN_of_toNat_le hb, f64Sign_of_toNat_le ha, f64Sign_of_toNat_le hb]

/-- A number of 53 significant bits keeps them as its significand. -/
theorem f64Round_exact {m j : Nat} {e : Int} (hlo : 2 ^ 52 ≤ m) (hhi : m < 2 ^ 53) (he : -1074 ≤ e + j)
    (he' : e + j ≤ 971) : PositiveNormal (f64Round false (m * 2 ^ j) e) ∧
      f64Significand (f64Round false (m * 2 ^ j) e) = m ∧ f64Scale (f64Round false (m * 2 ^ j) e) = e + j := by
  obtain ⟨hlog, hsig⟩ := roundedSignificand_mul_pow hlo hhi j
  have htoNat := f64Round_toNat (m := m * 2 ^ j) (e := e) (E := (e + j + 1074).toNat) (by positivity)
    (by rw [hlog]; omega) (by rw [hsig]; omega)
  rw [hsig] at htoNat
  have hnormal : PositiveNormal (f64Round false (m * 2 ^ j) e) := ⟨by omega, by omega⟩
  refine ⟨hnormal, ?_, ?_⟩
  · rw [hnormal.significand]
    omega
  · rw [hnormal.scale]
    omega

/-- The significand of an integer of at most 53 bits: its leading bit shifted to place 52. -/
theorem integerSignificand_bounds {n : Nat} (hpos : n ≠ 0) (hlt : n < 2 ^ 53) :
    n.log2 ≤ 52 ∧ 2 ^ 52 ≤ n * 2 ^ (52 - n.log2) ∧ n * 2 ^ (52 - n.log2) < 2 ^ 53 := by
  have hlog : n.log2 < 53 := (Nat.log2_lt hpos).2 hlt
  refine ⟨by omega, ?_, ?_⟩
  · calc 2 ^ 52 = 2 ^ n.log2 * 2 ^ (52 - n.log2) := by rw [← pow_add]; congr 1; omega
      _ ≤ _ := Nat.mul_le_mul_right _ (Nat.log2_self_le hpos)
  · calc n * 2 ^ (52 - n.log2) < 2 ^ (n.log2 + 1) * 2 ^ (52 - n.log2) :=
          Nat.mul_lt_mul_of_pos_right Nat.lt_log2_self (Nat.two_pow_pos _)
      _ = 2 ^ 53 := by rw [← pow_add]; congr 1; omega

theorem u64ToF_exact {n : Nat} (hpos : n ≠ 0) (hlt : n < 2 ^ 53) :
    f64Significand (u64ToF n) = n * 2 ^ (52 - n.log2) ∧ f64Scale (u64ToF n) = n.log2 - 52 := by
  obtain ⟨hlog, hlo, hhi⟩ := integerSignificand_bounds hpos hlt
  have hnormal := u64ToF_positiveNormal hpos (by omega)
  have htoNat := u64ToF_toNat hpos (by omega)
  rw [roundedSignificand, if_pos hlog] at htoNat
  refine ⟨?_, ?_⟩
  · rw [hnormal.significand]
    omega
  · rw [hnormal.scale]
    omega

theorem fOneAndThreeQuarters_positiveNormal : PositiveNormal fOneAndThreeQuarters := ⟨by decide, by decide⟩

/-- `1.75` times an integer of at most 50 bits is exact. -/
theorem mulF_u64ToF_fOneAndThreeQuarters {n : Nat} (hpos : n ≠ 0) (hlt : n < 2 ^ 50) :
    PositiveNormal (mulF (u64ToF n) fOneAndThreeQuarters) ∧
      f64Significand (mulF (u64ToF n) fOneAndThreeQuarters) = 7 * n * 2 ^ (52 - (7 * n).log2) ∧
      f64Scale (mulF (u64ToF n) fOneAndThreeQuarters) = (7 * n).log2 - 54 := by
  obtain ⟨hsig, hscale⟩ := u64ToF_exact hpos (by omega)
  obtain ⟨hlog, hlo, hhi⟩ := integerSignificand_bounds (n := 7 * n) (by omega) (by omega)
  have hlogs : n.log2 ≤ (7 * n).log2 := (Nat.le_log2 (by omega)).2 ((Nat.log2_self_le hpos).trans (by omega))
  have hproduct : n * 2 ^ (52 - n.log2) * (7 * 2 ^ 50) =
      7 * n * 2 ^ (52 - (7 * n).log2) * 2 ^ (50 + (7 * n).log2 - n.log2) := by
    have hpow : 2 ^ (52 - n.log2) * 2 ^ 50 = 2 ^ (52 - (7 * n).log2) * 2 ^ (50 + (7 * n).log2 - n.log2) := by
      rw [← pow_add, ← pow_add]
      congr 1
      omega
    rw [mul_assoc (7 * n), ← hpow]
    ring
  obtain ⟨hnormal, hsig', hscale'⟩ := f64Round_exact (j := 50 + (7 * n).log2 - n.log2) (e := n.log2 - 52 + -52) hlo hhi
    (by omega) (by omega)
  rw [mulF_of_positiveNormal (u64ToF_positiveNormal hpos (by omega)) fOneAndThreeQuarters_positiveNormal, hsig, hscale,
    show f64Significand fOneAndThreeQuarters = 7 * 2 ^ 50 by decide, show f64Scale fOneAndThreeQuarters = -52 by decide,
    hproduct]
  exact ⟨hnormal, hsig', by rw [hscale']; omega⟩

/-! ### The quotient -/

theorem fZero_divF {b : F64} (hb : PositiveNormal b) : divF fZero b = fZero := by
  simp [divF, hb.isNaN, hb.isInf, hb.sign, hb.isZero, show f64IsNaN fZero = false by decide,
    show f64IsInf fZero = false by decide, show f64Sign fZero = false by decide,
    show f64Significand fZero = 0 by decide, f64Round]
  rfl

/-- A quotient is rounded from its first 110 bits below the dividend's last place and one sticky bit. -/
theorem divF_of_positiveNormal {a b : F64} (ha : PositiveNormal a) (hb : PositiveNormal b) :
    ∃ m, divF a b = f64Round false m (f64Scale a - f64Scale b - 111) ∧
      2 * (f64Significand a * 2 ^ 110 / f64Significand b) ≤ m ∧
      m ≤ 2 * (f64Significand a * 2 ^ 110 / f64Significand b) + 1 := by
  refine ⟨2 * (f64Significand a * 2 ^ 110 / f64Significand b) +
    if f64Significand a * 2 ^ 110 % f64Significand b = 0 then 0 else 1, ?_, by omega, by split <;> omega⟩
  simp only [divF, ha.isNaN, ha.isInf, ha.sign, hb.isNaN, hb.isInf, hb.sign, hb.isZero, divGuardBits, Bool.or_self,
    bne_self_eq_false, Bool.false_eq_true, if_false]
  rfl

/-- The pattern of 0.5715, the bound of 44_decoder.md R219. -/
def fEstimateBound : F64 := 0x3fe249ba5e353f7d

theorem fEstimateBound_toNat : fEstimateBound.toNat = 1022 * 2 ^ 52 + 0x249ba5e353f7d := by decide

/-- A quotient below `4 / 7` is rounded to less than 0.5715: `d` is by how much the divisor's scale is the greater one, but for
the 4. -/
theorem divF_lt_fEstimateBound {a b : F64} (ha : PositiveNormal a) (hb : PositiveNormal b) {d : Nat} (hd : d ≤ 900)
    (hscale : f64Scale a - f64Scale b = 2 - d) (hratio : 7 * f64Significand a < f64Significand b * 2 ^ d) :
    (divF a b).toNat < fEstimateBound.toNat := by
  obtain ⟨halo, hahi⟩ := ha.significand_bounds
  obtain ⟨hblo, hbhi⟩ := hb.significand_bounds
  obtain ⟨m, hround, hmlo, hmhi⟩ := divF_of_positiveNormal ha hb
  rw [hround, hscale, fEstimateBound_toNat]
  set q := f64Significand a * 2 ^ 110 / f64Significand b
  have hqlo : 2 ^ 109 ≤ q := (Nat.le_div_iff_mul_le (by omega)).2 (by omega)
  have hqhi : q < 2 ^ 111 := (Nat.div_lt_iff_lt_mul (by omega)).2 (by omega)
  have hseven : 7 * q < 2 ^ d * 2 ^ 110 := by
    have hqb : q * f64Significand b ≤ f64Significand a * 2 ^ 110 := Nat.div_mul_le_self _ _
    refine Nat.lt_of_mul_lt_mul_right (a := f64Significand b) ?_
    calc 7 * q * f64Significand b = 7 * (q * f64Significand b) := Nat.mul_assoc _ _ _
      _ ≤ 7 * f64Significand a * 2 ^ 110 := by omega
      _ < f64Significand b * 2 ^ d * 2 ^ 110 := Nat.mul_lt_mul_of_pos_right hratio (Nat.two_pow_pos 110)
      _ = 2 ^ d * 2 ^ 110 * f64Significand b := by rw [Nat.mul_comm (f64Significand b), Nat.mul_right_comm]
  have hne : m ≠ 0 := by omega
  have hlog : 110 ≤ m.log2 ∧ m.log2 < 112 := ⟨(Nat.le_log2 hne).2 (by omega), (Nat.log2_lt hne).2 (by omega)⟩
  obtain ⟨-, hsig⟩ := roundedSignificand_bounds hne
  have htoNat := f64Round_toNat hne (e := 2 - d - 111) (E := m.log2 + 913 - d) (by omega) (by omega)
  rw [htoNat]
  by_cases hsmall : m.log2 + 913 - d ≤ 1020
  · omega
  have hshift : roundedSignificand m ≤ m / 2 ^ (m.log2 - 52) + 1 := by
    rw [roundedSignificand, if_neg (by omega)]
    exact (shiftRoundEven_bounds m _).2
  have hcases : d ≤ 1 ∨ d = 2 ∨ (d = 3 ∧ m.log2 = 111) := by omega
  obtain hd1 | rfl | ⟨rfl, h111⟩ := hcases
  · have : 2 ^ d ≤ 2 ^ 1 := Nat.pow_le_pow_right (by decide) hd1
    omega
  · have h110 : m.log2 = 110 := by
      have : m.log2 < 111 := (Nat.log2_lt hne).2 (by omega)
      omega
    rw [h110] at hshift ⊢
    omega
  · rw [h111] at hshift ⊢
    omega

/-! ### The obligation on the estimate -/

theorem percentEstimate_quotient_lt {r n : Nat} (hr : r < n) (hn : n < 2 ^ 32) :
    (divF (u64ToF r) (mulF (u64ToF n) fOneAndThreeQuarters)).toNat < fEstimateBound.toNat := by
  obtain ⟨hnormal, hsig, hscale⟩ := mulF_u64ToF_fOneAndThreeQuarters (n := n) (by omega) (by omega)
  by_cases hr0 : r = 0
  · subst hr0
    rw [show u64ToF 0 = fZero by decide, fZero_divF hnormal]
    decide
  obtain ⟨hrsig, hrscale⟩ := u64ToF_exact hr0 (by omega)
  obtain ⟨hrlog, -, -⟩ := integerSignificand_bounds hr0 (by omega)
  obtain ⟨hnlog, -, -⟩ := integerSignificand_bounds (n := 7 * n) (by omega) (by omega)
  have hlogs : r.log2 ≤ (7 * n).log2 := (Nat.le_log2 (by omega)).2 ((Nat.log2_self_le hr0).trans (by omega))
  refine divF_lt_fEstimateBound (u64ToF_positiveNormal hr0 (by omega)) hnormal (d := (7 * n).log2 - r.log2) (by omega)
    (by rw [hscale, hrscale]; omega) ?_
  have hpow : 2 ^ (52 - (7 * n).log2) * 2 ^ ((7 * n).log2 - r.log2) = 2 ^ (52 - r.log2) := by
    rw [← pow_add]
    congr 1
    omega
  rw [hrsig, hsig, mul_assoc (7 * n), hpow, ← mul_assoc]
  exact Nat.mul_lt_mul_of_pos_right (by omega) (Nat.two_pow_pos _)

/-- Settles O42: the quotient is below `4 / 7` and so, rounded, below 0.5715. -/
theorem decPercentOutcomes : Obligations.DecPercentOutcomes := by
  refine ⟨by decide, fun cfg a hcfg hn hr => ?_, fun s hf hopr => ⟨fun e hdec => exec_decPercent_of_failed hf hopr hdec,
    fun a hdec => exec_decPercent_of_complete hf hopr hdec, fun hdec => exec_decPercent_of_empty hf hopr hdec, ?_⟩⟩
  · have hlt := percentEstimate_quotient_lt hr hn
    have hbound := fEstimateBound_toNat
    have hcap : fCap.toNat = 1022 * 2 ^ 52 + 0xfae147ae147ae := by decide
    have hquotient : percentEstimate cfg a =
        divF (u64ToF a.resolved.length) (mulF (u64ToF a.desc.sequenceCount) fOneAndThreeQuarters) := by
      simp only [percentEstimate, Cfg.divF_of_standard hcfg, Cfg.u64ToF_of_standard hcfg, Cfg.mulF_of_standard hcfg,
        Cfg.ltF_of_standard hcfg]
      rw [ltF_eq_decide (by omega) (by omega), if_neg (by rw [decide_eq_true_eq]; omega)]
    refine ⟨hquotient, ?_⟩
    rw [hquotient]
    exact (ltF_eq_decide (by omega) (by decide)).trans (decide_eq_true hlt)
  · rintro a q hdec rfl
    exact exec_decPercent_of_accumulating hf hopr hdec

end Sys2Proof.Machine

/-! The CRC-32 of 48_collaborators.md R310 on two messages that differ in one byte (R312 (b)). -/

namespace Sys2Proof.Machine

/-! ### Lists that differ at one place -/

/-- Two lists of one length that differ at exactly one place (45_bytewords.md R248). -/
inductive DiffersOnce {α : Type} : List α → List α → Prop
  | head {x y : α} (l : List α) (hne : x ≠ y) : DiffersOnce (x :: l) (y :: l)
  | tail (x : α) {l m : List α} (h : DiffersOnce l m) : DiffersOnce (x :: l) (x :: m)

namespace DiffersOnce

variable {α β : Type} {l m : List α}

theorem of_replace {x y : α} (hne : x ≠ y) (before after : List α) :
    DiffersOnce (before ++ x :: after) (before ++ y :: after) := by
  induction before with
  | nil => exact .head after hne
  | cons z before ih => exact .tail z ih

theorem length_eq (h : DiffersOnce l m) : l.length = m.length := by
  induction h with
  | head => rfl
  | tail _ _ ih => simp [ih]

theorem cons_iff {x y : α} : DiffersOnce (x :: l) (y :: m) ↔ (x ≠ y ∧ l = m) ∨ (x = y ∧ DiffersOnce l m) := by
  constructor
  · rintro (⟨_, hne⟩ | ⟨_, h⟩)
    · exact .inl ⟨hne, rfl⟩
    · exact .inr ⟨rfl, h⟩
  · rintro (⟨hne, rfl⟩ | ⟨rfl, h⟩)
    · exact .head l hne
    · exact .tail x h

theorem irrefl (l : List α) : ¬ DiffersOnce l l := by
  induction l with
  | nil => nofun
  | cons x l ih => simpa [cons_iff] using ih

theorem append_right (h : DiffersOnce l m) (r : List α) : DiffersOnce (l ++ r) (m ++ r) := by
  induction h with
  | head l hne => exact .head (l ++ r) hne
  | tail x _ ih => exact .tail x ih

/-- The one place is in the first parts or in the second ones. -/
theorem append_cases {l' m' : List α} (hlen : l.length = l'.length) (h : DiffersOnce (l ++ m) (l' ++ m')) :
    (DiffersOnce l l' ∧ m = m') ∨ (l = l' ∧ DiffersOnce m m') := by
  induction l generalizing l' with
  | nil =>
    obtain rfl := List.length_eq_zero_iff.1 hlen.symm
    exact .inr ⟨rfl, h⟩
  | cons x l ih =>
    obtain ⟨y, l', rfl⟩ := List.exists_cons_of_length_pos (l := l') (by simp [← hlen])
    simp only [List.length_cons, Nat.add_right_cancel_iff] at hlen
    obtain ⟨hne, heq⟩ | ⟨rfl, hrest⟩ := cons_iff.1 h
    · obtain ⟨rfl, rfl⟩ := List.append_inj heq hlen
      exact .inl ⟨.head l hne, rfl⟩
    · exact (ih hlen hrest).imp (.imp_left (.tail x)) (.imp_left (congrArg (x :: ·)))

end DiffersOnce

/-! ### The division is injective -/

/-- The top bit of a step tells whether a one fell out: the polynomial has it, the shifted value does not. -/
theorem crcBit_msb (c : U32) : (crcBit c).getLsbD 31 = c.getLsbD 0 := by
  unfold crcBit
  split
  · next h =>
    rw [h, BitVec.getLsbD_xor, BitVec.getLsbD_ushiftRight, BitVec.getLsbD_of_ge c _ (by decide)]
    decide
  · next h =>
    rw [eq_false_of_ne_true h, BitVec.getLsbD_ushiftRight, BitVec.getLsbD_of_ge c _ (by decide)]

theorem crcBit_injective : Function.Injective crcBit := by
  intro c d h
  have hlow : c.getLsbD 0 = d.getLsbD 0 := by rw [← crcBit_msb c, h, crcBit_msb d]
  have hshift : c >>> 1 = d >>> 1 := by
    unfold crcBit at h
    rw [hlow] at h
    split at h
    · exact (BitVec.xor_left_inj _).1 h
    · exact h
  refine BitVec.eq_of_getLsbD_eq fun i _ => ?_
  cases i with
  | zero => exact hlow
  | succ i => simpa [BitVec.getLsbD_ushiftRight, Nat.add_comm] using congrArg (BitVec.getLsbD · i) hshift

theorem crcBits_injective (k : Nat) : Function.Injective (crcBits k) := by
  induction k with
  | zero => exact Function.injective_id
  | succ k ih => exact ih.comp crcBit_injective

theorem crcByte_injective_register (x : Byte) : Function.Injective (crcByte · x) := fun _ _ h =>
  (BitVec.xor_left_inj _).1 (crcBits_injective 8 h)

theorem crcByte_injective_byte (c : U32) : Function.Injective (crcByte c) := by
  intro x y h
  have hwide : x.setWidth 32 = y.setWidth 32 := (BitVec.xor_right_inj _).1 (crcBits_injective 8 h)
  simpa using congrArg (BitVec.setWidth 8) hwide

theorem foldl_crcByte_injective (m : Bytes) : Function.Injective (m.foldl crcByte ·) := by
  induction m with
  | nil => exact Function.injective_id
  | cons x m ih => exact ih.comp (crcByte_injective_register x)

/-! ### One changed byte changes the CRC -/

theorem foldl_crcByte_ne_of_differsOnce {m m' : Bytes} (h : DiffersOnce m m') (c : U32) :
    m.foldl crcByte c ≠ m'.foldl crcByte c := by
  induction h generalizing c with
  | head m hne => exact fun heq => hne (crcByte_injective_byte c (foldl_crcByte_injective m heq))
  | tail x _ ih => exact ih (crcByte c x)

theorem crc32_ne_of_differsOnce {m m' : Bytes} (h : DiffersOnce m m') : crc32 m ≠ crc32 m' := fun heq =>
  foldl_crcByte_ne_of_differsOnce h _ ((BitVec.xor_left_inj _).1 heq)

end Sys2Proof.Machine

/-! The bytewords unit (45_bytewords.md): tokens, bytes and checksum of a text, one after the other, and the operations
that encode and decode. -/

namespace Sys2Proof.Machine

/-! ### The tokens of a text -/

/-- The model's cutting at a separator is the library's. -/
theorem splitAtByte_eq_splitOn (sep : Byte) (text : Bytes) : splitAtByte sep text = text.splitOn sep := by
  induction text with
  | nil => rfl
  | cons x text ih =>
    rw [List.splitOn, List.splitOnP_cons_eq_if_modifyHead, splitAtByte, ih, ← List.splitOn]
    by_cases hx : x = sep
    · simp [hx]
    · cases h : text.splitOn sep with
      | nil => simp [List.splitOn, List.splitOnP_ne_nil] at h
      | cons piece pieces => simp [hx]

theorem bytePairs_flatten {text : Bytes} (h : text.length % 2 = 0) : (bytePairs text).flatten = text := by
  induction text using bytePairs.induct with
  | case1 x y rest ih => simpa [bytePairs] using ih (by simp only [List.length_cons] at h; omega)
  | case2 text hne =>
    match text with
    | [] => rfl
    | [x] => simp at h
    | x :: y :: rest => exact absurd rfl (hne x y rest)

theorem bytePairs_of_flatten {tokens : List Bytes} (h : ∀ t ∈ tokens, t.length = 2) :
    bytePairs tokens.flatten = tokens := by
  induction tokens with
  | nil => rfl
  | cons t tokens ih =>
    obtain ⟨ht, hrest⟩ := List.forall_mem_cons.1 h
    obtain ⟨x, y, rfl⟩ := List.length_eq_two.1 ht
    simp [bytePairs, ih hrest]

theorem tokensOf_of_separator {style : Style} {sep : Byte} (h : styleSeparator style = some sep) (text : Bytes) :
    tokensOf style text = .ok (text.splitOn sep) := by
  simp [tokensOf, h, splitAtByte_eq_splitOn]

theorem tokensOf_of_even {style : Style} (h : styleSeparator style = none) {text : Bytes}
    (heven : text.length % 2 = 0) : tokensOf style text = .ok (bytePairs text) := by
  simp [tokensOf, h, heven]

theorem tokensOf_of_odd {style : Style} (h : styleSeparator style = none) {text : Bytes}
    (hodd : text.length % 2 = 1) : tokensOf style text = .error .invalidLength := by
  simp [tokensOf, h, hodd]

/-- The cutting that 45_bytewords.md R243 and R244 describe is the one the operation makes. -/
theorem tokensOf_of_TokensOf {style : Style} {text : Bytes} {tokens : List Bytes} (h : TokensOf style text tokens) :
    tokensOf style text = .ok tokens := by
  unfold TokensOf at h
  split at h
  · next sep hsep =>
    obtain ⟨hne, hfree, rfl⟩ := h
    rw [tokensOf_of_separator hsep, List.splitOn_intercalate sep hfree hne]
  · next hsep =>
    obtain ⟨htwo, rfl⟩ := h
    have heven : tokens.flatten.length % 2 = 0 := by
      rw [List.length_flatten, List.map_congr_left htwo]
      simp
    rw [tokensOf_of_even hsep heven, bytePairs_of_flatten htwo]

/-- The tokens of a text, joined again, are the text. -/
theorem joinWords_of_tokensOf {style : Style} {text : Bytes} {tokens : List Bytes}
    (h : tokensOf style text = .ok tokens) : joinWords style tokens = text := by
  cases hsep : styleSeparator style with
  | some sep =>
    obtain rfl : text.splitOn sep = tokens := by simpa [tokensOf_of_separator hsep] using h
    simp [joinWords, hsep, List.intercalate_splitOn]
  | none =>
    obtain heven | hodd := Nat.mod_two_eq_zero_or_one text.length
    · obtain rfl : bytePairs text = tokens := by simpa [tokensOf_of_even hsep heven] using h
      simp [joinWords, hsep, bytePairs_flatten heven]
    · simp [tokensOf_of_odd hsep hodd] at h

/-- Whether a text has tokens depends on its length alone. -/
theorem exists_tokensOf_of_length_eq {style : Style} {text text' : Bytes} {tokens : List Bytes}
    (hlen : text.length = text'.length) (h : tokensOf style text = .ok tokens) :
    ∃ tokens', tokensOf style text' = .ok tokens' := by
  cases hsep : styleSeparator style with
  | some sep => exact ⟨_, tokensOf_of_separator hsep text'⟩
  | none =>
    obtain heven | hodd := Nat.mod_two_eq_zero_or_one text.length
    · exact ⟨_, tokensOf_of_even hsep (hlen ▸ heven)⟩
    · simp [tokensOf_of_odd hsep hodd] at h

/-! ### The bytes of the tokens -/

section
variable {cfg : Cfg} (h : cfg.TablesOk) {style : Style}
include h

theorem byteOfWord_wordOfByte (b : Byte) : byteOfWord cfg style (wordOfByte cfg style b) = some b :=
  (byteOfWord_eq_some h).2 rfl

theorem wordOfByte_injective : Function.Injective (wordOfByte cfg style) := fun a b heq =>
  Option.some.inj (by rw [← byteOfWord_wordOfByte h a, heq, byteOfWord_wordOfByte h b])

/-- A token that is no word of the style has no byte. -/
theorem byteOfWord_eq_none {token : Bytes} (hunknown : ∀ b, wordOfByte cfg style b ≠ token) :
    byteOfWord cfg style token = none :=
  Option.eq_none_iff_forall_ne_some.2 fun b hb => hunknown b ((byteOfWord_eq_some h).1 hb)

theorem bytesOfTokens_map (body : Bytes) (position : Nat) :
    bytesOfTokens cfg style position (body.map (wordOfByte cfg style)) = .ok body := by
  induction body generalizing position with
  | nil => rfl
  | cons b body ih => simp [bytesOfTokens, byteOfWord_wordOfByte h, ih]

/-- The first unknown token is reported with its place (45_bytewords.md R242). -/
theorem bytesOfTokens_unknown (known : Bytes) {token : Bytes} (rest : List Bytes)
    (hunknown : ∀ b, wordOfByte cfg style b ≠ token) (position : Nat) :
    bytesOfTokens cfg style position (known.map (wordOfByte cfg style) ++ token :: rest) =
      .error (.invalidWord (position + known.length)) := by
  induction known generalizing position with
  | nil => simp [bytesOfTokens, byteOfWord_eq_none h hunknown]
  | cons b known ih =>
    have hplace : position + 1 + known.length = position + (known.length + 1) := by omega
    simp [bytesOfTokens, byteOfWord_wordOfByte h, ih, hplace]

end

/-- A list of tokens is a list of words, or has a first token that is none. -/
theorem words_or_unknown (cfg : Cfg) (style : Style) (tokens : List Bytes) :
    (∃ body : Bytes, tokens = body.map (wordOfByte cfg style)) ∨
      ∃ (known token : Bytes) (rest : List Bytes), tokens = known.map (wordOfByte cfg style) ++ token :: rest ∧
        ∀ b, wordOfByte cfg style b ≠ token := by
  induction tokens with
  | nil => exact .inl ⟨[], rfl⟩
  | cons token tokens ih =>
    by_cases hknown : ∃ b, wordOfByte cfg style b = token
    · obtain ⟨b, rfl⟩ := hknown
      obtain ⟨body, rfl⟩ | ⟨known, unknown, rest, rfl, hunknown⟩ := ih
      · exact .inl ⟨b :: body, rfl⟩
      · exact .inr ⟨b :: known, unknown, rest, rfl, hunknown⟩
    · exact .inr ⟨[], token, tokens, rfl, not_exists.1 hknown⟩

/-! ### The payload of a body -/

/-- `be32` writes back what `be32_read` read. -/
theorem be32_be32Read {b : Bytes} (h : b.length = 4) : be32 (be32Read b) = b := by
  obtain ⟨w, x, y, z, rfl⟩ := List.length_eq_four.1 h
  have hw := w.isLt
  have hx := x.isLt
  have hy := y.isLt
  have hz := z.isLt
  simp only [be32Read, beNat, be32, List.foldl_cons, List.foldl_nil, List.cons.injEq, and_true]
  refine ⟨?_, ?_, ?_, ?_⟩ <;> apply BitVec.eq_of_toNat_eq <;>
    simp only [BitVec.extractLsb'_toNat, BitVec.toNat_ofNat, Nat.shiftRight_eq_div_pow] <;> omega

theorem be32_injective : Function.Injective be32 := Function.LeftInverse.injective be32Read_be32

/-- A body of at least four bytes is a payload and a checksum (45_bytewords.md R242). -/
theorem exists_payload_append_be32 {body : Bytes} (h : 4 ≤ body.length) :
    ∃ (payload : Bytes) (expected : U32), body = payload ++ be32 expected := by
  refine ⟨body.take (body.length - 4), be32Read (body.drop (body.length - 4)), ?_⟩
  rw [be32_be32Read (by simp; omega), List.take_append_drop]

section
variable (cfg : Cfg)

theorem payloadOfBody_of_short {body : Bytes} (h : body.length < 4) :
    payloadOfBody cfg body = .error .checksumNotPresent := if_pos h

theorem payloadOfBody_append_be32 (payload : Bytes) (expected : U32) :
    payloadOfBody cfg (payload ++ be32 expected) =
      if expected = cfg.crc32Of payload then .ok payload
      else .error (.invalidChecksum expected (cfg.crc32Of payload)) := by
  simp [payloadOfBody]

/-- The bodies that hold a payload are those that encoding makes (30_encoding.md R105). -/
theorem payloadOfBody_eq_ok {body payload : Bytes} :
    payloadOfBody cfg body = .ok payload ↔ body = textBody cfg payload := by
  constructor
  · intro h
    by_cases hshort : body.length < 4
    · simp [payloadOfBody_of_short cfg hshort] at h
    obtain ⟨carried, expected, rfl⟩ := exists_payload_append_be32 (not_lt.1 hshort)
    rw [payloadOfBody_append_be32] at h
    split at h
    · next heq => cases h; rw [textBody, ← heq]
    · cases h
  · rintro rfl
    rw [textBody, payloadOfBody_append_be32, if_pos rfl]

end

/-! ### Decoding a text -/

section
variable {cfg : Cfg} {style : Style} {text : Bytes}

theorem decodeText_of_nonAscii (h : ∃ b ∈ text, 0x80 ≤ b.toNat) : decodeText cfg style text = .error .nonAscii :=
  if_pos (by simpa using h)

theorem decodeText_of_odd (hascii : ∀ b ∈ text, b.toNat < 0x80) (hsep : styleSeparator style = none)
    (hodd : text.length % 2 = 1) : decodeText cfg style text = .error .invalidLength := by
  rw [decodeText, if_neg (by simpa using hascii), tokensOf_of_odd hsep hodd]

section
variable (h : cfg.TablesOk) (hascii : ∀ b ∈ text, b.toNat < 0x80) {tokens : List Bytes}
  (htokens : tokensOf style text = .ok tokens)
include h hascii htokens

theorem decodeText_of_unknown {known token : Bytes} {rest : List Bytes}
    (hsplit : tokens = known.map (wordOfByte cfg style) ++ token :: rest)
    (hunknown : ∀ b, wordOfByte cfg style b ≠ token) :
    decodeText cfg style text = .error (.invalidWord known.length) := by
  rw [decodeText, if_neg (by simpa using hascii), htokens, hsplit]
  simp only [bytesOfTokens_unknown h known rest hunknown, Nat.zero_add]

theorem decodeText_of_words {body : Bytes} (hwords : tokens = body.map (wordOfByte cfg style)) :
    decodeText cfg style text = payloadOfBody cfg body := by
  rw [decodeText, if_neg (by simpa using hascii), htokens, hwords]
  simp only [bytesOfTokens_map h body]

end

theorem styleSeparator_ascii {sep : Byte} (h : styleSeparator style = some sep) : sep.toNat < 0x61 := by
  cases style <;> cases h <;> decide

variable (h : cfg.TablesOk)
include h

theorem encodeText_ascii (payload : Bytes) : ∀ b ∈ encodeText cfg style payload, b.toNat < 0x80 := by
  intro b hb
  obtain ⟨-, hle⟩ | hsep := encodeText_letters h style hb
  · omega
  · have := styleSeparator_ascii hsep
    omega

/-- No word holds the style's separator (30_encoding.md R112). -/
theorem separator_not_mem_wordOfByte {sep : Byte} (hsep : styleSeparator style = some sep) (b : Byte) :
    sep ∉ wordOfByte cfg style b := by
  intro hmem
  have hlow := styleSeparator_ascii hsep
  obtain ⟨hle, -⟩ := wordOfByte_letters h style b sep hmem
  omega

/-- The tokens of an encoded text are the words it was joined from. -/
theorem tokensOf_encodeText (payload : Bytes) :
    tokensOf style (encodeText cfg style payload) = .ok ((textBody cfg payload).map (wordOfByte cfg style)) := by
  apply tokensOf_of_TokensOf
  cases style with
  | minimal => exact ⟨encodeText_word_length h .minimal payload, rfl⟩
  | standard | uri =>
    exact ⟨by simp [textBody, be32], List.forall_mem_map.2 fun b _ => separator_not_mem_wordOfByte h rfl b, rfl⟩

/-- Decoding is the inverse of encoding (45_bytewords.md R247). -/
theorem decodeText_eq_ok_iff {payload : Bytes} :
    decodeText cfg style text = .ok payload ↔ encodeText cfg style payload = text := by
  constructor
  · intro hok
    by_cases hascii : ∀ b ∈ text, b.toNat < 0x80
    · cases htokens : tokensOf style text with
      | error e =>
        rw [decodeText, if_neg (by simpa using hascii), htokens] at hok
        cases hok
      | ok tokens =>
        obtain ⟨body, hwords⟩ | ⟨known, token, rest, hsplit, hunknown⟩ :=
          words_or_unknown cfg style tokens
        · rw [decodeText_of_words h hascii htokens hwords, payloadOfBody_eq_ok] at hok
          rw [encodeText, ← hok, ← hwords, joinWords_of_tokensOf htokens]
        · simp [decodeText_of_unknown h hascii htokens hsplit hunknown] at hok
    · rw [decodeText_of_nonAscii (by simpa using hascii)] at hok
      cases hok
  · rintro rfl
    rw [decodeText_of_words h (encodeText_ascii h payload) (tokensOf_encodeText h payload) rfl, payloadOfBody_eq_ok]

end

/-! ### The operations on a ready block -/

section
variable {s : State} (hf : s.sysFault = none) {style : Style}
include hf

theorem bwdEncode_of_ready {payload : Bytes} (hopr : s.opr = .payload payload) (style : Style) :
    bwdEncode style s = .next { s with res := some (.ok (.text (encodeText s.cfg style payload))) } := by
  rw [bwdEncode, payloadOperand_eq_some.2 hopr, execute_of_some _ _ hf]
  rfl

variable {text : Bytes} (hopr : s.opr = .text text)
include hopr

theorem bwdDecode_of_error {e : ErrorInfo} (h : decodeText s.cfg style text = .error e) :
    bwdDecode style s = .next { s with res := some (.err e) } := by
  rw [bwdDecode, textOperand_eq_some.2 hopr, execute_of_some _ _ hf, h]
  rfl

theorem bwdDecode_of_ok {payload : Bytes} (h : decodeText s.cfg style text = .ok payload) :
    bwdDecode style s = .next { s with res := some (.ok (.payload payload)) } := by
  rw [bwdDecode, textOperand_eq_some.2 hopr, execute_of_some _ _ hf, h]
  rfl

end

theorem exec_bwdDecode {i : Instr} {style : Style}
    (h : (i, style) ∈
      [(Instr.bwdDecodeStandard, Style.standard), (.bwdDecodeUri, .uri), (.bwdDecodeMinimal, .minimal)]) (s : State) :
    exec i s = bwdDecode style s := by
  simp only [List.mem_cons, Prod.mk.injEq, List.not_mem_nil, or_false] at h
  obtain ⟨rfl, rfl⟩ | ⟨rfl, rfl⟩ | ⟨rfl, rfl⟩ := h <;> rfl

/-- The two operations of one style. -/
theorem exec_bwd_pair {e d : Instr}
    (h : (e, d) ∈ [(Instr.bwdEncodeStandard, Instr.bwdDecodeStandard), (.bwdEncodeUri, .bwdDecodeUri),
      (.bwdEncodeMinimal, .bwdDecodeMinimal)]) :
    ∃ style, exec e = bwdEncode style ∧ exec d = bwdDecode style := by
  simp only [List.mem_cons, Prod.mk.injEq, List.not_mem_nil, or_false] at h
  obtain ⟨rfl, rfl⟩ | ⟨rfl, rfl⟩ | ⟨rfl, rfl⟩ := h
  · exact ⟨.standard, rfl, rfl⟩
  · exact ⟨.uri, rfl, rfl⟩
  · exact ⟨.minimal, rfl, rfl⟩

/-! ### Texts that differ at one place -/

/-- What a byte of the body takes of a text: its word and the separator after it. -/
def wordBlock (cfg : Cfg) (style : Style) (b : Byte) : Bytes := wordOfByte cfg style b ++ (styleSeparator style).toList

/-- With a separator after its last word too, a text is a run of blocks. -/
theorem joinWords_append_separator (cfg : Cfg) (style : Style) {body : Bytes} (hne : body ≠ []) :
    joinWords style (body.map (wordOfByte cfg style)) ++ (styleSeparator style).toList =
      body.flatMap (wordBlock cfg style) := by
  cases hsep : styleSeparator style with
  | none =>
    have hblock : wordBlock cfg style = wordOfByte cfg style := by funext b; simp [wordBlock, hsep]
    simp [joinWords, hsep, hblock, List.flatMap]
  | some sep =>
    simp only [joinWords, hsep, Option.toList_some]
    induction body with
    | nil => exact absurd rfl hne
    | cons b body ih =>
      cases body with
      | nil => simp [wordBlock, hsep]
      | cons c body =>
        rw [List.flatMap_cons, ← ih (List.cons_ne_nil _ _)]
        simp [wordBlock, hsep, List.intercalate_cons_cons]

section
variable {cfg : Cfg} (h : cfg.TablesOk) {style : Style}
include h

theorem wordBlock_length (b : Byte) :
    (wordBlock cfg style b).length = styleWordLength style + (styleSeparator style).toList.length := by
  rw [wordBlock, List.length_append, wordOfByte_length h]

theorem wordBlock_injective : Function.Injective (wordBlock cfg style) := fun _ _ heq =>
  wordOfByte_injective h (List.append_cancel_right heq)

theorem flatMap_wordBlock_length (body : Bytes) :
    (body.flatMap (wordBlock cfg style)).length =
      body.length * (styleWordLength style + (styleSeparator style).toList.length) := by
  simp [List.length_flatMap, wordBlock_length h]

theorem length_eq_of_flatMap_wordBlock {body body' : Bytes}
    (heq : (body.flatMap (wordBlock cfg style)).length = (body'.flatMap (wordBlock cfg style)).length) :
    body.length = body'.length := by
  rw [flatMap_wordBlock_length h, flatMap_wordBlock_length h] at heq
  refine Nat.eq_of_mul_eq_mul_right ?_ heq
  cases style <;> decide

theorem flatMap_wordBlock_injective {body body' : Bytes}
    (heq : body.flatMap (wordBlock cfg style) = body'.flatMap (wordBlock cfg style)) : body = body' := by
  have hlen := length_eq_of_flatMap_wordBlock h (congrArg List.length heq)
  induction body generalizing body' with
  | nil => exact (List.length_eq_zero_iff.1 hlen.symm).symm
  | cons b body ih =>
    obtain ⟨b', body', rfl⟩ := List.exists_cons_of_length_pos (l := body') (by simp [← hlen])
    obtain ⟨hb, hrest⟩ := List.append_inj heq (by rw [wordBlock_length h, wordBlock_length h])
    rw [wordBlock_injective h hb, ih hrest (by simpa using hlen)]

theorem DiffersOnce.of_flatMap_wordBlock {body body' : Bytes}
    (hdiff : DiffersOnce (body.flatMap (wordBlock cfg style)) (body'.flatMap (wordBlock cfg style))) :
    DiffersOnce body body' := by
  have hlen := length_eq_of_flatMap_wordBlock h hdiff.length_eq
  induction body generalizing body' with
  | nil => obtain rfl := List.length_eq_zero_iff.1 hlen.symm; exact hdiff
  | cons b body ih =>
    obtain ⟨b', body', rfl⟩ := List.exists_cons_of_length_pos (l := body') (by simp [← hlen])
    have hblocks : (wordBlock cfg style b).length = (wordBlock cfg style b').length := by
      rw [wordBlock_length h, wordBlock_length h]
    obtain ⟨hb, hrest⟩ | ⟨hb, hrest⟩ := hdiff.append_cases hblocks
    · rw [flatMap_wordBlock_injective h hrest]
      exact .head _ fun heq => irrefl _ (heq ▸ hb)
    · rw [wordBlock_injective h hb]
      exact .tail b' (ih hrest (by simpa using hlen))

/-- Two texts that differ at one place come from bodies that differ at one place. -/
theorem DiffersOnce.of_joinWords {body body' : Bytes} (hne : body ≠ []) (hne' : body' ≠ [])
    (hdiff : DiffersOnce (joinWords style (body.map (wordOfByte cfg style)))
      (joinWords style (body'.map (wordOfByte cfg style)))) : DiffersOnce body body' := by
  have happend := hdiff.append_right (styleSeparator style).toList
  rw [joinWords_append_separator cfg style hne, joinWords_append_separator cfg style hne'] at happend
  exact .of_flatMap_wordBlock h happend

end

/-- No two bodies that encoding makes differ at one place only (48_collaborators.md R312 (b)). -/
theorem textBody_not_differsOnce {cfg : Cfg} (hcrc : cfg.crc32 = .standard) (payload payload' : Bytes) :
    ¬ DiffersOnce (textBody cfg payload) (textBody cfg payload') := by
  intro h
  have hlen : payload.length = payload'.length := by simpa using h.length_eq
  obtain ⟨hpayload, hsum⟩ | ⟨rfl, hsum⟩ := h.append_cases hlen
  · have hcrcs := be32_injective hsum
    rw [Cfg.crc32Of_of_standard hcrc] at hcrcs
    exact crc32_ne_of_differsOnce hpayload hcrcs
  · exact DiffersOnce.irrefl _ hsum

/-! ### The obligations on bytewords -/

/-- Settles O44: the operation answers the text of its payload. -/
theorem bwdEncodeTexts : Obligations.BwdEncodeTexts := by
  refine ⟨rfl, rfl, rfl, ?_⟩
  rintro s payload body hf hopr rfl
  exact ⟨bwdEncode_of_ready hf hopr .standard, bwdEncode_of_ready hf hopr .uri, bwdEncode_of_ready hf hopr .minimal⟩

/-- Settles O46: the stages of decoding, each with its error. -/
theorem bwdDecodeOutcomes : Obligations.BwdDecodeOutcomes := by
  refine ⟨rfl, rfl, rfl, fun s i style text hf hopr h hi => ?_⟩
  rw [exec_bwdDecode hi]
  refine ⟨fun hnon => bwdDecode_of_error hf hopr (decodeText_of_nonAscii hnon), fun hascii => ⟨?_, ?_⟩⟩
  · rintro rfl hodd
    exact bwdDecode_of_error hf hopr (decodeText_of_odd hascii rfl hodd)
  · intro tokens htokens
    have htokens := tokensOf_of_TokensOf htokens
    refine ⟨fun known token rest hsplit hunknown =>
      bwdDecode_of_error hf hopr (decodeText_of_unknown h hascii htokens hsplit hunknown), fun body hwords => ?_⟩
    have hdecode := decodeText_of_words h hascii htokens hwords
    refine ⟨fun hshort => bwdDecode_of_error hf hopr (hdecode.trans (payloadOfBody_of_short s.cfg hshort)), ?_⟩
    rintro payload expected rfl
    rw [payloadOfBody_append_be32] at hdecode
    split at hdecode
    · next heq => rw [if_pos heq]; exact bwdDecode_of_ok hf hopr hdecode
    · next hne => rw [if_neg hne]; exact bwdDecode_of_error hf hopr hdecode

/-- Settles O47: decoding answers a payload exactly on the text that encodes it. -/
theorem bytewordsRoundTrip : Obligations.BytewordsRoundTrip := by
  refine ⟨fun cfg style payload h => (decodeText_eq_ok_iff h).2 rfl,
    fun cfg style text payload h => (decodeText_eq_ok_iff h).1, ?_⟩
  intro s t e d payload text hf hopr h hpair hexec hres
  obtain ⟨style, he, hd⟩ := exec_bwd_pair hpair
  rw [he, bwdEncode_of_ready hf hopr] at hexec
  cases hexec
  cases hres
  rw [hd]
  refine bwdDecode_of_ok (text := encodeText s.cfg style payload) ?_ rfl ((decodeText_eq_ok_iff h).2 rfl)
  exact hf

/-- Settles O48: with one byte changed, a text whose tokens are still words has a body with one byte changed, and no such
body carries its own checksum. -/
theorem singleCharacterErrors : Obligations.SingleCharacterErrors := by
  refine ⟨fun a b x y hne => crc32_ne_of_differsOnce (.of_replace hne a b), ?_⟩
  intro cfg style payload before after x y h hcrc htext hne hy
  have hdiff : DiffersOnce (encodeText cfg style payload) (before ++ y :: after) :=
    htext ▸ .of_replace hne before after
  have hascii : ∀ b ∈ before ++ y :: after, b.toNat < 0x80 := by
    have htextAscii := htext ▸ encodeText_ascii h (style := style) payload
    simp only [List.forall_mem_append, List.forall_mem_cons] at htextAscii ⊢
    obtain ⟨hbefore, -, hafter⟩ := htextAscii
    exact ⟨hbefore, hy, hafter⟩
  obtain ⟨tokens, htokens⟩ := exists_tokensOf_of_length_eq hdiff.length_eq (tokensOf_encodeText h payload)
  obtain ⟨body, hwords⟩ | ⟨known, token, rest, hsplit, hunknown⟩ := words_or_unknown cfg style tokens
  · have hjoined := joinWords_of_tokensOf htokens
    rw [← hjoined, hwords] at hdiff
    have hbodyNe : body ≠ [] := by
      rintro rfl
      rw [hwords] at hjoined
      cases style <;> simp [joinWords, styleSeparator] at hjoined
    have hbody : DiffersOnce (textBody cfg payload) body :=
      .of_joinWords h (by simp [textBody, be32]) hbodyNe hdiff
    have hlen := hbody.length_eq
    obtain ⟨carried, expected, rfl⟩ := exists_payload_append_be32 (body := body) (by simp [← hlen])
    have hsum : expected ≠ cfg.crc32Of carried := by
      rintro rfl
      exact textBody_not_differsOnce hcrc payload carried hbody
    have hdecode := decodeText_of_words h hascii htokens hwords
    rw [payloadOfBody_append_be32, if_neg hsum] at hdecode
    exact .inr ⟨_, _, hdecode⟩
  · exact .inl ⟨_, decodeText_of_unknown h hascii htokens hsplit hunknown⟩

end Sys2Proof.Machine

/-! Every request is answered (46_system.md R265, 20_memory.md R73). Only `DEC.RECEIVE` can stop the model, on an access
outside `DBUF`; from a decoder with the invariant its drain loop ends early only by a capacity error. -/

namespace Sys2Proof.Machine

/-! ### The drain loop ends early only by a capacity error -/

section
variable {cfg : Cfg} {k : Nat} {a : Assembly} {p q : IndexedPart} {stop : DrainStop}

theorem appendFifo_stops_by_capacity (h : appendFifo cfg a p = .error stop) : ∃ e, stop = .capacity e := by
  obtain ⟨c, -, -, rfl⟩ := appendFifo_eq_error.1 h
  exact ⟨_, rfl⟩

theorem appendAllFifo_stops_by_capacity {l : List IndexedPart} (h : appendAllFifo cfg a l = .error stop) :
    ∃ e, stop = .capacity e := by
  induction l generalizing a with
  | nil => cases h
  | cons p l ih =>
    rw [appendAllFifo] at h
    split at h
    · next happ => cases h; exact appendFifo_stops_by_capacity happ
    · exact ih h

theorem appendMixed_stops_by_capacity (h : appendMixed cfg a p = .error stop) : ∃ e, stop = .capacity e := by
  unfold appendMixed at h
  split at h
  · cases h
  · split at h <;> cases h
    exact ⟨_, rfl⟩

theorem storeMixed_stops_by_capacity (h : storeMixed cfg a q = .error stop) : ∃ e, stop = .capacity e := by
  unfold storeMixed at h
  split at h
  · split at h
    · next hreduce => cases h; exact appendAllFifo_stops_by_capacity hreduce
    · exact appendMixed_stops_by_capacity h
  · exact appendMixed_stops_by_capacity h

/-- The fragment that `ProcessSimple` writes lies inside the buffer, so the FIFO alone can stop it. -/
theorem processSimple_stops_by_capacity {i : Nat} {d : Bytes} (ha : a.Ok cfg) (hp : IndexedPart.Ok a.desc ⟨[i], d⟩)
    (h : processSimple cfg a i d = .error stop) : ∃ e, stop = .capacity e := by
  by_cases hold : i ∈ a.resolved
  · rw [processSimple_of_resolved hold] at h
    cases h
  cases hfull : exceeds cfg.queueCap (a.withFragment i d).fifo.length with
  | false =>
    rw [processSimple_of_room ha hp hold hfull] at h
    cases h
  | true =>
    obtain ⟨c, hcap, hlt⟩ := exceeds_eq_true_iff.1 hfull
    rw [processSimple_of_full ha hold hcap hlt] at h
    cases h
    exact ⟨_, rfl⟩

/-- The fragments that `ProcessMixed` reads lie inside the buffer, so the two lists alone can stop it. -/
theorem processMixed_stops_by_capacity (ha : a.Ok cfg) (hp : p.Ok a.desc) (h : processMixed cfg a p = .error stop) :
    ∃ e, stop = .capacity e := by
  by_cases hpending : ∃ m ∈ a.mixed, m.indexes = p.indexes
  · rw [processMixed_of_pending hpending] at h
    cases h
  have hnew : ∀ m ∈ a.mixed, m.indexes ≠ p.indexes := fun m hm heq => hpending ⟨m, hm, heq⟩
  obtain hnone | hone | hmany : (a.without p).indexes.length = 0 ∨ (a.without p).indexes.length = 1 ∨
      2 ≤ (a.without p).indexes.length := by omega
  · rw [processMixed_of_nothing_left ha hp (List.length_eq_zero_iff.1 hnone)] at h
    cases h
  · rw [processMixed_of_one_left ha hp hnew hone] at h
    exact appendFifo_stops_by_capacity h
  · rw [processMixed_of_more_left ha hp hnew hmany] at h
    split at h
    · exact appendFifo_stops_by_capacity h
    · exact storeMixed_stops_by_capacity h

/-- The loop stops early when its first round does, or after a round. -/
theorem drain_succ_error_cases (h : drain cfg (k + 1) a = .error stop) : ∃ p rest, a.fifo = p :: rest ∧
    ((∃ i, p.indexes = [i] ∧ processSimple cfg { a with fifo := rest } i p.data = .error stop) ∨
      processMixed cfg { a with fifo := rest } p = .error stop ∨
      ∃ a', DrainRound cfg a a' false ∧ drain cfg k a' = .error stop) := by
  rw [drain] at h
  split at h
  · cases h
  next p rest hfifo =>
  refine ⟨p, rest, hfifo, ?_⟩
  split at h
  · next i hi =>
    split at h
    · next hround => cases h; exact .inl ⟨i, hi, hround⟩
    · cases h
    · next a' hround => exact .inr (.inr ⟨a', ⟨p, rest, hfifo, .inl ⟨i, hi, hround⟩⟩, h⟩)
  · next hmixed =>
    have hs : p.simple = false := Bool.eq_false_iff.2 fun hs => (simple_iff.1 hs).elim hmixed
    split at h
    · next hround => cases h; exact .inr (.inl hround)
    · next a' hround => exact .inr (.inr ⟨a', ⟨p, rest, hfifo, .inr ⟨hs, rfl, hround⟩⟩, h⟩)

theorem drain_stops_by_capacity (ha : a.Ok cfg) (h : drain cfg k a = .error stop) : ∃ e, stop = .capacity e := by
  induction k generalizing a with
  | zero => cases h
  | succ k ih =>
    obtain ⟨⟨indexes, d⟩, rest, hfifo, hcases⟩ := drain_succ_error_cases h
    obtain ⟨hp, hrest⟩ := ha.pop hfifo
    obtain ⟨i, rfl, hsimple⟩ | hmixed | ⟨a', hround, hlater⟩ := hcases
    · exact processSimple_stops_by_capacity hrest hp hsimple
    · exact processMixed_stops_by_capacity hrest hp hmixed
    · exact ih (hround.ok ha) hlater

end

/-! ### The operations that answer -/

/-- The outcome is a next state, not a stop of the model. -/
def Answers (o : StepOutcome) : Prop := ∃ t, o = .next t

theorem answers_next (t : State) : Answers (.next t) := ⟨t, rfl⟩

theorem answers_ite {c : Prop} [Decidable c] {o o' : StepOutcome} (h : Answers o) (h' : Answers o') :
    Answers (if c then o else o') := by
  split
  · exact h
  · exact h'

/-- The gate answers if the rule does. -/
theorem answers_execute {α : Type} {s : State} {o : Option α} {rule : α → StepOutcome}
    (hrule : ∀ a, o = some a → Answers (rule a)) : Answers (execute s o rule) := by
  unfold execute
  split
  · exact answers_next _
  · split
    · exact answers_next _
    · exact hrule _ rfl

/-- Every operation but `DEC.RECEIVE` answers in every state: each branch of its rule delivers a result or raises a
fault. -/
theorem exec_answers_of_ne_decReceive {i : Instr} (s : State) (hi : i ≠ .decReceive) : Answers (exec i s) := by
  cases i with
  | decReceive => exact absurd rfl hi
  | sysReset | sysStatus => exact answers_next _
  | prngSeedBytes | prngSeedStr | prngSeedDigest | decIsComplete | decClear | bwdEncodeStandard | bwdEncodeUri
  | bwdEncodeMinimal => exact answers_execute fun _ _ => answers_next _
  | prngNext | prngNextDouble | smpSetup | encSeqCount | encIsComplete | decPercent | bwdDecodeStandard | bwdDecodeUri
  | bwdDecodeMinimal =>
    refine answers_execute fun _ _ => ?_
    split <;> exact answers_next _
  | prngNextInt =>
    refine answers_execute fun _ _ => ?_
    split
    · exact answers_next _
    · exact answers_ite (answers_next _) (answers_ite (answers_next _) (answers_next _))
  | smpNext =>
    refine answers_execute fun _ _ => ?_
    split
    · exact answers_next _
    · split
      · exact answers_next _
      · split <;> exact answers_next _
  | chsChoose =>
    refine answers_execute fun _ _ => answers_ite (answers_next _) (answers_ite (answers_next _) ?_)
    split <;> exact answers_next _
  | encStart =>
    exact answers_execute fun _ _ => answers_ite (answers_next _) (answers_ite (answers_next _)
      (answers_ite (answers_next _) (answers_ite (answers_next _) (answers_next _))))
  | encNextPart =>
    refine answers_execute fun _ _ => ?_
    split
    · exact answers_next _
    · refine answers_ite (answers_next _) ?_
      split <;> exact answers_next _
  | decMessage =>
    refine answers_execute fun _ _ => ?_
    split
    · exact answers_next _
    · exact answers_next _
    · exact answers_next _
    · exact answers_ite (answers_next _) (answers_ite (answers_next _) (answers_next _))

section
variable {s : State} {a : Assembly} {p : Part}

/-- `DEC.RECEIVE` stops only on an access outside a space. -/
theorem finishReceive_answers {r : Except DrainStop (Assembly × Bool)}
    (h : ∀ stop, r = .error stop → ∃ e, stop = .capacity e) : Answers (s.finishReceive r) := by
  cases r with
  | ok r => obtain ⟨a, _ | _⟩ := r <;> exact answers_next _
  | error stop =>
    obtain ⟨e, rfl⟩ := h stop rfl
    exact answers_next _

/-- A part received into an assembly with the invariant. -/
theorem receiveInto_answers (ha : a.Ok s.cfg)
    (hindexed : ∀ indexes, choose s.cfg p.sequence a.desc.sequenceCount a.desc.checksum = .ok indexes →
      IndexedPart.Ok a.desc ⟨indexes, p.data⟩) : Answers (receiveInto s a p) := by
  unfold receiveInto
  split
  · exact answers_next _
  next indexes hchoose =>
  split
  · next stop happ =>
    refine finishReceive_answers ?_
    rintro _ ⟨⟩
    exact appendFifo_stops_by_capacity happ
  · next a1 happ =>
    exact finishReceive_answers fun _ => drain_stops_by_capacity (ha.appendFifo (hindexed indexes hchoose) happ)

/-- A part that enters an assembly is answered, whatever the decoder holds while it does. -/
theorem EntersAssembly.receiveInto_answers (hdec : s.dec.Ok s.cfg) (h : EntersAssembly s p a) (d : Decoder) :
    Answers (receiveInto (s.withDec d) a p) := by
  obtain ⟨ha, -, -⟩ := h.ok hdec
  exact Machine.receiveInto_answers ha fun _ => h.indexed_ok

/-- `DEC.RECEIVE` answers from every decoder with the invariant. -/
theorem exec_decReceive_answers (hdec : s.dec.Ok s.cfg) : Answers (exec .decReceive s) := by
  refine answers_execute fun p hread => ?_
  split
  · exact answers_next _
  · exact answers_next _
  · next hempty =>
    split
    · exact answers_next _
    next hvalid =>
    split
    · exact answers_next _
    · next a hfirst =>
      exact EntersAssembly.receiveInto_answers hdec ⟨hread, Bool.eq_false_iff.2 hvalid, .inl ⟨hempty, hfirst⟩⟩ _
  · next a hacc =>
    split
    · exact answers_next _
    next hvalid =>
    split
    · next hdesc =>
      have henters : EntersAssembly s p a := ⟨hread, Bool.eq_false_iff.2 hvalid, .inr ⟨hacc, hdesc⟩⟩
      have hanswers := henters.receiveInto_answers hdec (.accumulating a)
      rwa [State.withDec_self hacc] at hanswers
    · exact answers_next _

end

/-- Every operation answers from every state with the invariant. -/
theorem exec_answers {s : State} (i : Instr) (hinv : s.Inv) : Answers (exec i s) := by
  by_cases hi : i = .decReceive
  · obtain ⟨-, -, hdec⟩ := hinv
    exact hi ▸ exec_decReceive_answers hdec
  · exact exec_answers_of_ne_decReceive s hi

/-- Settles O54: a step holds the state, runs an operation, or refuses a command word. -/
theorem stepAlwaysAnswers : Obligations.StepAlwaysAnswers := by
  intro s hinv
  unfold State.Safe
  cases hissue : s.issue with
  | nil => exact ⟨s, step_of_idle hissue⟩
  | cons r rest =>
    cases hd : decode r.cmd with
    | ok i =>
      rw [step_of_decode hissue hd]
      exact exec_answers i (hinv.of_units rfl rfl rfl rfl)
    | error e =>
      rw [step_of_reject hissue hd]
      exact rejectCommand_next _

end Sys2Proof.Machine

/-! The encoder, the decoder and the chooser do not see the other units (46_system.md R264, 10_state.md R23): from two states
that agree on a unit and on what the host hands over, an operation of the unit answers alike. -/

namespace Sys2Proof.Machine

/-! ### A unit of the block, and what an outcome shows of it -/

/-- A unit as a part of the state, which delivering a result and raising a fault leave as it is. -/
structure UnitView (α : Type) where
  read : State → α
  reply : ∀ s r, read (s.reply r) = read s
  raise : ∀ s f, read (s.raise f) = read s

/-- The encoder (10_state.md R26). -/
def encoderView : UnitView (Option Encoder) := ⟨State.enc, fun _ _ => rfl, fun _ _ => rfl⟩

/-- The decoder (10_state.md R31). -/
def decoderView : UnitView Decoder := ⟨State.dec, fun _ _ => rfl, fun _ _ => rfl⟩

/-- The chooser, which holds no state (10_state.md R23). -/
def chooserView : UnitView Unit := ⟨fun _ => (), fun _ _ => rfl, fun _ _ => rfl⟩

/-- What an outcome shows through a unit: the result, the fault register and the unit of the next state. -/
def UnitView.shows {α : Type} (v : UnitView α) : StepOutcome → Option (Option Reply × Option FaultCode × α)
  | .next t => some (t.res, t.sysFault, v.read t)
  | _ => none

/-- Two states that agree on the deployment, the fault register, the operands and one unit. -/
structure UnitView.Agree {α : Type} (v : UnitView α) (s s' : State) : Prop where
  cfg : s'.cfg = s.cfg
  sysFault : s'.sysFault = s.sysFault
  opr : s'.opr = s.opr
  unit : v.read s' = v.read s

/-- An outcome that shows the same as one that answers does answer, and alike. -/
theorem UnitView.exists_next_of_shows_eq {α : Type} {v : UnitView α} {o o' : StepOutcome} {t : State}
    (h : v.shows o' = v.shows o) (ho : o = .next t) :
    ∃ t', o' = .next t' ∧ t'.res = t.res ∧ v.read t' = v.read t ∧ t'.sysFault = t.sysFault := by
  subst ho
  cases o' with
  | next t' =>
    simp only [UnitView.shows, Option.some.injEq, Prod.mk.injEq] at h
    obtain ⟨hres, hfault, hunit⟩ := h
    exact ⟨t', rfl, hres, hunit, hfault⟩
  | fault r => cases h
  | refused r => cases h

namespace UnitView.Agree

section
variable {α β : Type} {v : UnitView α} {s s' : State}

theorem shows_reply (h : v.Agree s s') (r : Reply) : v.shows (.next (s'.reply r)) = v.shows (.next (s.reply r)) := by
  simp only [UnitView.shows, v.reply, h.unit, State.reply_res, State.reply_sysFault, h.sysFault]

theorem shows_raise (h : v.Agree s s') (f : FaultCode) :
    v.shows (.next (s'.raise f)) = v.shows (.next (s.raise f)) := by
  simp only [UnitView.shows, v.raise, h.unit, State.raise_res, State.raise_sysFault, h.sysFault]

/-- The gate looks at the fault register and the operands only. -/
theorem shows_execute (h : v.Agree s s') {o : Option β} {rule rule' : β → StepOutcome}
    (hrule : ∀ b, v.shows (rule' b) = v.shows (rule b)) : v.shows (execute s' o rule') = v.shows (execute s o rule) := by
  unfold execute
  rw [h.sysFault]
  split
  · exact h.shows_reply _
  · split
    · exact h.shows_raise _
    · exact hrule _

end

section
variable {s s' : State}

theorem withEnc (h : encoderView.Agree s s') (e : Option Encoder) : encoderView.Agree (s.withEnc e) (s'.withEnc e) :=
  ⟨h.cfg, h.sysFault, h.opr, rfl⟩

theorem withDec (h : decoderView.Agree s s') (d : Decoder) : decoderView.Agree (s.withDec d) (s'.withDec d) :=
  ⟨h.cfg, h.sysFault, h.opr, rfl⟩

theorem enc (h : encoderView.Agree s s') : s'.enc = s.enc := h.unit

theorem dec (h : decoderView.Agree s s') : s'.dec = s.dec := h.unit

end

end UnitView.Agree

/-! ### The encoder -/

section
variable {s s' : State} (h : encoderView.Agree s s')
include h

theorem encStart_shows : encoderView.shows (exec .encStart s') = encoderView.shows (exec .encStart s) := by
  simp only [exec, execEncStart, h.cfg, h.opr]
  refine h.shows_execute fun o => ?_
  split_ifs
  · exact h.shows_raise _
  · exact h.shows_raise _
  · exact h.shows_raise _
  · exact h.shows_raise _
  · exact (h.withEnc _).shows_reply _

theorem encNextPart_shows : encoderView.shows (exec .encNextPart s') = encoderView.shows (exec .encNextPart s) := by
  simp only [exec, execEncNextPart, h.cfg, h.opr, h.enc]
  refine h.shows_execute fun _ => ?_
  cases s.enc with
  | none => exact h.shows_raise _
  | some e =>
    dsimp only
    split_ifs
    · exact (h.withEnc _).shows_raise _
    · cases choose s.cfg e.advance.currentSequence e.advance.sequenceCount e.advance.checksum with
      | error f => exact (h.withEnc _).shows_raise _
      | ok indexes => exact (h.withEnc _).shows_reply _

theorem encSeqCount_shows : encoderView.shows (exec .encSeqCount s') = encoderView.shows (exec .encSeqCount s) := by
  simp only [exec, execEncSeqCount, h.opr, h.enc]
  refine h.shows_execute fun _ => ?_
  cases s.enc with
  | none => exact h.shows_raise _
  | some e => exact h.shows_reply _

theorem encIsComplete_shows :
    encoderView.shows (exec .encIsComplete s') = encoderView.shows (exec .encIsComplete s) := by
  simp only [exec, execEncIsComplete, h.opr, h.enc]
  refine h.shows_execute fun _ => ?_
  cases s.enc with
  | none => exact h.shows_raise _
  | some e => exact h.shows_reply _

end

/-! ### The chooser -/

theorem chsChoose_shows {s s' : State} (h : chooserView.Agree s s') :
    chooserView.shows (exec .chsChoose s') = chooserView.shows (exec .chsChoose s) := by
  simp only [exec, execChsChoose, h.cfg, h.opr]
  refine h.shows_execute fun o => ?_
  split_ifs
  · exact h.shows_raise _
  · exact h.shows_raise _
  · cases choose s.cfg o.sequence o.sequenceCount o.checksum with
    | error f => exact h.shows_raise _
    | ok indexes => exact h.shows_reply _

/-! ### The decoder -/

section
variable {s s' : State} (h : decoderView.Agree s s')
include h

theorem failWith_shows (e : CapacityError) :
    decoderView.shows (s'.failWith e) = decoderView.shows (s.failWith e) :=
  (h.withDec (.failed e)).shows_reply _

theorem finishReceive_shows (r : Except DrainStop (Assembly × Bool)) :
    decoderView.shows (s'.finishReceive r) = decoderView.shows (s.finishReceive r) := by
  obtain (e | sp) | ⟨a, _ | _⟩ := r
  · exact failWith_shows h e
  · rfl
  · exact (h.withDec _).shows_reply _
  · exact (h.withDec _).shows_reply _

theorem receiveInto_shows (a : Assembly) (p : Part) :
    decoderView.shows (receiveInto s' a p) = decoderView.shows (receiveInto s a p) := by
  simp only [receiveInto, h.cfg]
  cases choose s.cfg p.sequence a.desc.sequenceCount a.desc.checksum with
  | error f => exact h.shows_raise f
  | ok indexes =>
    dsimp only
    cases appendFifo s.cfg a ⟨indexes, p.data⟩ <;> exact finishReceive_shows h _

theorem decReceive_shows : decoderView.shows (exec .decReceive s') = decoderView.shows (exec .decReceive s) := by
  simp only [exec, execDecReceive, h.cfg, h.opr, h.dec]
  refine h.shows_execute fun p => ?_
  cases s.dec with
  | failed e => exact h.shows_reply _
  | complete a => exact h.shows_reply _
  | empty =>
    dsimp only
    split_ifs
    · exact h.shows_reply _
    · cases firstAssembly s.cfg p with
      | error e => exact failWith_shows h e
      | ok a => exact receiveInto_shows (h.withDec _) a p
  | accumulating a =>
    dsimp only
    split_ifs
    · exact h.shows_reply _
    · exact receiveInto_shows h a p
    · exact h.shows_reply _

theorem decMessage_shows : decoderView.shows (exec .decMessage s') = decoderView.shows (exec .decMessage s) := by
  simp only [exec, execDecMessage, h.opr, h.dec]
  refine h.shows_execute fun _ => ?_
  cases s.dec with
  | failed e => exact h.shows_reply _
  | empty => exact h.shows_reply _
  | accumulating a => exact h.shows_reply _
  | complete a =>
    dsimp only
    split_ifs
    · exact h.shows_raise _
    · exact h.shows_reply _
    · exact h.shows_reply _

theorem decIsComplete_shows :
    decoderView.shows (exec .decIsComplete s') = decoderView.shows (exec .decIsComplete s) := by
  simp only [exec, execDecIsComplete, h.opr, h.dec]
  exact h.shows_execute fun _ => h.shows_reply _

theorem decPercent_shows : decoderView.shows (exec .decPercent s') = decoderView.shows (exec .decPercent s) := by
  simp only [exec, execDecPercent, h.cfg, h.opr, h.dec]
  refine h.shows_execute fun _ => ?_
  cases s.dec <;> exact h.shows_reply _

theorem decClear_shows : decoderView.shows (exec .decClear s') = decoderView.shows (exec .decClear s) := by
  simp only [exec, execDecClear, h.opr]
  exact h.shows_execute fun _ => (h.withDec _).shows_reply _

end

/-! ### The obligation on the units -/

/-- Every `ENC` operation shows the same through the encoder. -/
theorem exec_enc_shows {s s' : State} {i : Instr} (hi : i ∈ [Instr.encStart, .encNextPart, .encSeqCount, .encIsComplete])
    (h : encoderView.Agree s s') : encoderView.shows (exec i s') = encoderView.shows (exec i s) := by
  fin_cases hi
  · exact encStart_shows h
  · exact encNextPart_shows h
  · exact encSeqCount_shows h
  · exact encIsComplete_shows h

/-- Every `DEC` operation shows the same through the decoder. -/
theorem exec_dec_shows {s s' : State} {i : Instr}
    (hi : i ∈ [Instr.decReceive, .decMessage, .decIsComplete, .decPercent, .decClear]) (h : decoderView.Agree s s') :
    decoderView.shows (exec i s') = decoderView.shows (exec i s) := by
  fin_cases hi
  · exact decReceive_shows h
  · exact decMessage_shows h
  · exact decIsComplete_shows h
  · exact decPercent_shows h
  · exact decClear_shows h

/-- Settles O50: an operation shows the same through its unit from two states that agree on it. -/
theorem unitsAreIndependent : Obligations.UnitsAreIndependent := by
  refine ⟨fun s s' t i hi hcfg hfault hopr henc hexec => ?_, fun s s' t hcfg hfault hopr hexec => ?_,
    fun s s' t i hi hcfg hfault hopr hdec hexec => ?_⟩
  · have hagree : encoderView.Agree s s' := ⟨hcfg, hfault, hopr, henc⟩
    exact UnitView.exists_next_of_shows_eq (exec_enc_shows hi hagree) hexec
  · have hagree : chooserView.Agree s s' := ⟨hcfg, hfault, hopr, rfl⟩
    obtain ⟨t', ht', hres, -, hsame⟩ := UnitView.exists_next_of_shows_eq (chsChoose_shows hagree) hexec
    exact ⟨t', ht', hres, hsame⟩
  · have hagree : decoderView.Agree s s' := ⟨hcfg, hfault, hopr, hdec⟩
    exact UnitView.exists_next_of_shows_eq (exec_dec_shows hi hagree) hexec

end Sys2Proof.Machine

/-! A step as the operation it runs (46_system.md R263), and the status record (46_system.md R262). -/

namespace Sys2Proof.Machine

/-- Settles O3: a step is the decoded operation on the state with the record handed over. -/
theorem stepRunsDecodedOperation : Obligations.StepRunsDecodedOperation :=
  ⟨fun _ _ _ _ hissue hd => step_of_decode hissue hd, fun _ hissue => step_of_idle hissue⟩

/-- While the decoder has not failed, the two counts of the record are those of its lists. -/
theorem State.counts_of_assembly {s : State} {a : Assembly} (h : s.dec = .accumulating a ∨ s.dec = .complete a) :
    s.resolvedCount = a.resolved.length ∧ s.pendingCount = a.mixed.length ∧ s.dec.fail = none := by
  obtain h | h := h <;> simp only [State.resolvedCount, State.pendingCount, h] <;> exact ⟨rfl, rfl, rfl⟩

theorem State.counts_of_empty {s : State} (h : s.dec = .empty) :
    s.resolvedCount = 0 ∧ s.pendingCount = 0 ∧ s.dec.fail = none := by
  simp only [State.resolvedCount, State.pendingCount, h]
  exact ⟨rfl, rfl, rfl⟩

/-- Settles O7: the record is `State.statusRecord`, field by field. -/
theorem sysStatusRecord : Obligations.SysStatusRecord := by
  refine ⟨by decide, fun s => ⟨s.statusRecord, exec_sysStatus s, rfl, rfl, rfl, fun hsmp => ?_, fun t hsmp => ?_, rfl,
    fun henc => ?_, fun e henc => ?_, rfl, State.counts_of_empty, fun a hdec => State.counts_of_assembly (.inl hdec),
    fun a hdec => ?_, fun e hdec => ?_⟩⟩
  · simp [State.statusRecord, hsmp]
  · simp [State.statusRecord, hsmp, AliasTables.n]
  · simp [State.statusRecord, henc]
  · simp [State.statusRecord, henc]
  · obtain ⟨hresolved, hpending, hfail⟩ := State.counts_of_assembly (.inr hdec)
    refine ⟨hresolved, hpending, hfail, fun hok => hresolved.trans ?_⟩
    rw [hdec] at hok
    obtain ⟨-, hall⟩ := hok
    exact hall
  · simp [State.statusRecord, hdec, Decoder.fail]

end Sys2Proof.Machine

/-! The host's framing functions (47_host_framing.md R270 to R276): the codec reads the numbers and the part that CBOR wrote,
and `ParseUr` cuts the URI of a part where `UrMulti` joined it. -/

namespace Sys2Proof.Machine

/-! ### Numbers and parts in CBOR -/

@[simp] theorem beBytes_length (k v : Nat) : (beBytes k v).length = k := by
  induction k with
  | zero => rfl
  | succ k ih => simp [beBytes, ih]

/-- Reading `k` bytes after an accumulated value appends the last `k` base-256 digits of the number to it. -/
theorem foldl_beBytes (k v acc : Nat) :
    (beBytes k v).foldl (fun acc x => 256 * acc + x.toNat) acc = acc * 256 ^ k + v % 256 ^ k := by
  induction k generalizing acc with
  | zero => simp [beBytes, Nat.mod_one]
  | succ k ih =>
    rw [beBytes, List.foldl_cons, ih, BitVec.toNat_ofNat, pow_succ 256 k, Nat.mod_mul]
    ring

theorem beNat_beBytes {k v : Nat} (h : v < 256 ^ k) : beNat (beBytes k v) = v := by
  rw [beNat, foldl_beBytes, Nat.zero_mul, Nat.zero_add, Nat.mod_eq_of_lt h]

section
variable {major : Nat} (hmajor : major < 8)
include hmajor

/-- The major type and the argument of a head's first byte (47_host_framing.md R271). -/
theorem headByte_fields {a : Nat} (ha : a < 32) :
    (BitVec.ofNat 8 (32 * major + a)).toNat / 32 = major ∧ (BitVec.ofNat 8 (32 * major + a)).toNat % 32 = a := by
  rw [BitVec.toNat_ofNat]
  omega

/-- A head whose argument is the number itself. -/
theorem readHead_of_argument {v : Nat} (hv : v < 24) (rest : Bytes) :
    readHead major (BitVec.ofNat 8 (32 * major + v) :: rest) = some (v, rest) := by
  obtain ⟨hdiv, hmod⟩ := headByte_fields hmajor (show v < 32 by omega)
  simp only [readHead, hdiv, hmod]
  rw [if_neg (by omega), if_pos hv]

/-- A head whose argument says how many bytes of the number follow. -/
theorem readHead_of_following {a v : Nat} (ha : 24 ≤ a) (ha' : a ≤ 27) (hv : v < 256 ^ 2 ^ (a - 24))
    (rest : Bytes) :
    readHead major (BitVec.ofNat 8 (32 * major + a) :: (beBytes (2 ^ (a - 24)) v ++ rest)) = some (v, rest) := by
  obtain ⟨hdiv, hmod⟩ := headByte_fields hmajor (show a < 32 by omega)
  simp only [readHead, hdiv, hmod]
  rw [if_neg (by omega), if_neg (by omega), if_neg (by simp), List.take_left' (beBytes_length _ v),
    List.drop_left' (beBytes_length _ v), beNat_beBytes hv]

/-- Every form of a head reads back as its number (47_host_framing.md R271). -/
theorem readHead_cborHead {v : Nat} (hv : v < 2 ^ 64) (rest : Bytes) :
    readHead major (cborHead major v ++ rest) = some (v, rest) := by
  unfold cborHead
  split_ifs with h24 h8 h16 h32
  · exact readHead_of_argument hmajor h24 rest
  · exact readHead_of_following (a := 24) hmajor (by decide) (by decide) h8 rest
  · exact readHead_of_following (a := 25) hmajor (by decide) (by decide) h16 rest
  · exact readHead_of_following (a := 26) hmajor (by decide) (by decide) h32 rest
  · exact readHead_of_following (a := 27) hmajor (by decide) (by decide) hv rest

end

theorem readNumbers_flatMap_cborHead {vs : List Nat} (h : ∀ v ∈ vs, v < 2 ^ 64) (rest : Bytes) :
    readNumbers vs.length (vs.flatMap (cborHead 0) ++ rest) = some (vs, rest) := by
  induction vs with
  | nil => rfl
  | cons v vs ih =>
    obtain ⟨hv, hvs⟩ := List.forall_mem_cons.1 h
    simp only [List.flatMap_cons, List.append_assoc, List.length_cons, readNumbers,
      readHead_cborHead (by decide : 0 < 8) hv, ih hvs]

/-- The bytes of a part, as its four numbers, the head of its data and its data (47_host_framing.md R271). -/
theorem cborPart_eq (p : RawPart) : cborPart p =
    0x85 :: ([p.sequence, p.sequenceCount, p.messageLength, p.checksum].flatMap (cborHead 0) ++
      (cborHead 2 p.data.length ++ p.data)) := by
  simp [cborPart]

theorem readCborPart_cborPart {p : RawPart}
    (hnumbers : ∀ v ∈ [p.sequence, p.sequenceCount, p.messageLength, p.checksum], v < 2 ^ 64)
    (hdata : p.data.length < 2 ^ 64) : readCborPart (cborPart p) = some p := by
  have hread : readNumbers 4 ((cborPart p).drop 1) =
      some ([p.sequence, p.sequenceCount, p.messageLength, p.checksum], cborHead 2 p.data.length ++ p.data) := by
    rw [cborPart_eq]
    exact readNumbers_flatMap_cborHead hnumbers _
  simp only [readCborPart, hread, readHead_cborHead (by decide : 2 < 8) hdata, if_true]

/-- The codec reads back the part it wrote (47_host_framing.md R270, R273). -/
theorem partOfBytes_partBytes {p : Part} (hcount : p.sequenceCount < 2 ^ 64) (hlength : p.messageLength < 2 ^ 64)
    (hdata : p.data.length < 2 ^ 64) : partOfBytes .standard (partBytes .standard p) = some p.toRaw := by
  have hnumbers : ∀ v ∈ [p.toRaw.sequence, p.toRaw.sequenceCount, p.toRaw.messageLength, p.toRaw.checksum],
      v < 2 ^ 64 := by
    have hsequence := p.sequence.isLt
    have hchecksum := p.checksum.isLt
    simp only [List.forall_mem_cons, List.not_mem_nil, false_implies, implies_true, and_true]
    exact ⟨by simp only [Part.toRaw]; omega, hcount, hlength, by simp only [Part.toRaw]; omega⟩
  simp only [partOfBytes, partBytes, readCborPart_cborPart hnumbers hdata]

/-! ### Decimal numbers -/

theorem decimalDigits_digit {k n : Nat} {b : Byte} (h : b ∈ decimalDigits k n) : 0x30 ≤ b.toNat ∧ b.toNat ≤ 0x39 := by
  induction k generalizing n with
  | zero => simp [decimalDigits] at h
  | succ k ih =>
    unfold decimalDigits at h
    split_ifs at h with hn
    · obtain rfl := List.mem_singleton.1 h
      rw [BitVec.toNat_ofNat]
      omega
    · obtain hhigh | hlast := List.mem_append.1 h
      · exact ih hhigh
      · obtain rfl := List.mem_singleton.1 hlast
        rw [BitVec.toNat_ofNat]
        omega

theorem decimalDigits_ne_nil (k n : Nat) : decimalDigits (k + 1) n ≠ [] := by
  unfold decimalDigits
  split_ifs <;> simp

theorem foldl_decimalDigits {k n : Nat} (h : n < 10 ^ k) :
    (decimalDigits k n).foldl (fun acc x => 10 * acc + (x.toNat - 0x30)) 0 = n := by
  induction k generalizing n with
  | zero => simp [decimalDigits]; omega
  | succ k ih =>
    unfold decimalDigits
    split_ifs with hn
    · simp only [List.foldl_cons, List.foldl_nil, BitVec.toNat_ofNat]
      omega
    · rw [List.foldl_append, ih (by omega)]
      simp only [List.foldl_cons, List.foldl_nil, BitVec.toNat_ofNat]
      omega

/-- The digits of a `u32` read back as it (47_host_framing.md R275, R276). -/
theorem digitsValue_decimal {n : Nat} (h : n < 2 ^ 32) : digitsValue (decimal n) = some n := by
  have hdigits : ¬((decimal n).length = 0 ∨
      (decimal n).any (fun x => decide (x.toNat < 0x30) || decide (0x39 < x.toNat)) = true) := by
    rintro (hnil | hother)
    · exact decimalDigits_ne_nil 9 n (List.length_eq_zero_iff.1 hnil)
    · obtain ⟨b, hb, hout⟩ := List.any_eq_true.1 hother
      have hdigit := decimalDigits_digit hb
      simp only [Bool.or_eq_true, decide_eq_true_eq] at hout
      omega
  have hvalue : (decimal n).foldl (fun acc x => 10 * acc + (x.toNat - 0x30)) 0 = n :=
    foldl_decimalDigits (show n < 10 ^ 10 by omega)
  simp only [digitsValue, if_neg hdigits, hvalue, if_pos h]

theorem not_mem_decimal {sep : Byte} (h : sep.toNat < 0x30) (n : Nat) : sep ∉ decimal n := fun hmem => by
  obtain ⟨hlow, -⟩ := decimalDigits_digit hmem
  omega

/-! ### Cutting a URI -/

theorem cutAtByte_append {sep : Byte} {before : Bytes} (h : sep ∉ before) (after : Bytes) :
    cutAtByte sep (before ++ sep :: after) = some (before, after) := by
  induction before with
  | nil => simp [cutAtByte]
  | cons x before ih =>
    obtain ⟨hx, hrest⟩ := not_or.1 (List.mem_cons.not.1 h)
    simp only [List.cons_append, cutAtByte, if_neg (Ne.symm hx), ih hrest]

theorem parseIndices_decimal {sequence count : Nat} (hsequence : sequence < 2 ^ 32) (hcount : count < 2 ^ 32) :
    parseIndices (decimal sequence ++ 0x2D :: decimal count) = some (sequence, count) := by
  simp only [parseIndices, cutAtByte_append (not_mem_decimal (sep := 0x2D) (by decide) sequence),
    digitsValue_decimal hsequence, digitsValue_decimal hcount]

/-- A URI of a legal type, indices that parse and a payload text (47_host_framing.md R276). -/
theorem parseUr_of_indices {urType idx : Bytes} {sequence count : Nat} (hne : urType ≠ [])
    (htype : ∀ b ∈ urType, isTypeByte b = true) (hslash : 0x2F ∉ idx)
    (hidx : parseIndices idx = some (sequence, count)) (payloadText : Bytes) :
    parseUr (urScheme ++ (urType ++ 0x2F :: (idx ++ 0x2F :: payloadText))) =
      .ok (.multi urType sequence count payloadText) := by
  have hscheme : urScheme.length = 3 := by decide
  have hnoSlash : 0x2F ∉ urType := fun hmem => absurd (htype _ hmem) (by decide)
  have hlegal : ¬(urType.length = 0 ∨ (!urType.all isTypeByte) = true) := by
    simpa [List.length_eq_zero_iff, hne] using htype
  simp only [parseUr, List.take_left' hscheme, List.drop_left' hscheme, ne_eq, not_true_eq_false, if_false,
    cutAtByte_append hnoSlash, if_neg hlegal, cutAtByte_append hslash, hidx]

/-- `ParseUr` is the inverse of `UrMulti`, up to the payload text (47_host_framing.md R275, R276). -/
theorem parseUr_urMulti (cfg : Cfg) (codec : Collaborator) {urType : Bytes} {p : Part} (hne : urType ≠ [])
    (htype : ∀ b ∈ urType, isTypeByte b = true) (hcount : p.sequenceCount < 2 ^ 32) :
    parseUr (urMulti cfg codec urType p) =
      .ok (.multi urType p.sequence.toNat p.sequenceCount (encodeText cfg .minimal (partBytes codec p))) := by
  have hslash : 0x2F ∉ decimal p.sequence.toNat ++ 0x2D :: decimal p.sequenceCount := by
    simp only [List.mem_append, List.mem_cons, not_or]
    exact ⟨not_mem_decimal (by decide) _, by decide, not_mem_decimal (by decide) _⟩
  have hparse := parseUr_of_indices hne htype hslash (parseIndices_decimal p.sequence.isLt hcount)
    (encodeText cfg .minimal (partBytes codec p))
  simpa only [urMulti, List.append_assoc, List.cons_append] using hparse

/-- Settles O58: each cut of `ParseUr` falls on the separator that `UrMulti` wrote, and each head is read as it was written. -/
theorem framingParsesBack : Obligations.FramingParsesBack :=
  ⟨fun cfg codec _ _ hne htype hcount => parseUr_urMulti cfg codec hne htype hcount,
    fun _ hcount hlength hdata => partOfBytes_partBytes hcount hlength hdata⟩

end Sys2Proof.Machine

/-! The host-level encoder and receive (47_host_framing.md R277, R278, R280): what a host function answers once the block has
answered the operations it issues. -/

namespace Sys2Proof.Machine

/-! ### The encoder's host -/

/-- `ENC.START` delivers no value (43_encoder.md R181). -/
theorem exec_encStart_ok_fields {s t : State} {fields : OkFields} (h : exec .encStart s = .next t)
    (hres : t.res = some (.ok fields)) : fields = .none := by
  obtain ⟨f, -, rfl⟩ | ⟨-, -, rfl⟩ | ⟨o, -, -, hrule⟩ := execute_next_cases h
  · cases hres
  · cases hres
  · dsimp only at hrule
    split_ifs at hrule <;> cases hrule <;> cases hres
    rfl

section
variable {h : HostSide} {urType message : Bytes} {m : Nat}

theorem hostStart_of_long_type (htype : exceeds h.cfg.typeCap urType.length = true) :
    hostStart h urType message m = h.answer (.error .urTypeTooBig) := if_pos htype

variable (htype : exceeds h.cfg.typeCap urType.length = false)
include htype

theorem hostStart_of_long_fragment (hlimit : exceeds h.cfg.scratchCap m = true) :
    hostStart h urType message m = h.answer (.error .fragmentTooBig) := by
  simp only [hostStart, htype, hlimit, Bool.false_eq_true, if_false, if_true]

/-- Within the host's capacities, the host's start is `ENC.START` (47_host_framing.md R278). -/
theorem hostStart_of_exec {s : State} (hlimit : exceeds h.cfg.scratchCap m = false)
    (hs : exec .encStart { h.block with opr := .start message m } = .next s) :
    hostStart h urType message m = .next
      ⟨{ h with block := s, urType := if s.res = some (.ok .none) then some urType else h.urType }, .block s.res⟩ := by
  simp only [hostStart, htype, hlimit, Bool.false_eq_true, if_false, issue_of_exec hs, withBlock_block]
  split
  · next fields hres =>
    obtain rfl := exec_encStart_ok_fields hs hres
    rw [hres, if_pos rfl]
    rfl
  · next hres =>
    rw [if_neg (hres .none)]
    rfl

end

section
variable {h : HostSide} {s : State} (hs : exec .encNextPart { h.block with opr := .empty } = .next s)
include hs

theorem hostNextPart_of_part {p : Part} {urType : Bytes} (hres : s.res = some (.ok (.part p)))
    (htype : h.urType = some urType) :
    hostNextPart h = (h.withBlock s).answer (.uri (urMulti s.cfg h.cfg.codec urType p)) := by
  simp only [hostNextPart, issue_of_exec hs, withBlock_block, withBlock_urType, withBlock_cfg, hres, htype]

theorem hostNextPart_of_no_part (hres : ∀ p, s.res ≠ some (.ok (.part p))) :
    hostNextPart h = (h.withBlock s).answer (.block s.res) := by
  simp only [hostNextPart, issue_of_exec hs, withBlock_block]
  split
  · next p _ hpart _ => exact absurd hpart (hres p)
  · rfl

end

/-- Settles O59: the host's tests, and then what `ENC.START` and `ENC.NEXT_PART` answer. -/
theorem hostEncoderOutcomes : Obligations.HostEncoderOutcomes :=
  ⟨fun _ _ _ _ => ⟨hostStart_of_long_type, hostStart_of_long_fragment,
      fun _ htype hlimit hs => hostStart_of_exec htype hlimit hs⟩,
    fun _ _ hs => ⟨fun _ _ => hostNextPart_of_part hs, hostNextPart_of_no_part hs⟩⟩

/-! ### Receiving a payload text -/

/-- The host whose block has answered a text (47_host_framing.md R277). -/
def HostSide.afterText (h : HostSide) (text : Bytes) (r : Reply) : HostSide :=
  h.withBlock { h.block with opr := .text text, res := some r }

@[simp] theorem HostSide.afterText_res (h : HostSide) (text : Bytes) (r : Reply) :
    (h.afterText text r).block.res = some r := rfl

/-- The codec and the width of a `usize` do not change with an answer. -/
@[simp] theorem hostPart_afterText (h : HostSide) (text : Bytes) (r : Reply) (b : Bytes) :
    hostPart (h.afterText text r) b = hostPart h b := rfl

section
variable {h : HostSide} (hf : h.block.sysFault = none) {payloadText : Bytes}
include hf

section
variable {e : ErrorInfo} (hdecode : decodeText h.block.cfg .minimal payloadText = .error e)
include hdecode

/-- The host's `BWD.DECODE[Minimal]` of a text that does not decode (45_bytewords.md R242). -/
theorem issue_bwdDecode_of_error (next : HostSide → HostOutcome) :
    h.issue .bwdDecodeMinimal (.text payloadText) next = next (h.afterText payloadText (.err e)) :=
  issue_of_exec (bwdDecode_of_error (s := { h.block with opr := .text payloadText }) hf rfl hdecode)

theorem hostReceiveSingle_of_error :
    hostReceiveSingle h payloadText = (h.afterText payloadText (.err e)).answer (.block (some (.err e))) := by
  simp only [hostReceiveSingle, issue_bwdDecode_of_error hf hdecode, HostSide.afterText_res]

theorem hostReceiveMulti_of_error :
    hostReceiveMulti h payloadText = (h.afterText payloadText (.err e)).answer (.block (some (.err e))) := by
  simp only [hostReceiveMulti, issue_bwdDecode_of_error hf hdecode, HostSide.afterText_res]

end

section
variable {b : Bytes} (hdecode : decodeText h.block.cfg .minimal payloadText = .ok b)
include hdecode

/-- The host's `BWD.DECODE[Minimal]` of a text that holds a payload (45_bytewords.md R242). -/
theorem issue_bwdDecode_of_ok (next : HostSide → HostOutcome) :
    h.issue .bwdDecodeMinimal (.text payloadText) next = next (h.afterText payloadText (.ok (.payload b))) :=
  issue_of_exec (bwdDecode_of_ok (s := { h.block with opr := .text payloadText }) hf rfl hdecode)

theorem hostReceiveSingle_of_ok :
    hostReceiveSingle h payloadText = (h.afterText payloadText (.ok (.payload b))).answer (.message b) := by
  simp only [hostReceiveSingle, issue_bwdDecode_of_ok hf hdecode, HostSide.afterText_res]

theorem hostReceiveMulti_of_no_part (hpart : hostPart h b = none) :
    hostReceiveMulti h payloadText =
      (h.afterText payloadText (.ok (.payload b))).answer (.error .malformedPart) := by
  simp only [hostReceiveMulti, issue_bwdDecode_of_ok hf hdecode, HostSide.afterText_res, hostPart_afterText, hpart]

theorem hostReceiveMulti_of_part {p : Part} {t : State} (hpart : hostPart h b = some p)
    (ht : exec .decReceive { (h.afterText payloadText (.ok (.payload b))).block with opr := p.toRecord } = .next t) :
    hostReceiveMulti h payloadText = (h.withBlock t).answer (.block t.res) := by
  simp only [hostReceiveMulti, issue_bwdDecode_of_ok hf hdecode, HostSide.afterText_res, hostPart_afterText, hpart,
    issue_of_exec ht]
  rfl

end

end

/-! ### Receiving a URI -/

section
variable {h : HostSide} {text : Bytes}

theorem hostReceive_of_parse_error {e : UrError} (hparse : parseUr text = .error e) :
    hostReceive h text = h.answer (.error (.uri e)) := by
  simp only [hostReceive, hparse]

variable {urType payloadText : Bytes} {sequence count : Nat}

theorem hostReceive_of_long_type (hparse : parseUr text = .ok (.single urType payloadText) ∨
      parseUr text = .ok (.multi urType sequence count payloadText))
    (htype : exceeds h.cfg.typeCap urType.length = true) : hostReceive h text = h.answer (.error .urTypeTooBig) := by
  obtain hparse | hparse := hparse <;> simp only [hostReceive, hparse, htype, if_true]

variable (htype : exceeds h.cfg.typeCap urType.length = false)
include htype

theorem hostReceive_of_single (hparse : parseUr text = .ok (.single urType payloadText)) :
    hostReceive h text = hostReceiveSingle h payloadText := by
  simp only [hostReceive, hparse, htype, Bool.false_eq_true, if_false]

theorem hostReceive_of_multi (hparse : parseUr text = .ok (.multi urType sequence count payloadText)) :
    hostReceive h text = hostReceiveMulti h payloadText := by
  simp only [hostReceive, hparse, htype, Bool.false_eq_true, if_false]

/-- Both forms of a URI end with the error of `BWD.DECODE` (47_host_framing.md R277). -/
theorem hostReceive_of_decode_error {e : ErrorInfo} (hf : h.block.sysFault = none)
    (hparse : parseUr text = .ok (.single urType payloadText) ∨
      parseUr text = .ok (.multi urType sequence count payloadText))
    (hdecode : decodeText h.block.cfg .minimal payloadText = .error e) :
    hostReceive h text = (h.afterText payloadText (.err e)).answer (.block (some (.err e))) := by
  obtain hsingle | hmulti := hparse
  · rw [hostReceive_of_single htype hsingle, hostReceiveSingle_of_error hf hdecode]
  · rw [hostReceive_of_multi htype hmulti, hostReceiveMulti_of_error hf hdecode]

end

/-! ### The URI of a part -/

theorem usizeWidth_bits_le (w : UsizeWidth) : w.bits ≤ 64 := by
  cases w <;> decide

/-- A part the block reads is read back from its CBOR by the host (47_host_framing.md R271, R273). -/
theorem hostPart_partBytes {h : HostSide} {p : Part} (hcodec : h.cfg.codec = .standard)
    (hread : partOperand h.block.cfg.usize p.toRecord = some p) (hdata : p.data.length < 2 ^ 64) :
    hostPart h (partBytes .standard p) = some p := by
  obtain ⟨hcount, hlength⟩ := partOperand_bounds hread
  have hcount : p.sequenceCount < 2 ^ 64 := hcount.trans (by decide)
  have hlength : p.messageLength < 2 ^ 64 :=
    hlength.trans_le (Nat.pow_le_pow_right (by decide) (usizeWidth_bits_le _))
  simp only [hostPart, hcodec, partOfBytes_partBytes hcount hlength hdata]
  exact hread

/-- The URI of a part is received as that part: parsing, decoding and the codec each undo one step of `UrMulti`
(47_host_framing.md R275, R277). -/
theorem hostReceive_urMulti {h : HostSide} {u : Bytes} {p : Part} {t : State} (hf : h.block.sysFault = none)
    (htables : h.block.cfg.TablesOk) (hcodec : h.cfg.codec = .standard) (hne : u ≠ [])
    (hlegal : ∀ b ∈ u, isTypeByte b = true) (htype : exceeds h.cfg.typeCap u.length = false)
    (hread : partOperand h.block.cfg.usize p.toRecord = some p) (hdata : p.data.length < 2 ^ 64)
    (ht : exec .decReceive { h.block with
      opr := p.toRecord, res := some (.ok (.payload (partBytes .standard p))) } = .next t) :
    hostReceive h (urMulti h.block.cfg .standard u p) = (h.withBlock t).answer (.block t.res) := by
  obtain ⟨hcount, -⟩ := partOperand_bounds hread
  rw [hostReceive_of_multi htype (parseUr_urMulti h.block.cfg .standard hne hlegal hcount)]
  exact hostReceiveMulti_of_part hf ((decodeText_eq_ok_iff htables).2 rfl) (hostPart_partBytes hcodec hread hdata) ht

/-- Settles O60: the stages of a receive, each with its end, and the URI of a part through all of them. -/
theorem hostReceiveOutcomes : Obligations.HostReceiveOutcomes := by
  refine ⟨fun h text => ⟨fun _ => hostReceive_of_parse_error, fun _ _ _ _ => hostReceive_of_long_type,
    fun u payloadText q n htype hf => ⟨fun _ => hostReceive_of_decode_error htype hf, ?_⟩⟩, ?_⟩
  · rintro b s hdecode rfl
    refine ⟨fun hparse => ?_, fun hparse hpart => ?_, fun p t hparse hpart ht => ?_⟩
    · rw [hostReceive_of_single htype hparse]
      exact hostReceiveSingle_of_ok hf hdecode
    · rw [hostReceive_of_multi htype hparse]
      exact hostReceiveMulti_of_no_part hf hdecode hpart
    · rw [hostReceive_of_multi htype hparse]
      exact hostReceiveMulti_of_part hf hdecode hpart ht
  · intro h u p t hf htables hcodec hne hlegal htype hread hdata ht
    exact hostReceive_urMulti hf htables hcodec hne hlegal htype hread hdata ht

end Sys2Proof.Machine

/-! Faults are precise (60_exceptions.md R346): an operation that raises a fault on a ready block raises it at the state
before it, but for the four operations that write before they raise. -/

namespace Sys2Proof.Machine

/-! ### The codes the chooser can raise -/

/-- A setup that fails names what is wrong with its weights (41_sampler.md R151). -/
theorem buildTables_error_mem {cfg : Cfg} {cap : Option Nat} {ws : List F64} {f : FaultCode}
    (h : buildTables cfg cap ws = .error f) :
    f ∈ [FaultCode.emptyWeights, .capacityOverflow, .negativeWeight, .zeroWeights, .arithmeticOverflow] := by
  unfold buildTables at h
  split_ifs at h <;> cases h <;> decide

/-- The chooser raises neither the fault of the dispatch nor the one of an encoder that is not started, whatever its
arithmetic is (42_chooser.md R171 to R173). -/
theorem choose_error_ne {cfg : Cfg} {sequence : U32} {n : Nat} {checksum : U32} {f : FaultCode}
    (h : choose cfg sequence n checksum = .error f) : f ≠ .encoderNotStarted ∧ f ≠ .illegalCommand := by
  cases ht : buildTables cfg none (chooserWeights cfg n) with
  | ok t => obtain ⟨rfl, -⟩ | ⟨rfl, -⟩ := choose_error_cases ht h <;> decide
  | error f' =>
    have hlater : ¬sequence.toNat ≤ n := fun hle => nomatch (choose_of_le hle).symm.trans h
    simp only [choose, if_neg hlater, chooseLater, ht] at h
    cases h
    constructor <;> rintro rfl <;> exact absurd (buildTables_error_mem ht) (by decide)

/-! ### Where a fault is raised -/

/-- The operation `i` raises `f` after it has written a unit, by the list of 60_exceptions.md R346. -/
def WritesBeforeFault (s : State) (i : Instr) (f : FaultCode) : Prop :=
  (i = .prngNextInt ∧ f = .arithmeticOverflow) ∨ (i = .smpNext ∧ f = .samplerIndexOutOfRange) ∨
    (i = .encNextPart ∧ f ≠ .encoderNotStarted ∧ f ≠ .illegalCommand) ∨
    (i = .decReceive ∧ s.dec = .empty ∧ f ≠ .illegalCommand)

/-- The state at which the operation `i`, begun in `s`, raises `f` (60_exceptions.md R346): `s` itself, or `s` with the
partial write that the rule lists. -/
inductive FaultPoint (s : State) : Instr → FaultCode → State → Prop
  | before {i : Instr} {f : FaultCode} (h : ¬WritesBeforeFault s i f) : FaultPoint s i f s
  | drawn {p : PrngWords} (hp : s.prng = some p) :
    FaultPoint s .prngNextInt .arithmeticOverflow (s.withPrng (some (prngAfter p)))
  | drawnTwice {p : PrngWords} (hp : s.prng = some p) :
    FaultPoint s .smpNext .samplerIndexOutOfRange (s.withPrng (some (prngAfter (prngAfter p))))
  | advanced {e : Encoder} {f : FaultCode} (he : s.enc = some e) (hf : f ≠ .encoderNotStarted ∧ f ≠ .illegalCommand) :
    FaultPoint s .encNextPart f (s.withEnc (some e.advance))
  | founded {p : Part} {a : Assembly} {f : FaultCode} (hdec : s.dec = .empty)
    (hread : partOperand s.cfg.usize s.opr = some p) (hfirst : firstAssembly s.cfg p = .ok a)
    (hf : f ≠ .illegalCommand) : FaultPoint s .decReceive f (s.withDec (.accumulating a))

/-- A record refused at dispatch is refused before anything is written (46_system.md R261, line 3). -/
theorem FaultPoint.dispatch (s : State) (i : Instr) : FaultPoint s i .illegalCommand s :=
  .before (by simp [WritesBeforeFault])

/-- An operation that the rule does not list raises every fault at the state before it. -/
theorem FaultPoint.of_unlisted {i : Instr} (hi : i ∉ [Instr.prngNextInt, .smpNext, .encNextPart, .decReceive])
    (s : State) (f : FaultCode) : FaultPoint s i f s := by
  simp only [List.mem_cons, List.not_mem_nil, or_false, not_or] at hi
  obtain ⟨hint, hsample, hpart, hreceive⟩ := hi
  exact .before (by simp [WritesBeforeFault, hint, hsample, hpart, hreceive])

/-- No partial write touches the register. -/
theorem FaultPoint.sysFault {s u : State} {i : Instr} {f : FaultCode} (h : FaultPoint s i f u) :
    u.sysFault = s.sysFault := by
  cases h <;> rfl

/-- Whatever fault the outcome of the operation `i`, begun in `s`, leaves in the register was raised at a fault
point. -/
def FaultsAtPoint (s : State) (i : Instr) (o : StepOutcome) : Prop :=
  ∀ t f, o = .next t → t.sysFault = some f → ∃ u, FaultPoint s i f u ∧ t = u.raise f

section
variable {s u : State} {i : Instr} {o o' : StepOutcome}

/-- An outcome that raises nothing. -/
theorem faultsAtPoint_of_ready (hu : u.sysFault = none) : FaultsAtPoint s i (.next u) := by
  rintro t f ⟨⟩ ht
  rw [hu] at ht
  cases ht

theorem faultsAtPoint_ite {c : Prop} [Decidable c] (h : FaultsAtPoint s i o) (h' : FaultsAtPoint s i o') :
    FaultsAtPoint s i (if c then o else o') := by
  split
  · exact h
  · exact h'

section
variable (hs : s.sysFault = none)
include hs

/-- The result of an operation that raises nothing. -/
theorem faultsAtPoint_reply (r : Reply) : FaultsAtPoint s i (.next (s.reply r)) := faultsAtPoint_of_ready hs

theorem faultsAtPoint_raise {f : FaultCode} (h : FaultPoint s i f u) : FaultsAtPoint s i (.next (u.raise f)) := by
  rintro t g ⟨⟩ ht
  rw [State.raise_sysFault, h.sysFault, hs] at ht
  cases ht
  exact ⟨u, h, rfl⟩

/-- The gate raises at the state before the operation, so an operation raises where its rule does. -/
theorem faultsAtPoint_execute {α : Type} {operands : Option α} {rule : α → StepOutcome}
    (hrule : ∀ a, operands = some a → FaultsAtPoint s i (rule a)) : FaultsAtPoint s i (execute s operands rule) := by
  cases operands with
  | none => rw [execute_of_none rule hs]; exact faultsAtPoint_raise hs (.dispatch s i)
  | some a => rw [execute_of_some a rule hs]; exact hrule a rfl

/-! ### The operations that write before they raise -/

/-- `PRNG.NEXT_INT` has drawn when it overflows, and has not drawn before its range check (40_prng.md R136). -/
theorem prngNextInt_faultsAtPoint : FaultsAtPoint s .prngNextInt (exec .prngNextInt s) := by
  refine faultsAtPoint_execute hs fun r _ => ?_
  split
  · exact faultsAtPoint_raise hs (.before (by simp [WritesBeforeFault]))
  next p hp =>
  refine faultsAtPoint_ite (faultsAtPoint_raise hs (.before (by simp [WritesBeforeFault]))) (faultsAtPoint_ite ?_ ?_)
  · exact faultsAtPoint_of_ready hs
  · exact faultsAtPoint_raise hs (.drawn hp)

/-- `SMP.NEXT` has drawn twice when its index is out of range (41_sampler.md R153). -/
theorem smpNext_faultsAtPoint : FaultsAtPoint s .smpNext (exec .smpNext s) := by
  refine faultsAtPoint_execute hs fun _ _ => ?_
  split
  · exact faultsAtPoint_raise hs (.before (by simp [WritesBeforeFault]))
  split
  · exact faultsAtPoint_raise hs (.before (by simp [WritesBeforeFault]))
  next p hp =>
  split
  · next f hsample =>
    obtain ⟨rfl, -⟩ := sampleOfDraws_eq_error hsample
    exact faultsAtPoint_raise hs (.drawnTwice hp)
  · exact faultsAtPoint_of_ready hs

/-- `ENC.NEXT_PART` has advanced its counter when the chooser fails (43_encoder.md R183). -/
theorem encNextPart_faultsAtPoint : FaultsAtPoint s .encNextPart (exec .encNextPart s) := by
  refine faultsAtPoint_execute hs fun _ _ => ?_
  split
  · exact faultsAtPoint_raise hs (.before (by simp [WritesBeforeFault]))
  next e he =>
  refine faultsAtPoint_ite (faultsAtPoint_raise hs (.advanced he (by decide))) ?_
  split
  · next f hchoose => exact faultsAtPoint_raise hs (.advanced he (choose_error_ne hchoose))
  · exact faultsAtPoint_of_ready hs

/-- `fail_with` ends in an error, not in a fault (44_decoder.md R202). -/
theorem faultsAtPoint_failWith (e : CapacityError) : FaultsAtPoint s i (s.failWith e) := faultsAtPoint_of_ready hs

/-- From a state that holds the assembly, a receive raises the chooser's fault only (44_decoder.md R204). -/
theorem faultsAtPoint_receiveInto {a : Assembly} {p : Part} (hu : u.sysFault = none)
    (hpoint : ∀ f, f ≠ .illegalCommand → FaultPoint s .decReceive f u) :
    FaultsAtPoint s .decReceive (receiveInto u a p) := by
  intro t f h ht
  obtain ⟨g, hchoose, rfl⟩ | ⟨e, he⟩ | ⟨_, _, _, _, -, -, -, rfl⟩ := receiveInto_next_cases h
  · obtain ⟨-, hg⟩ := choose_error_ne hchoose
    exact faultsAtPoint_raise hs (hpoint g hg) _ f rfl ht
  · cases he
    exact nomatch hu.symm.trans ht
  · exact nomatch hu.symm.trans ht

/-- `DEC.RECEIVE` has founded the assembly of a first part when the chooser fails (44_decoder.md R202). -/
theorem decReceive_faultsAtPoint : FaultsAtPoint s .decReceive (exec .decReceive s) := by
  refine faultsAtPoint_execute hs fun p hread => ?_
  split
  · exact faultsAtPoint_reply hs _
  · exact faultsAtPoint_reply hs _
  · next hempty =>
    refine faultsAtPoint_ite (faultsAtPoint_reply hs _) ?_
    split
    · exact faultsAtPoint_failWith hs _
    · next a hfirst => exact faultsAtPoint_receiveInto hs hs fun _ => .founded hempty hread hfirst
  · next a hacc =>
    refine faultsAtPoint_ite (faultsAtPoint_reply hs _) (faultsAtPoint_ite ?_ (faultsAtPoint_reply hs _))
    exact faultsAtPoint_receiveInto hs hs fun _ _ => .before (by simp [WritesBeforeFault, hacc])

/-! ### The operations that only raise -/

/-- An operation that the rule does not list ends each branch of its rule by an answer or by a fault at the state before
it. -/
theorem unlisted_faultsAtPoint (hi : i ∉ [Instr.prngNextInt, .smpNext, .encNextPart, .decReceive]) :
    FaultsAtPoint s i (exec i s) := by
  have hraise : ∀ f, FaultsAtPoint s i (.next (s.raise f)) := fun f => faultsAtPoint_raise hs (.of_unlisted hi s f)
  cases i with
  | prngNextInt | smpNext | encNextPart | decReceive => exact absurd hi (by decide)
  | sysReset => exact faultsAtPoint_of_ready rfl
  | sysStatus => exact faultsAtPoint_reply hs _
  | prngSeedBytes | prngSeedStr | prngSeedDigest | decIsComplete | decClear | bwdEncodeStandard | bwdEncodeUri
  | bwdEncodeMinimal => exact faultsAtPoint_execute hs fun _ _ => faultsAtPoint_of_ready hs
  | prngNext | prngNextDouble | smpSetup | encSeqCount | encIsComplete =>
    refine faultsAtPoint_execute hs fun _ _ => ?_
    split
    · exact hraise _
    · exact faultsAtPoint_of_ready hs
  | decPercent | bwdDecodeStandard | bwdDecodeUri | bwdDecodeMinimal =>
    refine faultsAtPoint_execute hs fun _ _ => ?_
    split <;> exact faultsAtPoint_reply hs _
  | chsChoose =>
    refine faultsAtPoint_execute hs fun _ _ => faultsAtPoint_ite (hraise _) (faultsAtPoint_ite (hraise _) ?_)
    split
    · exact hraise _
    · exact faultsAtPoint_reply hs _
  | encStart =>
    exact faultsAtPoint_execute hs fun _ _ => faultsAtPoint_ite (hraise _) (faultsAtPoint_ite (hraise _)
      (faultsAtPoint_ite (hraise _) (faultsAtPoint_ite (hraise _) (faultsAtPoint_of_ready hs))))
  | decMessage =>
    refine faultsAtPoint_execute hs fun _ _ => ?_
    split
    · exact faultsAtPoint_reply hs _
    · exact faultsAtPoint_reply hs _
    · exact faultsAtPoint_reply hs _
    · exact faultsAtPoint_ite (hraise _) (faultsAtPoint_ite (faultsAtPoint_reply hs _) (faultsAtPoint_reply hs _))

/-- Every operation on a ready block raises its faults at a fault point. -/
theorem exec_faultsAtPoint (i : Instr) : FaultsAtPoint s i (exec i s) := by
  by_cases hi : i ∈ [Instr.prngNextInt, .smpNext, .encNextPart, .decReceive]
  · simp only [List.mem_cons, List.not_mem_nil, or_false] at hi
    obtain rfl | rfl | rfl | rfl := hi
    · exact prngNextInt_faultsAtPoint hs
    · exact smpNext_faultsAtPoint hs
    · exact encNextPart_faultsAtPoint hs
    · exact decReceive_faultsAtPoint hs
  · exact unlisted_faultsAtPoint hs hi

end

end

/-- Settles O5: the state is the fault point with the register and the result written, and each kind of fault point is
one line of the list of 60_exceptions.md R346. -/
theorem faultsArePrecise : Obligations.FaultsArePrecise := by
  intro s t i f hs h ht
  obtain ⟨u, hpoint, rfl⟩ := exec_faultsAtPoint hs i t f h ht
  cases hpoint with
  | before hnone =>
    simp only [WritesBeforeFault, not_or] at hnone
    obtain ⟨hint, hsample, hpart, hreceive⟩ := hnone
    simp [hint, hsample, hpart, hreceive]
  | drawn hp => simpa using ⟨_, hp, rfl⟩
  | drawnTwice hp => simpa using ⟨_, hp, rfl⟩
  | advanced he hf => simpa [hf] using ⟨_, he, rfl⟩
  | founded hdec hread hfirst hf =>
    obtain ⟨-, -, -, -, rfl⟩ := firstAssembly_eq_ok hfirst
    simpa [hdec, hf] using ⟨_, hread, rfl, rfl⟩

end Sys2Proof.Machine
